-- ==== Sys2Proof/Word.lean ====
section
/-! DEFINITION. The plainest words of the part: a byte, and a sample on the 24-bit scale
(00_scope.md section 5.2). Samples, levels, gains and counts are numbers, not bit patterns;
masks and sets that a payload carries bit by bit are bit vectors. -/

namespace Sys2Proof

/-- One byte of a message, a ring frame or a flash device. -/
abbrev Byte := BitVec 8

/-- A sample: an exact integer; the rules state where it is limited to 24 bits. -/
abbrev Sample := Int

end Sys2Proof
end

