-- ==== Sys2Proof/Syntax.lean ====
section
/-! DEFINITION. The records of the part's tables (00_scope.md section 5.7) and the commands of
spec/opcode_table.json, one constructor of `Instr` per row. The table gives no operands; the
operands here are what the row's rule needs from outside (INVENTORY.md, Instructions). -/

namespace Sys2Proof

/-! ### References and small enumerations -/

/-- A level reference (R1, Table 1-1): a kind and one or two indices. -/
inductive LevelRef where
  | crosspoint (input mix : Nat)
  | master (mix : Nat)
  | trim (input : Nat)
  | fader (voice : Nat)
  | zoneProgramme (zone : Nat)
  | duck (zone : Nat)
deriving DecidableEq, Repr

/-- Source of an input channel (R18) and origin of a page source (R136). -/
inductive Source where
  | none
  | slot (s : Nat)
  | voice (j : Nat)
deriving DecidableEq, Repr

/-- Role of a mix (R21). -/
inductive Role where
  | foldback
  | programme
deriving DecidableEq, Repr

/-- Modes of a recall (R42, Table 3-1). -/
inductive RecallMode where
  | replace
  | keepHigher
  | keepLower
  | trim
deriving DecidableEq, Repr

/-- Modes of a timer (R71). -/
inductive TimerMode where
  | single
  | continuous
  | retrigger
deriving DecidableEq, Repr

/-- What a LIGHT action or LIGHT_SET names (R174): ACKED cannot be named. -/
inductive LightCmd where
  | off
  | standby
  | go
deriving DecidableEq, Repr

/-- Sample format of a segment (R85). -/
inductive Format where
  | s16
  | s24
deriving DecidableEq, Repr

/-! ### Cues -/

/-- An action of a cue, with the fields of Table 4-1 (R50). -/
inductive Action where
  | start (voice head code : Nat) (sync : Bool)
  | stop (voice ms : Nat)
  | release (voice : Nat)
  | fade (ref : LevelRef) (code ms : Nat)
  | recall (scene : Nat) (mode : RecallMode) (mixes : BitVec 24) (ms : Nat)
  | restore (ms : Nat)
  | page (source : Nat) (on : Bool)
  | pagePlay (source voice head : Nat)
  | light (light : Nat) (cmd : LightCmd)
  | timer (id : Nat) (mode : TimerMode) (period target : Nat)
  | timerCancel (id : Nat)
  | stopAll
deriving DecidableEq, Repr

/-- A cue record (R49). An empty label is no label; `follow` is the FOLLOW wait or none. -/
structure Cue where
  num     : Nat
  label   : List Byte
  enabled : Bool
  prewait : Nat
  follow  : Option Nat
  actions : List Action
deriving DecidableEq, Repr

/-! ### The other tables -/

/-- A segment record (R85). `next = none` is END; `loops = 255` is a vamp. -/
structure Segment where
  device : Nat
  addr   : Nat
  len    : Nat
  format : Format
  loops  : Nat
  next   : Option Nat
deriving DecidableEq, Repr

/-- A foldback scene (R37): its sets, and its codes in the order of R39 (crosspoint codes by mix
then input, then master codes by mix). -/
structure Scene where
  mixes   : BitVec 24
  inputs  : BitVec 40
  masters : BitVec 24
  codes   : List Nat
deriving DecidableEq, Repr

/-- An input channel record (R18); its trim is a level record. -/
structure InputRec where
  source : Source
  invert : Bool
  mute   : Bool
deriving DecidableEq, Repr

/-- A mix record (R21); its master and crosspoints are level records. -/
structure MixRec where
  role    : Role
  slot    : Option Nat
  dim     : Bool
  ceiling : Nat
deriving DecidableEq, Repr

/-- The configuration parts of a zone (R133); its levels are level records. -/
structure ZoneRec where
  prog    : Option Nat
  accept  : BitVec 8
  depth   : Nat
  attack  : Nat
  hold    : Nat
  release : Nat
  slot    : Option Nat
deriving DecidableEq, Repr

/-- The configuration parts of a page source (R136). -/
structure PageRec where
  origin : Source
  gain   : Nat
  zones  : BitVec 16
deriving DecidableEq, Repr

/-- The class order (classes A to D are 0 to 3) and, per class, whether the odd member leads (R137). -/
structure PageOrder where
  order    : List Nat
  oddLeads : List Bool
deriving DecidableEq, Repr

/-- The configuration of a cue light (R170). -/
structure LightRec where
  auto   : Bool
  goHold : Nat
deriving DecidableEq, Repr

/-- A flash profile (R111, Table 7-1). -/
structure Profile where
  size       : Nat
  readInstr  : Byte
  addrBytes  : Nat
  modeByte   : Option Byte
  dummy      : Nat
  instrLanes : Nat
  addrLanes  : Nat
  dataLanes  : Nat
  writeEnable : Byte
  program    : Byte
  erase      : Byte
  sector     : Nat
  statusRead : Byte
  busyBit    : Nat
  busyWhen   : Bool
  reset1     : Byte
  reset2     : Byte
  pollMs     : Nat
  pollLimit  : Nat
deriving DecidableEq, Repr

/-- Every setting of the part (R195). `reports` has bit k for the report kind of value F0h + k. -/
structure Settings where
  dimDepth   : Nat
  guardMs    : Nat
  stopFadeMs : Nat
  stopSource : Option Nat
  bindings   : List (Option Nat)
  blinkMs    : Nat
  reports    : BitVec 16
  node       : Nat
deriving DecidableEq, Repr

/-- The four lock flags (R158). -/
structure Locks where
  cues     : Bool
  foldback : Bool
  relay    : Bool
  routing  : Bool
deriving DecidableEq, Repr

/-- Every table of the part (00_scope.md section 5.7, R127), but for the level codes, which the
level store holds. -/
structure Tables where
  settings : Settings
  locks    : Locks
  profiles : List Profile
  law      : List Nat
  inputs   : List InputRec
  mixes    : List MixRec
  scenes   : List Scene
  zones    : List ZoneRec
  pages    : List PageRec
  order    : PageOrder
  lights   : List LightRec
  segments : List (Option Segment)
  cues     : List Cue
deriving DecidableEq, Repr

/-- What a show image's body holds (R127): the tables, and the code of every level record other
than a duck attenuation, in level order. -/
structure Image where
  tables : Tables
  codes  : List Nat
deriving DecidableEq, Repr

/-! ### The commands -/

/-- A control message as the ring port hands it on (R190), without its kind: the source node, the
tag and the payload. -/
structure Msg where
  src     : Byte
  tag     : Byte
  payload : List Byte
deriving DecidableEq, Repr

/-- What arrives with a frame: its bytes, and the lines the stage signal unit samples on it (R167).
A bit of `keys` (GO, TALK, SHOW STOP, page keys 0 to 3) or `acks` is set where the line is active.
`hold` says how the part's own events that fall due on this frame are taken (log entry 1): left for
their own commands, or all inside this step. -/
structure FrameIn where
  bytes : List Byte
  keys  : BitVec 7
  acks  : BitVec 8
  hold  : Bool
deriving DecidableEq, Repr

/-- The commands: one constructor per row of spec/opcode_table.json, in its order. IMAGE_LOAD_END has no fields
(R131): its operand has one value and says nothing. -/
inductive Instr where
  | powerOn (straps : Byte)
  | imageLoadEnd (nothing : Unit)
  | frameArrival (f : FrameIn)
  | voiceStarved (voice : Nat)
  | reassemblyTimeout (source : Nat)
  | ringLoss
  | fadeComplete (ref : LevelRef)
  | guardWindowClose
  | prewaitExpiry
  | followExpiry
  | timerExpiry
  | holdExpiry (zone : Nat)
  | goHoldEnd (light : Nat)
  | goKeyPress
  | talkKeyChange (down : Bool)
  | showStopKeyPress
  | pageKeyPress (key : Nat)
  | pageKeyRelease (key : Nat)
  | acknowledge (light : Nat)
  | fetchComplete
  | flashCommandComplete
  | pollDue
  | pollComplete (status : Byte)
  | saveStepDue
  | contentReadComplete
  | resetCommandComplete
  | messageNotRequest (kind : Byte) (m : Msg)
  | unknownKind (kind : Byte) (m : Msg)
  | setLevel (m : Msg)
  | fadeLevel (m : Msg)
  | loadLaw (m : Msg)
  | loadInput (m : Msg)
  | loadMix (m : Msg)
  | talkSet (m : Msg)
  | readMeters (m : Msg)
  | loadScene (m : Msg)
  | recall (m : Msg)
  | restore (m : Msg)
  | loadCue (m : Msg)
  | deleteCue (m : Msg)
  | clearCues (m : Msg)
  | go (m : Msg)
  | goTo (m : Msg)
  | setStandby (m : Msg)
  | readCue (m : Msg)
  | readWaits (m : Msg)
  | loadSegment (m : Msg)
  | voiceStart (m : Msg)
  | voiceStop (m : Msg)
  | voiceRelease (m : Msg)
  | readVoice (m : Msg)
  | loadProfile (m : Msg)
  | flashErase (m : Msg)
  | flashWrite (m : Msg)
  | flashRead (m : Msg)
  | flashReset (m : Msg)
  | saveShow (m : Msg)
  | loadZone (m : Msg)
  | loadPageSource (m : Msg)
  | loadPageOrder (m : Msg)
  | pagingSet (m : Msg)
  | pageOn (m : Msg)
  | pageOff (m : Msg)
  | readZone (m : Msg)
  | setShowState (m : Msg)
  | setLocks (m : Msg)
  | showStop (m : Msg)
  | showResume (m : Msg)
  | loadLight (m : Msg)
  | lightSet (m : Msg)
  | loadSettings (m : Msg)
  | readStatus (m : Msg)
  | restart (m : Msg)
  | restartCarriedOut
  | writeEnableComplete
deriving DecidableEq, Repr

end Sys2Proof
end

