-- ==== Sys2Proof/Config.lean ====
section
/-! DEFINITION. What the spec leaves to the part or leaves open: free values, without a body, so
that nothing can be proved of the value one of them takes. -/

namespace Sys2Proof

/-- FREE VALUE (log entry 9): the byte that byte `k` of an image body is written under, in the layout R127
calls "internal to the part". -/
opaque Config.imagePad : Nat → BitVec 8

/-- FREE VALUE (log entry 9): the bytes an image body holds behind its tables. -/
opaque Config.imageFill : Image → List (BitVec 8)

/-- FREE VALUE (log entry 8): what address `a` holds after the `n`-th flash command that a fault or a
loss of power cut short (R121: "whatever it holds"). -/
opaque Config.freeByte : Nat → Nat → BitVec 8

/-- FREE VALUE (log entry 10): the sync-group tag the cue engine would give when the tags of the
list are in use (R67, R207). -/
opaque Config.syncTag : List Nat → Nat

/-- FREE VALUE (log entry 11): the pass and offset bytes READ_VOICE sends for a cursor at END, when
`n` frames have been taken and voice `v` is read (R207 gives only the segment). -/
opaque Config.endCursor : Nat → Nat → BitVec 40

end Sys2Proof
end

