-- ==== Sys2Proof/Machine/Defaults.lean ====
section
/-! DEFINITION. The default tables: what every table holds when no image was accepted (R131), and,
in this model, while the image is still being read (log entry 4). -/

namespace Sys2Proof.Machine

open Sys2Proof

/-- Entries 0 to 63 of the factory law (R11). -/
def factoryLaw0 : List Nat :=
  [0, 2, 2, 2, 2, 2, 2, 3,
   3, 3, 3, 3, 4, 4, 4, 4,
   4, 5, 5, 5, 6, 6, 6, 7,
   7, 7, 8, 8, 9, 9, 10, 10,
   11, 12, 12, 13, 14, 15, 16, 17,
   18, 19, 20, 21, 22, 23, 25, 26,
   28, 30, 31, 33, 35, 37, 39, 42,
   44, 47, 50, 53, 56, 59, 62, 66]

/-- Entries 64 to 127 of the factory law (R11). -/
def factoryLaw1 : List Nat :=
  [70, 74, 79, 83, 88, 93, 99, 105,
   111, 118, 125, 132, 140, 148, 157, 166,
   176, 186, 198, 209, 222, 235, 249, 263,
   279, 296, 313, 332, 351, 372, 394, 417,
   442, 468, 496, 526, 557, 590, 625, 662,
   701, 742, 786, 833, 882, 935, 990, 1049,
   1111, 1177, 1246, 1320, 1398, 1481, 1569, 1662,
   1760, 1865, 1975, 2092, 2216, 2347, 2487, 2634]

/-- Entries 128 to 191 of the factory law (R11). -/
def factoryLaw2 : List Nat :=
  [2790, 2955, 3130, 3316, 3512, 3720, 3941, 4174,
   4422, 4684, 4961, 5255, 5567, 5897, 6246, 6616,
   7008, 7423, 7863, 8329, 8823, 9345, 9899, 10486,
   11107, 11765, 12462, 13201, 13983, 14812, 15689, 16619,
   17604, 18647, 19751, 20922, 22162, 23475, 24866, 26339,
   27900, 29553, 31304, 33159, 35124, 37205, 39409, 41745,
   44218, 46838, 49614, 52553, 55667, 58966, 62460, 66161,
   70081, 74233, 78632, 83291, 88227, 93454, 98992, 104858]

/-- Entries 192 to 255 of the factory law (R11). -/
def factoryLaw3 : List Nat :=
  [111071, 117652, 124623, 132008, 139830, 148115, 156892, 166188,
   176035, 186466, 197515, 209218, 221615, 234747, 248657, 263390,
   278997, 295529, 313040, 331589, 351237, 372049, 394094, 417446,
   442181, 468382, 496135, 525533, 556673, 589658, 624597, 661607,
   700809, 742335, 786321, 832914, 882267, 934544, 989920, 1048576,
   1110708, 1176522, 1246235, 1320079, 1398299, 1481153, 1568917, 1661881,
   1760354, 1864661, 1975149, 2092184, 2216154, 2347469, 2486566, 2633904,
   2789972, 2955289, 3130401, 3315888, 3512367, 3720488, 3940941, 4174456]

/-- The factory law (R11): law[0] = 0 and law[c] = round(2^20 × 10^((c − 231)/40)). -/
def factoryLaw : List Nat := factoryLaw0 ++ factoryLaw1 ++ factoryLaw2 ++ factoryLaw3

/-- The profile after power-on (Table 7-1). -/
def Profile.default : Profile :=
  { size := 16777216, readInstr := 0x03, addrBytes := 3, modeByte := none, dummy := 0
    instrLanes := 1, addrLanes := 1, dataLanes := 1, writeEnable := 0x06, program := 0x02
    erase := 0xD8, sector := 65536, statusRead := 0x05, busyBit := 0, busyWhen := true
    reset1 := 0x66, reset2 := 0x99, pollMs := 1, pollLimit := 5000 }

/-- The settings without an image (R195). -/
def Settings.default : Settings :=
  { dimDepth := 20, guardMs := 500, stopFadeMs := 1000, stopSource := none
    bindings := [none, none, none, none], blinkMs := 500, reports := 0x1FFF, node := 255 }

/-- An empty scene (R37). -/
def Scene.empty : Scene := { mixes := 0, inputs := 0, masters := 0, codes := [] }

/-- The default input channel record (R18). -/
def InputRec.default : InputRec := { source := .none, invert := false, mute := false }

/-- The default mix record (R21). -/
def MixRec.default : MixRec := { role := .programme, slot := none, dim := false, ceiling := 8388607 }

/-- The default zone configuration (R133). -/
def ZoneRec.default : ZoneRec :=
  { prog := none, accept := 0xFF, depth := 40, attack := 50, hold := 1000, release := 2000, slot := none }

/-- The default page source configuration (R136). -/
def PageRec.default : PageRec := { origin := .none, gain := 231, zones := 0 }

/-- The default cue light configuration (R170). -/
def LightRec.default : LightRec := { auto := false, goHold := 2000 }

/-- Every table at its default; all four lock flags are set (R131, R158). -/
def Tables.default : Tables :=
  { settings := Settings.default
    locks := { cues := true, foldback := true, relay := true, routing := true }
    profiles := [Profile.default, Profile.default]
    law := factoryLaw
    inputs := List.replicate 40 InputRec.default
    mixes := List.replicate 24 MixRec.default
    scenes := List.replicate 32 Scene.empty
    zones := List.replicate 16 ZoneRec.default
    pages := List.replicate 8 PageRec.default
    order := { order := [0, 1, 2, 3], oddLeads := [false, false, false, false] }
    lights := List.replicate 8 LightRec.default
    segments := List.replicate 1024 none
    cues := [] }

end Sys2Proof.Machine
end

