-- ==== Sys2Proof/Machine/State.lean ====
section
/-! DEFINITION. The state of the part: its tables (in Sys2Proof/Syntax.lean), its runtime state block
by block (00_scope.md section 3), the contents of its two flash devices, and the queue of commands.
INVENTORY.md lists every piece with its rule and its reset value. Frames are numbered by how many
the port has taken since power-on (log entry 18); an expiry is such a number. -/

namespace Sys2Proof.Machine

open Sys2Proof

/-! ### Level store (chapter 1) -/

/-- A running fade (R1, R5): `k` frames of `dur` have passed. -/
structure Fade where
  start  : Nat
  target : Nat
  dur    : Nat
  k      : Nat
deriving DecidableEq, Repr

/-- A level record (R1): its fine value, and a fade or none. -/
structure Level where
  fine : Nat
  fade : Option Fade
deriving DecidableEq, Repr

/-- The 1,072 level records by kind (Table 1-1); crosspoint (i, m) is entry 40 × m + i, level order. -/
structure Levels where
  crosspoints : List Level
  masters     : List Level
  trims       : List Level
  faders      : List Level
  programmes  : List Level
  ducks       : List Level
deriving DecidableEq, Repr

/-! ### Mix engine (chapter 2) -/

/-- Talk (R29), meters (R25) and the value last formed for each mix (R26). -/
structure MixRt where
  talkKey   : Bool
  talkLatch : Bool
  peaks     : List Nat
  clips     : List Bool
  y         : List Sample
deriving DecidableEq, Repr

/-! ### Cue engine and wait list (chapters 4 and 5) -/

/-- Position (R54), kept standby (R55), engine state (R60), guard window (R61). `fresh` holds until the
first recomputation after power-on or RESTART; `building` is the tag of the sync group whose list is
running (R67). -/
structure CueRt where
  pos      : Nat
  kept     : Option Cue
  fresh    : Bool
  held     : Bool
  guardEnd : Option Nat
  building : Option Nat
deriving DecidableEq, Repr

/-- Kind and key of a wait entry, with a timer's mode, period in milliseconds and target (R71). -/
inductive WaitKind where
  | prewait (cue : Nat)
  | follow (cue : Nat)
  | timer (id : Nat) (mode : TimerMode) (period target : Nat)
deriving DecidableEq, Repr

/-- A wait entry (R71): it expires on the arrival of frame `expiry`. -/
structure Wait where
  what   : WaitKind
  expiry : Nat
deriving DecidableEq, Repr

/-! ### Voice bank (chapter 6) -/

/-- Voice states (R87). -/
inductive VState where
  | idle
  | priming
  | primed
  | playing
  | stopping
deriving DecidableEq, Repr

/-- Reasons of a VOICE report, and stop reasons (Table 6-4). -/
inductive VReason where
  | ended
  | stopped
  | starved
  | stolen
  | stopAll
  | showStop
  | deviceFault
  | noSegment
deriving DecidableEq, Repr

/-- A start identity (R87): none, a START action or a PAGE_PLAY action with its cue and place. -/
inductive Ident where
  | none
  | start (cue place : Nat)
  | play (cue place : Nat)
deriving DecidableEq, Repr

/-- A place in a chain (R88): segment, pass and offset within the pass. -/
structure Cursor where
  seg  : Nat
  pass : Nat
  off  : Nat
deriving DecidableEq, Repr

/-- A buffered sample with where it was read from (R87). -/
structure BufSample where
  value : Sample
  dev   : Nat
  src   : Cursor
deriving DecidableEq, Repr

/-- A voice record (R87). A cursor of none is END; `primeId` is a cue number and action place. -/
structure Voice where
  state    : VState
  cursor   : Option Cursor
  buffer   : List BufSample
  reserved : Nat
  waiting  : Bool
  missed   : Nat
  release  : Bool
  tag      : Option Nat
  bound    : Option Nat
  startId  : Ident
  primeId  : Option (Nat × Nat)
  stopWhy  : Option VReason
deriving DecidableEq, Repr

/-! ### Flash controller (chapter 7) -/

/-- A refill request (R115), with the chain place of its first sample. -/
structure Fetch where
  voice  : Nat
  dev    : Nat
  addr   : Nat
  format : Format
  count  : Nat
  src    : Cursor
deriving DecidableEq, Repr

/-- An erase or program command (R113): erase the `len` bytes of a sector, or program bytes. -/
inductive Cmd where
  | erase (addr len : Nat)
  | program (addr : Nat) (data : List Byte)
deriving DecidableEq, Repr

/-- Device states (R114); a WORKING device works on a command. -/
inductive DevState where
  | ready
  | working (c : Cmd)
  | faulted
deriving DecidableEq, Repr

/-- What a transfer sends and receives on the bus (R113): the instruction and its lanes, the address
bytes (most significant first) and their lanes, the mode byte, dummy clocks, data sent on one lane, and
how many bytes come back on how many lanes. -/
structure BusSeq where
  dev       : Nat
  instr     : Byte
  instrLanes : Nat
  addr      : List Byte
  addrLanes : Nat
  mode      : Option Byte
  dummy     : Nat
  out       : List Byte
  inLanes   : Nat
  inBytes   : Nat
deriving DecidableEq, Repr

/-- What the transfer on the bus is for (R110): the image load reads the header and then the body (R131).
`live` is false once its operation was abandoned by a RESTART (R126); `discard` marks a fetch whose samples
will be dropped (R92). -/
inductive XferKind where
  | imageHeader
  | imageBody (len : Nat)
  | fetch (f : Fetch) (discard : Bool)
  | contentRead (dev addr count : Nat) (live : Bool)
  | writeEnable (dev : Nat) (c : Cmd) (live : Bool)
  | command (dev : Nat) (c : Cmd)
  | poll (dev : Nat) (live : Bool)
  | reset (dev : Nat) (second live : Bool)
deriving DecidableEq, Repr

/-- The one transfer on the bus (R110). -/
structure Xfer where
  kind : XferKind
  seq  : BusSeq
deriving DecidableEq, Repr

/-- Kinds of content operation (R132), and the image load of power-on (R131). -/
inductive OpKind where
  | erase
  | write
  | read
  | reset
  | save
  | settle
  | imageLoad
deriving DecidableEq, Repr

/-- A step of a content operation that the arbiter starts (R117). -/
inductive StepKind where
  | command
  | read (addr count : Nat)
  | reset1
  | reset2
  | poll
deriving DecidableEq, Repr

/-- What a content operation waits for: the bus (`due`), its transfer (`running`), the frame on which
its next poll (R120) or save step (R130) becomes due, or, in a settle, a command still on the bus (R126). -/
inductive OpStep where
  | due (k : StepKind)
  | running
  | pollAt (frame : Nat)
  | stepAt (frame : Nat)
  | settleWait
deriving DecidableEq, Repr

/-- The content engine's operation (R119). `cmds` are the commands not yet finished, the current one
first; `reply` is the data an OK answer will carry. -/
structure Op where
  kind      : OpKind
  dev       : Nat
  cmds      : List Cmd
  step      : OpStep
  pollMs    : Nat
  pollLimit : Nat
  polls     : Nat
  reply     : List Byte
deriving DecidableEq, Repr

/-- Why an image was not accepted (Table 7-5). -/
inductive ImageFail where
  | noImage
  | version
  | length
  | crc
  | content
deriving DecidableEq, Repr

/-- The flash controller (R110 to R132); `imageReport` is an IMAGE report still to be given (R131): none,
or the result (`some none` is LOADED). -/
structure FlashRt where
  devs        : List DevState
  queue       : List Fetch
  line        : List Nat
  bus         : Option Xfer
  op          : Option Op
  imageReport : Option (Option ImageFail)
deriving DecidableEq, Repr

/-! ### Relay and page engine (chapter 8) -/

/-- Zone states (R133). -/
inductive ZState where
  | programme
  | ducked
  | hold
  | release
deriving DecidableEq, Repr

/-- The runtime parts of a zone (R133). -/
structure ZoneRt where
  state   : ZState
  holdEnd : Option Nat
  onAir   : Option Nat
deriving DecidableEq, Repr

/-- The runtime parts of a page source (R136). -/
structure SrcRt where
  requested : Bool
  bound     : Option Nat
deriving DecidableEq, Repr

/-- The page engine. `zoneTerm`, `pageTerm` and `air` hold the output last formed for each zone: its
programme term, the page term each source would add, and the on-air source that counts for that frame
(R134, R135; log entry 27). -/
structure PageRt where
  zones    : List ZoneRt
  srcs     : List SrcRt
  enabled  : Bool
  mask     : BitVec 8
  stopPage : Option Nat
  zoneTerm : List Sample
  pageTerm : List Sample
  air      : List (Option Nat)
deriving DecidableEq, Repr

/-! ### Show control (chapter 9) and stage signal unit (chapter 10) -/

/-- Show state (R155) and stopped flag (R162). -/
structure ShowRt where
  inShow  : Bool
  stopped : Bool
deriving DecidableEq, Repr

/-- A debouncer (R167). -/
structure Debounce where
  pressed : Bool
  count   : Nat
deriving DecidableEq, Repr

/-- A debounced change taken on the last frame and not yet handed on (R168, R169, R172). -/
inductive KeyEvent where
  | goPress
  | talk (down : Bool)
  | stopPress
  | pagePress (key : Nat)
  | pageRelease (key : Nat)
  | ack (light : Nat)
deriving DecidableEq, Repr

/-- Cue light states (Table 10-2). -/
inductive LState where
  | off
  | standby
  | go
  | acked
deriving DecidableEq, Repr

/-- The runtime parts of a cue light (R170). -/
structure LightRt where
  state  : LState
  goEnd  : Option Nat
deriving DecidableEq, Repr

/-- The stage signal unit. `blinkStart` says that the next frame taken is frame 0 of the blink phase
(R171), `lit` whether the
last frame lay in its lit half; `lamps` are the (red, green) outputs. -/
structure StageRt where
  keys       : List Debounce
  acks       : List Debounce
  due        : List KeyEvent
  pressedSrc : List (Option Nat)
  lights     : List LightRt
  blink      : Nat
  blinkStart : Bool
  lit        : Bool
  standby    : Option Nat
  warned     : List Nat
  lamps      : List (Bool × Bool)
deriving DecidableEq, Repr

/-! ### Ring port (chapter 11) -/

/-- An open slot of the reassembly table (R186): its source, its bytes, and of the last fragment taken into it the
frame counter and the frame's number (log entry 18), which the timeout counts from. -/
structure Reasm where
  src     : Nat
  bytes   : List Byte
  counter : Nat
  last    : Nat
deriving DecidableEq, Repr

/-- What is being sent (R188): the reply in a place (by its position), or the oldest report. -/
inductive SendItem where
  | reply (place : Nat)
  | report
deriving DecidableEq, Repr

/-- The message in progress and how many of its fragments have gone out (R188). -/
structure Sending where
  item : SendItem
  sent : Nat
deriving DecidableEq, Repr

/-- The ring port. `now` numbers the last frame taken, `counter` is its 16-bit frame counter (R178). -/
structure Port where
  active  : Bool
  node    : Nat
  now     : Nat
  counter : Nat
  capture : Option (List Sample)
  reasm   : List Reasm
  sending : Option Sending
  ringOut : Option (List Byte)
deriving DecidableEq, Repr

/-! ### Control block (chapter 12) -/

/-- Status codes (Table 12-2), in order. -/
inductive Status where
  | ok
  | adjusted
  | badLength
  | badField
  | unknownKind
  | locked
  | busy
  | full
  | notFound
  | disabled
  | held
  | guarded
  | endOfList
  | flashBusy
  | flashTimeout
  | flashFault
  | inShow
deriving DecidableEq, Repr

/-- A place of the reply queue (R191): where the reply goes, its request's kind and tag, and its status
and data once formed. -/
structure Place where
  dst    : Nat
  kind   : Nat
  tag    : Byte
  answer : Option (Status × List Byte)
deriving DecidableEq, Repr

/-- Causes of a firing (R62 to R66). -/
inductive Cause where
  | goKey
  | goRequest
  | goTo
  | follow
  | timer
deriving DecidableEq, Repr

/-- Reasons of WAIT_DROPPED (Table 5-2). -/
inductive DropWhy where
  | listFull
  | noCue
  | noTarget
deriving DecidableEq, Repr

/-- Origins of a raise (R140). -/
inductive RaiseFrom where
  | key
  | action
  | play
deriving DecidableEq, Repr

/-- Reasons of PAGE_IGNORED (Table 8-2). -/
inductive IgnoreWhy where
  | disabled
  | voiceIdle
  | origin
deriving DecidableEq, Repr

/-- Refusals of a GO (R62). -/
inductive GoRefusal where
  | held
  | guarded
  | endOfList
deriving DecidableEq, Repr

/-- Causes of a SHOW report (Table 9-4). -/
inductive ShowCause where
  | state
  | locks
  | stopKey
  | stopRequest
  | resume
deriving DecidableEq, Repr

/-- A report's kind and fields (Table 12-3). -/
inductive ReportBody where
  | cueFired (cue : Nat) (cause : Cause)
  | standby (pos : Nat) (cue : Option Nat)
  | waitDropped (what : WaitKind) (why : DropWhy)
  | voice (voice : Nat) (why : VReason) (id : Ident)
  | underrun (voice : Nat) (id : Ident)
  | zone (zone : Nat) (old new : Option Nat) (state : ZState)
  | pageIgnored (source : Nat) (origin : RaiseFrom) (why : IgnoreWhy)
  | lightAck (light : Nat) (cue : Option Nat)
  | goRefused (why : GoRefusal)
  | flashFault (dev : Nat) (op : OpKind)
  | ring (active : Bool)
  | showChange (inShow stopped : Bool) (locks : Locks) (cause : ShowCause)
  | image (fail : Option ImageFail)
deriving DecidableEq, Repr

/-- A queued report (R193): its fields, frame counter and destination; `lost` is taken when it is chosen
to be sent. -/
structure Report where
  body    : ReportBody
  counter : Nat
  dst     : Nat
  lost    : Option Bool
deriving DecidableEq, Repr

/-- The control block. -/
structure Control where
  places      : List Place
  reports     : List Report
  lossPending : Bool
  taking      : Bool
  restartDue  : Bool
deriving DecidableEq, Repr

/-! ### The whole state -/

/-- The runtime state of the part, but for the contents of flash. -/
structure Run where
  lv     : Levels
  mix    : MixRt
  latch  : List (LevelRef × Nat)
  cue    : CueRt
  waits  : List Wait
  voices : List Voice
  flash  : FlashRt
  page   : PageRt
  shw    : ShowRt
  stage  : StageRt
  port   : Port
  ctl    : Control
deriving DecidableEq, Repr

/-- The runtime state with the tables: what a request can change. -/
structure Part extends Run where
  tables : Tables
deriving DecidableEq, Repr

/-- The whole machine: the part, the contents of flash devices 0 and 1 (lists of address and byte in
canonical form, `Memory.wf`), the counter that names free flash bytes (log entry 8), and the commands
waiting, first in first out. -/
structure State extends Part where
  flash0  : List Host.Cell
  flash1  : List Host.Cell
  serial  : Nat
  pending : List Instr
deriving DecidableEq, Repr

/-- Nothing stops the part: every rule of the spec says what it does next. No constructor: no meaning
answers with a fault. -/
inductive Fault
deriving DecidableEq, Repr

/-- Why a command has no meaning. -/
inductive Refusal where
  /-- Raised by a refused arm of `exec`, for a command not modelled yet. No arm is one. Safe. -/
  | notModelled (mnemonic : String)
deriving DecidableEq, Repr

/-! ### Defaults and reset -/

/-- A level at rest at a code. -/
def Level.rest (code : Nat) : Level := { fine := 256 * code, fade := none }

/-- Level records at their default codes (Table 1-1). -/
def Levels.default : Levels :=
  { crosspoints := List.replicate 960 (Level.rest 0)
    masters     := List.replicate 24 (Level.rest 231)
    trims       := List.replicate 40 (Level.rest 231)
    faders      := List.replicate 16 (Level.rest 231)
    programmes  := List.replicate 16 (Level.rest 231)
    ducks       := List.replicate 16 (Level.rest 0) }

/-- A voice that is IDLE with nothing held (R87); its cursor at END is log entry 11. -/
def Voice.idle : Voice :=
  { state := .idle, cursor := none, buffer := [], reserved := 0, waiting := false, missed := 0,
    release := false, tag := none, bound := none, startId := .none, primeId := none, stopWhy := none }

/-- The runtime state right after power-on with a node address (R199): the ring is LOST, the queues are
empty, no request is taken, and the image load has begun (R131). -/
def Run.powerOn (node : Nat) : Run :=
  { lv := Levels.default
    mix := { talkKey := false, talkLatch := false, peaks := List.replicate 24 0
             clips := List.replicate 24 false, y := List.replicate 24 0 }
    latch := []
    cue := { pos := 0, kept := none, fresh := true, held := false, guardEnd := none, building := none }
    waits := []
    voices := List.replicate 16 Voice.idle
    flash := { devs := [.ready, .ready], queue := [], line := []
               bus := some { kind := .imageHeader
                             seq := { dev := 0, instr := 0x03, instrLanes := 1, addr := [0, 0, 0], addrLanes := 1
                                      mode := none, dummy := 0, out := [], inLanes := 1, inBytes := 16 } }
               op := some { kind := .imageLoad, dev := 0, cmds := [], step := .running
                            pollMs := 1, pollLimit := 5000, polls := 0, reply := [] }
               imageReport := none }
    page := { zones := List.replicate 16 { state := .programme, holdEnd := none, onAir := none }
              srcs := List.replicate 8 { requested := false, bound := none }
              enabled := false, mask := 0, stopPage := none
              zoneTerm := List.replicate 16 0, pageTerm := List.replicate 8 0
              air := List.replicate 16 none }
    shw := { inShow := false, stopped := false }
    stage := { keys := List.replicate 7 { pressed := false, count := 0 }
               acks := List.replicate 8 { pressed := false, count := 0 }
               due := [], pressedSrc := [none, none, none, none]
               lights := List.replicate 8 { state := .off, goEnd := none }
               blink := 0, blinkStart := true, lit := false, standby := none, warned := []
               lamps := List.replicate 8 (false, false) }
    port := { active := false, node := node, now := 0, counter := 0, capture := none, reasm := []
              sending := none, ringOut := none }
    ctl := { places := [], reports := [], lossPending := false, taking := false, restartDue := false } }

/-- The machine right after reset: the state of power-on, blank flash (log entry 6), node address 254
until POWER_ON reads the straps (log entry 5), and no command waiting. -/
def State.reset : State :=
  { toPart := { toRun := Run.powerOn 254, tables := Tables.default }
    flash0 := [], flash1 := [], serial := 0, pending := [] }

end Sys2Proof.Machine
end

