-- ==== Sys2Proof/Machine/Operands.lean ====
section
/-! DEFINITION. How bytes become the operands of a request and state becomes the bytes of a reply, a
report, a fragment or a ring frame: chapter 13, the CRCs of R128 and R178, and the request kinds of
Table 13-6 with the lengths of Table 13-7. -/

namespace Sys2Proof.Machine

open Sys2Proof

/-! ### Little-endian fields (00 section 5.5, R203) -/

/-- The byte at offset `i` as a number. -/
def u8 (p : List Byte) (i : Nat) : Nat := (p.getD i 0).toNat
/-- The two-byte field at offset `i`. -/
def u16 (p : List Byte) (i : Nat) : Nat := u8 p i + 256 * u8 p (i + 1)
/-- The three-byte field at offset `i`. -/
def u24 (p : List Byte) (i : Nat) : Nat := u16 p i + 65536 * u8 p (i + 2)
/-- The four-byte field at offset `i`. -/
def u32 (p : List Byte) (i : Nat) : Nat := u16 p i + 65536 * u16 p (i + 2)

/-- A number as one byte. -/
def byte (n : Nat) : Byte := BitVec.ofNat 8 n
/-- A number as two bytes, least significant first. -/
def le16 (n : Nat) : List Byte := [byte n, byte (n / 256)]
/-- A number as three bytes. -/
def le24 (n : Nat) : List Byte := [byte n, byte (n / 256), byte (n / 65536)]
/-- A number as four bytes. -/
def le32 (n : Nat) : List Byte := [byte n, byte (n / 256), byte (n / 65536), byte (n / 16777216)]

/-- A two's complement value of `bits` bits. -/
def signed (bits n : Nat) : Int := if n < 2 ^ (bits - 1) then n else (n : Int) - 2 ^ bits
/-- A sample as the three bytes of a ring slot (Table 13-1). -/
def sampleBytes (x : Sample) : List Byte := le24 (x % 16777216).toNat

/-- A flag byte (R209). -/
def flagByte (b : Bool) : Byte := if b then 1 else 0
/-- A number with FFh for none (R203). -/
def optByte (o : Option Nat) : Byte := byte (o.getD 255)
/-- A cue number with 0 for none (R203). -/
def optCue (o : Option Nat) : List Byte := le32 (o.getD 0)
/-- A flag field of a request: 0 or 1 (R209). -/
def flagOf (n : Nat) : Option Bool := if n = 0 then some false else if n = 1 then some true else none
/-- A field that holds an index below `bound`, or FFh for none; anything else is out of range (R203). -/
def indexOrNone (bound n : Nat) : Option (Option Nat) :=
  if n < bound then some (some n) else if n = 255 then some none else none
/-- Whether every byte from offset `i` on is 0. -/
def zerosFrom (p : List Byte) (i : Nat) : Bool := (p.drop i).all (fun b => b == 0)

/-- Every element, if each is there. -/
def allSome {α : Type} : List (Option α) → Option (List α)
  | [] => some []
  | none :: _ => none
  | some x :: rest => match allSome rest with
    | none => none
    | some xs => some (x :: xs)

/-- The members of a set given as bits, in ascending order. -/
def members {w : Nat} (n : Nat) (s : BitVec w) : List Nat := (List.range n).filter (fun i => s.getLsbD i)
/-- A set of flags as one byte or more, flag `i` in bit `i`. -/
def bitsOf (l : List Bool) : Nat := (l.zipIdx.map (fun (b, i) => if b then 2 ^ i else 0)).sum

/-! ### Checks (R128, R178, R187) -/

/-- One bit of the CRC-16: polynomial 1021h, most significant bit first. -/
def crc16Bit (c : BitVec 16) : BitVec 16 := if c.msb then (c <<< 1) ^^^ 0x1021#16 else c <<< 1
/-- One byte of the CRC-16. -/
def crc16Byte (c : BitVec 16) (b : Byte) : BitVec 16 :=
  Nat.repeat crc16Bit 8 (c ^^^ ((b.zeroExtend 16) <<< 8))
/-- The CRC-16 of R178 over bytes: starting value FFFFh, no final complement. -/
def crc16 (l : List Byte) : Nat := (l.foldl crc16Byte 0xFFFF#16).toNat

/-- One bit of the CRC-32: polynomial EDB88320h, least significant bit first. -/
def crc32Bit (c : BitVec 32) : BitVec 32 :=
  if c.getLsbD 0 then (c >>> 1) ^^^ 0xEDB88320#32 else c >>> 1
/-- One byte of the CRC-32. -/
def crc32Byte (c : BitVec 32) (b : Byte) : BitVec 32 := Nat.repeat crc32Bit 8 (c ^^^ (b.zeroExtend 32))
/-- The CRC-32 of R128: starting value FFFFFFFFh, complemented at the end. -/
def crc32 (l : List Byte) : Nat := (~~~ (l.foldl crc32Byte 0xFFFFFFFF#32)).toNat

/-! ### Values of enumerations (Table 13-10) -/

def VState.code : VState → Nat
  | .idle => 0 | .priming => 1 | .primed => 2 | .playing => 3 | .stopping => 4
def VReason.code : VReason → Nat
  | .ended => 0 | .stopped => 1 | .starved => 2 | .stolen => 3 | .stopAll => 4 | .showStop => 5
  | .deviceFault => 6 | .noSegment => 7
def timerModeCode : TimerMode → Nat
  | .single => 0 | .continuous => 1 | .retrigger => 2
def recallModeCode : RecallMode → Nat
  | .replace => 0 | .keepHigher => 1 | .keepLower => 2 | .trim => 3
def lightCmdCode : LightCmd → Nat
  | .off => 0 | .standby => 1 | .go => 2
def roleCode : Role → Nat
  | .foldback => 0 | .programme => 1
def DevState.code : DevState → Nat
  | .ready => 0 | .working _ => 1 | .faulted => 2
def OpKind.code : OpKind → Nat
  | .imageLoad => 0 | .erase => 1 | .write => 2 | .read => 3 | .reset => 4 | .save => 5 | .settle => 6
/-- The operation kind of a FLASH_FAULT report (Table 13-10); only these four poll. -/
def OpKind.faultCode : OpKind → Nat
  | .erase => 0 | .write => 1 | .save => 2 | .settle => 3 | .read => 3 | .reset => 3 | .imageLoad => 3
def ZState.code : ZState → Nat
  | .programme => 0 | .ducked => 1 | .hold => 2 | .release => 3
def LState.code : LState → Nat
  | .off => 0 | .standby => 1 | .go => 2 | .acked => 3
def Cause.code : Cause → Nat
  | .goKey => 0 | .goRequest => 1 | .goTo => 2 | .follow => 3 | .timer => 4
def DropWhy.code : DropWhy → Nat
  | .listFull => 0 | .noCue => 1 | .noTarget => 2
def RaiseFrom.code : RaiseFrom → Nat
  | .key => 0 | .action => 1 | .play => 2
def IgnoreWhy.code : IgnoreWhy → Nat
  | .disabled => 0 | .voiceIdle => 1 | .origin => 2
def GoRefusal.code : GoRefusal → Nat
  | .held => 0 | .guarded => 1 | .endOfList => 2
def ShowCause.code : ShowCause → Nat
  | .state => 0 | .locks => 1 | .stopKey => 2 | .stopRequest => 3 | .resume => 4
def ImageFail.code : ImageFail → Nat
  | .noImage => 0 | .version => 1 | .length => 2 | .crc => 3 | .content => 4
def WaitKind.code : WaitKind → Nat
  | .prewait _ => 0 | .follow _ => 1 | .timer _ _ _ _ => 2
/-- The key of a wait entry (R71): a cue number, or a timer id. -/
def WaitKind.key : WaitKind → Nat
  | .prewait c => c | .follow c => c | .timer id _ _ _ => id
def Status.code : Status → Nat
  | .ok => 0 | .adjusted => 1 | .badLength => 2 | .badField => 3 | .unknownKind => 4 | .locked => 5
  | .busy => 6 | .full => 7 | .notFound => 8 | .disabled => 9 | .held => 10 | .guarded => 11
  | .endOfList => 12 | .flashBusy => 13 | .flashTimeout => 14 | .flashFault => 15 | .inShow => 16

def timerModeOf (n : Nat) : Option TimerMode :=
  if n = 0 then some .single else if n = 1 then some .continuous else if n = 2 then some .retrigger else none
def recallModeOf (n : Nat) : Option RecallMode :=
  if n = 0 then some .replace else if n = 1 then some .keepHigher
  else if n = 2 then some .keepLower else if n = 3 then some .trim else none
def lightCmdOf (n : Nat) : Option LightCmd :=
  if n = 0 then some .off else if n = 1 then some .standby else if n = 2 then some .go else none
def roleOf (n : Nat) : Option Role :=
  if n = 0 then some .foldback else if n = 1 then some .programme else none

/-- Lock flags as one byte (Table 13-10). -/
def lockByte (l : Locks) : Byte := byte (bitsOf [l.cues, l.foldback, l.relay, l.routing])

/-! ### References, sources, identities, cursors (Table 13-3) -/

/-- The level a reference field names, or none (R1): kind, first index, second index, the second being
the input of a crosspoint and 0 for every other kind. -/
def refOf (kind a b : Nat) : Option LevelRef :=
  if kind = 0 then (if a < 24 ∧ b < 40 then some (.crosspoint b a) else none)
  else if b ≠ 0 then none
  else if kind = 1 then (if a < 24 then some (.master a) else none)
  else if kind = 2 then (if a < 40 then some (.trim a) else none)
  else if kind = 3 then (if a < 16 then some (.fader a) else none)
  else if kind = 4 then (if a < 16 then some (.zoneProgramme a) else none)
  else if kind = 5 then (if a < 16 then some (.duck a) else none)
  else none

/-- A level reference in range (Table 1-1). -/
def refOk : LevelRef → Bool
  | .crosspoint i m => i < 40 && m < 24
  | .master m => m < 24
  | .trim i => i < 40
  | .fader v => v < 16
  | .zoneProgramme z => z < 16
  | .duck z => z < 16

/-- The reference at offset `i` of a payload. -/
def refAt (p : List Byte) (i : Nat) : Option LevelRef := refOf (u8 p i) (u8 p (i + 1)) (u8 p (i + 2))

def refBytes : LevelRef → List Byte
  | .crosspoint i m => [0, byte m, byte i]
  | .master m => [1, byte m, 0]
  | .trim i => [2, byte i, 0]
  | .fader v => [3, byte v, 0]
  | .zoneProgramme z => [4, byte z, 0]
  | .duck z => [5, byte z, 0]

/-- A source or origin field pair (R32, R152): the index is 0 with NONE (log entry 15). -/
def sourceOf (kind index : Nat) : Option Source :=
  if kind = 0 then (if index = 0 then some .none else none)
  else if kind = 1 then (if index < 64 then some (.slot index) else none)
  else if kind = 2 then (if index < 16 then some (.voice index) else none)
  else none

def identBytes : Ident → List Byte
  | .none => [0] ++ le32 0 ++ [0]
  | .start c p => [1] ++ le32 c ++ [byte p]
  | .play c p => [2] ++ le32 c ++ [byte p]

/-- The prime identity in the layout of a start identity (Table 13-8). -/
def primeBytes : Option (Nat × Nat) → List Byte
  | none => identBytes .none
  | some (c, p) => identBytes (.start c p)

/-- A cursor (R207); `atEnd` are the free bytes sent after FFFFh for END (log entry 11). -/
def cursorBytes (atEnd : List Byte) : Option Cursor → List Byte
  | none => [0xFF, 0xFF] ++ atEnd
  | some c => le16 c.seg ++ le16 c.pass ++ le24 c.off

/-! ### Actions and cues (Tables 4-1, 13-4) -/

/-- The action in eight bytes, or none where its kind is unknown, a field is out of range, or a byte
beyond its fields is not 0 (R50, R51, R203). A FADE may not name a duck attenuation. -/
def actionOf (a : List Byte) : Option Action :=
  let v := u8 a 1
  match u8 a 0 with
  | 1 => match flagOf (u8 a 5) with
    | some sync => if v < 16 ∧ u16 a 2 < 1024 ∧ zerosFrom a 6 then some (.start v (u16 a 2) (u8 a 4) sync) else none
    | none => none
  | 2 => if v < 16 ∧ zerosFrom a 4 then some (.stop v (u16 a 2)) else none
  | 3 => if v < 16 ∧ zerosFrom a 2 then some (.release v) else none
  | 4 => match refAt a 1 with
    | some (.duck _) => none
    | some r => if zerosFrom a 7 then some (.fade r (u8 a 4) (u16 a 5)) else none
    | none => none
  | 5 => match recallModeOf (u8 a 2) with
    | some m => if v < 32 then some (.recall v m (BitVec.ofNat 24 (u24 a 3)) (u16 a 6)) else none
    | none => none
  | 6 => if zerosFrom a 3 then some (.restore (u16 a 1)) else none
  | 7 => match flagOf (u8 a 2) with
    | some on => if v < 8 ∧ zerosFrom a 3 then some (.page v on) else none
    | none => none
  | 8 => if v < 8 ∧ u8 a 2 < 16 ∧ u16 a 3 < 1024 ∧ zerosFrom a 5 then some (.pagePlay v (u8 a 2) (u16 a 3)) else none
  | 9 => match lightCmdOf (u8 a 2) with
    | some c => if v < 8 ∧ zerosFrom a 3 then some (.light v c) else none
    | none => none
  | 10 => match timerModeOf (u8 a 2) with
    | some m => if v < 16 ∧ 1 ≤ u16 a 3 ∧ 1 ≤ u24 a 5 ∧ u24 a 5 ≤ 99999 then some (.timer v m (u16 a 3) (u24 a 5)) else none
    | none => none
  | 11 => if v < 16 ∧ zerosFrom a 2 then some (.timerCancel v) else none
  | 12 => if zerosFrom a 1 then some .stopAll else none
  | _ => none

/-- Bytes filled up with zeros to eight. -/
def pad8 (l : List Byte) : List Byte := l ++ List.replicate (8 - l.length) 0

def actionBytes : Action → List Byte
  | .start v h c sync => pad8 ([1, byte v] ++ le16 h ++ [byte c, flagByte sync])
  | .stop v ms => pad8 ([2, byte v] ++ le16 ms)
  | .release v => pad8 [3, byte v]
  | .fade r c ms => pad8 ([4] ++ refBytes r ++ [byte c] ++ le16 ms)
  | .recall s m mask ms => pad8 ([5, byte s, byte (recallModeCode m)] ++ le24 mask.toNat ++ le16 ms)
  | .restore ms => pad8 ([6] ++ le16 ms)
  | .page s on => pad8 [7, byte s, flagByte on]
  | .pagePlay s v h => pad8 ([8, byte s, byte v] ++ le16 h)
  | .light l c => pad8 [9, byte l, byte (lightCmdCode c)]
  | .timer id m per tgt => pad8 ([10, byte id, byte (timerModeCode m)] ++ le16 per ++ le24 tgt)
  | .timerCancel id => pad8 [11, byte id]
  | .stopAll => pad8 [12]

/-- Whether a number is a cue number (R49). -/
def isCueNum (n : Nat) : Bool := 1 ≤ n && n ≤ 99999

/-- The length a LOAD_CUE payload declares: 11 + label length + 8 × action count. -/
def cueLength (p : List Byte) : Nat := 11 + u8 p 5 + 8 * u8 p 10

/-- The cue record of a LOAD_CUE payload of the declared length, or none where check 2 of R51 fails. -/
def cueOf (p : List Byte) : Option Cue :=
  let lab := u8 p 5
  let label := (p.drop 11).take lab
  let flags := u8 p 4
  let wait := u16 p 8
  let hasFollow := flags / 2 = 1
  match allSome ((List.range (u8 p 10)).map (fun i => actionOf ((p.drop (11 + lab + 8 * i)).take 8))) with
  | none => none
  | some acts =>
    if isCueNum (u32 p 0) ∧ lab ≤ 24 ∧ label.all (fun b => 0x20 ≤ b.toNat && b.toNat ≤ 0x7E)
        ∧ flags < 4 ∧ (if hasFollow then 1 ≤ wait else wait = 0) ∧ u8 p 10 ≤ 8 then
      some { num := u32 p 0, label := label, enabled := flags % 2 = 1, prewait := u16 p 6
             follow := if hasFollow then some wait else none, actions := acts }
    else none

/-- A cue record in the layout of a LOAD_CUE payload (READ_CUE, R59). -/
def cueBytes (c : Cue) : List Byte :=
  le32 c.num ++ [byte (bitsOf [c.enabled, c.follow.isSome]), byte c.label.length] ++ le16 c.prewait
    ++ le16 (c.follow.getD 0) ++ [byte c.actions.length] ++ c.label ++ c.actions.flatMap actionBytes

/-! ### The other load payloads (Tables 13-5, 13-7) -/

/-- The segment record of a LOAD_SEGMENT payload, less its index; the checks that need a profile are
`segmentFits`'s. -/
def segmentOf (p : List Byte) : Option Segment :=
  let fmt := u8 p 10
  let nx := u16 p 12
  if u8 p 2 < 2 ∧ 1 ≤ u24 p 7 ∧ fmt < 2 ∧ (nx < 1024 ∨ nx = 65535) then
    some { device := u8 p 2, addr := u32 p 3, len := u24 p 7
           format := if fmt = 0 then .s16 else .s24, loops := u8 p 11
           next := if nx = 65535 then none else some nx }
  else none

def sampleSize : Format → Nat
  | .s16 => 2
  | .s24 => 3

/-- The segment's bytes lie inside the device, and outside the image area of device 0 (R86). -/
def segmentFits (profiles : List Profile) (s : Segment) : Bool :=
  match profiles[s.device]? with
  | none => false
  | some pr => s.addr + s.len * sampleSize s.format ≤ pr.size && (s.device ≠ 0 || 1048576 ≤ s.addr)

/-- The scene of a LOAD_SCENE payload. -/
def sceneOf (p : List Byte) : Scene :=
  { mixes := BitVec.ofNat 24 (u24 p 1), inputs := BitVec.ofNat 40 (u24 p 4 + 16777216 * u16 p 7)
    masters := BitVec.ofNat 24 (u24 p 9), codes := (p.drop 12).map BitVec.toNat }

/-- The number of codes a scene's sets ask for (R39). -/
def sceneCodeCount (s : Scene) : Nat :=
  (members 24 s.mixes).length * (members 40 s.inputs).length + (members 24 s.masters).length

/-- Powers of two from 2^16 to 2^28: the sizes a device may have (R111). -/
def deviceSizes : List Nat := (List.range 13).map (fun k => 2 ^ (16 + k))

/-- The profile of a LOAD_PROFILE payload with the poll interval clamped, or none where a field is out
of the range of R111 for the device; whether the segments still fit is checked with the tables. -/
def profileOf (p : List Byte) : Option Profile :=
  let size := u32 p 1
  let lane := fun n => n = 1 || n = 2 || n = 4
  match flagOf (u8 p 7), flagOf (u8 p 16), flagOf (u8 p 19) with
  | some hasMode, some big, some busyWhen =>
    if u8 p 0 < 2 ∧ size ∈ deviceSizes ∧ (u8 p 0 = 0 → 2097152 ≤ size)
        ∧ (u8 p 6 = 4 ∨ (u8 p 6 = 3 ∧ size ≤ 16777216)) ∧ (hasMode = false → u8 p 8 = 0)
        ∧ u8 p 9 ≤ 15 ∧ lane (u8 p 10) ∧ lane (u8 p 11) ∧ lane (u8 p 12) ∧ u8 p 18 ≤ 7 ∧ 1 ≤ u16 p 24 then
      some { size := size, readInstr := byte (u8 p 5), addrBytes := u8 p 6
             modeByte := if hasMode then some (byte (u8 p 8)) else none, dummy := u8 p 9
             instrLanes := u8 p 10, addrLanes := u8 p 11, dataLanes := u8 p 12
             writeEnable := byte (u8 p 13), program := byte (u8 p 14), erase := byte (u8 p 15)
             sector := if big then 65536 else 4096, statusRead := byte (u8 p 17), busyBit := u8 p 18
             busyWhen := busyWhen, reset1 := byte (u8 p 20), reset2 := byte (u8 p 21)
             pollMs := max 1 (min 255 (u16 p 22)), pollLimit := u16 p 24 }
    else none
  | _, _, _ => none

def profileBytes (dev : Nat) (pr : Profile) : List Byte :=
  [byte dev] ++ le32 pr.size ++ [pr.readInstr, byte pr.addrBytes, flagByte pr.modeByte.isSome, pr.modeByte.getD 0
   , byte pr.dummy, byte pr.instrLanes, byte pr.addrLanes, byte pr.dataLanes, pr.writeEnable, pr.program, pr.erase
   , flagByte (pr.sector = 65536), pr.statusRead, byte pr.busyBit, flagByte pr.busyWhen, pr.reset1, pr.reset2]
   ++ le16 pr.pollMs ++ le16 pr.pollLimit

/-- The mix record of a LOAD_MIX payload, its ceiling clamped, or none (R33, without the slot claim). -/
def mixOf (p : List Byte) : Option MixRec :=
  match roleOf (u8 p 1), indexOrNone 64 (u8 p 2), flagOf (u8 p 3) with
  | some role, some slot, some dim =>
    if u8 p 0 < 24 ∧ 1 ≤ u24 p 4 then
      some { role := role, slot := slot, dim := dim, ceiling := min 8388607 (u24 p 4) }
    else none
  | _, _, _ => none

def mixBytes (m : Nat) (r : MixRec) : List Byte :=
  [byte m, byte (roleCode r.role), optByte r.slot, flagByte r.dim] ++ le24 r.ceiling

/-- The zone configuration of a LOAD_ZONE payload, its depth clamped, or none (R151, without the claim). -/
def zoneOf (p : List Byte) : Option ZoneRec :=
  match indexOrNone 24 (u8 p 1), indexOrNone 64 (u8 p 11) with
  | some prog, some slot =>
    if u8 p 0 < 16 then
      some { prog := prog, accept := byte (u8 p 3), depth := min 120 (u8 p 4), attack := u16 p 5
             hold := u16 p 7, release := u16 p 9, slot := slot }
    else none
  | _, _ => none

/-- A zone's configuration with its programme level code, in the layout of LOAD_ZONE. -/
def zoneBytes (z : Nat) (r : ZoneRec) (code : Nat) : List Byte :=
  [byte z, optByte r.prog, byte code, r.accept, byte r.depth] ++ le16 r.attack ++ le16 r.hold ++ le16 r.release
    ++ [optByte r.slot]

/-- The page source configuration of a LOAD_PAGE_SOURCE payload, or none (R152). -/
def pageOf (p : List Byte) : Option PageRec :=
  match sourceOf (u8 p 1) (u8 p 2) with
  | some o => if u8 p 0 < 8 then some { origin := o, gain := u8 p 3, zones := BitVec.ofNat 16 (u16 p 4) } else none
  | none => none

/-- Whether four classes are A, B, C and D each once (R137). -/
def isClassOrder (l : List Nat) : Bool := l.length = 4 && (List.range 4).all (fun c => l.contains c)

/-- The class order and leads of a LOAD_PAGE_ORDER payload, or none (R153). -/
def orderOf (p : List Byte) : Option PageOrder :=
  let order := (p.take 4).map BitVec.toNat
  match allSome ((List.range 4).map (fun i => flagOf (u8 p (4 + i)))) with
  | some leads => if isClassOrder order then some { order := order, oddLeads := leads } else none
  | none => none

/-- The settings of a LOAD_SETTINGS payload with the clamps of R31, R61 and R171, or none where an owner
refuses a field (R146, R169, R195). -/
def settingsOf (p : List Byte) : Option Settings :=
  match indexOrNone 8 (u8 p 5), allSome ((List.range 4).map (fun i => indexOrNone 8 (u8 p (6 + i)))) with
  | some src, some binds =>
    if u16 p 12 < 8192 then
      some { dimDepth := min 80 (u8 p 0), guardMs := min 5000 (u16 p 1), stopFadeMs := u16 p 3, stopSource := src
             bindings := binds, blinkMs := max 100 (min 5000 (u16 p 10)), reports := BitVec.ofNat 16 (u16 p 12)
             node := u8 p 14 }
    else none
  | _, _ => none

def settingsBytes (s : Settings) : List Byte :=
  [byte s.dimDepth] ++ le16 s.guardMs ++ le16 s.stopFadeMs ++ [optByte s.stopSource] ++ s.bindings.map optByte
    ++ le16 s.blinkMs ++ le16 s.reports.toNat ++ [byte s.node]

/-! ### Reports (Tables 12-3 and 13-9) -/

/-- The bit of the report mask, and the report kind's value less F0h (R205). -/
def ReportBody.index : ReportBody → Nat
  | .cueFired _ _ => 0
  | .standby _ _ => 1
  | .waitDropped _ _ => 2
  | .voice _ _ _ => 3
  | .underrun _ _ => 4
  | .zone _ _ _ _ => 5
  | .pageIgnored _ _ _ => 6
  | .lightAck _ _ => 7
  | .goRefused _ => 8
  | .flashFault _ _ => 9
  | .ring _ => 10
  | .showChange _ _ _ _ => 11
  | .image _ => 12

/-- The fields of a report (Table 13-9). -/
def ReportBody.bytes : ReportBody → List Byte
  | .cueFired c w => le32 c ++ [byte w.code]
  | .standby p c => le32 p ++ optCue c
  | .waitDropped k w => [byte k.code] ++ le32 k.key ++ [byte w.code]
      ++ le32 (match k with | .timer _ _ _ t => t | _ => 0)
  | .voice v w i => [byte v, byte w.code] ++ identBytes i
  | .underrun v i => [byte v] ++ identBytes i
  | .zone z o n s => [byte z, optByte o, optByte n, byte s.code]
  | .pageIgnored s o w => [byte s, byte o.code, byte w.code]
  | .lightAck l c => [byte l] ++ optCue c
  | .goRefused w => [byte w.code]
  | .flashFault d k => [byte d, byte k.faultCode]
  | .ring a => [flagByte a]
  | .showChange s st l c => [flagByte s, flagByte st, lockByte l, byte c.code]
  | .image f => [flagByte f.isSome, optByte (f.map ImageFail.code)]

/-! ### Request kinds (Table 13-6) and lengths (Table 13-7) -/

/-- The request kinds, in the order of their values 01h to 2Bh. -/
inductive ReqKind where
  | setLevel | fadeLevel | loadLaw
  | loadInput | loadMix | talkSet | readMeters
  | loadScene | recall | restore
  | loadCue | deleteCue | clearCues | go | goTo | setStandby
  | readWaits
  | loadSegment | voice | readVoice | stopAll
  | loadProfile | flashErase | flashWrite | flashRead | flashReset | saveShow
  | loadZone | loadPageSource | loadPageOrder | pagingSet | page | readZone
  | setShowState | setLocks | showStop | showResume
  | loadLight | lightSet
  | loadSettings | readStatus | restart
  | readCue
deriving DecidableEq, Repr

/-- Every request kind, the k-th having value k + 1. -/
def ReqKind.all : List ReqKind :=
  [.setLevel, .fadeLevel, .loadLaw, .loadInput, .loadMix, .talkSet, .readMeters, .loadScene, .recall, .restore
   , .loadCue, .deleteCue, .clearCues, .go, .goTo, .setStandby, .readWaits, .loadSegment, .voice, .readVoice, .stopAll
   , .loadProfile, .flashErase, .flashWrite, .flashRead, .flashReset, .saveShow, .loadZone, .loadPageSource
   , .loadPageOrder, .pagingSet, .page, .readZone, .setShowState, .setLocks, .showStop, .showResume, .loadLight
   , .lightSet, .loadSettings, .readStatus, .restart, .readCue]

/-- The value of a request kind (Table 13-6). -/
def ReqKind.code (k : ReqKind) : Nat := ReqKind.all.idxOf k + 1

/-- The request kind of a value, or none (R205). -/
def ReqKind.ofCode (n : Nat) : Option ReqKind := if n = 0 then none else ReqKind.all[n - 1]?

/-- Whether a kind allows a payload length (check 5 of R190, Table 13-7); a payload has at most 1,024. -/
def ReqKind.lengthOk (k : ReqKind) (n : Nat) : Bool :=
  match k with
  | .loadLaw => 2 ≤ n && n ≤ 1024
  | .loadScene => 12 ≤ n && n ≤ 1024
  | .loadCue => 11 ≤ n && n ≤ 1024
  | .flashWrite => 5 ≤ n && n ≤ 1024
  | .setLevel | .deleteCue | .goTo | .setStandby | .readCue | .setLocks | .loadLight => n = 4
  | .fadeLevel | .loadPageSource => n = 6
  | .loadInput | .voice | .flashErase => n = 5
  | .loadMix | .recall | .flashRead => n = 7
  | .talkSet | .readVoice | .flashReset | .readZone | .setShowState => n = 1
  | .readMeters | .clearCues | .go | .readWaits | .stopAll | .saveShow | .showStop | .showResume | .readStatus
  | .restart => n = 0
  | .restore | .pagingSet | .page | .lightSet => n = 2
  | .loadSegment => n = 14
  | .loadProfile => n = 26
  | .loadZone => n = 12
  | .loadPageOrder => n = 8
  | .loadSettings => n = 15

/-! ### The ring frame and the control lane (Tables 13-1 and 13-2) -/

/-- A ring frame as it arrived: its counter, its 64 samples and its lane bytes. -/
structure RingFrame where
  counter : Nat
  slots   : List Sample
  lane    : List Byte
deriving DecidableEq, Repr

/-- The frame in 206 bytes that begin with the sync word 5A3Ch; otherwise no frame arrives (R178). -/
def parseFrame (b : List Byte) : Option RingFrame :=
  if b.length = 206 ∧ u16 b 0 = 0x5A3C then
    some { counter := u16 b 2
           slots := (List.range 64).map (fun s => signed 24 (u24 b (4 + 3 * s)))
           lane := (b.drop 196).take 8 }
  else none

/-- The frame check (R178): the CRC-16 over offsets 2 to 203 equals the last two bytes. -/
def frameGood (b : List Byte) : Bool := crc16 ((b.drop 2).take 202) = u16 b 204

/-- The bytes of a frame, with its frame check recomputed over what leaves (R178). -/
def frameBytes (f : RingFrame) : List Byte :=
  let body := le16 f.counter ++ f.slots.flatMap sampleBytes ++ f.lane
  le16 0x5A3C ++ body ++ le16 (crc16 body)

/-- A fragment sent in a lane (R201): bits 3 and 7 clear, data beyond the count 0. -/
def laneBytes (state src dst : Nat) (data : List Byte) : List Byte :=
  [byte (state + 16 * data.length), byte src, byte dst] ++ data ++ List.replicate (5 - data.length) 0

/-- An IDLE lane (R201). -/
def idleLane : List Byte := List.replicate 8 0

end Sys2Proof.Machine
end

