-- ==== Sys2Proof/Machine/Ops.lean ====
section
/-! DEFINITION. The arithmetic every block shares (chapter 1.3 to 1.6), accessors of the records held by
number, and the giving of a report (R193, R194). -/

namespace Sys2Proof.Machine

open Sys2Proof

/-! ### Arithmetic on samples and levels -/

/-- Rounding of a product to the sample scale (R15): floor((x + 524,288) / 1,048,576). -/
def rnd20 (x : Int) : Int := (x + 524288) / 1048576

/-- Limiting to a symmetric bound. -/
def clampTo (bound x : Int) : Int := if x < -bound then -bound else if bound < x then bound else x

/-- Saturation (R15): the symmetric range ±8,388,607. -/
def sat (x : Int) : Int := clampTo 8388607 x

/-- The gain of a fine value under a gain law (R14). -/
def gain (law : List Nat) (fine : Nat) : Nat :=
  if fine = 0 then 0
  else
    let c := fine / 256
    let r := fine % 256
    if c = 255 then law.getD 255 0
    else law.getD c 0 + (law.getD (c + 1) 0 - law.getD c 0) * r / 256

/-- The effective fine value of a mix master under dim (R16). A master that is not off gives at least 256, at
dim depth 0 too, where R31 speaks of its own value (log entry 33). -/
def dimmed (master depth : Nat) : Nat := if master = 0 then 0 else max 256 (master - 256 * depth)

/-- The effective fine value of a zone programme level under duck (R17). -/
def ducked (programme attenuation : Nat) : Nat := programme - attenuation

/-- A sample through a gain, back on the sample scale (R15). -/
def scaled (x : Sample) (g : Nat) : Sample := rnd20 (x * (g : Int))

/-- Frames in a time in milliseconds (00 section 5.1). -/
def frames (ms : Nat) : Nat := 48 * ms

/-- The conditions a gain law always meets (R11, R12). -/
def lawOk (law : List Nat) : Bool :=
  law.length = 256 && law.getD 0 0 = 0
    && (List.range 255).all (fun c => law.getD c 0 ≤ law.getD (c + 1) 0)
    && law.all (fun g => g ≤ 4194304)

/-! ### Records held by number -/

/-- The frames remaining to an expiry (R72, R84), counted from the last frame that arrived, whether or not the
events due on it have been taken (log entry 40). -/
def Run.remaining (r : Run) (expiry : Nat) : Nat := expiry - r.port.now

/-- Whether an expiry frame has arrived. -/
def Run.dueAt (r : Run) (expiry : Nat) : Bool := expiry ≤ r.port.now

/-- The record of voice `v`. -/
def Run.voice (r : Run) (v : Nat) : Voice := r.voices.getD v Voice.idle

/-- Changes the record of voice `v`. -/
def Run.onVoice (r : Run) (v : Nat) (f : Voice → Voice) : Run := { r with voices := r.voices.modify v f }

/-- The runtime record of zone `z`. -/
def Run.zone (r : Run) (z : Nat) : ZoneRt := r.page.zones.getD z { state := .programme, holdEnd := none, onAir := none }

/-- Changes the runtime record of zone `z`. -/
def Run.onZone (r : Run) (z : Nat) (f : ZoneRt → ZoneRt) : Run :=
  { r with page := { r.page with zones := r.page.zones.modify z f } }

/-- The runtime record of page source `k`. -/
def Run.src (r : Run) (k : Nat) : SrcRt := r.page.srcs.getD k { requested := false, bound := none }

/-- Changes the runtime record of page source `k`. -/
def Run.onSrc (r : Run) (k : Nat) (f : SrcRt → SrcRt) : Run :=
  { r with page := { r.page with srcs := r.page.srcs.modify k f } }

/-- The runtime record of cue light `l`. -/
def Run.light (r : Run) (l : Nat) : LightRt := r.stage.lights.getD l { state := .off, goEnd := none }

/-- Changes the runtime record of cue light `l`. -/
def Run.onLight (r : Run) (l : Nat) (f : LightRt → LightRt) : Run :=
  { r with stage := { r.stage with lights := r.stage.lights.modify l f } }

/-- The state of flash device `d`. -/
def Run.dev (r : Run) (d : Nat) : DevState := r.flash.devs.getD d .ready

/-- Sets the state of flash device `d`. -/
def Run.setDev (r : Run) (d : Nat) (x : DevState) : Run :=
  { r with flash := { r.flash with devs := r.flash.devs.set d x } }

/-- Zone configuration `z`. -/
def zoneRec (t : Tables) (z : Nat) : ZoneRec := t.zones.getD z ZoneRec.default
/-- Page source configuration `k`. -/
def pageRec (t : Tables) (k : Nat) : PageRec := t.pages.getD k PageRec.default
/-- Cue light configuration `l`. -/
def lightRec (t : Tables) (l : Nat) : LightRec := t.lights.getD l LightRec.default
/-- The profile of device `d`. -/
def profileRec (t : Tables) (d : Nat) : Profile := t.profiles.getD d Profile.default
/-- The mix record `m`. -/
def mixRec (t : Tables) (m : Nat) : MixRec := t.mixes.getD m MixRec.default
/-- The segment record at place `n`, or none where the place is unused. -/
def segmentRec (t : Tables) (n : Nat) : Option Segment := t.segments.getD n none
/-- The cue that holds a number. -/
def findCue (t : Tables) (n : Nat) : Option Cue := t.cues.find? (fun c => c.num = n)
/-- The first enabled cue whose number is greater than `n` (R55, R64). -/
def firstEnabledAfter (t : Tables) (n : Nat) : Option Cue := t.cues.find? (fun c => c.enabled && n < c.num)

/-- Does `f` for 0, 1, …, n − 1 in turn. -/
def forEach {α : Type} (n : Nat) (f : Nat → α → α) (a : α) : α := (List.range n).foldl (fun x i => f i x) a

/-! ### Reports -/

/-- Gives a report that carries the frame counter `counter` (R193): dropped if its kind is off, discarded
with loss pending if 32 are queued, and otherwise at the back of the queue. -/
def Run.reportAt (t : Tables) (counter : Nat) (b : ReportBody) (r : Run) : Run :=
  if t.settings.reports.getLsbD b.index = false then r
  else if 32 ≤ r.ctl.reports.length then { r with ctl := { r.ctl with lossPending := true } }
  else
    { r with ctl := { r.ctl with
        reports := r.ctl.reports ++ [{ body := b, counter := counter, dst := t.settings.node, lost := none }] } }

/-- Gives a report of an event taken now (R194). -/
def Run.report (t : Tables) (b : ReportBody) (r : Run) : Run := r.reportAt t r.port.counter b

end Sys2Proof.Machine
end

