-- ==== Sys2Proof/Machine/Flags.lean ====
section
/-! DEFINITION. The flags that decide: lock flags by request kind (Table 9-1), the content requests, the
talk state, and the flags a meter, a GO or a debouncer sets. -/

namespace Sys2Proof.Machine

open Sys2Proof

/-- The lock groups (R158). -/
inductive Group where
  | cues
  | foldback
  | relay
  | routing
deriving DecidableEq, Repr

/-- Whether a group's flag is set. -/
def lockSet (l : Locks) : Group → Bool
  | .cues => l.cues
  | .foldback => l.foldback
  | .relay => l.relay
  | .routing => l.routing

/-- The group of the writes to a mix's crosspoints and master, by its role (R35). -/
def roleGroup (t : Tables) (m : Nat) : Group :=
  match (mixRec t m).role with
  | .foldback => .foldback
  | .programme => .routing

/-- The group of a level request, by the level it names (R35, R159). -/
def levelGroup (t : Tables) : Option LevelRef → Option Group
  | some (.crosspoint _ m) => some (roleGroup t m)
  | some (.master m) => some (roleGroup t m)
  | some (.trim _) => some .routing
  | some (.zoneProgramme _) => some .relay
  | some (.fader _) => none
  | some (.duck _) => none
  | none => none

/-- The lock group of a request (Table 9-1). -/
def lockGroup (t : Tables) (k : ReqKind) (p : List Byte) : Option Group :=
  match k with
  | .setLevel | .fadeLevel => levelGroup t (refAt p 0)
  | .loadCue | .deleteCue | .clearCues | .loadSegment | .loadLight => some .cues
  | .loadScene | .recall | .restore => some .foldback
  | .loadZone | .loadPageSource | .loadPageOrder => some .relay
  | .loadInput | .loadMix | .loadLaw | .loadProfile | .loadSettings => some .routing
  | .talkSet | .readMeters | .go | .goTo | .setStandby | .readWaits | .voice | .readVoice | .stopAll | .flashErase
  | .flashWrite | .flashRead | .flashReset | .saveShow | .pagingSet | .page | .readZone | .setShowState | .setLocks
  | .showStop | .showResume | .lightSet | .readStatus | .restart | .readCue => none

/-- Whether a request is refused LOCKED (R160): in SHOW, with the flag of its group set. -/
def isLocked (t : Tables) (inShow : Bool) (k : ReqKind) (p : List Byte) : Bool :=
  match lockGroup t k p with
  | some g => inShow && lockSet t.locks g
  | none => false

/-- The content requests (R157). -/
def isContent : ReqKind → Bool
  | .flashErase | .flashWrite | .flashRead | .flashReset | .saveShow => true
  | _ => false

/-- Talk is active while the key record is held or the latch is on (R29). -/
def MixRt.talk (m : MixRt) : Bool := m.talkKey || m.talkLatch

/-- Whether the GO guard window is open: its closing frame has not arrived (R61), whether or not the closing
has been taken since (log entry 34). -/
def Run.guarded (r : Run) : Bool :=
  match r.cue.guardEnd with
  | some f => r.port.now < f
  | none => false

/-- The peak and clip flag of a mix after a value was formed (R25). -/
def meter (cval y : Sample) (peak : Nat) (clip : Bool) : Nat × Bool := (max peak y.natAbs, clip || y != cval)

/-- One sampling of a debounced line (R167): the debouncer after it, and the new state if it changed. -/
def Debounce.sample (d : Debounce) (active : Bool) : Debounce × Option Bool :=
  if active = d.pressed then ({ d with count := 0 }, none)
  else if 239 ≤ d.count then ({ pressed := active, count := 0 }, some active)
  else ({ d with count := d.count + 1 }, none)

end Sys2Proof.Machine
end

