-- ==== Sys2Proof/Machine/Lights.lean ====
section
/-! DEFINITION. The cue lights of the stage signal unit (chapter 10.2): setting a light, the standby
notice, acknowledges, the end of a go hold, show stop and resume, and the lamps. -/

namespace Sys2Proof.Machine

open Sys2Proof

/-- Sets a light (R174): OFF and STANDBY remove the go hold expiry, GO gives it a new one (R173). -/
def setLight (t : Tables) (l : Nat) (c : LightCmd) (r : Run) : Run :=
  r.onLight l (fun _ => match c with
    | .off => { state := .off, goEnd := none }
    | .standby => { state := .standby, goEnd := none }
    | .go => { state := .go, goEnd := some (r.port.now + frames (lightRec t l).goHold) })

/-- A standby notice for one AUTO light (R175). -/
def noticeLight (inSet sameNumber : Bool) (x : LightRt) : LightRt :=
  match x.state, inSet with
  | .off, true => { x with state := .standby }
  | .acked, true => if sameNumber then x else { x with state := .standby }
  | .standby, false => { x with state := .off }
  | .acked, false => { x with state := .off }
  | _, _ => x

/-- The lights a cue's LIGHT GO actions name (R175). -/
def warnedBy (c : Cue) : List Nat :=
  c.actions.filterMap (fun a => match a with
    | .light l .go => some l
    | _ => none)

/-- The stage signal unit takes a standby notice (R175). -/
def standbyNotice (t : Tables) (c : Option Cue) (r : Run) : Run :=
  let num := c.map Cue.num
  let warned := (c.map warnedBy).getD []
  let same := num == r.stage.standby
  let r1 := { r with stage := { r.stage with standby := num, warned := warned } }
  if r.shw.stopped then r1
  else forEach 8 (fun l x => if (lightRec t l).auto then x.onLight l (noticeLight (warned.contains l) same) else x) r1

/-- An acknowledge (R172). -/
def acknowledgeLight (t : Tables) (l : Nat) (r : Run) : Run :=
  if l < 8 ∧ (r.light l).state = .standby then
    (r.onLight l (fun x => { x with state := .acked })).report t (.lightAck l r.stage.standby)
  else r

/-- Whether a light's go hold has ended and its end has not been taken (R173). -/
def goHoldDue (r : Run) (l : Nat) : Bool :=
  match (r.light l).goEnd with
  | some f => r.dueAt f
  | none => false

/-- The end of a light's go hold (R173). -/
def endGoHold (t : Tables) (l : Nat) (r : Run) : Run :=
  if goHoldDue r l then
    r.onLight l (fun _ =>
      { state := if (lightRec t l).auto && !r.shw.stopped && r.stage.warned.contains l then .standby else .off
        goEnd := none })
  else r

/-- The stage signal unit takes a show stop (R176). -/
def stopLights (r : Run) : Run := forEach 8 (fun l x => x.onLight l (fun _ => { state := .off, goEnd := none })) r

/-- The stage signal unit takes the resume (R176). -/
def resumeLights (t : Tables) (r : Run) : Run :=
  forEach 8 (fun l x =>
    if (lightRec t l).auto && r.stage.warned.contains l && (x.light l).state = .off then
      x.onLight l (fun y => { y with state := .standby })
    else x) r

/-- The red and green lamps of a state (Table 10-2); `lit` says that the blink phase is in its lit half. -/
def lampsOf (lit : Bool) : LState → Bool × Bool
  | .off => (false, false)
  | .standby => (lit, false)
  | .acked => (true, false)
  | .go => (false, true)

/-- The blink counter for the frame being taken, and whether it lies in the lit half (R171). -/
def advanceBlink (t : Tables) (r : Run) : Run :=
  let half := frames t.settings.blinkMs
  let b := if r.stage.blinkStart ∨ 2 * half ≤ r.stage.blink + 1 then 0 else r.stage.blink + 1
  { r with stage := { r.stage with blink := b, blinkStart := false, lit := b < half } }

/-- The lamps of every light (R171). -/
def driveLamps (r : Run) : Run :=
  { r with stage := { r.stage with lamps := r.stage.lights.map (fun x => lampsOf r.stage.lit x.state) } }

end Sys2Proof.Machine
end

