-- ==== Sys2Proof/Machine/Levels.lean ====
section
/-! DEFINITION. The level store and fade engine (chapter 1.1 and 1.2): the records, the one write every
origin uses, and the advance of a frame. The owners' answers to notices (R8) are in Pages and Voices. -/

namespace Sys2Proof.Machine

open Sys2Proof

/-- The record a reference names (R1). -/
def Levels.get? (l : Levels) : LevelRef → Option Level
  | .crosspoint i m => if i < 40 then l.crosspoints[40 * m + i]? else none
  | .master m => l.masters[m]?
  | .trim i => l.trims[i]?
  | .fader v => l.faders[v]?
  | .zoneProgramme z => l.programmes[z]?
  | .duck z => l.ducks[z]?

/-- Replaces the record a reference names. -/
def Levels.put (l : Levels) (x : Level) : LevelRef → Levels
  | .crosspoint i m => if i < 40 then { l with crosspoints := l.crosspoints.set (40 * m + i) x } else l
  | .master m => { l with masters := l.masters.set m x }
  | .trim i => { l with trims := l.trims.set i x }
  | .fader v => { l with faders := l.faders.set v x }
  | .zoneProgramme z => { l with programmes := l.programmes.set z x }
  | .duck z => { l with ducks := l.ducks.set z x }

/-- The record a reference names, or a level at off where it names none. -/
def Levels.get (l : Levels) (ref : LevelRef) : Level := (l.get? ref).getD (Level.rest 0)

/-- The code of a level (R2): its fade's target, or its fine value, divided by 256. -/
def Level.code (l : Level) : Nat :=
  match l.fade with
  | some f => f.target / 256
  | none => l.fine / 256

/-- A write (R4, R5): a time of 0 sets the level; a time above 0 fades it from where it stands, or leaves
it at rest where it already is at the target. The level is at rest afterwards exactly if the write
completed at once. -/
def Level.write (l : Level) (code ms : Nat) : Level :=
  if ms = 0 then { fine := 256 * code, fade := none }
  else if l.fine = 256 * code then { fine := l.fine, fade := none }
  else { fine := l.fine, fade := some { start := l.fine, target := 256 * code, dur := frames ms, k := 0 } }

/-- Whether a level is at rest. -/
def Level.atRest (l : Level) : Bool := l.fade.isNone

/-- F(k) of a fade (R6): start + (target − start) × k / D, the quotient truncated toward zero. -/
def Fade.value (f : Fade) : Nat :=
  ((f.start : Int) + Int.tdiv (((f.target : Int) - f.start) * f.k) f.dur).toNat

/-- Whether a fade has reached k = D. -/
def Fade.done (f : Fade) : Bool := f.dur ≤ f.k

/-- The advance of one record by one frame (R6). A fade that has reached D stays in the record until its
completion is taken (log entry 1). -/
def Level.advance (l : Level) : Level :=
  match l.fade with
  | none => l
  | some f =>
    if f.done then l
    else
      let f' := { f with k := f.k + 1 }
      { fine := f'.value, fade := some f' }

/-- Whether a level's fade has reached its end and its completion has not been taken. -/
def Level.completionDue (l : Level) : Bool :=
  match l.fade with
  | some f => f.done
  | none => false

/-- Takes a completion: the fade is removed and the level rests (R6). -/
def Level.complete (l : Level) : Level := if l.completionDue then { l with fade := none } else l

/-- A level at RESTART (R10): a fade's target becomes its fine value. -/
def Level.restart (l : Level) : Level :=
  match l.fade with
  | some f => { fine := f.target, fade := none }
  | none => l

/-- Does `f` to every record. -/
def Levels.map (l : Levels) (f : Level → Level) : Levels :=
  { crosspoints := l.crosspoints.map f, masters := l.masters.map f, trims := l.trims.map f
    faders := l.faders.map f, programmes := l.programmes.map f, ducks := l.ducks.map f }

/-- The code of every record other than a duck attenuation, in level order (R10). -/
def Levels.codes (l : Levels) : List Nat :=
  (l.crosspoints ++ l.masters ++ l.trims ++ l.faders ++ l.programmes).map Level.code

/-- Level records at rest at 1,056 codes given in level order, duck attenuations at 0 (R10). -/
def Levels.ofCodes (c : List Nat) : Levels :=
  let l := c.map Level.rest
  { crosspoints := l.take 960, masters := (l.drop 960).take 24, trims := (l.drop 984).take 40
    faders := (l.drop 1024).take 16, programmes := (l.drop 1040).take 16
    ducks := List.replicate 16 (Level.rest 0) }

/-- Writes a level of a kind that gives no notices (R8): crosspoint, master, trim, programme level. -/
def Run.writeLevel (ref : LevelRef) (code ms : Nat) (r : Run) : Run :=
  match r.lv.get? ref with
  | some l => { r with lv := r.lv.put (l.write code ms) ref }
  | none => r

end Sys2Proof.Machine
end

