-- ==== Sys2Proof/Machine/Scenes.lean ====
section
/-! DEFINITION. The scene store (chapter 3): a recall, the recall latch and its restore. Every level
concerned is a crosspoint or a master, so no write gives a notice (R8). -/

namespace Sys2Proof.Machine

open Sys2Proof

/-- The levels a scene holds codes for, in the order of R39 (which is level order, R1), with the code. -/
def sceneLevels (s : Scene) : List (LevelRef × Nat) :=
  ((members 24 s.mixes).flatMap (fun m => (members 40 s.inputs).map (fun i => LevelRef.crosspoint i m))
    ++ (members 24 s.masters).map LevelRef.master).zip s.codes

/-- Whether a level belongs to a mix of a mask. -/
def inMask (mask : BitVec 24) : LevelRef → Bool
  | .crosspoint _ m => mask.getLsbD m
  | .master m => mask.getLsbD m
  | _ => false

/-- The affected levels of a recall with their scene codes (R40). -/
def affected (s : Scene) (mask : BitVec 24) : List (LevelRef × Nat) :=
  (sceneLevels s).filter (fun e => inMask mask e.1)

/-- The new code of an affected level (R42, Table 3-1). TRIM follows the table for current codes 233 to 255 too,
where a scene code of 0 does not reach code 1 (log entry 44). -/
def recallCode (mode : RecallMode) (c s : Nat) : Nat :=
  match mode with
  | .replace => s
  | .keepHigher => max c s
  | .keepLower => min c s
  | .trim => if c = 0 then 0 else max 1 (min 255 (c + s - 231))

/-- The writes of a recall or restore: one for each level whose new code is not its code (R43, R45). -/
def neededWrites (lv : Levels) (new : List (LevelRef × Nat)) : List (LevelRef × Nat) :=
  new.filter (fun e => (lv.get e.1).code ≠ e.2)

/-- Hands the level store the writes, all with one time (R43). -/
def writeAll (ms : Nat) (ws : List (LevelRef × Nat)) (r : Run) : Run :=
  ws.foldl (fun x e => x.writeLevel e.1 e.2 ms) r

/-- What a recall or restore did: the state, and the two numbers of its reply (R46). -/
structure Recalled where
  run     : Run
  entries : Nat
  writes  : Nat

/-- A recall (R40 to R43). With no affected level nothing changes, the latch included. -/
def recallScene (t : Tables) (scene : Nat) (mode : RecallMode) (mask : BitVec 24) (ms : Nat) (r : Run) : Recalled :=
  let aff := affected (t.scenes.getD scene Scene.empty) mask
  if aff.isEmpty then { run := r, entries := 0, writes := 0 }
  else
    let latch := aff.map (fun e => (e.1, (r.lv.get e.1).code))
    let ws := neededWrites r.lv (aff.map (fun e => (e.1, recallCode mode (r.lv.get e.1).code e.2)))
    { run := writeAll ms ws { r with latch := latch }, entries := aff.length, writes := ws.length }

/-- A restore (R45): the latched codes are written back where they differ, and the latch is emptied. -/
def restoreLatch (ms : Nat) (r : Run) : Recalled :=
  let ws := neededWrites r.lv r.latch
  { run := writeAll ms ws { r with latch := [] }, entries := r.latch.length, writes := ws.length }

end Sys2Proof.Machine
end

