-- ==== Sys2Proof/Machine/Pages.lean ====
section
/-! DEFINITION. The relay and page engine (chapter 8): rank and eligibility, the recomputation of the
zones with its duck, hold and release, and the raises and withdrawals of page sources. -/

namespace Sys2Proof.Machine

open Sys2Proof

/-- The rank of a source (R137): twice the place of its class, plus 1 unless it leads its class. -/
def sourceRank (o : PageOrder) (k : Nat) : Nat :=
  2 * o.order.idxOf (k / 2) + (if (k % 2 == 1) == o.oddLeads.getD (k / 2) false then 0 else 1)

/-- Whether a source is eligible in a zone (R145). -/
def eligible (t : Tables) (r : Run) (z k : Nat) : Bool :=
  (r.src k).requested && !r.page.mask.getLsbD k && (pageRec t k).zones.getLsbD z && (zoneRec t z).accept.getLsbD k

/-- The better of two sources by rank; a lower rank wins. -/
def betterSource (o : PageOrder) (best : Option Nat) (k : Nat) : Option Nat :=
  match best with
  | none => some k
  | some b => if sourceRank o k < sourceRank o b then some k else some b

/-- The best-ranked eligible source of a zone, if any. -/
def bestSource (t : Tables) (r : Run) (z : Nat) : Option Nat :=
  ((List.range 8).filter (eligible t r z)).foldl (betterSource t.order) none

/-- The source that belongs on air in a zone: the show-stop page while raised (R147), or the best (R145). -/
def airFor (t : Tables) (r : Run) (z : Nat) : Option Nat :=
  match r.page.stopPage with
  | some k => some k
  | none => bestSource t r z

/-- A completion notice for a zone's duck attenuation (R150): a zone in RELEASE becomes PROGRAMME. -/
def duckNotice (z : Nat) (r : Run) : Run :=
  if (r.zone z).state = .release then r.onZone z (fun x => { x with state := .programme }) else r

/-- The page engine's write of a duck attenuation, with the notice it may give at once (R4, R5, R8). -/
def writeDuck (z code ms : Nat) (r : Run) : Run :=
  let r' := r.writeLevel (.duck z) code ms
  if (r'.lv.get (.duck z)).atRest then duckNotice z r' else r'

/-- The end of a zone's hold (R150): RELEASE, and the duck faded to 0 over the release time. -/
def endHold (t : Tables) (z : Nat) (r : Run) : Run :=
  writeDuck z 0 (zoneRec t z).release (r.onZone z (fun x => { x with state := .release, holdEnd := none }))

/-- A change of a zone's on-air source (R145, R148, R149). The ZONE report gives HOLD even where a hold
time of 0 takes the zone on at once (log entry 14). -/
def changeAir (t : Tables) (z : Nat) (new : Option Nat) (r : Run) : Run :=
  let old := r.zone z
  let cfg := zoneRec t z
  match new with
  | some k =>
    let r1 := r.onZone z (fun _ => { state := .ducked, holdEnd := none, onAir := some k })
    let r2 := r1.report t (.zone z old.onAir (some k) .ducked)
    if old.state = .programme ∨ old.state = .release then writeDuck z cfg.depth cfg.attack r2 else r2
  | none =>
    let r1 := r.onZone z (fun _ =>
      { state := .hold, holdEnd := some (r.port.now + frames cfg.hold), onAir := none })
    let r2 := r1.report t (.zone z old.onAir none .hold)
    if cfg.hold = 0 then endHold t z r2 else r2

/-- Recomputes one zone. -/
def arbitrateZone (t : Tables) (z : Nat) (r : Run) : Run :=
  let new := airFor t r z
  if new = (r.zone z).onAir then r else changeAir t z new r

/-- Recomputes the on-air source of every zone (R145), zones 0 to 15 in turn (log entry 38). -/
def arbitrate (t : Tables) (r : Run) : Run := forEach 16 (arbitrateZone t) r

/-- A withdrawal (R140): the requested flag is cleared and a bound voice released on both sides. -/
def withdraw (k : Nat) (r : Run) : Run :=
  let r' := match (r.src k).bound with
    | some v => r.onVoice v (fun x => if x.bound = some k then { x with bound := none } else x)
    | none => r
  r'.onSrc k (fun _ => { requested := false, bound := none })

/-- Sets a source's requested flag. -/
def setRequested (k : Nat) (r : Run) : Run := r.onSrc k (fun x => { x with requested := true })

/-- Withdraws every source a condition holds for. -/
def withdrawWhere (cond : Nat → Bool) (r : Run) : Run := forEach 8 (fun k x => if cond k then withdraw k x else x) r

/-- The voice bank tells that a voice is IDLE (R144): every source whose origin is that voice is
withdrawn, and the source it was bound to, and the zones are recomputed. -/
def pageVoiceIdle (t : Tables) (v : Nat) (bound : Option Nat) (r : Run) : Run :=
  arbitrate t (withdrawWhere (fun k => (pageRec t k).origin = .voice v || bound = some k) r)

/-- The voice bank tells that a START cut a voice (R144): its bound source is withdrawn. -/
def pageVoiceCut (t : Tables) (bound : Option Nat) (r : Run) : Run :=
  match bound with
  | some k => arbitrate t (withdraw k r)
  | none => r

/-- Whether a source's origin is a voice that is IDLE (R140). -/
def originIdle (t : Tables) (r : Run) (k : Nat) : Bool :=
  match (pageRec t k).origin with
  | .voice v => (r.voice v).state = .idle
  | _ => false

/-- A raise by a key or a PAGE action (R141, R142). -/
def raiseSource (t : Tables) (origin : RaiseFrom) (k : Nat) (r : Run) : Run :=
  if r.page.enabled = false then r.report t (.pageIgnored k origin .disabled)
  else if originIdle t r k then r.report t (.pageIgnored k origin .voiceIdle)
  else arbitrate t (setRequested k r)

/-- A withdrawal by a key, a request or an action, followed by the recomputation (R140). -/
def dropSource (t : Tables) (k : Nat) (r : Run) : Run := arbitrate t (withdraw k r)

/-- The page engine's part of a PAGE_PLAY action (R143): the source is raised and bound to the voice. -/
def raiseBound (t : Tables) (k v : Nat) (r : Run) : Run :=
  if r.page.enabled = false then r.report t (.pageIgnored k .play .disabled)
  else if (pageRec t k).origin ≠ .voice v then r.report t (.pageIgnored k .play .origin)
  else if (r.voice v).state = .idle then r.report t (.pageIgnored k .play .voiceIdle)
  else
    let r1 := match (r.voice v).bound with
      | some o => if o = k then r else r.onSrc o (fun x => { x with bound := none })
      | none => r
    let r2 := r1.onSrc k (fun _ => { requested := true, bound := some v })
    arbitrate t (r2.onVoice v (fun x => { x with bound := some k }))

/-- The page engine takes a show stop (R147). -/
def raiseStopPage (t : Tables) (r : Run) : Run :=
  match r.page.stopPage, t.settings.stopSource with
  | none, some k => arbitrate t { r with page := { r.page with stopPage := some k } }
  | _, _ => r

/-- The page engine takes the resume (R147). -/
def dropStopPage (t : Tables) (r : Run) : Run :=
  match r.page.stopPage with
  | some _ => arbitrate t { r with page := { r.page with stopPage := none } }
  | none => r

/-- The output last formed for a zone (R134, R135): programme term plus page term, limited once. -/
def zoneOut (r : Run) (z : Nat) : Sample :=
  sat (r.page.zoneTerm.getD z 0 + match r.page.air.getD z none with
    | some k => r.page.pageTerm.getD k 0
    | none => 0)

end Sys2Proof.Machine
end

