-- ==== Sys2Proof/Machine/Voices.lean ====
section
/-! DEFINITION. The voice bank and the fetch side of the flash controller (chapters 6 and 7.2): going
IDLE, starting, priming and cutting, refills, the arbiter, and the playing of a frame. `pump` carries out
whatever refills and transfers have become possible (R90, R116, R117). -/

namespace Sys2Proof.Machine

open Sys2Proof

/-! ### Going IDLE -/

/-- Marks a fetch of voice `v` on the bus for discard (R92). -/
def discardOnBus (v : Nat) : Option Xfer → Option Xfer
  | some { kind := .fetch f d, seq := q } => some { kind := .fetch f (d || f.voice = v), seq := q }
  | b => b

/-- A voice withdraws its fetches (R92, R116). -/
def withdrawFetches (v : Nat) (r : Run) : Run :=
  let fl := { r.flash with
    queue := r.flash.queue.filter (fun f => f.voice ≠ v)
    line := r.flash.line.filter (fun w => w ≠ v)
    bus := discardOnBus v r.flash.bus }
  { r with flash := fl }.onVoice v (fun x => { x with reserved := 0, waiting := false })

/-- Ready (R93): 1,024 samples buffered, or the fetch cursor at END with nothing reserved. -/
def Voice.ready (x : Voice) : Bool := 1024 ≤ x.buffer.length || (x.cursor.isNone && x.reserved = 0)

/-- The voices that carry a tag (R95). -/
def groupMembers (r : Run) (g : Nat) : List Nat := (List.range 16).filter (fun v => (r.voice v).tag = some g)

/-- The sync-group check (R95): if the group is complete and every member ready, all become PLAYING. -/
def syncCheck (g : Nat) (r : Run) : Run :=
  if r.cue.building = some g then r
  else
    let ms := groupMembers r g
    if ms.all (fun v => (r.voice v).ready) then
      ms.foldl (fun x v => x.onVoice v (fun y => { y with state := .playing, tag := none })) r
    else r

/-- The check a group makes when a member that carried this tag has left it (R95). -/
def leaveGroup (tag : Option Nat) (r : Run) : Run :=
  match tag with
  | some g => syncCheck g r
  | none => r

/-- Whether a voice going IDLE from a state gives a VOICE report (R103). -/
def VState.reports : VState → Bool
  | .priming | .playing | .stopping => true
  | .idle | .primed => false

/-- The voice record once IDLE (R103): the fetch cursor is left as it stands (log entry 11). -/
def Voice.toIdle (x : Voice) : Voice :=
  { x with state := .idle, buffer := [], reserved := 0, waiting := false, missed := 0, release := false
           tag := none, bound := none, startId := .none, primeId := none, stopWhy := none }

/-- A voice goes IDLE for a reason (R103). -/
def goIdle (t : Tables) (v : Nat) (why : VReason) (r : Run) : Run :=
  let x := r.voice v
  if x.state = .idle then r
  else
    let r1 := (withdrawFetches v r).onVoice v Voice.toIdle
    let r2 := pageVoiceIdle t v x.bound (leaveGroup x.tag r1)
    if x.state.reports then r2.report t (.voice v why x.startId) else r2

/-- The end condition (R98). -/
def endCheck (t : Tables) (v : Nat) (r : Run) : Run :=
  let x := r.voice v
  if x.state.reports && x.cursor.isNone && x.reserved = 0 && x.buffer.isEmpty then goIdle t v .ended r else r

/-! ### Refills and the arbiter -/

/-- Whether a voice makes a refill (R90). -/
def wantsRefill (r : Run) (v : Nat) : Bool :=
  let x := r.voice v
  x.state ≠ .idle && !x.waiting && x.cursor.isSome && !r.flash.queue.any (fun f => f.voice = v)
    && 512 ≤ 2048 - x.buffer.length - x.reserved

/-- Where the fetch cursor goes. -/
inductive Advance where
  | to (c : Option Cursor) (release : Bool)
  | fault
deriving DecidableEq, Repr

/-- The fetch cursor leaves a segment by its next (R88). -/
def leaveSegment (t : Tables) (r : Run) (sg : Segment) (release : Bool) : Advance :=
  match sg.next with
  | none => .to none release
  | some n => match segmentRec t n with
    | none => .to none release
    | some s' => if r.dev s'.device = .faulted then .fault else .to (some { seg := n, pass := 0, off := 0 }) release

/-- The fetch cursor advances over the samples of a refill (R88, R99). -/
def advanceCursor (t : Tables) (r : Run) (sg : Segment) (c : Cursor) (count : Nat) (release : Bool) : Advance :=
  if c.off + count < sg.len then .to (some { c with off := c.off + count }) release
  else if sg.loops = 255 then
    if release then leaveSegment t r sg false
    else .to (some { c with pass := min 65535 (c.pass + 1), off := 0 }) release
  else if c.pass < sg.loops then .to (some { c with pass := min 65535 (c.pass + 1), off := 0 }) release
  else leaveSegment t r sg release

/-- Makes voice `v`'s refill (R90): the request joins the fetch queue, the reserved count rises, and the
cursor advances; entering a segment on a FAULTED device makes the voice go IDLE (R88, R105). Where the cursor of that
voice rests the spec does not say: the model leaves it at the place before this refill (log entry 49). -/
def makeRefill (t : Tables) (v : Nat) (r : Run) : Run :=
  match (r.voice v).cursor with
  | none => r
  | some c => match segmentRec t c.seg with
    | none => r.onVoice v (fun x => { x with cursor := none })
    | some sg =>
      let n := min 512 (sg.len - c.off)
      let f : Fetch := { voice := v, dev := sg.device, addr := sg.addr + c.off * sampleSize sg.format
                         format := sg.format, count := n, src := c }
      let r1 := { r with flash := { r.flash with queue := r.flash.queue ++ [f] } }
      match advanceCursor t r sg c n (r.voice v).release with
      | .to c' rel => r1.onVoice v (fun x => { x with reserved := x.reserved + n, cursor := c', release := rel })
      | .fault => goIdle t v .deviceFault (r1.onVoice v (fun x => { x with reserved := x.reserved + n }))

/-- The bytes of an address on the bus, most significant first (R113). -/
def busAddress (pr : Profile) (a : Nat) : List Byte := ((le32 a).take pr.addrBytes).reverse

/-- The read sequence (R113). -/
def readSeq (pr : Profile) (dev addr n : Nat) : BusSeq :=
  { dev := dev, instr := pr.readInstr, instrLanes := pr.instrLanes, addr := busAddress pr addr
    addrLanes := pr.addrLanes, mode := pr.modeByte, dummy := pr.dummy, out := [], inLanes := pr.dataLanes, inBytes := n }

/-- A command sequence (R113): everything on one lane. -/
def commandSeq (dev : Nat) (instr : Byte) (addr out : List Byte) : BusSeq :=
  { dev := dev, instr := instr, instrLanes := 1, addr := addr, addrLanes := 1, mode := none, dummy := 0, out := out
    inLanes := 1, inBytes := 0 }

/-- The sequence of an erase or program command. -/
def cmdSeq (pr : Profile) (dev : Nat) : Cmd → BusSeq
  | .erase a _ => commandSeq dev pr.erase (busAddress pr a) []
  | .program a d => commandSeq dev pr.program (busAddress pr a) d

/-- The transfer that carries out a due step of an operation, if it has one. -/
def stepXfer (t : Tables) (o : Op) : StepKind → Option Xfer
  | .command => match o.cmds with
    | c :: _ => some { kind := .writeEnable o.dev c true, seq := commandSeq o.dev (profileRec t o.dev).writeEnable [] [] }
    | [] => none
  | .read a n => some { kind := .contentRead o.dev a n true, seq := readSeq (profileRec t o.dev) o.dev a n }
  | .reset1 => some { kind := .reset o.dev false true, seq := commandSeq o.dev (profileRec t o.dev).reset1 [] [] }
  | .reset2 => some { kind := .reset o.dev true true, seq := commandSeq o.dev (profileRec t o.dev).reset2 [] [] }
  | .poll => some { kind := .poll o.dev true
                    seq := { commandSeq o.dev (profileRec t o.dev).statusRead [] [] with inBytes := 1 } }

/-- The content step that is due, as a transfer (R117, rule 1). -/
def dueStep (t : Tables) (r : Run) : Option (Op × Xfer) :=
  match r.flash.op with
  | some o => match o.step with
    | .due k => (stepXfer t o k).map (fun x => (o, x))
    | _ => none
  | none => none

/-- The entry of the two whose voice holds fewer buffered samples; the earlier one where they are equal. -/
def fewerBuffered (r : Run) (best : Option Fetch) (f : Fetch) : Option Fetch :=
  match best with
  | none => some f
  | some b => if (r.voice f.voice).buffer.length < (r.voice b.voice).buffer.length then some f else some b

/-- The fetch the arbiter would start (R117, rule 2). -/
def nextFetch (r : Run) : Option Fetch :=
  (r.flash.queue.filter (fun f => r.dev f.dev = .ready)).foldl (fewerBuffered r) none

/-- The arbiter's choice with the bus free (R117), or none if the bus stays as it is. -/
def arbiterStart (t : Tables) (r : Run) : Option Run :=
  match r.flash.bus with
  | some _ => none
  | none => match dueStep t r with
    | some (o, x) => some { r with flash := { r.flash with bus := some x, op := some { o with step := .running } } }
    | none => match nextFetch r with
      | some f => some { r with flash := { r.flash with
          queue := r.flash.queue.filter (fun g => g.voice ≠ f.voice)
          bus := some { kind := .fetch f false
                        seq := readSeq (profileRec t f.dev) f.dev f.addr (f.count * sampleSize f.format) } } }
      | none => none

/-- A voice makes its refill, or joins the waiting line where the queue holds 8 (R90, R116). -/
def askRefill (t : Tables) (v : Nat) (r : Run) : Run :=
  if r.flash.queue.length < 8 then makeRefill t v r
  else { r with flash := { r.flash with line := r.flash.line ++ [v] } }.onVoice v (fun x => { x with waiting := true })

/-- The next thing that can be done: a free place goes to the front of the waiting line (R116), then a
voice asks for its refill (log entry 26: lowest number first), then the arbiter starts a transfer. -/
def pumpOnce (t : Tables) (r : Run) : Option Run :=
  match r.flash.line, decide (r.flash.queue.length < 8) with
  | v :: rest, true =>
    some (makeRefill t v ({ r with flash := { r.flash with line := rest } }.onVoice v (fun x => { x with waiting := false })))
  | _, _ => match (List.range 16).find? (wantsRefill r) with
    | some v => some (askRefill t v r)
    | none => arbiterStart t r

/-- Does what can be done, at most `n` times. -/
def pumpLoop (t : Tables) : Nat → Run → Run
  | 0, r => r
  | n + 1, r => match pumpOnce t r with
    | some r' => pumpLoop t n r'
    | none => r

/-- Carries out every refill, grant and transfer start that has become possible. Each voice asks at most
twice and one transfer starts, so 64 rounds are enough. -/
def pump (t : Tables) (r : Run) : Run := pumpLoop t 64 r

/-! ### The fader and its notices -/

/-- A completion notice for a voice's fader (R102): heeded only in STOPPING. -/
def faderNotice (t : Tables) (v : Nat) (r : Run) : Run :=
  let x := r.voice v
  if x.state = .stopping then
    if (r.lv.get (.fader v)).fine = 0 then goIdle t v (x.stopWhy.getD .stopped) r
    else r.onVoice v (fun y => { y with state := .playing, stopWhy := none })
  else r

/-- Takes a fade's completion that is due on a voice's fader (R6, R8). -/
def completeFader (t : Tables) (v : Nat) (r : Run) : Run :=
  let l := r.lv.get (.fader v)
  if l.completionDue then faderNotice t v { r with lv := r.lv.put l.complete (.fader v) } else r

/-- A write of a voice's fader with the notices it gives (R8, R102). -/
def writeFader (t : Tables) (v code ms : Nat) (r : Run) : Run :=
  let r1 := (completeFader t v r).writeLevel (.fader v) code ms
  if (r1.lv.get (.fader v)).atRest then faderNotice t v r1 else r1

/-- A write of any level, as a request or a FADE action hands it over (R9, R67). A duck attenuation is
not written so. -/
def writeAny (t : Tables) (ref : LevelRef) (code ms : Nat) (r : Run) : Run :=
  match ref with
  | .fader v => pump t (writeFader t v code ms r)
  | .duck _ => r
  | ref => r.writeLevel ref code ms

/-- FADE_COMPLETE: takes the completion of a fade that has reached D and tells the owner (R6, R8). -/
def completeLevel (t : Tables) (ref : LevelRef) (r : Run) : Run :=
  let l := r.lv.get ref
  if l.completionDue then
    match ref with
    | .fader v => pump t (completeFader t v r)
    | .duck z => duckNotice z { r with lv := r.lv.put l.complete (.duck z) }
    | ref => { r with lv := r.lv.put l.complete ref }
  else r

/-! ### Starting, priming, cutting -/

/-- A cut (R93b): STOLEN if the voice was heard, its fetches withdrawn, its data and identities cleared,
its group left and its binding ended. The STOLEN report stands before the ZONE reports of the source's withdrawal:
the spec gives no order (log entry 47; a voice that goes IDLE has the other, log entry 14). -/
def cutVoice (t : Tables) (v : Nat) (r : Run) : Run :=
  let x := r.voice v
  let r1 := if x.state = .playing ∨ x.state = .stopping then r.report t (.voice v .stolen x.startId) else r
  let r2 := (withdrawFetches v r1).onVoice v Voice.toIdle
  pageVoiceCut t x.bound (leaveGroup x.tag r2)

/-- A START on an IDLE voice (R93). The report of one that fails its check of the head segment carries the
identity of that START (log entry 41). -/
def startIdle (t : Tables) (v head code : Nat) (id : Ident) (tag : Option Nat) (r : Run) : Run :=
  match segmentRec t head with
  | none => r.report t (.voice v .noSegment id)
  | some sg =>
    if r.dev sg.device = .faulted then r.report t (.voice v .deviceFault id)
    else
      writeFader t v code 0 (r.onVoice v (fun _ =>
        { Voice.idle with state := .priming, cursor := some { seg := head, pass := 0, off := 0 }
                          startId := id, tag := tag }))

/-- Whether a START's head segment passes its check (R93): its place is used, and its device not FAULTED. -/
def headPlays (t : Tables) (head : Nat) (r : Run) : Bool :=
  match segmentRec t head with
  | some sg => r.dev sg.device ≠ .faulted
  | none => false

/-- A START that cuts its voice (R93b). Where the head segment fails its check the voice is left IDLE, and the
page engine is told so, as of every voice that goes IDLE (R103, R140, R144; log entry 31). -/
def startCut (t : Tables) (v head code : Nat) (id : Ident) (tag : Option Nat) (r : Run) : Run :=
  let r1 := cutVoice t v r
  startIdle t v head code id tag (if headPlays t head r1 then r1 else pageVoiceIdle t v none r1)

/-- Whether a START finds its own prime (R57, R93a). -/
def Voice.primedFor (x : Voice) (id : Ident) : Bool :=
  x.state = .primed && match x.primeId, id with
    | some (c, p), .start c' p' => c = c' && p = p'
    | _, _ => false

/-- A START (R93, R93a, R93b), with the refills that follow. -/
def startVoice (t : Tables) (v head code : Nat) (id : Ident) (tag : Option Nat) (r : Run) : Run :=
  let x := r.voice v
  pump t
    (if x.primedFor id then
      writeFader t v code 0 (r.onVoice v (fun y =>
        { y with state := if tag.isSome then .priming else .playing, tag := tag, primeId := none, startId := id }))
    else if x.state = .idle then startIdle t v head code id tag r
    else startCut t v head code id tag r)

/-- A prime request (R94). -/
def primeVoice (t : Tables) (v head cue place : Nat) (r : Run) : Run :=
  match segmentRec t head with
  | none => r
  | some sg =>
    if (r.voice v).state = .idle ∧ r.dev sg.device ≠ .faulted then
      pump t (r.onVoice v (fun _ =>
        { Voice.idle with state := .primed, cursor := some { seg := head, pass := 0, off := 0 }
                          primeId := some (cue, place) }))
    else r

/-- Whether a voice is PRIMED for a START of a cue. -/
def Voice.primedForCue (x : Voice) (cue : Nat) : Bool :=
  x.state = .primed && match x.primeId with
    | some (c, _) => c = cue
    | none => false

/-- An unprime request for a cue (R94), voices 0 to 15 in turn (log entry 36). -/
def unprime (t : Tables) (cue : Nat) (r : Run) : Run :=
  pump t (forEach 16 (fun v x => if (x.voice v).primedForCue cue then goIdle t v .stopped x else x) r)

/-! ### Stopping and releasing -/

/-- A fade-out begins: the voice is STOPPING and its fader is written (R100). -/
def beginStop (t : Tables) (v ms : Nat) (why : VReason) (r : Run) : Run :=
  writeFader t v 0 ms (r.onVoice v (fun x => { x with state := .stopping, stopWhy := some why }))

/-- A fade-out of a PLAYING or STOPPING voice, or an end at once (R100, R104). A completion that is due on
the fader is taken first, and may already have made the voice IDLE (log entry 25). -/
def fadeOut (t : Tables) (v ms : Nat) (why : VReason) (r : Run) : Run :=
  if ms = 0 then goIdle t v why r
  else
    let r1 := completeFader t v r
    if (r1.voice v).state = .idle then r1 else beginStop t v ms why r1

/-- A STOP (R100). -/
def stopVoice (t : Tables) (v ms : Nat) (r : Run) : Run :=
  pump t (match (r.voice v).state with
    | .idle => r
    | .priming => goIdle t v .stopped r
    | .primed => goIdle t v .stopped r
    | .playing => fadeOut t v ms .stopped r
    | .stopping => fadeOut t v ms .stopped r)

/-- A RELEASE (R99). -/
def releaseVoice (v : Nat) (r : Run) : Run :=
  if (r.voice v).state.reports then r.onVoice v (fun x => { x with release := true }) else r

/-- STOP_ALL at the voice bank (R102a), voices 0 to 15 in turn (log entry 36). -/
def stopAllVoices (t : Tables) (r : Run) : Run := pump t (forEach 16 (fun v x => goIdle t v .stopAll x) r)

/-- The voice bank takes a show stop (R104), each voice by its state when the stop is taken, voices 0 to 15 in
turn (log entry 36). -/
def showStopVoices (t : Tables) (r : Run) : Run :=
  pump t (forEach 16 (fun v x => match (r.voice v).state with
    | .idle => x
    | .stopping => x
    | .priming => goIdle t v .showStop x
    | .primed => goIdle t v .showStop x
    | .playing => fadeOut t v t.settings.stopFadeMs .showStop x) r)

/-! ### Faults -/

/-- The voice's fetch on the bus that will not be discarded, if any. -/
def inFlight (r : Run) (v : Nat) : Option Fetch :=
  match r.flash.bus with
  | some { kind := .fetch f false, seq := _ } => if f.voice = v then some f else none
  | _ => none

/-- The voice's reserved fetches, oldest first (R89). -/
def reservedFetches (r : Run) (v : Nat) : List Fetch :=
  (inFlight r v).toList ++ r.flash.queue.filter (fun f => f.voice = v)

/-- The play cursor (R89). -/
def playCursor (r : Run) (v : Nat) : Option Cursor :=
  match (r.voice v).buffer, reservedFetches r v with
  | s :: _, _ => some s.src
  | [], f :: _ => some f.src
  | [], [] => (r.voice v).cursor

/-- The device a cursor's segment names. -/
def cursorDevice (t : Tables) (c : Option Cursor) : Option Nat :=
  c.bind (fun c => (segmentRec t c.seg).map Segment.device)

/-- Whether a voice is tied to a device (R105): its fetch cursor's segment, a buffered sample, a reserved
fetch, or (with none of these, so the fetch cursor again) its play cursor lies on it. -/
def tiedTo (t : Tables) (r : Run) (v d : Nat) : Bool :=
  let x := r.voice v
  x.state ≠ .idle && (cursorDevice t x.cursor = some d || x.buffer.any (fun s => s.dev = d)
    || (reservedFetches r v).any (fun f => f.dev = d))

/-- The voice bank takes the fault of a device (R105), voices 0 to 15 in turn (log entry 36). -/
def faultVoices (t : Tables) (d : Nat) (r : Run) : Run :=
  pump t (forEach 16 (fun v x => if tiedTo t x v d then goIdle t v .deviceFault x else x) r)

/-! ### Fetch completion -/

/-- The value of a sample from its bytes (R85, R113). -/
def sampleValue : Format → List Byte → Sample
  | .s16, b => signed 16 (u16 b 0) * 256
  | .s24, b => signed 24 (u24 b 0)

/-- The samples of a fetch from the bytes read (R113, R118), each with its origin. -/
def fetchSamples (f : Fetch) (bytes : List Byte) : List BufSample :=
  (List.range f.count).map (fun i =>
    { value := sampleValue f.format ((bytes.drop (i * sampleSize f.format)).take (sampleSize f.format))
      dev := f.dev, src := { f.src with off := f.src.off + i } })

/-- The samples of a completed fetch join the voice's buffer, and missed samples are made up (R91). -/
def Voice.addSamples (x : Voice) (s : List BufSample) : Voice :=
  let n := min x.missed s.length
  { x with reserved := x.reserved - s.length, buffer := (x.buffer ++ s).drop n, missed := x.missed - n }

/-- The PRIMING condition of a voice without a tag (R93). -/
def readyCheck (v : Nat) (r : Run) : Run :=
  let x := r.voice v
  if x.state = .priming ∧ x.tag = none ∧ x.ready then r.onVoice v (fun y => { y with state := .playing }) else r

/-- The voice bank takes the samples of a fetch (R91): PRIMING condition, sync-group check, end condition;
the refill follows with `pump`. -/
def takeSamples (t : Tables) (v : Nat) (s : List BufSample) (r : Run) : Run :=
  let r1 := readyCheck v (r.onVoice v (fun x => x.addSamples s))
  endCheck t v (leaveGroup (r1.voice v).tag r1)

/-! ### Playing -/

/-- The outputs of voices so far, with the state. -/
structure Played where
  run : Run
  out : List Sample

/-- One voice on one frame (R96, R97, R98). -/
def playVoice (t : Tables) (v : Nat) (r : Run) : Run × Sample :=
  let x := r.voice v
  if x.state = .playing ∨ x.state = .stopping then
    match x.buffer with
    | s :: rest =>
      let g := gain t.law (r.lv.get (.fader v)).fine
      (endCheck t v (r.onVoice v (fun y => { y with buffer := rest })), sat (scaled s.value g))
    | [] =>
      if x.cursor.isNone && x.reserved = 0 then (r, 0)
      else
        let r1 := r.onVoice v (fun y => { y with missed := min 4096 (y.missed + 1) })
        (if x.missed = 0 then r1.report t (.underrun v x.startId) else r1, 0)
  else (r, 0)

/-- One voice more on the frame. -/
def playStep (t : Tables) (p : Played) (v : Nat) : Played :=
  { run := (playVoice t v p.run).1, out := p.out ++ [(playVoice t v p.run).2] }

/-- Every voice on one frame, in order of number (log entry 36); the outputs in that order. -/
def playAll (t : Tables) (r : Run) : Played := (List.range 16).foldl (playStep t) { run := r, out := [] }

/-- VOICE_STARVED (R97): a voice whose missed count has reached 4,096 goes IDLE. -/
def starve (t : Tables) (v : Nat) (r : Run) : Run :=
  let x := r.voice v
  if (x.state = .playing ∨ x.state = .stopping) ∧ 4096 ≤ x.missed then pump t (goIdle t v .starved r) else r

end Sys2Proof.Machine
end

