-- ==== Sys2Proof/Machine/Waits.lean ====
section
/-! DEFINITION. The wait list (chapter 5): entering, restarting and cancelling entries. Expiries are in
Cues, because each hands the cue engine a request. -/

namespace Sys2Proof.Machine

open Sys2Proof

/-- Whether two entries have the same kind and key (R71). -/
def WaitKind.same (a b : WaitKind) : Bool := a.code = b.code && a.key = b.key

/-- Places an entry (R73): after every entry whose expiry frame is the same or earlier. -/
def placeWait (w : Wait) : List Wait → List Wait
  | [] => [w]
  | x :: rest => if x.expiry ≤ w.expiry then x :: placeWait w rest else w :: x :: rest

/-- The list without the entry of a kind and key. -/
def dropWait (k : WaitKind) (l : List Wait) : List Wait := l.filter (fun w => !w.what.same k)

/-- What stands after a request whose key an entry already holds (Table 5-1), or none where the request
is ignored. -/
def restartKind (old new : WaitKind) : Option WaitKind :=
  match new, old with
  | .timer _ .single _ _, _ => none
  | .timer id .retrigger per _, .timer _ m _ tgt => some (.timer id m per tgt)
  | w, _ => some w

/-- What a request to enter did; `entered` is false where the list was full (R76). -/
structure Entered where
  run     : Run
  entered : Bool

/-- A request to enter an entry with a time (R74 to R76). -/
def enterWait (t : Tables) (k : WaitKind) (ms : Nat) (r : Run) : Entered :=
  let expiry := r.port.now + frames ms
  match r.waits.find? (fun w => w.what.same k) with
  | some old => match restartKind old.what k with
    | some k' => { run := { r with waits := placeWait { what := k', expiry := expiry } (dropWait k r.waits) }, entered := true }
    | none => { run := r, entered := true }
  | none =>
    if r.waits.length < 32 then
      { run := { r with waits := placeWait { what := k, expiry := expiry } r.waits }, entered := true }
    else { run := r.report t (.waitDropped k .listFull), entered := false }

/-- A TIMER_CANCEL (R81). -/
def cancelTimer (id : Nat) (r : Run) : Run := { r with waits := dropWait (.timer id .single 0 0) r.waits }

/-- Empties the wait list, without reports (R82). -/
def emptyWaits (r : Run) : Run := { r with waits := [] }

/-- The entry that is due next, if its expiry frame has arrived (R77). -/
def dueWait (r : Run) : Option Wait :=
  match r.waits with
  | w :: _ => if r.dueAt w.expiry then some w else none
  | [] => none

end Sys2Proof.Machine
end

