-- ==== Sys2Proof/Machine/Cues.lean ====
section
/-! DEFINITION. The cue engine (chapter 4): the standby and its priming, running an action list, a
firing, GO and GO_TO, the expiries of the wait list, and HELD. -/

namespace Sys2Proof.Machine

open Sys2Proof

/-! ### Standby -/

/-- The standby cue (R55). -/
def standbyCue (t : Tables) (r : Run) : Option Cue := firstEnabledAfter t r.cue.pos

/-- One action of a standby cue, in its priming (R56). -/
def primeAction (t : Tables) (cue place : Nat) (a : Action) (r : Run) : Run :=
  match a with
  | .start v head _ _ => primeVoice t v head cue place r
  | _ => r

/-- Primes a cue (R56): each START whose voice is IDLE at that moment, in list order. Places count from 1
(Table 13-3). -/
def primeCue (t : Tables) (c : Option Cue) (r : Run) : Run :=
  match c with
  | none => r
  | some c => c.actions.zipIdx.foldl (fun x (a, i) => primeAction t c.num (i + 1) a x) r

/-- Unprimes the voices of a cue, if there is one (R55, R60). -/
def unprimeCue (t : Tables) (c : Option Cue) (r : Run) : Run :=
  match c with
  | none => r
  | some c => unprime t c.num r

/-- Whether a recomputation is a standby change (R55); `loaded` is the number of a cue that the edit just
taken loaded. -/
def standbyChanged (kept new : Option Cue) (fresh : Bool) (loaded : Option Nat) : Bool :=
  fresh || kept.map Cue.num != new.map Cue.num || (new.isSome && new.map Cue.num == loaded)

/-- A recomputation of the standby cue (R55). The STANDBY report is given last (log entry 13). -/
def recompute (t : Tables) (moved : Bool) (loaded : Option Nat) (r : Run) : Run :=
  let old := r.cue.kept
  let new := standbyCue t r
  let r1 := { r with cue := { r.cue with kept := new, fresh := false } }
  if standbyChanged old new r.cue.fresh loaded then
    let r2 := standbyNotice t new (unprimeCue t old r1)
    let r3 := if r.cue.held then r2 else primeCue t new r2
    r3.report t (.standby r.cue.pos (new.map Cue.num))
  else if moved then r1.report t (.standby r.cue.pos (new.map Cue.num))
  else r1

/-- Moves the position and recomputes the standby cue (R55, R58). -/
def moveTo (t : Tables) (pos : Nat) (r : Run) : Run :=
  recompute t (pos != r.cue.pos) none { r with cue := { r.cue with pos := pos } }

/-! ### Running an action list -/

/-- The tags the voices carry. -/
def usedTags (r : Run) : List Nat := r.voices.filterMap Voice.tag

/-- A tag no group present has (R67): the part's own choice where it is one (log entry 10), or the least
free number. -/
def chooseTag (r : Run) : Nat :=
  let used := usedTags r
  let c := Config.syncTag used
  if c ≤ 254 ∧ c ∉ used then c else ((List.range 255).find? (fun g => !used.contains g)).getD 0

/-- Whether an action is a START with the sync flag. -/
def Action.isSyncStart : Action → Bool
  | .start _ _ _ sync => sync
  | _ => false

/-- STOP_ALL (R69, R102a, R82): the voice bank, then the wait list. -/
def stopAll (t : Tables) (r : Run) : Run := emptyWaits (stopAllVoices t r)

/-- Hands one action to the block that carries it out (R67, Table 4-3). -/
def runAction (t : Tables) (tag cue place : Nat) (a : Action) (r : Run) : Run :=
  match a with
  | .start v head code sync => startVoice t v head code (.start cue place) (if sync then some tag else none) r
  | .stop v ms => stopVoice t v ms r
  | .release v => releaseVoice v r
  | .fade ref code ms => writeAny t ref code ms r
  | .recall s mode mask ms => (recallScene t s mode mask ms r).run
  | .restore ms => (restoreLatch ms r).run
  | .page k on => if on then raiseSource t .action k r else dropSource t k r
  | .pagePlay k v head => raiseBound t k v (startVoice t v head 231 (.play cue place) none r)
  | .light l c => setLight t l c r
  | .timer id mode per target => (enterWait t (.timer id mode per target) per r).run
  | .timerCancel id => cancelTimer id r
  | .stopAll => stopAll t r

/-- Hands over every action of a cue in list order; places count from 1 (R67, Table 13-3). -/
def runList (t : Tables) (tag : Nat) (c : Cue) (r : Run) : Run :=
  c.actions.zipIdx.foldl (fun x e => runAction t tag c.num (e.2 + 1) e.1 x) r

/-- Says which group's list is running, or that none is (R67). -/
def setBuilding (g : Option Nat) (r : Run) : Run := { r with cue := { r.cue with building := g } }

/-- Runs a cue's action list (R67), and completes its sync group, if it forms one (R95). -/
def runActions (t : Tables) (c : Cue) (r : Run) : Run :=
  let hasGroup := c.actions.any Action.isSyncStart
  let g := chooseTag r
  let done := setBuilding none (runList t g c (setBuilding (if hasGroup then some g else none) r))
  if hasGroup then syncCheck g done else done

/-! ### Firing -/

/-- Step 3 of a firing (R65): the FOLLOW, unless the cause is TIMER. -/
def enterFollow (t : Tables) (c : Cue) (why : Cause) (r : Run) : Run :=
  match c.follow with
  | some ms => if why = .timer then r else (enterWait t (.follow c.num) ms r).run
  | none => r

/-- Step 4 of a firing (R65, R76): the PREWAIT, or the actions at once. -/
def enterPrewait (t : Tables) (c : Cue) (r : Run) : Run :=
  if c.prewait = 0 then runActions t c r
  else
    let e := enterWait t (.prewait c.num) c.prewait r
    if e.entered then e.run else runActions t c e.run

/-- A firing of a cue (R65). -/
def fire (t : Tables) (c : Cue) (why : Cause) (r : Run) : Run :=
  let pos := if why = .timer then r.cue.pos else c.num
  let r1 := { r with cue := { r.cue with pos := pos } }
  let r2 := enterPrewait t c (enterFollow t c why (r1.report t (.cueFired c.num why)))
  if pos = r.cue.pos then r2 else recompute t true none r2

/-- Opens the GO guard window (R61); a guard time of 0 opens none. -/
def openGuard (t : Tables) (r : Run) : Run :=
  if t.settings.guardMs = 0 then r
  else { r with cue := { r.cue with guardEnd := some (r.port.now + frames t.settings.guardMs) } }

/-- What a GO did: the state, and the number of the cue fired or the refusal (R62). -/
structure GoResult where
  run    : Run
  result : Except GoRefusal Nat

/-- A GO from the key or a request (R62). -/
def goCue (t : Tables) (why : Cause) (r : Run) : GoResult :=
  if r.cue.held then { run := r, result := .error .held }
  else if r.guarded then { run := r, result := .error .guarded }
  else match standbyCue t r with
    | none => { run := r, result := .error .endOfList }
    | some c => { run := openGuard t (fire t c why r), result := .ok c.num }

/-- A press of the GO key (R62): a refusal is reported. -/
def goKey (t : Tables) (r : Run) : Run :=
  let g := goCue t .goKey r
  match g.result with
  | .ok _ => g.run
  | .error w => g.run.report t (.goRefused w)

/-- The guard window closes on its closing frame (R61). -/
def closeGuard (r : Run) : Run :=
  match r.cue.guardEnd with
  | some f => if r.dueAt f then { r with cue := { r.cue with guardEnd := none } } else r
  | none => r

/-! ### Expiries -/

/-- A PREWAIT's expiry (R68, R78). -/
def expirePrewait (t : Tables) (cue : Nat) (r : Run) : Run :=
  match findCue t cue with
  | some c => runActions t c r
  | none => r.report t (.waitDropped (.prewait cue) .noCue)

/-- A FOLLOW's expiry (R64, R79). -/
def expireFollow (t : Tables) (cue : Nat) (r : Run) : Run :=
  match firstEnabledAfter t cue with
  | some c => fire t c .follow r
  | none => r

/-- A TIMER's firing, its entry already settled (R66, R80). -/
def fireTimer (t : Tables) (k : WaitKind) (target : Nat) (r : Run) : Run :=
  match findCue t target with
  | some c => if c.enabled then fire t c .timer r else r.report t (.waitDropped k .noTarget)
  | none => r.report t (.waitDropped k .noTarget)

/-- An entry, due, expires (R77 to R80): it is taken off or reloaded, and its request carried out. -/
def expireWait (t : Tables) (w : Wait) (r : Run) : Run :=
  let off := { r with waits := dropWait w.what r.waits }
  match w.what with
  | .prewait c => expirePrewait t c off
  | .follow c => expireFollow t c off
  | .timer _ .continuous per target =>
    fireTimer t w.what target
      { off with waits := placeWait { w with expiry := w.expiry + frames per } off.waits }
  | .timer _ _ _ target => fireTimer t w.what target off

/-- Takes the entry due next, if it is of a kind given by its code (Table 13-10). -/
def expireKind (t : Tables) (code : Nat) (r : Run) : Run :=
  match dueWait r with
  | some w => if w.what.code = code then expireWait t w r else r
  | none => r

/-! ### HELD -/

/-- The cue engine takes a show stop (R60, R55). During the image load its recomputation counts as the first
one (log entry 35). -/
def holdEngine (t : Tables) (r : Run) : Run :=
  let r1 := { r with cue := { r.cue with held := true, guardEnd := none } }
  recompute t false none (unprimeCue t r.cue.kept r1)

/-- The cue engine takes the resume (R60, R55). -/
def resumeEngine (t : Tables) (r : Run) : Run :=
  let r1 := recompute t false none { r with cue := { r.cue with held := false } }
  primeCue t r1.cue.kept r1

end Sys2Proof.Machine
end

