-- ==== Sys2Proof/Machine/Layout.lean ====
section
/-! DEFINITION. The layout of a show image's body (R127, R131; log entry 9): every table in the order of
R127 as numbers of one byte or more, then free bytes, all of it under free bytes. A coding says how a value
is written and how it is read back from the bytes in front. -/

namespace Sys2Proof.Machine

open Sys2Proof

/-- How values are written as bytes, and how one is read, with the bytes behind it. -/
structure Coding (α : Type) where
  put : α → List Byte
  get : List Byte → Option (α × List Byte)

/-! ### Numbers, and codings made of codings -/

/-- A number, seven bits to a byte, the lowest first; `fuel` is at least the number. -/
def numBytes : Nat → Nat → List Byte
  | 0, n => [byte n]
  | fuel + 1, n => if n < 128 then [byte n] else byte (n % 128 + 128) :: numBytes fuel (n / 128)

/-- Reads a number. -/
def numGet : List Byte → Option (Nat × List Byte)
  | [] => none
  | b :: rest =>
    if b.toNat < 128 then some (b.toNat, rest)
    else match numGet rest with
      | some (n, rest') => some (b.toNat - 128 + 128 * n, rest')
      | none => none

/-- Numbers. -/
def numCode : Coding Nat := { put := fun n => numBytes n n, get := numGet }

/-- A value of each of two codings, one behind the other. -/
def pairCode {α β : Type} (a : Coding α) (b : Coding β) : Coding (α × β) :=
  { put := fun x => a.put x.1 ++ b.put x.2
    get := fun l => match a.get l with
      | some (x, l') => match b.get l' with
        | some (y, l'') => some ((x, y), l'')
        | none => none
      | none => none }

/-- Values written as values of another type. -/
def viaCode {α β : Type} (a : Coding α) (there : β → α) (back : α → β) : Coding β :=
  { put := fun x => a.put (there x)
    get := fun l => match a.get l with
      | some (x, l') => some (back x, l')
      | none => none }

/-- Reads a number of values. -/
def manyGet {α : Type} (a : Coding α) : Nat → List Byte → Option (List α × List Byte)
  | 0, l => some ([], l)
  | n + 1, l => match a.get l with
    | some (x, l') => match manyGet a n l' with
      | some (xs, l'') => some (x :: xs, l'')
      | none => none
    | none => none

/-- Lists, with their length in front. -/
def listCode {α : Type} (a : Coding α) : Coding (List α) :=
  { put := fun l => numCode.put l.length ++ l.flatMap a.put
    get := fun l => match numCode.get l with
      | some (n, l') => manyGet a n l'
      | none => none }

/-- A flag. -/
def flagCode : Coding Bool := viaCode numCode Bool.toNat (fun n => n = 1)

/-- Bits. -/
def bitsCode (w : Nat) : Coding (BitVec w) := viaCode numCode BitVec.toNat (BitVec.ofNat w)

/-- A value or none. -/
def optCode {α : Type} (a : Coding α) : Coding (Option α) := viaCode (listCode a) Option.toList List.head?

/-! ### The records -/

/-- The numbers of a source or origin. -/
def sourceNums : Source → Nat × Nat
  | .none => (0, 0)
  | .slot s => (1, s)
  | .voice j => (2, j)

/-- The source or origin of two numbers. -/
def sourceOfNums : Nat × Nat → Source
  | (0, _) => .none
  | (1, s) => .slot s
  | (_, j) => .voice j

/-- The numbers of a level reference. -/
def refNums : LevelRef → Nat × Nat × Nat
  | .crosspoint i m => (0, i, m)
  | .master m => (1, m, 0)
  | .trim i => (2, i, 0)
  | .fader v => (3, v, 0)
  | .zoneProgramme z => (4, z, 0)
  | .duck z => (5, z, 0)

/-- The level reference of three numbers. -/
def refOfNums : Nat × Nat × Nat → LevelRef
  | (0, i, m) => .crosspoint i m
  | (1, m, _) => .master m
  | (2, i, _) => .trim i
  | (3, v, _) => .fader v
  | (4, z, _) => .zoneProgramme z
  | (_, z, _) => .duck z

/-- The numbers of an action (Table 4-1), its kind first. -/
def actionNums : Action → List Nat
  | .start v h c sync => [1, v, h, c, sync.toNat]
  | .stop v ms => [2, v, ms]
  | .release v => [3, v]
  | .fade r c ms => [4, (refNums r).1, (refNums r).2.1, (refNums r).2.2, c, ms]
  | .recall s m mask ms => [5, s, recallModeCode m, mask.toNat, ms]
  | .restore ms => [6, ms]
  | .page s on => [7, s, on.toNat]
  | .pagePlay s v h => [8, s, v, h]
  | .light l c => [9, l, lightCmdCode c]
  | .timer id m per tgt => [10, id, timerModeCode m, per, tgt]
  | .timerCancel id => [11, id]
  | .stopAll => []

/-- The action of numbers. -/
def actionOfNums : List Nat → Action
  | [1, v, h, c, sync] => .start v h c (sync = 1)
  | [2, v, ms] => .stop v ms
  | [3, v] => .release v
  | [4, k, a, b, c, ms] => .fade (refOfNums (k, a, b)) c ms
  | [5, s, m, mask, ms] => .recall s ((recallModeOf m).getD .replace) (BitVec.ofNat 24 mask) ms
  | [6, ms] => .restore ms
  | [7, s, on] => .page s (on = 1)
  | [8, s, v, h] => .pagePlay s v h
  | [9, l, c] => .light l ((lightCmdOf c).getD .off)
  | [10, id, m, per, tgt] => .timer id ((timerModeOf m).getD .single) per tgt
  | [11, id] => .timerCancel id
  | _ => .stopAll

/-- The settings. -/
def settingsCode : Coding Settings :=
  viaCode (pairCode numCode (pairCode numCode (pairCode numCode (pairCode (optCode numCode)
      (pairCode (listCode (optCode numCode)) (pairCode numCode (pairCode (bitsCode 16) numCode)))))))
    (fun x => (x.dimDepth, x.guardMs, x.stopFadeMs, x.stopSource, x.bindings, x.blinkMs, x.reports, x.node))
    (fun (a, b, c, d, e, f, g, h) =>
      { dimDepth := a, guardMs := b, stopFadeMs := c, stopSource := d, bindings := e, blinkMs := f, reports := g, node := h })

/-- The lock flags. -/
def locksCode : Coding Locks :=
  viaCode (pairCode flagCode (pairCode flagCode (pairCode flagCode flagCode)))
    (fun x => (x.cues, x.foldback, x.relay, x.routing))
    (fun (a, b, c, d) => { cues := a, foldback := b, relay := c, routing := d })

/-- The first half of a profile: how a device is read. -/
def profileReadCode : Coding (Nat × Byte × Nat × Option Byte × Nat × Nat × Nat × Nat) :=
  pairCode numCode (pairCode (bitsCode 8) (pairCode numCode (pairCode (optCode (bitsCode 8))
    (pairCode numCode (pairCode numCode (pairCode numCode numCode))))))

/-- The second half of a profile: its commands and its status. -/
def profileCommandCode : Coding (Byte × Byte × Byte × Nat × Byte × Nat × Bool × Byte × Byte × Nat × Nat) :=
  pairCode (bitsCode 8) (pairCode (bitsCode 8) (pairCode (bitsCode 8) (pairCode numCode (pairCode (bitsCode 8)
    (pairCode numCode (pairCode flagCode (pairCode (bitsCode 8) (pairCode (bitsCode 8) (pairCode numCode numCode)))))))))

/-- A flash profile. -/
def profileCode : Coding Profile :=
  viaCode (pairCode profileReadCode profileCommandCode)
    (fun x => ((x.size, x.readInstr, x.addrBytes, x.modeByte, x.dummy, x.instrLanes, x.addrLanes, x.dataLanes),
      (x.writeEnable, x.program, x.erase, x.sector, x.statusRead, x.busyBit, x.busyWhen, x.reset1, x.reset2, x.pollMs, x.pollLimit)))
    (fun ((a, b, c, d, e, f, g, h), (i, j, k, l, m, n, o, p, q, r, s)) =>
      { size := a, readInstr := b, addrBytes := c, modeByte := d, dummy := e, instrLanes := f, addrLanes := g
        dataLanes := h, writeEnable := i, program := j, erase := k, sector := l, statusRead := m, busyBit := n
        busyWhen := o, reset1 := p, reset2 := q, pollMs := r, pollLimit := s })

/-- A source or origin. -/
def sourceCode : Coding Source := viaCode (pairCode numCode numCode) sourceNums sourceOfNums

/-- An input channel record. -/
def inputCode : Coding InputRec :=
  viaCode (pairCode sourceCode (pairCode flagCode flagCode)) (fun x => (x.source, x.invert, x.mute))
    (fun (a, b, c) => { source := a, invert := b, mute := c })

/-- A mix record. -/
def mixCode : Coding MixRec :=
  viaCode (pairCode numCode (pairCode (optCode numCode) (pairCode flagCode numCode)))
    (fun x => (Machine.roleCode x.role, x.slot, x.dim, x.ceiling))
    (fun (a, b, c, d) => { role := (roleOf a).getD .programme, slot := b, dim := c, ceiling := d })

/-- A scene. -/
def sceneCode : Coding Scene :=
  viaCode (pairCode (bitsCode 24) (pairCode (bitsCode 40) (pairCode (bitsCode 24) (listCode numCode))))
    (fun x => (x.mixes, x.inputs, x.masters, x.codes))
    (fun (a, b, c, d) => { mixes := a, inputs := b, masters := c, codes := d })

/-- A zone configuration. -/
def zoneCode : Coding ZoneRec :=
  viaCode (pairCode (optCode numCode) (pairCode (bitsCode 8) (pairCode numCode (pairCode numCode (pairCode numCode
      (pairCode numCode (optCode numCode)))))))
    (fun x => (x.prog, x.accept, x.depth, x.attack, x.hold, x.release, x.slot))
    (fun (a, b, c, d, e, f, g) => { prog := a, accept := b, depth := c, attack := d, hold := e, release := f, slot := g })

/-- A page source configuration. -/
def pageCode : Coding PageRec :=
  viaCode (pairCode sourceCode (pairCode numCode (bitsCode 16))) (fun x => (x.origin, x.gain, x.zones))
    (fun (a, b, c) => { origin := a, gain := b, zones := c })

/-- The class order and the leads. -/
def orderCode : Coding PageOrder :=
  viaCode (pairCode (listCode numCode) (listCode flagCode)) (fun x => (x.order, x.oddLeads))
    (fun (a, b) => { order := a, oddLeads := b })

/-- A cue light configuration. -/
def lightCode : Coding LightRec :=
  viaCode (pairCode flagCode numCode) (fun x => (x.auto, x.goHold)) (fun (a, b) => { auto := a, goHold := b })

/-- A segment record. -/
def segmentCode : Coding Segment :=
  viaCode (pairCode numCode (pairCode numCode (pairCode numCode (pairCode flagCode (pairCode numCode (optCode numCode))))))
    (fun x => (x.device, x.addr, x.len, x.format == .s24, x.loops, x.next))
    (fun (a, b, c, d, e, f) =>
      { device := a, addr := b, len := c, format := if d then .s24 else .s16, loops := e, next := f })

/-- A cue record. -/
def cueCode : Coding Cue :=
  viaCode (pairCode numCode (pairCode (listCode (bitsCode 8)) (pairCode flagCode (pairCode numCode
      (pairCode (optCode numCode) (listCode (viaCode (listCode numCode) actionNums actionOfNums)))))))
    (fun x => (x.num, x.label, x.enabled, x.prewait, x.follow, x.actions))
    (fun (a, b, c, d, e, f) => { num := a, label := b, enabled := c, prewait := d, follow := e, actions := f })

/-! ### The image -/

/-- The tables and the level codes, in the order of R127. -/
def imageCode : Coding Image :=
  viaCode (pairCode settingsCode (pairCode locksCode (pairCode (listCode profileCode) (pairCode (listCode numCode)
      (pairCode (listCode inputCode) (pairCode (listCode mixCode) (pairCode (listCode numCode) (pairCode (listCode sceneCode)
      (pairCode (listCode zoneCode) (pairCode (listCode pageCode) (pairCode orderCode (pairCode (listCode lightCode)
      (pairCode (listCode (optCode segmentCode)) (listCode cueCode))))))))))))))
    (fun i => (i.tables.settings, i.tables.locks, i.tables.profiles, i.tables.law, i.tables.inputs, i.tables.mixes, i.codes,
      i.tables.scenes, i.tables.zones, i.tables.pages, i.tables.order, i.tables.lights, i.tables.segments, i.tables.cues))
    (fun (a, b, c, d, e, f, g, h, i, j, k, l, m, n) =>
      { tables := { settings := a, locks := b, profiles := c, law := d, inputs := e, mixes := f, scenes := h, zones := i
                    pages := j, order := k, lights := l, segments := m, cues := n }
        codes := g })

/-- Bytes under the free bytes of the layout; twice gives the bytes again. -/
def maskBytes (l : List Byte) : List Byte := l.mapIdx (fun k b => b ^^^ Config.imagePad k)

/-- The image body (R127): at most 1,048,560 bytes where the tables need no more. -/
def imageBody (i : Image) : List Byte :=
  let tables := imageCode.put i
  maskBytes (tables ++ (Config.imageFill i).take (1048560 - tables.length))

/-- The image whose body bytes are, if they hold one whole (R131). -/
def imageOf (body : List Byte) : Option Image :=
  match imageCode.get (maskBytes body) with
  | some (i, _) => if imageBody i = body then some i else none
  | none => none

end Sys2Proof.Machine
end

