-- ==== Sys2Proof/Machine/Memory.lean ====
section
/-! DEFINITION. The contents of a flash device: a list of (address, byte), addresses strictly rising, no
entry FFh. An address not listed reads FFh, as an erased byte does (R118, R122; log entry 6). -/

namespace Sys2Proof.Machine

open Sys2Proof

/-- What an unlisted address reads as: the erased byte (R122; for a device never written, log entry 6). -/
def Memory.blank : Byte := 0xFF

/-- The canonical form: addresses strictly rising and above `lo`, no entry blank. -/
def Memory.wfFrom (lo : Nat) : List Host.Cell → Bool
  | [] => true
  | (a, b) :: rest => lo ≤ a && b != Memory.blank && Memory.wfFrom (a + 1) rest

/-- The canonical form of a device's contents. -/
def Memory.wf (m : List Host.Cell) : Bool := Memory.wfFrom 0 m

/-- The byte at an address. -/
def Memory.read : List Host.Cell → Nat → Byte
  | [], _ => Memory.blank
  | (a, b) :: rest, x => if a = x then b else Memory.read rest x

/-- Stores a byte, keeping the form: storing the blank byte removes the entry. -/
def Memory.write : List Host.Cell → Nat → Byte → List Host.Cell
  | [], x, v => if v = Memory.blank then [] else [(x, v)]
  | (a, b) :: rest, x, v =>
    if x < a then (if v = Memory.blank then (a, b) :: rest else (x, v) :: (a, b) :: rest)
    else if x = a then (if v = Memory.blank then rest else (x, v) :: rest)
    else (a, b) :: Memory.write rest x v

/-- `n` bytes in ascending address order (R113). -/
def Memory.readRange (m : List Host.Cell) (x n : Nat) : List Byte :=
  (List.range n).map (fun i => Memory.read m (x + i))

/-- Erases `n` bytes: each then reads FFh (R122). -/
def Memory.erase (m : List Host.Cell) (x n : Nat) : List Host.Cell :=
  m.filter (fun c => c.1 < x || x + n ≤ c.1)

/-- Programs bytes: each address is left with the bitwise AND of old and new (R123). -/
def Memory.program : List Host.Cell → Nat → List Byte → List Host.Cell
  | m, _, [] => m
  | m, x, b :: rest => Memory.program (Memory.write m x (Memory.read m x &&& b)) (x + 1) rest

/-- Leaves `n` bytes holding whatever they hold after a command cut short (R121): free bytes named by `k`. -/
def Memory.scramble : List Host.Cell → Nat → Nat → Nat → List Host.Cell
  | m, _, _, 0 => m
  | m, k, x, n + 1 => Memory.scramble (Memory.write m x (Config.freeByte k x)) k (x + 1) n

/-- The first address a command concerns. -/
def Cmd.addr : Cmd → Nat
  | .erase a _ => a
  | .program a _ => a

/-- The effect of a command that the device has finished (R122, R123). -/
def Cmd.apply (c : Cmd) (m : List Host.Cell) : List Host.Cell :=
  match c with
  | .erase a n => Memory.erase m a n
  | .program a d => Memory.program m a d

/-- The bytes a command concerns are unknown after it was cut short (R121). -/
def Cmd.scramble (c : Cmd) (k : Nat) (m : List Host.Cell) : List Host.Cell :=
  match c with
  | .erase a n => Memory.scramble m k a n
  | .program a d => Memory.scramble m k a d.length

/-- The contents of device `d`. -/
def State.mem (s : State) (d : Nat) : List Host.Cell := if d = 0 then s.flash0 else s.flash1

/-- Changes the contents of device `d`. -/
def State.onMem (s : State) (d : Nat) (f : List Host.Cell → List Host.Cell) : State :=
  if d = 0 then { s with flash0 := f s.flash0 } else { s with flash1 := f s.flash1 }

end Sys2Proof.Machine
end

