-- ==== Sys2Proof/Machine/Flash.lean ====
section
/-! DEFINITION. The flash controller (chapter 7.3 and 7.4): content operations step by step, the
completions of transfers, faults, settles and the show image. -/

namespace Sys2Proof.Machine

open Sys2Proof

/-! ### Changing the parts of the state -/

/-- Changes the runtime state, under the tables. -/
def Part.onRun (f : Tables → Run → Run) (p : Part) : Part := { p with toRun := f p.tables p.toRun }
/-- Changes the part, leaving flash and the queue. -/
def State.onPart (f : Part → Part) (s : State) : State := { s with toPart := f s.toPart }
/-- Changes the runtime state, leaving tables, flash and the queue. -/
def State.onRun (f : Tables → Run → Run) (s : State) : State := s.onPart (Part.onRun f)

/-! ### The show image (R127 to R131) -/

/-- The tables and codes a save would store now (R127, R129). -/
def Part.image (p : Part) : Image := { tables := p.tables, codes := p.lv.codes }

/-- The image header (R204). -/
def imageHeader (body : List Byte) : List Byte :=
  [0x50, 0x48, 0x31, 0x36] ++ le32 1 ++ le32 body.length ++ le32 (crc32 body)

/-- The checks of an image's header, in their order (R131, Table 7-5): the body's length, or the reason. -/
def headerCheck (header : List Byte) : Except ImageFail Nat :=
  let len := u32 header 8
  if header.take 4 ≠ [0x50, 0x48, 0x31, 0x36] then .error .noImage
  else if u32 header 4 ≠ 1 then .error .version
  else if len = 0 ∨ 1048560 < len then .error .length
  else .ok len

/-- The whole image (R127). -/
def imageBytes (i : Image) : List Byte := imageHeader (imageBody i) ++ imageBody i

/-- A quotient rounded up. -/
def ceilDiv (a b : Nat) : Nat := (a + b - 1) / b

/-- The program command of a page of an image. -/
def pageCmd (bytes : List Byte) (p : Nat) : Cmd := .program (256 * p) ((bytes.drop (256 * p)).take 256)

/-- The commands of a save (R130): the sectors upward, the pages from page 1 upward, and page 0 last. -/
def saveCmds (sector : Nat) (bytes : List Byte) : List Cmd :=
  (List.range (ceilDiv bytes.length sector)).map (fun k => Cmd.erase (sector * k) sector)
    ++ ((List.range (ceilDiv bytes.length 256)).tail.map (pageCmd bytes)) ++ [pageCmd bytes 0]

/-! ### Answers -/

/-- What an owner answers to a request (R191): at once, or when its operation ends. -/
inductive Answer where
  | now (st : Status) (data : List Byte)
  | later
deriving DecidableEq, Repr

/-- A part after its owner took a request, with the answer. -/
structure Answered where
  part   : Part
  answer : Answer

/-- A request taken, its data in the reply. -/
def okWith (data : List Byte) (p : Part) : Answered := { part := p, answer := .now .ok data }
/-- A refusal: nothing changes, and the reply carries no data (R192). -/
def refuse (st : Status) (p : Part) : Answered := { part := p, answer := .now st [] }
/-- OK, or ADJUSTED where a field was clamped (R192). -/
def adjusted (clamped : Bool) : Status := if clamped then .adjusted else .ok

/-- Forms the answer in the one place that waits for a deferred reply (R191). -/
def fillPlace (a : Status × List Byte) : List Place → List Place
  | [] => []
  | p :: rest => if p.answer.isNone then { p with answer := some a } :: rest else p :: fillPlace a rest

/-- Hands the control block the answer of the operation that ends (R119); a settle and the image load
have none. -/
def deliver (o : Op) (st : Status) (data : List Byte) (r : Run) : Run :=
  if o.kind = .settle ∨ o.kind = .imageLoad then r
  else { r with ctl := { r.ctl with places := fillPlace (st, data) r.ctl.places } }

/-! ### Content requests (R119, R122 to R125, R129) -/

/-- A new operation, its first step due (R119), with the device's poll interval and limit (R120). -/
def newOp (t : Tables) (k : OpKind) (dev : Nat) (cmds : List Cmd) (st : OpStep) (reply : List Byte) : Op :=
  { kind := k, dev := dev, cmds := cmds, step := st, pollMs := (profileRec t dev).pollMs
    pollLimit := (profileRec t dev).pollLimit, polls := 0, reply := reply }

/-- Takes an operation that passed every check; the arbiter starts its first step if the bus is free. -/
def beginOp (t : Tables) (o : Op) (r : Run) : Run := pump t { r with flash := { r.flash with op := some o } }

/-- Checks 2 and 3 of R119, then the operation is accepted. -/
def acceptOp (o : Op) (p : Part) : Answered :=
  if p.flash.op.isSome then refuse .busy p
  else if p.toRun.dev o.dev = .faulted ∧ o.kind ≠ .reset then refuse .flashFault p
  else { part := p.onRun (fun t r => beginOp t o r), answer := .later }

/-- The image area of device 0 (R127): not to be erased or written by requests. -/
def outsideImage (dev addr : Nat) : Bool := dev ≠ 0 || 1048576 ≤ addr

/-- FLASH_ERASE (R122). -/
def ownFlashErase (p : List Byte) (s : Part) : Answered :=
  let dev := u8 p 0
  let pr := profileRec s.tables dev
  let addr := u32 p 1 * pr.sector
  if dev < 2 ∧ addr < pr.size ∧ outsideImage dev addr then
    acceptOp (newOp s.tables .erase dev [.erase addr pr.sector] (.due .command) (p.take 5)) s
  else refuse .badField s

/-- FLASH_WRITE (R123, R206). -/
def ownFlashWrite (p : List Byte) (s : Part) : Answered :=
  let dev := u8 p 0
  let addr := u32 p 1
  let data := p.drop 5
  if data.length = 0 ∨ 256 < data.length then refuse .badLength s
  else if dev < 2 ∧ addr + data.length ≤ (profileRec s.tables dev).size ∧ outsideImage dev addr
      ∧ addr % 256 + data.length ≤ 256 then
    acceptOp (newOp s.tables .write dev [.program addr data] (.due .command) (p.take 5 ++ le16 data.length)) s
  else refuse .badField s

/-- FLASH_READ (R124). -/
def ownFlashRead (p : List Byte) (s : Part) : Answered :=
  let dev := u8 p 0
  let addr := u32 p 1
  let n := u16 p 5
  if dev < 2 ∧ 1 ≤ n ∧ n ≤ 1000 ∧ addr + n ≤ (profileRec s.tables dev).size then
    acceptOp (newOp s.tables .read dev [] (.due (.read addr n)) (p.take 5)) s
  else refuse .badField s

/-- FLASH_RESET (R125): the reply tells the state the device left. -/
def ownFlashReset (p : List Byte) (s : Part) : Answered :=
  let dev := u8 p 0
  if dev < 2 then
    acceptOp (newOp s.tables .reset dev [] (.due .reset1) [byte dev, byte (s.toRun.dev dev).code]) s
  else refuse .badField s

/-- SAVE_SHOW (R129): the snapshot is taken at acceptance. -/
def ownSaveShow (_ : List Byte) (s : Part) : Answered :=
  let bytes := imageBytes s.image
  acceptOp (newOp s.tables .save 0 (saveCmds (profileRec s.tables 0).sector bytes) (.due .command)
    (le32 bytes.length)) s

/-! ### Steps that wait on frames -/

/-- Whether the operation's next poll is due (R120). -/
def pollIsDue (r : Run) : Bool :=
  match r.flash.op with
  | some o => match o.step with
    | .pollAt f => r.dueAt f
    | _ => false
  | none => false

/-- Whether the operation's next save step is due (R130). -/
def saveStepIsDue (r : Run) : Bool :=
  match r.flash.op with
  | some o => match o.step with
    | .stepAt f => r.dueAt f
    | _ => false
  | none => false

/-- Moves the operation to a step. -/
def setStep (k : OpStep) (r : Run) : Run :=
  { r with flash := { r.flash with op := r.flash.op.map (fun o => { o with step := k }) } }

/-- POLL_DUE (R120): the poll goes to the arbiter. -/
def pollDueNow (t : Tables) (r : Run) : Run := if pollIsDue r then pump t (setStep (.due .poll) r) else r

/-- SAVE_STEP_DUE (R130): the next write enable goes to the arbiter. -/
def saveStepDueNow (t : Tables) (r : Run) : Run := if saveStepIsDue r then pump t (setStep (.due .command) r) else r

/-! ### Completions -/

/-- An operation with all but its step. -/
def Op.rest (o : Op) : Op := { o with step := .running }

/-- Frees the bus. -/
def freeBus (r : Run) : Run := { r with flash := { r.flash with bus := none } }

/-- Ends the operation. -/
def endOp (r : Run) : Run := { r with flash := { r.flash with op := none } }

/-- The operation waits for its next poll, counted from now (R120). -/
def waitPoll (polls : Nat) (r : Run) : Run :=
  { r with flash := { r.flash with op := r.flash.op.map (fun o =>
      { o with step := .pollAt (r.port.now + frames o.pollMs), polls := polls }) } }

/-- FETCH_COMPLETE (R118): `bytes` gives what a device holds. -/
def fetchDone (read : Nat → Nat → Nat → List Byte) (t : Tables) (r : Run) : Run :=
  match r.flash.bus with
  | some { kind := .fetch f discard, seq := _ } =>
    if discard then pump t (freeBus r)
    else
      pump t (takeSamples t f.voice (fetchSamples f (read f.dev f.addr (f.count * sampleSize f.format))) (freeBus r))
  | _ => r

/-- WRITE_ENABLE_COMPLETE (R122, R126): the command follows at once on the held bus, unless abandoned. -/
def writeEnableDone (t : Tables) (r : Run) : Run :=
  match r.flash.bus with
  | some { kind := .writeEnable d c live, seq := _ } =>
    if live then { r with flash := { r.flash with bus := some { kind := .command d c, seq := cmdSeq (profileRec t d) d c } } }
    else pump t (freeBus r)
  | _ => r

/-- FLASH_COMMAND_COMPLETE (R114, R120): the device is WORKING and the polling begins. -/
def commandDone (t : Tables) (r : Run) : Run :=
  match r.flash.bus with
  | some { kind := .command d c, seq := _ } => pump t (waitPoll 0 ((freeBus r).setDev d (.working c)))
  | _ => r

/-- The image load's header has been read: where it passes its checks the body read takes the bus at once,
with device 0's profile at its Table 7-1 values (R110, R131; log entry 32). -/
def imageHeaderDone (header : List Byte) (r : Run) : Run :=
  match headerCheck header with
  | .ok len => { r with flash := { r.flash with
      bus := some { kind := .imageBody len, seq := readSeq Profile.default 0 16 len } } }
  | .error _ => r

/-- CONTENT_READ_COMPLETE (R110, R124, R126). -/
def contentReadDone (read : Nat → Nat → Nat → List Byte) (t : Tables) (r : Run) : Run :=
  match r.flash.bus with
  | some { kind := .imageHeader, seq := _ } => imageHeaderDone (read 0 0 16) r
  | some { kind := .contentRead d a n live, seq := _ } =>
    match live, r.flash.op with
    | true, some o => pump t (deliver o .ok (o.reply ++ read d a n) (endOp (freeBus r)))
    | _, _ => pump t (freeBus r)
  | _ => r

/-- RESET_COMMAND_COMPLETE (R125, R126). -/
def resetDone (t : Tables) (r : Run) : Run :=
  match r.flash.bus with
  | some { kind := .reset d second live, seq := _ } =>
    match live, r.flash.op with
    | true, some o =>
      if second then pump t (deliver o .ok o.reply (endOp ((freeBus r).setDev d .ready)))
      else pump t (setStep (.due .reset2) (freeBus r))
    | _, _ => pump t (freeBus r)
  | _ => r

/-- Whether a status byte reports the device busy (R113). -/
def reportsBusy (pr : Profile) (status : Byte) : Bool := status.getLsbD pr.busyBit == pr.busyWhen

/-- The command a device works on. -/
def workOf (r : Run) (d : Nat) : Option Cmd :=
  match r.dev d with
  | .working c => some c
  | _ => none

/-- The step of a command is over: the next command becomes due on the next frame (R130), or the
operation ends with OK. -/
def commandOver (t : Tables) (o : Op) (r : Run) : Run :=
  match o.cmds with
  | _ :: c :: rest =>
    pump t { r with flash := { r.flash with op := some { o with cmds := c :: rest, step := .stepAt (r.port.now + 1) } } }
  | _ => pump t (deliver o .ok o.reply (endOp r))

/-- A device does not finish within its poll limit (R121): FLASH_FAULT, then the voices' reports (log entry 37). -/
def faultDevice (t : Tables) (o : Op) (d : Nat) (r : Run) : Run :=
  faultVoices t d ((deliver o .flashTimeout [] (endOp (r.setDev d .faulted))).report t (.flashFault d o.kind))

/-- The device has finished its command, whose effect its contents now show (R122, R123; log entry 8). -/
def State.finishWork (d : Nat) (s : State) : State :=
  match workOf s.toRun d with
  | some c => s.onMem d c.apply
  | none => s

/-- A command was cut short: the bytes it concerned are unknown (R121; log entry 8). -/
def State.spoilWork (d : Nat) (s : State) : State :=
  match workOf s.toRun d with
  | some c => { s.onMem d (c.scramble s.serial) with serial := s.serial + 1 }
  | none => s

/-- A save that timed out or was abandoned leaves no image: where its last command concerned the header, the
identifier reads FFh (R130; log entry 46). -/
def State.loseHeader (d : Nat) (c : Cmd) (s : State) : State :=
  if d = 0 ∧ c.addr = 0 then s.onMem 0 (fun m => Memory.erase m 0 4) else s

/-- The same for the command a device works on. -/
def State.loseWork (d : Nat) (s : State) : State :=
  match workOf s.toRun d with
  | some c => s.loseHeader d c
  | none => s

/-- The contents when a live poll finds the device not busy: the command has had its effect (R122, R123), but a
settle leaves no image of the save it finishes (R130; log entry 46). -/
def State.settleWork (o : Op) (d : Nat) (s : State) : State :=
  if o.kind = .settle then (s.finishWork d).loseWork d else s.finishWork d

/-- A live poll of an operation's device completes with a status byte (R120, R121, R130). -/
def livePoll (o : Op) (d : Nat) (status : Byte) (s : State) : State :=
  if reportsBusy (profileRec s.tables d) status = false then
    (s.settleWork o d).onRun (fun t r => commandOver t o ((freeBus r).setDev d .ready))
  else if o.polls + 1 < o.pollLimit then s.onRun (fun t r => pump t (waitPoll (o.polls + 1) (freeBus r)))
  else ((s.spoilWork d).loseWork d).onRun (fun t r => faultDevice t o d (freeBus r))

/-- POLL_COMPLETE (R120, R121, R126). -/
def pollDone (status : Byte) (s : State) : State :=
  match s.flash.bus with
  | some { kind := .poll d live, seq := _ } =>
    match live, s.flash.op with
    | true, some o => livePoll o d status s
    | _, _ => s.onRun (fun t r => pump t (freeBus r))
  | _ => s

/-- What the devices hold, by device, address and count. -/
def State.reader (s : State) (d a n : Nat) : List Byte := Memory.readRange (s.mem d) a n

/-! ### RESTART (R126) -/

/-- A transfer on the bus at a RESTART: it completes, and nothing is made of what it read. -/
def abandonXfer (x : Xfer) : Xfer :=
  match x.kind with
  | .contentRead d a n _ => { x with kind := .contentRead d a n false }
  | .writeEnable d c _ => { x with kind := .writeEnable d c false }
  | .poll d _ => { x with kind := .poll d false }
  | .reset d second _ => { x with kind := .reset d second false }
  | .fetch f _ => { x with kind := .fetch f true }
  | .imageHeader => x
  | .imageBody _ => x
  | .command d c => { x with kind := .command d c }

/-- Whether the operation's erase or program is on the bus. -/
def commandOnBus (r : Run) : Bool :=
  match r.flash.bus with
  | some { kind := .command _ _, seq := _ } => true
  | _ => false

/-- The settle a RESTART begins, if the operation left its device working or its command is on the bus. -/
def settleOp (t : Tables) (r : Run) : Option Op :=
  match r.flash.op with
  | none => none
  | some o =>
    let base := newOp t .settle o.dev [] .settleWait []
    if commandOnBus r then some base
    else if (workOf r o.dev).isSome then
      some { base with step := .pollAt (r.port.now + frames (profileRec t o.dev).pollMs) }
    else none

/-- The flash controller takes a RESTART (R126), the voices being IDLE. -/
def restartFlash (t : Tables) (r : Run) : Run :=
  { r with flash := { r.flash with
      devs := r.flash.devs.map (fun x => if x = .faulted then .ready else x)
      queue := [], line := [], bus := r.flash.bus.map abandonXfer, op := settleOp t r } }

/-- A command still on the bus when power is lost is cut short too (R121; log entry 8). -/
def State.spoilBus (s : State) : State :=
  match s.flash.bus with
  | some { kind := .command d c, seq := _ } => { s.onMem d (c.scramble s.serial) with serial := s.serial + 1 }
  | _ => s

/-- A save abandoned by RESTART leaves no image where power is lost before its settle has ended (R130; log
entry 46). -/
def State.loseSettled (s : State) : State :=
  if s.flash.op.map Op.kind = some .settle then
    match s.flash.bus with
    | some { kind := .command d c, seq := _ } => (s.loseHeader d c).loseWork 0
    | _ => s.loseWork 0
  else s

end Sys2Proof.Machine
end

