-- ==== Sys2Proof/Machine/Show.lean ====
section
/-! DEFINITION. Show control (chapter 9): the show stop and the resume. -/

namespace Sys2Proof.Machine

open Sys2Proof

/-- Gives a SHOW report of the state as it stands (R165). -/
def reportShow (t : Tables) (why : ShowCause) (r : Run) : Run :=
  r.report t (.showChange r.shw.inShow r.shw.stopped t.locks why)

/-- The five blocks take a show stop (Table 9-3), in the table's order (log entry 12). -/
def handStop (t : Tables) (r : Run) : Run :=
  stopLights (raiseStopPage t (showStopVoices t (emptyWaits (holdEngine t r))))

/-- A show stop (R162). -/
def showStopNow (t : Tables) (why : ShowCause) (r : Run) : Run :=
  if r.shw.stopped then r
  else handStop t (reportShow t why { r with shw := { r.shw with stopped := true } })

/-- The resume, with the stopped flag set (R164). -/
def showResumeNow (t : Tables) (r : Run) : Run :=
  resumeLights t (dropStopPage t (resumeEngine t
    (reportShow t .resume { r with shw := { r.shw with stopped := false } })))

end Sys2Proof.Machine
end

