-- ==== Sys2Proof/Machine/Control.lean ====
section
/-! DEFINITION. The control block takes a message (R190, R191): its checks in order, the place in the
reply queue, and the answer formed in it. -/

namespace Sys2Proof.Machine

open Sys2Proof

/-- What an owner does with a request's payload. -/
abbrev Owner := List Byte → Part → Answered

/-- Replaces the control block's state. -/
def Part.withCtl (p : Part) (c : Control) : Part := { p with ctl := c }

/-- Takes a place for a request, its reply not yet formed (R191). -/
def holdPlace (kind : Nat) (m : Msg) (p : Part) : Part :=
  p.withCtl { p.ctl with
    places := p.ctl.places ++ [{ dst := m.src.toNat, kind := kind, tag := m.tag, answer := none }] }

/-- Forms an immediate reply in the place taken last; a deferred one is formed later (R191). -/
def answerPlace (a : Answered) : Part :=
  match a.answer with
  | .now st data => a.part.withCtl { a.part.ctl with
      places := a.part.ctl.places.modify (a.part.ctl.places.length - 1) (fun x => { x with answer := some (st, data) }) }
  | .later => a.part

/-- Whether the control block takes a request: checks 2 and 3 of R190. -/
def canTake (p : Part) : Bool := p.ctl.taking && p.ctl.places.length < 8

/-- Checks 5 to 7 of R190 for a request of a known kind that holds its place. -/
def judge (k : ReqKind) (own : Owner) (payload : List Byte) (p : Part) : Answered :=
  if k.lengthOk payload.length = false then refuse .badLength p
  else if isContent k && p.shw.inShow then refuse .inShow p
  else if isLocked p.tables p.shw.inShow k payload then refuse .locked p
  else own payload p

/-- Takes a request of a known kind (R190). -/
def takeRequest (k : ReqKind) (own : Owner) (m : Msg) (p : Part) : Part :=
  if canTake p then answerPlace (judge k own m.payload (holdPlace k.code m p)) else p

/-- Takes a message of an unknown request kind (check 4 of R190). -/
def takeUnknown (kind : Nat) (m : Msg) (p : Part) : Part :=
  if canTake p then answerPlace (refuse .unknownKind (holdPlace kind m p)) else p

/-- Changes the tables. -/
def Part.withTables (p : Part) (t : Tables) : Part := { p with tables := t }

/-- A request of a row of the table: its kind, its owner, and the message. -/
def State.request (s : State) (k : ReqKind) (own : Owner) (m : Msg) : State := s.onPart (takeRequest k own m)

/-! ### Events taken on the arrival of a frame -/

/-- A zone whose on-air source an event changed has the new one for the current frame (R134, R145). -/
def airAfter (before after : Run) : List (Option Nat) :=
  after.page.air.zipIdx.map (fun (a, z) =>
    if (after.zone z).onAir = (before.zone z).onAir then a else (after.zone z).onAir)

/-- A light whose state an event changed shows its new lamps for the current frame (R171). -/
def lampsAfter (before after : Run) : List (Bool × Bool) :=
  after.stage.lamps.zipIdx.map (fun (a, l) =>
    if (after.light l).state = (before.light l).state then a else lampsOf after.stage.lit (after.light l).state)

/-- An event taken on the arrival of the last frame: what it changes shows for that frame. -/
def onArrival (f : Run → Run) (r : Run) : Run :=
  let x := f r
  { x with page := { x.page with air := airAfter r x }, stage := { x.stage with lamps := lampsAfter r x } }

/-- A command that stands for an event taken on the arrival of the last frame. -/
def State.event (f : Tables → Run → Run) (s : State) : State := s.onRun (fun t r => onArrival (f t) r)

end Sys2Proof.Machine
end

