-- ==== Sys2Proof/Machine/FlashCommands.lean ====
section
/-! DEFINITION. Commands of the flash controller (chapter 7): LOAD_PROFILE, the content requests, the
completions of transfers, and the steps that fall due on frames. -/

namespace Sys2Proof.Machine

open Sys2Proof

/-- Whether every segment on a device lies inside it at a new size (R111). -/
def segmentsFit (t : Tables) (dev size : Nat) : Bool :=
  t.segments.all (fun e => match e with
    | some sg => sg.device ≠ dev || sg.addr + sg.len * sampleSize sg.format ≤ size
    | none => true)

/-- Whether the content engine holds an operation, or a settle, on a device (R112). -/
def opOn (r : Run) (dev : Nat) : Bool :=
  match r.flash.op with
  | some o => o.dev = dev
  | none => false

/-- LOAD_PROFILE (R111, R112). -/
def ownLoadProfile : Owner := fun p s =>
  match profileOf p with
  | some pr =>
    let dev := u8 p 0
    if segmentsFit s.tables dev pr.size = false then refuse .badField s
    else if opOn s.toRun dev then refuse .busy s
    else
      { part := s.withTables { s.tables with profiles := s.tables.profiles.set dev pr }
        answer := .now (adjusted (u16 p 22 ≠ pr.pollMs)) (profileBytes dev pr) }
  | none => refuse .badField s

/-- LOAD_PROFILE. -/
def execLoadProfile (m : Msg) (s : State) : Host.Outcome State Fault Refusal := .next (s.request .loadProfile ownLoadProfile m)
/-- FLASH_ERASE. -/
def execFlashErase (m : Msg) (s : State) : Host.Outcome State Fault Refusal := .next (s.request .flashErase ownFlashErase m)
/-- FLASH_WRITE. -/
def execFlashWrite (m : Msg) (s : State) : Host.Outcome State Fault Refusal := .next (s.request .flashWrite ownFlashWrite m)
/-- FLASH_READ. -/
def execFlashRead (m : Msg) (s : State) : Host.Outcome State Fault Refusal := .next (s.request .flashRead ownFlashRead m)
/-- FLASH_RESET. -/
def execFlashReset (m : Msg) (s : State) : Host.Outcome State Fault Refusal := .next (s.request .flashReset ownFlashReset m)
/-- SAVE_SHOW. -/
def execSaveShow (m : Msg) (s : State) : Host.Outcome State Fault Refusal := .next (s.request .saveShow ownSaveShow m)
/-- FETCH_COMPLETE (R118). -/
def execFetchComplete (s : State) : Host.Outcome State Fault Refusal := .next (s.onRun (fetchDone s.reader))
/-- WRITE_ENABLE_COMPLETE (R122). -/
def execWriteEnableComplete (s : State) : Host.Outcome State Fault Refusal := .next (s.onRun writeEnableDone)
/-- FLASH_COMMAND_COMPLETE (R114, R120). -/
def execFlashCommandComplete (s : State) : Host.Outcome State Fault Refusal := .next (s.onRun commandDone)
/-- POLL_DUE (R120). -/
def execPollDue (s : State) : Host.Outcome State Fault Refusal := .next (s.event pollDueNow)
/-- POLL_COMPLETE (R120, R121), with the status byte the device sent. -/
def execPollComplete (status : Byte) (s : State) : Host.Outcome State Fault Refusal := .next (pollDone status s)
/-- SAVE_STEP_DUE (R130). -/
def execSaveStepDue (s : State) : Host.Outcome State Fault Refusal := .next (s.event saveStepDueNow)
/-- CONTENT_READ_COMPLETE (R124). -/
def execContentReadComplete (s : State) : Host.Outcome State Fault Refusal := .next (s.onRun (contentReadDone s.reader))
/-- RESET_COMMAND_COMPLETE (R125). -/
def execResetCommandComplete (s : State) : Host.Outcome State Fault Refusal := .next (s.onRun resetDone)

end Sys2Proof.Machine
end

