-- ==== Sys2Proof/Machine/LevelCommands.lean ====
section
/-! DEFINITION. Commands of the level store (chapter 1): SET_LEVEL, FADE_LEVEL, LOAD_LAW, and the
completion of a fade. -/

namespace Sys2Proof.Machine

open Sys2Proof

/-- A level request with its time (R9). -/
def ownLevel (p : List Byte) (ms : Nat) (s : Part) : Answered :=
  match refAt p 0 with
  | none => refuse .badField s
  | some (.duck _) => refuse .badField s
  | some ref => okWith [] (s.onRun (fun t r => writeAny t ref (u8 p 3) ms r))

/-- SET_LEVEL (R9). -/
def ownSetLevel : Owner := fun p s => ownLevel p 0 s

/-- FADE_LEVEL (R9). -/
def ownFadeLevel : Owner := fun p s => ownLevel p (u16 p 4) s

/-- The entry values of a LOAD_LAW payload. -/
def lawValues (p : List Byte) : List Nat := (List.range (u8 p 1)).map (fun i => u32 p (2 + 4 * i))

/-- A law with a run of entries replaced (R12). -/
def lawWith (law : List Nat) (first : Nat) (run : List Nat) : List Nat :=
  law.take first ++ run ++ law.drop (first + run.length)

/-- LOAD_LAW (R12). -/
def ownLoadLaw : Owner := fun p s =>
  let first := u8 p 0
  let count := u8 p 1
  let law := lawWith s.tables.law first (lawValues p)
  if p.length ≠ 2 + 4 * count then refuse .badLength s
  else if 1 ≤ count ∧ count ≤ 64 ∧ first + count ≤ 256 ∧ lawOk law then
    okWith [] (s.withTables { s.tables with law := law })
  else refuse .badField s

/-- SET_LEVEL. -/
def execSetLevel (m : Msg) (s : State) : Host.Outcome State Fault Refusal := .next (s.request .setLevel ownSetLevel m)
/-- FADE_LEVEL. -/
def execFadeLevel (m : Msg) (s : State) : Host.Outcome State Fault Refusal := .next (s.request .fadeLevel ownFadeLevel m)
/-- LOAD_LAW. -/
def execLoadLaw (m : Msg) (s : State) : Host.Outcome State Fault Refusal := .next (s.request .loadLaw ownLoadLaw m)
/-- FADE_COMPLETE (R6). -/
def execFadeComplete (ref : LevelRef) (s : State) : Host.Outcome State Fault Refusal :=
  .next (s.event (fun t r => completeLevel t ref r))

end Sys2Proof.Machine
end

