-- ==== Sys2Proof/Machine/SceneCommands.lean ====
section
/-! DEFINITION. Commands of the scene store (chapter 3): LOAD_SCENE, RECALL and RESTORE. -/

namespace Sys2Proof.Machine

open Sys2Proof

/-- LOAD_SCENE (R39). -/
def ownLoadScene : Owner := fun p s =>
  let sc := sceneOf p
  if 32 ≤ u8 p 0 ∨ sc.masters &&& ~~~sc.mixes ≠ 0 then refuse .badField s
  else if sc.codes.length ≠ sceneCodeCount sc then refuse .badLength s
  else okWith [] (s.withTables { s.tables with scenes := s.tables.scenes.set (u8 p 0) sc })

/-- The two numbers of a RECALL or RESTORE reply (R46). -/
def recalledBytes (x : Recalled) : List Byte := le16 x.entries ++ le16 x.writes

/-- RECALL (R46). -/
def ownRecall : Owner := fun p s =>
  match recallModeOf (u8 p 1) with
  | some mode =>
    if u8 p 0 < 32 then
      let x := recallScene s.tables (u8 p 0) mode (BitVec.ofNat 24 (u24 p 4)) (u16 p 2) s.toRun
      okWith (recalledBytes x) (s.onRun (fun _ _ => x.run))
    else refuse .badField s
  | none => refuse .badField s

/-- RESTORE (R45, R46). -/
def ownRestore : Owner := fun p s =>
  if s.latch.isEmpty then refuse .notFound s
  else
    let x := restoreLatch (u16 p 0) s.toRun
    okWith (recalledBytes x) (s.onRun (fun _ _ => x.run))

/-- LOAD_SCENE. -/
def execLoadScene (m : Msg) (s : State) : Host.Outcome State Fault Refusal := .next (s.request .loadScene ownLoadScene m)
/-- RECALL. -/
def execRecall (m : Msg) (s : State) : Host.Outcome State Fault Refusal := .next (s.request .recall ownRecall m)
/-- RESTORE. -/
def execRestore (m : Msg) (s : State) : Host.Outcome State Fault Refusal := .next (s.request .restore ownRestore m)

end Sys2Proof.Machine
end

