-- ==== Sys2Proof/Machine/MixCommands.lean ====
section
/-! DEFINITION. Commands of the mix engine (chapter 2): LOAD_INPUT, LOAD_MIX, TALK_SET, READ_METERS and
the TALK key; and the claims of the slot map (R34, R180). -/

namespace Sys2Proof.Machine

open Sys2Proof

/-- An output of the part, which may claim a ring slot (R180). -/
inductive SlotOwner where
  | mix (m : Nat)
  | zone (z : Nat)
deriving DecidableEq, Repr

/-- The claims of the slot map (R180), with the slot each claims. -/
def slotClaims (t : Tables) : List (SlotOwner × Nat) :=
  t.mixes.zipIdx.filterMap (fun (r, m) => r.slot.map (fun s => (.mix m, s)))
    ++ t.zones.zipIdx.filterMap (fun (r, z) => r.slot.map (fun s => (.zone z, s)))

/-- Whether an output may claim a slot, or none (R34). -/
def slotFree (t : Tables) (o : SlotOwner) (slot : Option Nat) : Bool :=
  match slot with
  | none => true
  | some s => (slotClaims t).all (fun c => c.2 ≠ s || c.1 = o)

/-- LOAD_INPUT (R32): the channel record, and its trim as a set. -/
def ownLoadInput : Owner := fun p s =>
  let i := u8 p 0
  match sourceOf (u8 p 1) (u8 p 2) with
  | some src =>
    if i < 40 ∧ u8 p 4 < 4 then
      let rec' : InputRec := { source := src, invert := u8 p 4 % 2 = 1, mute := u8 p 4 / 2 = 1 }
      okWith [] ((s.withTables { s.tables with inputs := s.tables.inputs.set i rec' }).onRun
        (fun _ r => r.writeLevel (.trim i) (u8 p 3) 0))
    else refuse .badField s
  | none => refuse .badField s

/-- LOAD_MIX (R33, R34). -/
def ownLoadMix : Owner := fun p s =>
  match mixOf p with
  | some r =>
    let m := u8 p 0
    if slotFree s.tables (.mix m) r.slot then
      { part := s.withTables { s.tables with mixes := s.tables.mixes.set m r }
        answer := .now (adjusted (8388607 < u24 p 4)) (mixBytes m r) }
    else refuse .badField s
  | none => refuse .badField s

/-- Sets the talk latch (R30). -/
def setLatch (on : Bool) (r : Run) : Run := { r with mix := { r.mix with talkLatch := on } }

/-- TALK_SET (R30). -/
def ownTalkSet : Owner := fun p s =>
  match flagOf (u8 p 0) with
  | some on => okWith [] (s.onRun (fun _ r => setLatch on r))
  | none => refuse .badField s

/-- The peaks and clip flags as sent (Table 13-8). -/
def meterBytes (m : MixRt) : List Byte := (m.peaks.zip m.clips).flatMap (fun e => le24 e.1 ++ [flagByte e.2])

/-- Clears every meter (R36). -/
def clearMeters (r : Run) : Run :=
  { r with mix := { r.mix with peaks := List.replicate 24 0, clips := List.replicate 24 false } }

/-- READ_METERS (R36). -/
def ownReadMeters : Owner := fun _ s => okWith (meterBytes s.mix) (s.onRun (fun _ r => clearMeters r))

/-- Removes the first mark of a change taken on the last frame (log entry 2). -/
def clearMark (e : KeyEvent) (r : Run) : Run := { r with stage := { r.stage with due := r.stage.due.erase e } }

/-- The TALK key record takes a state (R29). -/
def setTalkKey (down : Bool) (r : Run) : Run := { r with mix := { r.mix with talkKey := down } }

/-- LOAD_INPUT. -/
def execLoadInput (m : Msg) (s : State) : Host.Outcome State Fault Refusal := .next (s.request .loadInput ownLoadInput m)
/-- LOAD_MIX. -/
def execLoadMix (m : Msg) (s : State) : Host.Outcome State Fault Refusal := .next (s.request .loadMix ownLoadMix m)
/-- TALK_SET. -/
def execTalkSet (m : Msg) (s : State) : Host.Outcome State Fault Refusal := .next (s.request .talkSet ownTalkSet m)
/-- READ_METERS. -/
def execReadMeters (m : Msg) (s : State) : Host.Outcome State Fault Refusal := .next (s.request .readMeters ownReadMeters m)
/-- TALK_KEY_CHANGE (R29, R168). -/
def execTalkKeyChange (down : Bool) (s : State) : Host.Outcome State Fault Refusal :=
  .next (s.event (fun _ r => setTalkKey down (clearMark (.talk down) r)))

end Sys2Proof.Machine
end

