-- ==== Sys2Proof/Machine/ShowCommands.lean ====
section
/-! DEFINITION. Commands of show control (chapter 9). -/

namespace Sys2Proof.Machine

open Sys2Proof

/-- Sets the show state and reports the change (R156, R165). -/
def changeShow (t : Tables) (inShow : Bool) (r : Run) : Run :=
  if r.shw.inShow = inShow then r else reportShow t .state { r with shw := { r.shw with inShow := inShow } }

/-- SET_SHOW_STATE (R156). -/
def ownSetShowState : Owner := fun p s =>
  match flagOf (u8 p 0) with
  | some inShow =>
    if inShow && s.flash.op.isSome then refuse .flashBusy s
    else okWith [flagByte inShow] (s.onRun (fun t r => changeShow t inShow r))
  | none => refuse .badField s

/-- A lock flag under a SET_LOCKS field (R161): KEEP, SET or CLEAR. -/
def lockField (n : Nat) (flag : Bool) : Option Bool :=
  if n = 0 then some flag else if n = 1 then some true else if n = 2 then some false else none

/-- The lock flags after a SET_LOCKS payload, or none where a field is out of range (R161). -/
def locksAfter (p : List Byte) (l : Locks) : Option Locks :=
  match lockField (u8 p 0) l.cues, lockField (u8 p 1) l.foldback, lockField (u8 p 2) l.relay,
      lockField (u8 p 3) l.routing with
  | some a, some b, some c, some d => some { cues := a, foldback := b, relay := c, routing := d }
  | _, _, _, _ => none

/-- SET_LOCKS (R161). -/
def ownSetLocks : Owner := fun p s =>
  match locksAfter p s.tables.locks with
  | some l =>
    let changed := l ≠ s.tables.locks
    okWith [lockByte l] ((s.withTables { s.tables with locks := l }).onRun
      (fun t r => if changed then reportShow t .locks r else r))
  | none => refuse .badField s

/-- SHOW_STOP (R163). -/
def ownShowStop : Owner := fun _ s => okWith [flagByte true] (s.onRun (fun t r => showStopNow t .stopRequest r))

/-- SHOW_RESUME (R164). -/
def ownShowResume : Owner := fun _ s =>
  if s.shw.stopped then okWith [] (s.onRun showResumeNow) else refuse .notFound s

/-- SET_SHOW_STATE. -/
def execSetShowState (m : Msg) (s : State) : Host.Outcome State Fault Refusal := .next (s.request .setShowState ownSetShowState m)
/-- SET_LOCKS. -/
def execSetLocks (m : Msg) (s : State) : Host.Outcome State Fault Refusal := .next (s.request .setLocks ownSetLocks m)
/-- SHOW_STOP. -/
def execShowStop (m : Msg) (s : State) : Host.Outcome State Fault Refusal := .next (s.request .showStop ownShowStop m)
/-- SHOW_RESUME. -/
def execShowResume (m : Msg) (s : State) : Host.Outcome State Fault Refusal := .next (s.request .showResume ownShowResume m)
/-- SHOW_STOP_KEY_PRESS (R162, R168). -/
def execShowStopKeyPress (s : State) : Host.Outcome State Fault Refusal :=
  .next (s.event (fun t r => showStopNow t .stopKey (clearMark .stopPress r)))

end Sys2Proof.Machine
end

