-- ==== Sys2Proof/Machine/StageCommands.lean ====
section
/-! DEFINITION. Commands of the cue lights (chapter 10.2). -/

namespace Sys2Proof.Machine

open Sys2Proof

/-- LOAD_LIGHT (R170). -/
def ownLoadLight : Owner := fun p s =>
  match flagOf (u8 p 1) with
  | some auto =>
    if u8 p 0 < 8 ∧ 1 ≤ u16 p 2 then
      okWith [] (s.withTables { s.tables with lights := s.tables.lights.set (u8 p 0) { auto := auto, goHold := u16 p 2 } })
    else refuse .badField s
  | none => refuse .badField s

/-- LIGHT_SET (R174). -/
def ownLightSet : Owner := fun p s =>
  let l := u8 p 0
  match lightCmdOf (u8 p 1) with
  | some c =>
    if l < 8 then
      let s' := s.onRun (fun t r => setLight t l c r)
      okWith [byte (s'.toRun.light l).state.code] s'
    else refuse .badField s
  | none => refuse .badField s

/-- LOAD_LIGHT. -/
def execLoadLight (m : Msg) (s : State) : Host.Outcome State Fault Refusal := .next (s.request .loadLight ownLoadLight m)
/-- LIGHT_SET. -/
def execLightSet (m : Msg) (s : State) : Host.Outcome State Fault Refusal := .next (s.request .lightSet ownLightSet m)
/-- ACKNOWLEDGE (R172). -/
def execAcknowledge (l : Nat) (s : State) : Host.Outcome State Fault Refusal :=
  .next (s.event (fun t r => acknowledgeLight t l (clearMark (.ack l) r)))
/-- GO_HOLD_END (R173). -/
def execGoHoldEnd (l : Nat) (s : State) : Host.Outcome State Fault Refusal := .next (s.event (fun t r => endGoHold t l r))

end Sys2Proof.Machine
end

