-- ==== Sys2Proof/Machine/CueCommands.lean ====
section
/-! DEFINITION. Commands of the cue engine and the wait list (chapters 4 and 5). -/

namespace Sys2Proof.Machine

open Sys2Proof

/-- The list with a cue at the place its number gives it, in place of the cue of that number (R51). -/
def insertCue (c : Cue) : List Cue → List Cue
  | [] => [c]
  | x :: rest =>
    if x.num < c.num then x :: insertCue c rest
    else if x.num = c.num then c :: rest
    else c :: x :: rest

/-- Replaces the cue list. -/
def Part.withCues (s : Part) (l : List Cue) : Part := s.withTables { s.tables with cues := l }

/-- LOAD_CUE (R51, R55). -/
def ownLoadCue : Owner := fun p s =>
  if p.length ≠ cueLength p then refuse .badLength s
  else match cueOf p with
    | none => refuse .badField s
    | some c =>
      if (findCue s.tables c.num).isNone ∧ 512 ≤ s.tables.cues.length then refuse .full s
      else okWith [] ((s.withCues (insertCue c s.tables.cues)).onRun (fun t r => recompute t false (some c.num) r))

/-- DELETE_CUE (R52, R55). -/
def ownDeleteCue : Owner := fun p s =>
  let n := u32 p 0
  if isCueNum n = false then refuse .badField s
  else if (findCue s.tables n).isNone then refuse .notFound s
  else okWith [] ((s.withCues (s.tables.cues.filter (fun c => c.num ≠ n))).onRun (fun t r => recompute t false none r))

/-- CLEAR_CUES (R53, R55). -/
def ownClearCues : Owner := fun _ s => okWith [] ((s.withCues []).onRun (fun t r => moveTo t 0 r))

/-- The status of a GO's refusal (Table 12-2). -/
def refusalStatus : GoRefusal → Status
  | .held => .held
  | .guarded => .guarded
  | .endOfList => .endOfList

/-- GO (R62). -/
def ownGo : Owner := fun _ s =>
  let g := goCue s.tables .goRequest s.toRun
  match g.result with
  | .ok n => okWith (le32 n) (s.onRun (fun _ _ => g.run))
  | .error w => refuse (refusalStatus w) s

/-- GO_TO (R63). -/
def ownGoTo : Owner := fun p s =>
  let n := u32 p 0
  if isCueNum n = false then refuse .badField s
  else if s.cue.held then refuse .held s
  else match findCue s.tables n with
    | none => refuse .notFound s
    | some c =>
      if c.enabled = false then refuse .disabled s
      else if s.guarded then refuse .guarded s
      else okWith (le32 n) (s.onRun (fun t r => openGuard t (fire t c .goTo r)))

/-- SET_STANDBY (R58). -/
def ownSetStandby : Owner := fun p s =>
  let n := u32 p 0
  if isCueNum n = false then refuse .badField s
  else match findCue s.tables n with
    | none => refuse .notFound s
    | some c =>
      if c.enabled = false then refuse .disabled s
      else okWith [] (s.onRun (fun t r => moveTo t (n - 1) r))

/-- READ_CUE (R59). -/
def ownReadCue : Owner := fun p s =>
  let n := u32 p 0
  if isCueNum n = false then refuse .badField s
  else match findCue s.tables n with
    | none => refuse .notFound s
    | some c => okWith (cueBytes c) s

/-- The mode, period and target of a wait entry as sent, all 0 but for a TIMER (Table 13-8). -/
def timerBytes : WaitKind → List Byte
  | .timer _ mode per target => [byte (timerModeCode mode)] ++ le16 per ++ le32 target
  | _ => [0] ++ le16 0 ++ le32 0

/-- A wait entry as sent (Table 13-8). -/
def waitBytes (r : Run) (w : Wait) : List Byte :=
  [byte w.what.code] ++ le32 w.what.key ++ le32 (r.remaining w.expiry) ++ timerBytes w.what

/-- READ_WAITS (R84). -/
def ownReadWaits : Owner := fun _ s => okWith (byte s.waits.length :: s.waits.flatMap (waitBytes s.toRun)) s

/-- LOAD_CUE. -/
def execLoadCue (m : Msg) (s : State) : Host.Outcome State Fault Refusal := .next (s.request .loadCue ownLoadCue m)
/-- DELETE_CUE. -/
def execDeleteCue (m : Msg) (s : State) : Host.Outcome State Fault Refusal := .next (s.request .deleteCue ownDeleteCue m)
/-- CLEAR_CUES. -/
def execClearCues (m : Msg) (s : State) : Host.Outcome State Fault Refusal := .next (s.request .clearCues ownClearCues m)
/-- GO. -/
def execGo (m : Msg) (s : State) : Host.Outcome State Fault Refusal := .next (s.request .go ownGo m)
/-- GO_TO. -/
def execGoTo (m : Msg) (s : State) : Host.Outcome State Fault Refusal := .next (s.request .goTo ownGoTo m)
/-- SET_STANDBY. -/
def execSetStandby (m : Msg) (s : State) : Host.Outcome State Fault Refusal := .next (s.request .setStandby ownSetStandby m)
/-- READ_CUE. -/
def execReadCue (m : Msg) (s : State) : Host.Outcome State Fault Refusal := .next (s.request .readCue ownReadCue m)
/-- READ_WAITS. -/
def execReadWaits (m : Msg) (s : State) : Host.Outcome State Fault Refusal := .next (s.request .readWaits ownReadWaits m)
/-- GO_KEY_PRESS (R62, R168). -/
def execGoKeyPress (s : State) : Host.Outcome State Fault Refusal :=
  .next (s.event (fun t r => goKey t (clearMark .goPress r)))
/-- GUARD_WINDOW_CLOSE (R61). -/
def execGuardWindowClose (s : State) : Host.Outcome State Fault Refusal := .next (s.event (fun _ r => closeGuard r))
/-- PREWAIT_EXPIRY (R78). -/
def execPrewaitExpiry (s : State) : Host.Outcome State Fault Refusal := .next (s.event (fun t r => expireKind t 0 r))
/-- FOLLOW_EXPIRY (R79). -/
def execFollowExpiry (s : State) : Host.Outcome State Fault Refusal := .next (s.event (fun t r => expireKind t 1 r))
/-- TIMER_EXPIRY (R80). -/
def execTimerExpiry (s : State) : Host.Outcome State Fault Refusal := .next (s.event (fun t r => expireKind t 2 r))

end Sys2Proof.Machine
end

