-- ==== Sys2Proof/Machine/PageCommands.lean ====
section
/-! DEFINITION. Commands of the relay and page engine (chapter 8), page keys included. -/

namespace Sys2Proof.Machine

open Sys2Proof

/-- LOAD_ZONE (R151, R34). -/
def ownLoadZone : Owner := fun p s =>
  match zoneOf p with
  | some zr =>
    let z := u8 p 0
    let code := u8 p 2
    if slotFree s.tables (.zone z) zr.slot then
      { part := (s.withTables { s.tables with zones := s.tables.zones.set z zr }).onRun
          (fun t r => arbitrate t (r.writeLevel (.zoneProgramme z) code 0))
        answer := .now (adjusted (120 < u8 p 4)) (zoneBytes z zr code) }
    else refuse .badField s
  | none => refuse .badField s

/-- LOAD_PAGE_SOURCE (R152): a changed origin withdraws the source. -/
def ownLoadPageSource : Owner := fun p s =>
  match pageOf p with
  | some pg =>
    let k := u8 p 0
    let moved := pg.origin ≠ (pageRec s.tables k).origin
    okWith [] ((s.withTables { s.tables with pages := s.tables.pages.set k pg }).onRun
      (fun t r => arbitrate t (if moved then withdraw k r else r)))
  | none => refuse .badField s

/-- LOAD_PAGE_ORDER (R153). -/
def ownLoadPageOrder : Owner := fun p s =>
  match orderOf p with
  | some o => okWith [] ((s.withTables { s.tables with order := o }).onRun arbitrate)
  | none => refuse .badField s

/-- Takes a paging state and mask (R139); DISABLED withdraws every source. -/
def setPaging (t : Tables) (on : Bool) (mask : BitVec 8) (r : Run) : Run :=
  let r1 := { r with page := { r.page with enabled := on, mask := mask } }
  arbitrate t (if on then r1 else withdrawWhere (fun _ => true) r1)

/-- PAGING_SET (R139). -/
def ownPagingSet : Owner := fun p s =>
  match flagOf (u8 p 0) with
  | some on => okWith [] (s.onRun (fun t r => setPaging t on (byte (u8 p 1)) r))
  | none => refuse .badField s

/-- PAGE (R142). -/
def ownPage : Owner := fun p s =>
  let k := u8 p 0
  match flagOf (u8 p 1) with
  | some on =>
    if 8 ≤ k then refuse .badField s
    else if on = false then okWith [] (s.onRun (fun t r => dropSource t k r))
    else if s.page.enabled = false then refuse .disabled s
    else if originIdle s.tables s.toRun k then refuse .badField s
    else okWith [] (s.onRun (fun t r => arbitrate t (setRequested k r)))
  | none => refuse .badField s

/-- The requested sources as one byte (Table 13-10). -/
def requestedByte (r : Run) : Byte := byte (bitsOf (r.page.srcs.map SrcRt.requested))

/-- The frames remaining to an expiry, 0 where there is none. -/
def remainingOf (r : Run) (e : Option Nat) : Nat :=
  match e with
  | some f => r.remaining f
  | none => 0

/-- What READ_ZONE sends (R154, Table 13-8). -/
def readZoneBytes (t : Tables) (r : Run) (z : Nat) : List Byte :=
  let x := r.zone z
  zoneBytes z (zoneRec t z) (r.lv.get (.zoneProgramme z)).code
    ++ [byte (r.lv.get (.duck z)).code, byte x.state.code, optByte x.onAir]
    ++ le32 (if x.state = .hold then remainingOf r x.holdEnd else 0)
    ++ [flagByte r.page.enabled, r.page.mask, requestedByte r] ++ r.page.srcs.map (fun y => optByte y.bound)
    ++ [optByte r.page.stopPage]

/-- READ_ZONE (R154). -/
def ownReadZone : Owner := fun p s =>
  if u8 p 0 < 16 then okWith (readZoneBytes s.tables s.toRun (u8 p 0)) s else refuse .badField s

/-- A zone's hold expires on its expiry frame (R150). -/
def expireHold (t : Tables) (z : Nat) (r : Run) : Run :=
  match (r.zone z).holdEnd with
  | some f => if r.dueAt f then endHold t z r else r
  | none => r

/-- Sets the pressed source of a page key (R169). -/
def setPressed (key : Nat) (src : Option Nat) (r : Run) : Run :=
  { r with stage := { r.stage with pressedSrc := r.stage.pressedSrc.set key src } }

/-- A press of a page key (R169, R141): the binding as it stands is raised and becomes the pressed source. -/
def pressPageKey (t : Tables) (key : Nat) (r : Run) : Run :=
  match t.settings.bindings.getD key none with
  | some k => raiseSource t .key k (setPressed key (some k) r)
  | none => setPressed key none r

/-- A release of a page key (R169, R141): its pressed source is withdrawn. -/
def releasePageKey (t : Tables) (key : Nat) (r : Run) : Run :=
  match r.stage.pressedSrc.getD key none with
  | some k => dropSource t k (setPressed key none r)
  | none => r

/-- LOAD_ZONE. -/
def execLoadZone (m : Msg) (s : State) : Host.Outcome State Fault Refusal := .next (s.request .loadZone ownLoadZone m)
/-- LOAD_PAGE_SOURCE. -/
def execLoadPageSource (m : Msg) (s : State) : Host.Outcome State Fault Refusal := .next (s.request .loadPageSource ownLoadPageSource m)
/-- LOAD_PAGE_ORDER. -/
def execLoadPageOrder (m : Msg) (s : State) : Host.Outcome State Fault Refusal := .next (s.request .loadPageOrder ownLoadPageOrder m)
/-- PAGING_SET. -/
def execPagingSet (m : Msg) (s : State) : Host.Outcome State Fault Refusal := .next (s.request .pagingSet ownPagingSet m)
/-- PAGE_ON: a PAGE request with ON. -/
def execPageOn (m : Msg) (s : State) : Host.Outcome State Fault Refusal := .next (s.request .page ownPage m)
/-- PAGE_OFF: a PAGE request with OFF. -/
def execPageOff (m : Msg) (s : State) : Host.Outcome State Fault Refusal := .next (s.request .page ownPage m)
/-- READ_ZONE. -/
def execReadZone (m : Msg) (s : State) : Host.Outcome State Fault Refusal := .next (s.request .readZone ownReadZone m)
/-- HOLD_EXPIRY (R150). -/
def execHoldExpiry (z : Nat) (s : State) : Host.Outcome State Fault Refusal := .next (s.event (fun t r => expireHold t z r))
/-- PAGE_KEY_PRESS (R141, R169). -/
def execPageKeyPress (key : Nat) (s : State) : Host.Outcome State Fault Refusal :=
  .next (s.event (fun t r => pressPageKey t key (clearMark (.pagePress key) r)))
/-- PAGE_KEY_RELEASE (R141, R169). -/
def execPageKeyRelease (key : Nat) (s : State) : Host.Outcome State Fault Refusal :=
  .next (s.event (fun t r => releasePageKey t key (clearMark (.pageRelease key) r)))

end Sys2Proof.Machine
end

