-- ==== Sys2Proof/Machine/ControlCommands.lean ====
section
/-! DEFINITION. Commands of the control block (chapter 12): LOAD_SETTINGS, READ_STATUS, RESTART and the
carrying out of a RESTART. -/

namespace Sys2Proof.Machine

open Sys2Proof

/-- Whether a field of a LOAD_SETTINGS payload was clamped (R195). -/
def settingsClamped (p : List Byte) (x : Settings) : Bool :=
  u8 p 0 ≠ x.dimDepth || u16 p 1 ≠ x.guardMs || u16 p 10 ≠ x.blinkMs

/-- The next frame is frame 0 of the blink phase (R171; log entry 24). -/
def restartBlink (r : Run) : Run := { r with stage := { r.stage with blinkStart := true } }

/-- LOAD_SETTINGS (R195). -/
def ownLoadSettings : Owner := fun p s =>
  match settingsOf p with
  | some x =>
    { part := (s.withTables { s.tables with settings := x }).onRun (fun _ r => restartBlink r)
      answer := .now (adjusted (settingsClamped p x)) (settingsBytes x) }
  | none => refuse .badField s

/-! ### READ_STATUS (R196, Table 13-8) -/

/-- The cue engine's part (R70). -/
def cueStatus (t : Tables) (r : Run) : List Byte :=
  le32 r.cue.pos ++ optCue ((standbyCue t r).map Cue.num) ++ [flagByte r.cue.held] ++ le16 t.cues.length
    ++ [flagByte r.guarded]

/-- The mix engine's part. -/
def talkStatus (r : Run) : List Byte := [flagByte r.mix.talkKey, flagByte r.mix.talkLatch, flagByte r.mix.talk]

/-- Whether a fetch is in flight (R132). -/
def fetchInFlight (r : Run) : Bool :=
  match r.flash.bus with
  | some { kind := .fetch _ _, seq := _ } => true
  | _ => false

/-- The flash controller's part (R132). -/
def flashStatus (r : Run) : List Byte :=
  r.flash.devs.map (fun d => byte d.code) ++ [byte ((r.flash.op.map (fun o => o.kind.code)).getD 0)
    , byte r.flash.queue.length, flagByte (fetchInFlight r), byte r.flash.line.length]

/-- How many zones are in a state. -/
def zonesIn (r : Run) (x : ZState) : Nat := r.page.zones.countP (fun z => z.state = x)

/-- The page engine's part (R154). -/
def pageStatus (r : Run) : List Byte :=
  [flagByte r.page.enabled, requestedByte r, r.page.mask, optByte r.page.stopPage, byte (zonesIn r .programme)
   , byte (zonesIn r .ducked), byte (zonesIn r .hold), byte (zonesIn r .release)]

/-- A light's state and the frames remaining to its go hold expiry (R177). -/
def lightStatus (r : Run) (x : LightRt) : List Byte :=
  byte x.state.code :: le32 (if x.state = .go then remainingOf r x.goEnd else 0)

/-- The stage signal unit's part (R177). -/
def stageStatus (r : Run) : List Byte :=
  [byte (bitsOf (r.stage.keys.map Debounce.pressed)), byte (bitsOf (r.stage.acks.map Debounce.pressed))]
    ++ r.stage.pressedSrc.map optByte ++ r.stage.lights.flatMap (lightStatus r)

/-- The kind of the message in progress, FFh when there is none (R189). -/
def sendingKind (r : Run) : Byte :=
  match r.port.sending with
  | none => 255
  | some { item := .reply i, sent := _ } => byte ((r.ctl.places[i]?.map (fun x => x.kind + 128)).getD 255)
  | some { item := .report, sent := _ } => byte ((r.ctl.reports.head?.map (fun x => 240 + x.body.index)).getD 255)

/-- What READ_STATUS sends, block by block. -/
def statusBytes (t : Tables) (r : Run) : List Byte :=
  cueStatus t r ++ r.voices.map (fun v => byte v.state.code) ++ talkStatus r ++ flashStatus r ++ pageStatus r
    ++ [flagByte r.shw.inShow, lockByte t.locks, flagByte r.shw.stopped] ++ stageStatus r
    ++ [flagByte r.port.active, byte r.port.node, byte r.port.reasm.length, sendingKind r
        , byte r.ctl.places.length, byte r.ctl.reports.length, flagByte r.ctl.lossPending]

/-- READ_STATUS (R196). -/
def ownReadStatus : Owner := fun _ s => okWith (statusBytes s.tables s.toRun) s

/-! ### RESTART (R197, R198) -/

/-- RESTART (R197): from now on no request is taken. -/
def ownRestart : Owner := fun _ s => okWith [] (s.withCtl { s.ctl with taking := false })

/-- The levels at RESTART (R10). -/
def restartLevels (l : Levels) : Levels :=
  { l.map Level.restart with ducks := l.ducks.map (fun _ => Level.rest 0) }

/-- The stage signal unit at RESTART (R167, R169, R170, R171, R175); the lamps are `onArrival`'s. -/
def restartStage (x : StageRt) : StageRt :=
  { x with keys := x.keys.map (fun _ => { pressed := false, count := 0 })
           acks := x.acks.map (fun _ => { pressed := false, count := 0 })
           due := [], pressedSrc := x.pressedSrc.map (fun _ => none)
           lights := x.lights.map (fun _ => { state := .off, goEnd := none })
           blink := 0, blinkStart := true, standby := none, warned := [] }

/-- The page engine at RESTART (R133, R136, R139, R147); no output has been formed since (R135). -/
def restartPage (x : PageRt) : PageRt :=
  { zones := x.zones.map (fun _ => { state := .programme, holdEnd := none, onAir := none })
    srcs := x.srcs.map (fun _ => { requested := false, bound := none })
    enabled := false, mask := 0, stopPage := none, zoneTerm := x.zoneTerm.map (fun _ => 0)
    pageTerm := x.pageTerm.map (fun _ => 0), air := x.air.map (fun _ => none) }

/-- The mix engine at RESTART (R25, R26, R29). -/
def restartMix (x : MixRt) : MixRt :=
  { talkKey := false, talkLatch := false, peaks := x.peaks.map (fun _ => 0), clips := x.clips.map (fun _ => false)
    y := x.y.map (fun _ => 0) }

/-- The RESTART state of every block (R198), before the cue engine's recomputation; the tables, the node
address, the ring state and a pending IMAGE report are kept (log entry 29). -/
def restartBlocks (t : Tables) (r : Run) : Run :=
  { lv := restartLevels r.lv
    mix := restartMix r.mix
    latch := []
    cue := { pos := 0, kept := none, fresh := true, held := false, guardEnd := none, building := none }
    waits := []
    voices := r.voices.map Voice.toIdle
    flash := (restartFlash t r).flash
    page := restartPage r.page
    shw := { inShow := false, stopped := false }
    stage := restartStage r.stage
    port := { r.port with capture := none, reasm := [], sending := none }
    ctl := { places := [], reports := [], lossPending := false, taking := true, restartDue := false } }

/-- Carries out a RESTART (R198), if it is due. -/
def carryRestart (t : Tables) (r : Run) : Run :=
  if r.ctl.restartDue then pump t (recompute t false none (restartBlocks t r)) else r

/-- LOAD_SETTINGS. -/
def execLoadSettings (m : Msg) (s : State) : Host.Outcome State Fault Refusal := .next (s.request .loadSettings ownLoadSettings m)
/-- READ_STATUS. -/
def execReadStatus (m : Msg) (s : State) : Host.Outcome State Fault Refusal := .next (s.request .readStatus ownReadStatus m)
/-- RESTART. -/
def execRestart (m : Msg) (s : State) : Host.Outcome State Fault Refusal := .next (s.request .restart ownRestart m)
/-- RESTART_CARRIED_OUT (R198). -/
def execRestartCarriedOut (s : State) : Host.Outcome State Fault Refusal := .next (s.event carryRestart)

end Sys2Proof.Machine
end

