-- ==== Sys2Proof/Machine/Start.lean ====
section
/-! DEFINITION. Power-on and the image load (chapter 7.4, R131; chapter 12, R199): the checks an image
must pass, POWER_ON and IMAGE_LOAD_END. -/

namespace Sys2Proof.Machine

open Sys2Proof

/-! ### The checks of an image's tables (Table 7-5): those each load request would apply -/

/-- An index below a bound, or none. -/
def optBelow (n : Nat) : Option Nat → Bool
  | some x => x < n
  | none => true

/-- A source or origin in range (R32, R152). -/
def sourceOk : Source → Bool
  | .none => true
  | .slot s => s < 64
  | .voice j => j < 16

/-- Settings in the ranges their owners give (R31, R61, R101, R146, R169, R171, R195). -/
def settingsOk (x : Settings) : Bool :=
  x.dimDepth ≤ 80 && x.guardMs ≤ 5000 && x.stopFadeMs < 65536 && optBelow 8 x.stopSource
    && x.bindings.length = 4 && x.bindings.all (optBelow 8) && 100 ≤ x.blinkMs && x.blinkMs ≤ 5000
    && x.reports.toNat < 8192 && x.node < 256

/-- A profile in the ranges of R111 for its device. -/
def profileOk (dev : Nat) (x : Profile) : Bool :=
  let lane := fun n => n = 1 || n = 2 || n = 4
  deviceSizes.contains x.size && (dev ≠ 0 || 2097152 ≤ x.size)
    && (x.addrBytes = 4 || (x.addrBytes = 3 && x.size ≤ 16777216)) && x.dummy ≤ 15
    && lane x.instrLanes && lane x.addrLanes && lane x.dataLanes && (x.sector = 4096 || x.sector = 65536)
    && x.busyBit ≤ 7 && 1 ≤ x.pollMs && x.pollMs ≤ 255 && 1 ≤ x.pollLimit && x.pollLimit < 65536

/-- A mix record in range (R33). -/
def mixOk (x : MixRec) : Bool := optBelow 64 x.slot && 1 ≤ x.ceiling && x.ceiling ≤ 8388607

/-- A scene as R39 checks it. -/
def sceneOk (x : Scene) : Bool :=
  x.masters &&& ~~~x.mixes = 0 && x.codes.length = sceneCodeCount x && x.codes.all (fun c => c ≤ 255)

/-- A zone configuration in range (R151). -/
def zoneOk (x : ZoneRec) : Bool :=
  optBelow 24 x.prog && x.depth ≤ 120 && x.attack < 65536 && x.hold < 65536 && x.release < 65536 && optBelow 64 x.slot

/-- A page source configuration in range (R152). -/
def pageOk (x : PageRec) : Bool := sourceOk x.origin && x.gain ≤ 255

/-- A cue light configuration in range (R170). -/
def lightOk (x : LightRec) : Bool := 1 ≤ x.goHold && x.goHold < 65536

/-- A segment record in range (R86), inside its device under the profiles. -/
def segmentOk (profiles : List Profile) (x : Segment) : Bool :=
  x.device < 2 && 1 ≤ x.len && x.len ≤ 16777215 && x.loops ≤ 255 && optBelow 1024 x.next && segmentFits profiles x

/-- An action in the ranges of Table 4-1. -/
def actionOk : Action → Bool
  | .start v h c _ => v < 16 && h < 1024 && c ≤ 255
  | .stop v ms => v < 16 && ms < 65536
  | .release v => v < 16
  | .fade (.duck _) _ _ => false
  | .fade ref c ms => refOk ref && c ≤ 255 && ms < 65536
  | .recall s _ _ ms => s < 32 && ms < 65536
  | .restore ms => ms < 65536
  | .page k _ => k < 8
  | .pagePlay k v h => k < 8 && v < 16 && h < 1024
  | .light l _ => l < 8
  | .timer id _ per tgt => id < 16 && 1 ≤ per && per < 65536 && isCueNum tgt
  | .timerCancel id => id < 16
  | .stopAll => true

/-- A cue record as R51 checks it. -/
def cueOk (c : Cue) : Bool :=
  isCueNum c.num && c.label.length ≤ 24 && c.label.all (fun b => 0x20 ≤ b.toNat && b.toNat ≤ 0x7E)
    && c.prewait < 65536 && (match c.follow with | some ms => 1 ≤ ms && ms < 65536 | none => true)
    && c.actions.length ≤ 8 && c.actions.all actionOk

/-- Cue numbers strictly ascending, each above `lo` (R49). -/
def cuesAscendFrom (lo : Nat) : List Cue → Bool
  | [] => true
  | c :: rest => lo < c.num && cuesAscendFrom c.num rest

/-- The cue list is as R49 has it: at most 512 cues in strictly ascending number. -/
def cueListOk (l : List Cue) : Bool := l.length ≤ 512 && cuesAscendFrom 0 l

/-- No slot is claimed twice (R180). -/
def claimsDistinct (t : Tables) : Bool := decide ((slotClaims t).map Prod.snd).Nodup

/-- Every check a show image's tables must pass (Table 7-5, CONTENT). -/
def tablesValid (t : Tables) : Bool :=
  settingsOk t.settings && t.profiles.length = 2 && profileOk 0 (profileRec t 0) && profileOk 1 (profileRec t 1)
    && lawOk t.law && t.inputs.length = 40 && t.inputs.all (fun x => sourceOk x.source)
    && t.mixes.length = 24 && t.mixes.all mixOk && t.scenes.length = 32 && t.scenes.all sceneOk
    && t.zones.length = 16 && t.zones.all zoneOk && claimsDistinct t && t.pages.length = 8 && t.pages.all pageOk
    && isClassOrder t.order.order && t.order.oddLeads.length = 4 && t.lights.length = 8 && t.lights.all lightOk
    && t.segments.length = 1024
    && t.segments.all (fun e => match e with | some sg => segmentOk t.profiles sg | none => true)
    && cueListOk t.cues && t.cues.all cueOk

/-- Every check of an image's contents: the tables, and 1,056 level codes. -/
def imageValid (i : Image) : Bool := tablesValid i.tables && i.codes.length = 1056 && i.codes.all (fun c => c ≤ 255)

/-! ### The image load -/

/-- The image check (R131, Table 7-5), from what flash holds: `read` gives bytes of device 0 by address and
count. -/
def checkImage (read : Nat → Nat → List Byte) : Except ImageFail Image :=
  match headerCheck (read 0 16) with
  | .error w => .error w
  | .ok len =>
    if crc32 (read 16 len) ≠ u32 (read 0 16) 12 then .error .crc
    else match imageOf (read 16 len) with
      | some i => if imageValid i then .ok i else .error .content
      | none => .error .content

/-- The part when the image load ends (R131, R199): the half-period is taken, so the blink phase starts anew
(R171; log entry 24), the cue engine makes its first recomputation, the IMAGE report is kept for the first
frame, and requests are taken from now on. -/
def loadEnded (res : Option ImageFail) (t : Tables) (r : Run) : Run :=
  pump t (recompute t false none
    { restartBlink r with
      flash := { r.flash with devs := r.flash.devs.map (fun _ => .ready), bus := none, op := none, imageReport := some res }
      ctl := { r.ctl with taking := true } })

/-- Takes every table and every level code from an accepted image (R131, R10). -/
def takeImage (i : Image) (p : Part) : Part :=
  (Part.onRun (fun _ r => { r with lv := Levels.ofCodes i.codes }) p).withTables i.tables

/-- What a part without an accepted image starts from (R131, R10): every table and every code at its default. -/
def defaultImage : Image := { tables := Tables.default, codes := Levels.default.codes }

/-- Whether the image load's read, of the header or of the body, is on the bus. -/
def readingImage (r : Run) : Bool :=
  match r.flash.bus with
  | some { kind := .imageHeader, seq := _ } => true
  | some { kind := .imageBody _, seq := _ } => true
  | _ => false

/-- IMAGE_LOAD_END (R131): the read is over, whichever part of it the bus shows (log entry 32), and every
table is taken from the accepted image, or every table at its default. -/
def imageLoadEnd (s : State) : State :=
  if readingImage s.toRun then
    match checkImage (s.reader 0) with
    | .ok i => (s.onPart (takeImage i)).onRun (loadEnded none)
    | .error w => (s.onPart (takeImage defaultImage)).onRun (loadEnded (some w))
  else s

/-! ### Power-on -/

/-- The node address the straps give (R184). -/
def strapNode (straps : Byte) : Nat := if straps = 0 ∨ straps = 255 then 254 else straps.toNat

/-- POWER_ON (R199): every runtime state at its power-on value, the tables at their defaults until the
image load ends (log entry 4); flash keeps what it holds, but for a command cut short (log entries 8 and 46). -/
def powerOn (straps : Byte) (s : State) : State :=
  let s1 := (((s.spoilBus).spoilWork 0).spoilWork 1).loseSettled
  s1.onPart (fun _ => { toRun := Run.powerOn (strapNode straps), tables := Tables.default })

/-- POWER_ON. -/
def execPowerOn (straps : Byte) (s : State) : Host.Outcome State Fault Refusal := .next (powerOn straps s)
/-- IMAGE_LOAD_END, whose operand says nothing: what the load finds it reads from flash. -/
def execImageLoadEnd (_ : Unit) (s : State) : Host.Outcome State Fault Refusal := .next (imageLoadEnd s)

end Sys2Proof.Machine
end

