-- ==== Sys2Proof/Machine/VoiceCommands.lean ====
section
/-! DEFINITION. Commands of the voice bank (chapter 6): LOAD_SEGMENT, VOICE in its three operations,
READ_VOICE, the STOP_ALL request, and VOICE_STARVED. -/

namespace Sys2Proof.Machine

open Sys2Proof

/-- Whether a segment is that of the fetch cursor of a voice that is not IDLE (R86). -/
def segmentInUse (r : Run) (n : Nat) : Bool :=
  r.voices.any (fun x => x.state ≠ .idle && (x.cursor.map Cursor.seg) == some n)

/-- LOAD_SEGMENT (R86). -/
def ownLoadSegment : Owner := fun p s =>
  let n := u16 p 0
  match segmentOf p with
  | some sg =>
    if 1024 ≤ n ∨ segmentFits s.tables.profiles sg = false then refuse .badField s
    else if segmentInUse s.toRun n then refuse .busy s
    else okWith [] (s.withTables { s.tables with segments := s.tables.segments.set n (some sg) })
  | none => refuse .badField s

/-- The data of a VOICE reply: the voice's state (Table 13-8). -/
def voiceReply (v : Nat) (s : Part) : Answered := okWith [byte (s.toRun.voice v).state.code] s

/-- VOICE START (R108). -/
def voiceStart (v head code : Nat) (s : Part) : Answered :=
  if 1024 ≤ head then refuse .badField s
  else if s.shw.stopped then refuse .held s
  else match segmentRec s.tables head with
    | none => refuse .notFound s
    | some sg =>
      if s.toRun.dev sg.device = .faulted then refuse .flashFault s
      else voiceReply v (s.onRun (fun t r => startVoice t v head code .none none r))

/-- VOICE (R108). -/
def ownVoice : Owner := fun p s =>
  let v := u8 p 0
  if 16 ≤ v then refuse .badField s
  else if u8 p 1 = 0 then voiceStart v (u16 p 2) (u8 p 4) s
  else if u8 p 1 = 1 ∧ u8 p 4 = 0 then voiceReply v (s.onRun (fun t r => stopVoice t v (u16 p 2) r))
  else if u8 p 1 = 2 ∧ zerosFrom p 2 then voiceReply v (s.onRun (fun _ r => releaseVoice v r))
  else refuse .badField s

/-- The five bytes of a value, least significant first. -/
def bytes5 (x : BitVec 40) : List Byte := (List.range 5).map (fun i => (x >>> (8 * i)).truncate 8)

/-- A voice's record as READ_VOICE sends it (R109, Table 13-8). -/
def voiceBytes (r : Run) (v : Nat) : List Byte :=
  let x := r.voice v
  [byte x.state.code] ++ identBytes x.startId ++ primeBytes x.primeId
    ++ cursorBytes (bytes5 (Config.endCursor r.port.now v)) x.cursor
    ++ cursorBytes (bytes5 (Config.endCursor r.port.now (v + 16))) (playCursor r v)
    ++ le16 x.buffer.length ++ le16 x.reserved ++ [flagByte x.waiting] ++ le16 x.missed
    ++ [flagByte x.release, optByte x.tag, optByte x.bound, optByte (x.stopWhy.map VReason.code)
        , byte (r.lv.get (.fader v)).code]

/-- READ_VOICE (R109). -/
def ownReadVoice : Owner := fun p s =>
  if u8 p 0 < 16 then okWith (voiceBytes s.toRun (u8 p 0)) s else refuse .badField s

/-- The STOP_ALL request (R102a, R82). It has no row of its own; FRAME_ARRIVAL's lane can carry it. -/
def ownStopAll : Owner := fun _ s => okWith [] (s.onRun (fun t r => stopAll t r))

/-- LOAD_SEGMENT. -/
def execLoadSegment (m : Msg) (s : State) : Host.Outcome State Fault Refusal := .next (s.request .loadSegment ownLoadSegment m)
/-- VOICE_START: a VOICE request whose operation is START. -/
def execVoiceStart (m : Msg) (s : State) : Host.Outcome State Fault Refusal := .next (s.request .voice ownVoice m)
/-- VOICE_STOP: a VOICE request whose operation is STOP. -/
def execVoiceStop (m : Msg) (s : State) : Host.Outcome State Fault Refusal := .next (s.request .voice ownVoice m)
/-- VOICE_RELEASE: a VOICE request whose operation is RELEASE. -/
def execVoiceRelease (m : Msg) (s : State) : Host.Outcome State Fault Refusal := .next (s.request .voice ownVoice m)
/-- READ_VOICE. -/
def execReadVoice (m : Msg) (s : State) : Host.Outcome State Fault Refusal := .next (s.request .readVoice ownReadVoice m)
/-- VOICE_STARVED (R97). -/
def execVoiceStarved (v : Nat) (s : State) : Host.Outcome State Fault Refusal := .next (s.event (fun t r => starve t v r))

end Sys2Proof.Machine
end

