-- ==== Sys2Proof/Machine/Messages.lean ====
section
/-! DEFINITION. A message of any kind (R190): the owner of each request kind (Table 12-1), and the
messages that are no request of the part. -/

namespace Sys2Proof.Machine

open Sys2Proof

/-- The owner of a request kind (Table 12-1). -/
def ownerOf : ReqKind → Owner
  | .setLevel => ownSetLevel | .fadeLevel => ownFadeLevel | .loadLaw => ownLoadLaw
  | .loadInput => ownLoadInput | .loadMix => ownLoadMix | .talkSet => ownTalkSet | .readMeters => ownReadMeters
  | .loadScene => ownLoadScene | .recall => ownRecall | .restore => ownRestore
  | .loadCue => ownLoadCue | .deleteCue => ownDeleteCue | .clearCues => ownClearCues | .go => ownGo | .goTo => ownGoTo
  | .setStandby => ownSetStandby | .readWaits => ownReadWaits
  | .loadSegment => ownLoadSegment | .voice => ownVoice | .readVoice => ownReadVoice | .stopAll => ownStopAll
  | .loadProfile => ownLoadProfile | .flashErase => ownFlashErase | .flashWrite => ownFlashWrite
  | .flashRead => ownFlashRead | .flashReset => ownFlashReset | .saveShow => ownSaveShow
  | .loadZone => ownLoadZone | .loadPageSource => ownLoadPageSource | .loadPageOrder => ownLoadPageOrder
  | .pagingSet => ownPagingSet | .page => ownPage | .readZone => ownReadZone
  | .setShowState => ownSetShowState | .setLocks => ownSetLocks | .showStop => ownShowStop | .showResume => ownShowResume
  | .loadLight => ownLoadLight | .lightSet => ownLightSet
  | .loadSettings => ownLoadSettings | .readStatus => ownReadStatus | .restart => ownRestart
  | .readCue => ownReadCue

/-- Takes a message of a kind (R190): a kind of 128 or above is discarded, a kind below it that is no
request kind is refused UNKNOWN_KIND, and a request goes to its owner. -/
def takeMessage (kind : Nat) (m : Msg) (p : Part) : Part :=
  if 128 ≤ kind then p
  else match ReqKind.ofCode kind with
    | some k => takeRequest k (ownerOf k) m p
    | none => takeUnknown kind m p

/-- MESSAGE_NOT_REQUEST (check 1 of R190), and any message of the kind given (log entry 30). -/
def execMessageNotRequest (kind : Byte) (m : Msg) (s : State) : Host.Outcome State Fault Refusal :=
  .next (s.onPart (takeMessage kind.toNat m))
/-- UNKNOWN_KIND (check 4 of R190), and any message of the kind given (log entry 30). -/
def execUnknownKind (kind : Byte) (m : Msg) (s : State) : Host.Outcome State Fault Refusal :=
  .next (s.onPart (takeMessage kind.toNat m))

end Sys2Proof.Machine
end

