-- ==== Sys2Proof/Machine/Due.lean ====
section
/-! DEFINITION. The part's own events that are due on the last frame taken, in the order the model takes
them where their commands do not (log entry 1). -/

namespace Sys2Proof.Machine

open Sys2Proof

/-- Completes the fades of the kinds that give no notices (R6, R8). -/
def completeQuiet (r : Run) : Run :=
  { r with lv := { r.lv with
      crosspoints := r.lv.crosspoints.map Level.complete, masters := r.lv.masters.map Level.complete
      trims := r.lv.trims.map Level.complete, programmes := r.lv.programmes.map Level.complete } }

/-- Completes every fade that has reached its end. -/
def completeFades (t : Tables) (r : Run) : Run :=
  forEach 16 (fun z => completeLevel t (.duck z)) (forEach 16 (fun v => completeLevel t (.fader v)) (completeQuiet r))

/-- Hands on a debounced change (R168, R169, R172). -/
def handOn (t : Tables) (e : KeyEvent) (r : Run) : Run :=
  match e with
  | .goPress => goKey t r
  | .talk down => setTalkKey down r
  | .stopPress => showStopNow t .stopKey r
  | .pagePress key => pressPageKey t key r
  | .pageRelease key => releasePageKey t key r
  | .ack l => acknowledgeLight t l r

/-- Hands on every change taken on the last frame, in the order `readLines` left them (log entry 45). -/
def handOnAll (t : Tables) (r : Run) : Run :=
  r.stage.due.foldl (fun x e => handOn t e x) { r with stage := { r.stage with due := [] } }

/-- Takes the expiries of the wait list in list order (R77), at most `n`. -/
def expireAll (t : Tables) : Nat → Run → Run
  | 0, r => r
  | n + 1, r => match dueWait r with
    | some w => expireAll t n (expireWait t w r)
    | none => r

/-- Whether a reassembly slot has taken no fragment for 48,000 frames (R186). -/
def reasmExpired (r : Run) (x : Reasm) : Bool := x.last + 48000 ≤ r.port.now

/-- Closes a source's slot, if its time has run out (R186). -/
def timeoutReasm (src : Nat) (r : Run) : Run :=
  { r with port := { r.port with reasm := r.port.reasm.filter (fun x => !(x.src = src && reasmExpired r x)) } }

/-- Closes every slot whose time has run out (R186). -/
def timeoutAll (r : Run) : Run :=
  { r with port := { r.port with reasm := r.port.reasm.filter (fun x => !reasmExpired r x) } }

/-- Every event of a playing voice, zone, light or device that is due. A fetch that an earlier one makes possible on a
free bus is started before the due poll or save step (R117; log entry 48). -/
def dueTimers (t : Tables) (r : Run) : Run :=
  let r1 := forEach 16 (expireHold t) r
  let r2 := forEach 8 (endGoHold t) r1
  let r3 := forEach 16 (starve t) r2
  saveStepDueNow t (pollDueNow t (timeoutAll r3))

/-- Takes every event that is due (log entry 1). -/
def takeDue (t : Tables) (r : Run) : Run :=
  onArrival (fun x =>
    carryRestart t (dueTimers t (expireAll t 33 (handOnAll t (closeGuard (completeFades t x)))))) r

/-- REASSEMBLY_TIMEOUT (R186). -/
def execReassemblyTimeout (src : Nat) (s : State) : Host.Outcome State Fault Refusal :=
  .next (s.event (fun _ r => timeoutReasm src r))

end Sys2Proof.Machine
end

