-- ==== Sys2Proof/Machine/Mix.lean ====
section
/-! DEFINITION. What the mix engine and the page engine compute for a frame (chapter 2.1 to 2.4, chapter
8.2): channel values, mix values with their meters, and the terms of the zone outputs. -/

namespace Sys2Proof.Machine

open Sys2Proof

/-- The sample the port holds for a slot (R179). -/
def slotSample (r : Run) (s : Nat) : Sample := (r.port.capture.getD []).getD s 0

/-- The sample of a source or origin (R19, R138); `voices` are the outputs of the voices for the frame. -/
def sourceSample (r : Run) (voices : List Sample) : Source → Sample
  | .none => 0
  | .slot s => slotSample r s
  | .voice j => voices.getD j 0

/-- The value of an input channel (R20) from its source sample and its trim. -/
def channelValue (law : List Nat) (c : InputRec) (x : Sample) (trim : Level) : Sample :=
  if c.mute ∨ c.source = .none then 0
  else
    let a := sat (scaled x (gain law trim.fine))
    if c.invert then -a else a

/-- The values of all channels for a frame, from the levels' values for it. -/
def channelValues (t : Tables) (lv : Levels) (r : Run) (voices : List Sample) : List Sample :=
  (t.inputs.zip lv.trims).map (fun (c, trim) => channelValue t.law c (sourceSample r voices c.source) trim)

/-- The sum of a mix, b (R22). -/
def mixSum (law : List Nat) (channels : List Sample) (points : List Level) : Sample :=
  rnd20 (((channels.zip points).map (fun (a, p) => a * (gain law p.fine : Int))).sum)

/-- The fine value a mix's master acts with (R16, R23). -/
def masterFine (t : Tables) (talk : Bool) (x : MixRec) (master : Level) : Nat :=
  if talk && x.role = .foldback && x.dim then dimmed master.fine t.settings.dimDepth else master.fine

/-- The limit of a mix (R24). -/
def mixLimit (x : MixRec) (c : Sample) : Sample :=
  match x.role with
  | .foldback => sat (clampTo x.ceiling c)
  | .programme => sat c

/-- What forming one mix value gives: cval and y (R23, R24). -/
structure MixValue where
  cval : Sample
  y    : Sample

/-- The value of mix `m` for a frame (R22 to R24). -/
def mixValue (t : Tables) (talk : Bool) (lv : Levels) (channels : List Sample) (m : Nat) : MixValue :=
  let x := mixRec t m
  let b := mixSum t.law channels ((lv.crosspoints.drop (40 * m)).take 40)
  let c := scaled b (gain t.law (masterFine t talk x (lv.masters.getD m (Level.rest 0))))
  { cval := c, y := mixLimit x c }

/-- The talk state of the frame being taken (R29): a change of the key taken on it counts already. -/
def talkNow (r : Run) : Bool :=
  match r.stage.due.findSome? (fun e => match e with | .talk down => some down | _ => none) with
  | some down => down || r.mix.talkLatch
  | none => r.mix.talk

/-- Forms every mix value from the levels' values for the frame (R3), and counts it in the meters (R25, R26). -/
def formMixes (t : Tables) (lv : Levels) (voices : List Sample) (r : Run) : Run :=
  let channels := channelValues t lv r voices
  let vals := (List.range 24).map (mixValue t (talkNow r) lv channels)
  let meters := (vals.zip (r.mix.peaks.zip r.mix.clips)).map (fun (v, p, c) => meter v.cval v.y p c)
  { r with mix := { r.mix with y := vals.map MixValue.y, peaks := meters.map Prod.fst, clips := meters.map Prod.snd } }

/-- The programme term of a zone (R134, R17), from the levels' values for the frame. -/
def programmeTerm (t : Tables) (lv : Levels) (r : Run) (z : Nat) : Sample :=
  match (zoneRec t z).prog with
  | none => 0
  | some m => scaled (r.mix.y.getD m 0)
      (gain t.law (ducked (lv.get (.zoneProgramme z)).fine (lv.get (.duck z)).fine))

/-- The page term a source adds to a zone it is on air in (R134, R138). -/
def sourceTerm (t : Tables) (r : Run) (voices : List Sample) (k : Nat) : Sample :=
  let x := pageRec t k
  scaled (sourceSample r voices x.origin) (gain t.law (256 * x.gain))

/-- Forms the terms of every zone's output (R134, R135): with the levels' values for the frame, which a duck
write taken on it does not change (R3), and the on-air sources as they stand. -/
def formZones (t : Tables) (lv : Levels) (voices : List Sample) (r : Run) : Run :=
  { r with page := { r.page with
      zoneTerm := (List.range 16).map (programmeTerm t lv r)
      pageTerm := (List.range 8).map (sourceTerm t r voices)
      air := r.page.zones.map ZoneRt.onAir } }

end Sys2Proof.Machine
end

