-- ==== Sys2Proof/Machine/Ring.lean ====
section
/-! DEFINITION. The ring port (chapter 11) and the taking of a frame by every block: FRAME_ARRIVAL and
RING_LOSS. -/

namespace Sys2Proof.Machine

open Sys2Proof

/-! ### Reassembly (R185 to R187) -/

/-- A fragment of a lane: its state, count, source, destination and valid data. -/
structure Fragment where
  state : Nat
  count : Nat
  src   : Nat
  dst   : Nat
  data  : List Byte
deriving DecidableEq, Repr

/-- The fragment a lane holds (R201). -/
def fragmentOf (lane : List Byte) : Fragment :=
  let count := u8 lane 0 / 16 % 8
  { state := u8 lane 0 % 8, count := count, src := u8 lane 1, dst := u8 lane 2, data := (lane.drop 3).take count }

/-- Whether a fragment's count suits its lane state (R185). -/
def fragmentOk (f : Fragment) : Bool :=
  if f.state = 1 ∨ f.state = 2 then f.count = 5
  else if f.state = 3 then 1 ≤ f.count && f.count ≤ 5
  else 2 ≤ f.count && f.count ≤ 5

/-- The open slot of a source. -/
def slotOf (l : List Reasm) (src : Nat) : Option Reasm := l.find? (fun x => x.src = src)

/-- The table without a source's slot. -/
def closeSlot (l : List Reasm) (src : Nat) : List Reasm := l.filter (fun x => x.src ≠ src)

/-- A complete message with its kind. -/
structure Complete where
  kind : Nat
  msg  : Msg
deriving DecidableEq, Repr

/-- The message a train's bytes make, if they pass the checks of R187. -/
def trainMessage (src : Nat) (b : List Byte) : Option Complete :=
  let len := u16 b 2
  if len ≤ 1024 ∧ b.length = len + 6 ∧ crc16 (b.take (len + 4)) = u16 b (len + 4) then
    some { kind := u8 b 0, msg := { src := byte src, tag := byte (u8 b 1), payload := (b.drop 4).take len } }
  else none

/-- The reassembly table after a fragment, and the message it completed. -/
structure Taken where
  reasm : List Reasm
  msg   : Option Complete

/-- The table with a source's slot holding bytes, its last fragment taken on frame `now` with its counter. -/
def holdSlot (now counter src : Nat) (bytes : List Byte) (l : List Reasm) : List Reasm :=
  closeSlot l src ++ [{ src := src, bytes := bytes, counter := counter, last := now }]

/-- A FIRST from a source (R186). -/
def takeFirst (now counter : Nat) (f : Fragment) (l : List Reasm) : List Reasm :=
  if (slotOf l f.src).isNone ∧ 4 ≤ l.length then l else holdSlot now counter f.src f.data l

/-- A MIDDLE or LAST from a source with an open slot (R186, R187). -/
def takeMore (now counter : Nat) (f : Fragment) (x : Reasm) (l : List Reasm) : Taken :=
  let b := x.bytes ++ f.data
  if 1030 < b.length then { reasm := closeSlot l f.src, msg := none }
  else if f.state = 2 then { reasm := holdSlot now counter f.src b l, msg := none }
  else { reasm := closeSlot l f.src, msg := trainMessage f.src b }

/-- The port takes a fragment on the frame of a number and a counter (R185 to R187). -/
def takeFragment (now counter : Nat) (f : Fragment) (l : List Reasm) : Taken :=
  if f.state = 4 then
    { reasm := l
      msg := if fragmentOk f then
          some { kind := u8 f.data 0, msg := { src := byte f.src, tag := byte (u8 f.data 1), payload := f.data.drop 2 } }
        else none }
  else if fragmentOk f = false then { reasm := closeSlot l f.src, msg := none }
  else if f.state = 1 then { reasm := takeFirst now counter f l, msg := none }
  else match slotOf l f.src with
    | some x => takeMore now counter f x l
    | none => { reasm := l, msg := none }

/-! ### Sending (R188) -/

/-- A message to send: its kind, tag, payload and destination. -/
structure Outgoing where
  kind    : Nat
  tag     : Byte
  payload : List Byte
  dst     : Nat
deriving DecidableEq, Repr

/-- The reply a place holds, if it is formed (R192, R202). -/
def placeMessage (p : Place) : Option Outgoing :=
  p.answer.map (fun a => { kind := p.kind + 128, tag := p.tag, payload := byte a.1.code :: a.2, dst := p.dst })

/-- A report as a message (R202, R205). -/
def reportMessage (x : Report) : Outgoing :=
  { kind := 240 + x.body.index, tag := 0
    payload := le16 x.counter ++ [flagByte (x.lost.getD false)] ++ x.body.bytes, dst := x.dst }

/-- The fragments of a message: lane states with their data (R188). -/
def fragments (o : Outgoing) : List (Nat × List Byte) :=
  if o.payload.length ≤ 3 then [(4, [byte o.kind, o.tag] ++ o.payload)]
  else
    let body := [byte o.kind, o.tag] ++ le16 o.payload.length ++ o.payload
    let bytes := body ++ le16 (crc16 body)
    let n := (bytes.length + 4) / 5
    (List.range n).map (fun i =>
      (if i = 0 then 1 else if i + 1 = n then 3 else 2, (bytes.drop (5 * i)).take 5))

/-- The oldest report takes its lost field when it is chosen, and the flag is cleared (R193). -/
def chooseReport (r : Run) : Run :=
  match r.ctl.reports with
  | x :: rest =>
    { r with port := { r.port with sending := some { item := .report, sent := 0 } }
             ctl := { r.ctl with reports := { x with lost := some r.ctl.lossPending } :: rest, lossPending := false } }
  | [] => r

/-- The outgoing arbiter chooses a message, if none is in progress (R188, R191). -/
def chooseMessage (r : Run) : Run :=
  match r.port.sending with
  | some _ => r
  | none => match r.ctl.places.findIdx? (fun p => p.answer.isSome) with
    | some i => { r with port := { r.port with sending := some { item := .reply i, sent := 0 } } }
    | none => chooseReport r

/-- The message in progress. -/
def inProgress (r : Run) : Option Outgoing :=
  match r.port.sending with
  | some { item := .reply i, sent := _ } => r.ctl.places[i]?.bind placeMessage
  | some { item := .report, sent := _ } => r.ctl.reports.head?.map reportMessage
  | none => none

/-- Whether a place holds the reply of a RESTART that was taken (R197). -/
def isRestartReply (p : Place) : Bool := p.kind = ReqKind.restart.code && (p.answer.map Prod.fst) == some .ok

/-- The message in progress has gone whole: its place or report leaves its queue (R188, R191, R193), and
a RESTART whose reply has gone is due (R197). -/
def finishSending (r : Run) : Run :=
  match r.port.sending with
  | some { item := .reply i, sent := _ } =>
    { r with port := { r.port with sending := none }
             ctl := { r.ctl with
               places := r.ctl.places.eraseIdx i
               restartDue := r.ctl.restartDue || (r.ctl.places[i]?.map isRestartReply).getD false } }
  | some { item := .report, sent := _ } =>
    { r with port := { r.port with sending := none }, ctl := { r.ctl with reports := r.ctl.reports.tail } }
  | none => r

/-- Counts a fragment sent. -/
def countSent (r : Run) : Run :=
  { r with port := { r.port with sending := r.port.sending.map (fun x => { x with sent := x.sent + 1 }) } }

/-- What a free lane leaves with, and the state after (R184, R188). -/
structure LaneOut where
  run  : Run
  lane : List Byte

/-- A free lane takes the next fragment of the message in progress, or leaves IDLE (R184, R188, R201). -/
def fillLane (r : Run) : LaneOut :=
  let r1 := chooseMessage r
  match r1.port.sending, inProgress r1 with
  | some x, some o =>
    let fs := fragments o
    match fs[x.sent]? with
    | some (st, data) =>
      { run := if fs.length ≤ x.sent + 1 then finishSending r1 else countSent r1
        lane := laneBytes st r.port.node o.dst data }
    | none => { run := r1, lane := idleLane }
  | _, _ => { run := r1, lane := idleLane }

/-! ### The lane of a good frame (R184) -/

/-- What a good frame's lane did. -/
structure LaneDone where
  run  : Run
  lane : List Byte
  msg  : Option Complete

/-- The port deals with the lane of a good frame (R184). -/
def dealLane (lane : List Byte) (r : Run) : LaneDone :=
  let f := fragmentOf lane
  if f.state = 0 then
    let o := fillLane r
    { run := o.run, lane := o.lane, msg := none }
  else if 5 ≤ f.state ∨ (f.dst ≠ r.port.node ∧ f.dst ≠ 255) then { run := r, lane := lane, msg := none }
  else
    let k := takeFragment r.port.now r.port.counter f r.port.reasm
    let r1 := { r with port := { r.port with reasm := k.reasm } }
    if f.dst = 255 then { run := r1, lane := lane, msg := k.msg }
    else
      let o := fillLane r1
      { run := o.run, lane := o.lane, msg := k.msg }

/-! ### Slots -/

/-- The value an output hands over, as it was last formed (R27, R135, R181). -/
def ownerValue (r : Run) : SlotOwner → Sample
  | .mix m => r.mix.y.getD m 0
  | .zone z => zoneOut r z

/-- The slots of a good frame as they leave: claimed slots carry their owners' values (R181). -/
def slotsOut (t : Tables) (r : Run) (slots : List Sample) : List Sample :=
  (slotClaims t).foldl (fun l c => l.set c.2 (ownerValue r c.1)) slots

/-! ### A frame taken by the blocks -/

/-- Every line's debouncer takes its sample of the frame (R167); `mark` names the change a line hands on. -/
def sampleLines {w : Nat} (lines : BitVec w) (mark : Nat → Bool → Option KeyEvent) (ds : List Debounce) :
    List Debounce × List KeyEvent :=
  let out := ds.zipIdx.map (fun (d, i) => (d.sample (lines.getLsbD i), i))
  (out.map (fun e => e.1.1), out.filterMap (fun e => e.1.2.bind (mark e.2)))

/-- The change a key hands on (R168, R169): keys 0 to 6 are GO, TALK, SHOW STOP and the page keys. -/
def keyMark (i : Nat) (down : Bool) : Option KeyEvent :=
  if i = 0 then (if down then some .goPress else none)
  else if i = 1 then some (.talk down)
  else if i = 2 then (if down then some .stopPress else none)
  else some (if down then .pagePress (i - 3) else .pageRelease (i - 3))

/-- The change an acknowledge input hands on (R172). -/
def ackMark (l : Nat) (down : Bool) : Option KeyEvent := if down then some (.ack l) else none

/-- The stage signal unit reads every line (R167). Where several lines change on one frame, the changes are handed
on in the order keys 0 to 6, then acknowledge inputs 0 to 7: the spec gives no order (R168; log entry 45). -/
def readLines (f : FrameIn) (r : Run) : Run :=
  let k := sampleLines f.keys keyMark r.stage.keys
  let a := sampleLines f.acks ackMark r.stage.acks
  { r with stage := { r.stage with keys := k.1, acks := a.1, due := r.stage.due ++ k.2 ++ a.2 } }

/-- The voices play the frame, and refills follow (R96, R90). A fetch they make possible on a free bus is started here,
before a poll or save step that falls due on the same frame reaches the arbiter: the spec gives no order (R117; log
entry 48). -/
def playFrame (t : Tables) (r : Run) : Played :=
  let p := playAll t r
  { p with run := pump t p.run }

/-- Every block but the port takes the frame (R3, R26, R96, R135, R167, R171). The mixes and the zones are
formed from the levels as the frame advanced them: a voice that ends on the frame may write a duck, which
shows from the next frame (R3, R134). The steps of the flash controller that fall due on the frame come after
(log entries 1 and 48). -/
def blocksTake (t : Tables) (f : FrameIn) (r : Run) : Run :=
  let lv := r.lv.map Level.advance
  let p := playFrame t (advanceBlink t (readLines f { r with lv := lv }))
  driveLamps (formZones t lv p.out (formMixes t lv p.out p.run))

/-- The RING reports of the frame that restores the ring (R183); the first good frame since power-on
gives none. -/
def ringReports (t : Tables) (before : Run) (r : Run) : Run :=
  if before.port.active ∨ before.port.now = 0 then r
  else (r.reportAt t before.port.counter (.ring false)).report t (.ring true)

/-- The IMAGE report, on the first frame taken after the load has ended (R131). -/
def giveImageReport (t : Tables) (r : Run) : Run :=
  match r.flash.imageReport with
  | some res => { r with flash := { r.flash with imageReport := none } }.report t (.image res)
  | none => r

/-- The port takes a frame: its number and its counter (R178), its capture (R179). -/
def portTake (good : Bool) (f : RingFrame) (r : Run) : Run :=
  { r with port := { r.port with
      active := true, now := r.port.now + 1
      counter := if good then f.counter else (r.port.counter + 1) % 65536
      capture := if good then some f.slots else r.port.capture } }

/-- What a frame did: the state, and the message it completed. -/
structure FrameDone where
  run : Run
  msg : Option Complete

/-- Sets the frame forwarded at the downstream port. -/
def sendOn (bytes : List Byte) (r : Run) : Run := { r with port := { r.port with ringOut := some bytes } }

/-- The port's work on a frame it takes (R178, R181, R184). -/
def portFrame (t : Tables) (good : Bool) (bytes : List Byte) (f : RingFrame) (r : Run) : FrameDone :=
  if good then
    let d := dealLane f.lane (portTake true f r)
    { run := sendOn (frameBytes { counter := f.counter, slots := slotsOut t r f.slots, lane := d.lane }) d.run
      msg := d.msg }
  else { run := sendOn bytes (portTake false f r), msg := none }

/-- A frame that is taken, by the port and then by every block; the RING reports stand before the IMAGE report
(log entries 17 and 39). The
lane is dealt first, so no report a block gives on the frame goes out with it (log entry 42). -/
def takeFrame (t : Tables) (good : Bool) (x : FrameIn) (f : RingFrame) (r : Run) : FrameDone :=
  let d := portFrame t good x.bytes f r
  let r1 := giveImageReport t (ringReports t r d.run)
  let r2 := blocksTake t x r1
  { run := if x.hold then r2 else takeDue t r2, msg := d.msg }

/-- A message completed on a frame is handed to the control block once the port has finished (R184). -/
def handMessage (m : Option Complete) (p : Part) : Part :=
  match m with
  | some c => takeMessage c.kind c.msg p
  | none => p

/-- A frame arrives (R178): while the ring is LOST a bad frame is forwarded and taken by no block. A message the
frame completed is taken after the events the frame itself takes, a due RESTART among them (log entry 43). -/
def frameArrives (x : FrameIn) (p : Part) : Part :=
  match parseFrame x.bytes with
  | none => p
  | some f =>
    let good := frameGood x.bytes
    if p.port.active || good then
      let d := takeFrame p.tables good x f p.toRun
      handMessage d.msg (p.onRun (fun _ _ => d.run))
    else p.onRun (fun _ r => sendOn x.bytes r)

/-- FRAME_ARRIVAL: the events left over from the last frame, then the frame. -/
def frameArrival (x : FrameIn) (p : Part) : Part := frameArrives x (p.onRun takeDue)

/-- The ring is lost (R182). -/
def loseRing (r : Run) : Run :=
  { r with port := { r.port with active := false, reasm := [], sending := r.port.sending.map (fun x => { x with sent := 0 }) } }

/-- RING_LOSS (R182): only an ACTIVE ring is lost. -/
def ringLoss (t : Tables) (r : Run) : Run := if r.port.active then loseRing (takeDue t r) else r

/-- FRAME_ARRIVAL. -/
def execFrameArrival (x : FrameIn) (s : State) : Host.Outcome State Fault Refusal := .next (s.onPart (frameArrival x))
/-- RING_LOSS. -/
def execRingLoss (s : State) : Host.Outcome State Fault Refusal := .next (s.onRun ringLoss)

end Sys2Proof.Machine
end

