-- ==== Sys2Proof/Machine/Dispatch.lean ====
section
/-! DEFINITION. One arm per command of spec/opcode_table.json, in the table's order. -/

namespace Sys2Proof.Machine

open Sys2Proof

/-- The effect of a command on everything but the queue. -/
def exec (i : Instr) (s : State) : Host.Outcome State Fault Refusal :=
  match i with
  | .powerOn straps => Sys2Proof.Machine.execPowerOn straps s
  | .imageLoadEnd nothing => Sys2Proof.Machine.execImageLoadEnd nothing s
  | .frameArrival f => Sys2Proof.Machine.execFrameArrival f s
  | .voiceStarved voice => Sys2Proof.Machine.execVoiceStarved voice s
  | .reassemblyTimeout source => Sys2Proof.Machine.execReassemblyTimeout source s
  | .ringLoss => Sys2Proof.Machine.execRingLoss s
  | .fadeComplete ref => Sys2Proof.Machine.execFadeComplete ref s
  | .guardWindowClose => Sys2Proof.Machine.execGuardWindowClose s
  | .prewaitExpiry => Sys2Proof.Machine.execPrewaitExpiry s
  | .followExpiry => Sys2Proof.Machine.execFollowExpiry s
  | .timerExpiry => Sys2Proof.Machine.execTimerExpiry s
  | .holdExpiry zone => Sys2Proof.Machine.execHoldExpiry zone s
  | .goHoldEnd light => Sys2Proof.Machine.execGoHoldEnd light s
  | .goKeyPress => Sys2Proof.Machine.execGoKeyPress s
  | .talkKeyChange down => Sys2Proof.Machine.execTalkKeyChange down s
  | .showStopKeyPress => Sys2Proof.Machine.execShowStopKeyPress s
  | .pageKeyPress key => Sys2Proof.Machine.execPageKeyPress key s
  | .pageKeyRelease key => Sys2Proof.Machine.execPageKeyRelease key s
  | .acknowledge light => Sys2Proof.Machine.execAcknowledge light s
  | .fetchComplete => Sys2Proof.Machine.execFetchComplete s
  | .flashCommandComplete => Sys2Proof.Machine.execFlashCommandComplete s
  | .pollDue => Sys2Proof.Machine.execPollDue s
  | .pollComplete status => Sys2Proof.Machine.execPollComplete status s
  | .saveStepDue => Sys2Proof.Machine.execSaveStepDue s
  | .contentReadComplete => Sys2Proof.Machine.execContentReadComplete s
  | .resetCommandComplete => Sys2Proof.Machine.execResetCommandComplete s
  | .messageNotRequest kind m => Sys2Proof.Machine.execMessageNotRequest kind m s
  | .unknownKind kind m => Sys2Proof.Machine.execUnknownKind kind m s
  | .setLevel m => Sys2Proof.Machine.execSetLevel m s
  | .fadeLevel m => Sys2Proof.Machine.execFadeLevel m s
  | .loadLaw m => Sys2Proof.Machine.execLoadLaw m s
  | .loadInput m => Sys2Proof.Machine.execLoadInput m s
  | .loadMix m => Sys2Proof.Machine.execLoadMix m s
  | .talkSet m => Sys2Proof.Machine.execTalkSet m s
  | .readMeters m => Sys2Proof.Machine.execReadMeters m s
  | .loadScene m => Sys2Proof.Machine.execLoadScene m s
  | .recall m => Sys2Proof.Machine.execRecall m s
  | .restore m => Sys2Proof.Machine.execRestore m s
  | .loadCue m => Sys2Proof.Machine.execLoadCue m s
  | .deleteCue m => Sys2Proof.Machine.execDeleteCue m s
  | .clearCues m => Sys2Proof.Machine.execClearCues m s
  | .go m => Sys2Proof.Machine.execGo m s
  | .goTo m => Sys2Proof.Machine.execGoTo m s
  | .setStandby m => Sys2Proof.Machine.execSetStandby m s
  | .readCue m => Sys2Proof.Machine.execReadCue m s
  | .readWaits m => Sys2Proof.Machine.execReadWaits m s
  | .loadSegment m => Sys2Proof.Machine.execLoadSegment m s
  | .voiceStart m => Sys2Proof.Machine.execVoiceStart m s
  | .voiceStop m => Sys2Proof.Machine.execVoiceStop m s
  | .voiceRelease m => Sys2Proof.Machine.execVoiceRelease m s
  | .readVoice m => Sys2Proof.Machine.execReadVoice m s
  | .loadProfile m => Sys2Proof.Machine.execLoadProfile m s
  | .flashErase m => Sys2Proof.Machine.execFlashErase m s
  | .flashWrite m => Sys2Proof.Machine.execFlashWrite m s
  | .flashRead m => Sys2Proof.Machine.execFlashRead m s
  | .flashReset m => Sys2Proof.Machine.execFlashReset m s
  | .saveShow m => Sys2Proof.Machine.execSaveShow m s
  | .loadZone m => Sys2Proof.Machine.execLoadZone m s
  | .loadPageSource m => Sys2Proof.Machine.execLoadPageSource m s
  | .loadPageOrder m => Sys2Proof.Machine.execLoadPageOrder m s
  | .pagingSet m => Sys2Proof.Machine.execPagingSet m s
  | .pageOn m => Sys2Proof.Machine.execPageOn m s
  | .pageOff m => Sys2Proof.Machine.execPageOff m s
  | .readZone m => Sys2Proof.Machine.execReadZone m s
  | .setShowState m => Sys2Proof.Machine.execSetShowState m s
  | .setLocks m => Sys2Proof.Machine.execSetLocks m s
  | .showStop m => Sys2Proof.Machine.execShowStop m s
  | .showResume m => Sys2Proof.Machine.execShowResume m s
  | .loadLight m => Sys2Proof.Machine.execLoadLight m s
  | .lightSet m => Sys2Proof.Machine.execLightSet m s
  | .loadSettings m => Sys2Proof.Machine.execLoadSettings m s
  | .readStatus m => Sys2Proof.Machine.execReadStatus m s
  | .restart m => Sys2Proof.Machine.execRestart m s
  | .restartCarriedOut => Sys2Proof.Machine.execRestartCarriedOut s
  | .writeEnableComplete => Sys2Proof.Machine.execWriteEnableComplete s

end Sys2Proof.Machine
end

