-- ==== Sys2Proof/Safety.lean ====
section
/-! DEFINITION. What counts as a safe run: a step always answers a next state, and the invariants the
spec states of the part's tables, queues and stores hold after it. -/

namespace Sys2Proof.Machine

open Sys2Proof

/-- The contents of both flash devices are in canonical form. -/
def memoryOk (s : State) : Bool := Memory.wf s.flash0 && Memory.wf s.flash1

/-- The gain law table is as R11 says it always is. -/
def lawHolds (s : State) : Bool := lawOk s.tables.law

/-- No two outputs of the part are assigned the same ring slot (R180). -/
def slotsHold (s : State) : Bool := claimsDistinct s.tables

/-- The cue list is as R49 says (at most 512 cues, strictly ascending). -/
def cuesHold (s : State) : Bool := cueListOk s.tables.cues

/-- The reply queue has at most its 8 places (R191). -/
def placesHold (s : State) : Bool := s.ctl.places.length ≤ 8

/-- The report queue holds at most 32 reports (R193). -/
def reportsHold (s : State) : Bool := s.ctl.reports.length ≤ 32

/-- The wait list holds at most 32 entries (R71). -/
def waitsHold (s : State) : Bool := s.waits.length ≤ 32

/-- A safe step: it answers a next state. -/
def stepSafe (s : State) : Prop := ∃ t, step s = .next t

/-! ### Words the statements use -/

/-- The request a row stands for, if it stands for one. -/
def requestOf : Instr → Option (ReqKind × Msg)
  | .setLevel m => some (.setLevel, m) | .fadeLevel m => some (.fadeLevel, m) | .loadLaw m => some (.loadLaw, m)
  | .loadInput m => some (.loadInput, m) | .loadMix m => some (.loadMix, m) | .talkSet m => some (.talkSet, m)
  | .readMeters m => some (.readMeters, m) | .loadScene m => some (.loadScene, m) | .recall m => some (.recall, m)
  | .restore m => some (.restore, m) | .loadCue m => some (.loadCue, m) | .deleteCue m => some (.deleteCue, m)
  | .clearCues m => some (.clearCues, m) | .go m => some (.go, m) | .goTo m => some (.goTo, m)
  | .setStandby m => some (.setStandby, m) | .readCue m => some (.readCue, m) | .readWaits m => some (.readWaits, m)
  | .loadSegment m => some (.loadSegment, m) | .voiceStart m => some (.voice, m) | .voiceStop m => some (.voice, m)
  | .voiceRelease m => some (.voice, m) | .readVoice m => some (.readVoice, m) | .loadProfile m => some (.loadProfile, m)
  | .flashErase m => some (.flashErase, m) | .flashWrite m => some (.flashWrite, m) | .flashRead m => some (.flashRead, m)
  | .flashReset m => some (.flashReset, m) | .saveShow m => some (.saveShow, m) | .loadZone m => some (.loadZone, m)
  | .loadPageSource m => some (.loadPageSource, m) | .loadPageOrder m => some (.loadPageOrder, m)
  | .pagingSet m => some (.pagingSet, m) | .pageOn m => some (.page, m) | .pageOff m => some (.page, m)
  | .readZone m => some (.readZone, m) | .setShowState m => some (.setShowState, m) | .setLocks m => some (.setLocks, m)
  | .showStop m => some (.showStop, m) | .showResume m => some (.showResume, m) | .loadLight m => some (.loadLight, m)
  | .lightSet m => some (.lightSet, m) | .loadSettings m => some (.loadSettings, m) | .readStatus m => some (.readStatus, m)
  | .restart m => some (.restart, m)
  | _ => none

/-- Checks 2 to 6 of R190 pass: the request reaches its owner. -/
def accepts (s : State) (k : ReqKind) (m : Msg) : Prop :=
  s.ctl.taking = true ∧ s.ctl.places.length < 8 ∧ k.lengthOk m.payload.length = true
    ∧ (isContent k && s.shw.inShow) = false ∧ isLocked s.tables s.shw.inShow k m.payload = false

/-- The place of a request whose reply is formed (R191, R192). -/
def answered (k : ReqKind) (m : Msg) (st : Status) (data : List Byte) : Place :=
  { dst := m.src.toNat, kind := k.code, tag := m.tag, answer := some (st, data) }

/-- The place of a request whose reply is deferred (R191). -/
def deferred (k : ReqKind) (m : Msg) : Place := { dst := m.src.toNat, kind := k.code, tag := m.tag, answer := none }

/-- The state with nothing changed but a reply formed at the back of the reply queue. -/
def State.reply (s : State) (k : ReqKind) (m : Msg) (st : Status) (data : List Byte) : State :=
  { s with ctl := { s.ctl with places := s.ctl.places ++ [answered k m st data] } }

/-- The reply was formed at the back of the reply queue. -/
def repliedWith (s t : State) (k : ReqKind) (m : Msg) (st : Status) (data : List Byte) : Prop :=
  t.ctl.places = s.ctl.places ++ [answered k m st data]

/-- Both flash devices, the serial number and the queue of commands stand. -/
def storesKept (s t : State) : Prop :=
  t.flash0 = s.flash0 ∧ t.flash1 = s.flash1 ∧ t.serial = s.serial ∧ t.pending = s.pending

/-- Every byte of both devices reads as before. -/
def bytesKept (s t : State) : Prop := ∀ d a, Memory.read (t.mem d) a = Memory.read (s.mem d) a

/-- The state with a report given (R193). -/
def State.give (s : State) (b : ReportBody) : State :=
  { s with toPart := { s.toPart with toRun := s.toRun.report s.tables b } }

/-- The first report given from `s` on is `b`: what the queue holds after giving it stands in front. -/
def reportsFirst (s t : State) (b : ReportBody) : Prop :=
  (s.toRun.report s.tables b).ctl.reports <+: t.ctl.reports

/-- What an event or request of the voice bank, the page engine or the flash controller leaves as it
stands: every level but faders and duck attenuations, the mix engine, the recall latch, the cue engine, the
wait list, show control, the stage signal unit but for its lamps, the ring port, both devices' contents, and
the reports already queued. -/
def soundKept (s t : State) : Prop :=
  t.lv.crosspoints = s.lv.crosspoints ∧ t.lv.masters = s.lv.masters ∧ t.lv.trims = s.lv.trims
  ∧ t.lv.programmes = s.lv.programmes ∧ t.mix = s.mix ∧ t.latch = s.latch ∧ t.cue = s.cue ∧ t.waits = s.waits
  ∧ t.shw = s.shw ∧ { t.stage with lamps := s.stage.lamps } = s.stage ∧ t.port = s.port
  ∧ t.ctl.taking = s.ctl.taking ∧ t.ctl.restartDue = s.ctl.restartDue ∧ s.ctl.reports <+: t.ctl.reports
  ∧ storesKept s t

/-- What an event or request of the cue engine leaves as it stands: the mix engine, the ring port, the
states of the devices, both devices' contents, and the reports already queued. -/
def cueKept (s t : State) : Prop :=
  t.mix = s.mix ∧ t.port = s.port ∧ t.flash.devs = s.flash.devs ∧ t.ctl.taking = s.ctl.taking
  ∧ t.ctl.restartDue = s.ctl.restartDue ∧ s.ctl.reports <+: t.ctl.reports ∧ storesKept s t

/-- Every level but faders and duck attenuations, and the recall latch, stand. -/
def levelsKept (s t : State) : Prop :=
  t.lv.crosspoints = s.lv.crosspoints ∧ t.lv.masters = s.lv.masters ∧ t.lv.trims = s.lv.trims
  ∧ t.lv.programmes = s.lv.programmes ∧ t.latch = s.latch

/-- The last report given from `r` on is `b`: what the queue holds is what giving it left. -/
def lastReport (t : Tables) (r r' : Run) (b : ReportBody) : Prop :=
  ∃ x : Run, x.port = r.port ∧ r.ctl.reports <+: x.ctl.reports ∧ r'.ctl.reports = (x.report t b).ctl.reports

/-- Among the reports given from `r` on is `b`: what the queue held after giving it stands in front. -/
def givesReport (t : Tables) (r r' : Run) (b : ReportBody) : Prop :=
  ∃ x : Run, x.port = r.port ∧ r.ctl.reports <+: x.ctl.reports ∧ (x.report t b).ctl.reports <+: r'.ctl.reports

/-- The levels after a recall (R43): each affected level is written with the recall's time where its new code is not
its code, and every other level stands. -/
def recallsTo (aff : List (LevelRef × Nat)) (mode : RecallMode) (ms : Nat) (lv lv' : Levels) : Prop :=
  (∀ ref, ref ∉ aff.map Prod.fst → lv'.get? ref = lv.get? ref)
  ∧ ∀ ref code, (ref, code) ∈ aff → lv'.get? ref = (lv.get? ref).map (fun l =>
      if recallCode mode l.code code = l.code then l else l.write (recallCode mode l.code code) ms)

/-- How many levels a recall writes (R43). -/
def recallWrites (aff : List (LevelRef × Nat)) (mode : RecallMode) (lv : Levels) : Nat :=
  (aff.filter (fun e => recallCode mode (lv.get e.1).code e.2 ≠ (lv.get e.1).code)).length

/-- What every firing but a timer's leaves: the cue's number as position, and its report given first (R65). -/
def firedBy (s t : State) (c : Cue) (why : Cause) : Prop :=
  t.cue.pos = c.num ∧ t.cue.held = s.cue.held ∧ reportsFirst s t (.cueFired c.num why) ∧ t.tables = s.tables
  ∧ cueKept s t

/-- A request to enter a PREWAIT or a FOLLOW with a time (R74 to R76): its expiry is counted from the last frame
taken, it stands behind every entry that expires no later, an entry of its kind and key goes, and with 32
entries of other keys it is dropped. -/
def entersWait (t : Tables) (k : WaitKind) (ms : Nat) (r r' : Run) (entered : Bool) : Prop :=
  let expiry := r.port.now + 48 * ms
  let others := r.waits.filter (fun w => !(w.what.code = k.code && w.what.key = k.key))
  if others.length < r.waits.length ∨ r.waits.length < 32 then
    entered = true ∧ r' = { r with waits := others.takeWhile (fun w => w.expiry ≤ expiry)
      ++ { what := k, expiry := expiry } :: others.dropWhile (fun w => w.expiry ≤ expiry) }
  else entered = false ∧ r' = r.report t (.waitDropped k .listFull)

/-- A firing of a cue (R65): the position and the report, the FOLLOW unless a timer fires it, the PREWAIT or
(without one, or with no room for it) the actions, and the recomputation where the position moved. -/
def firing (t : Tables) (c : Cue) (why : Cause) (r r' : Run) : Prop :=
  let pos := if why = .timer then r.cue.pos else c.num
  let r1 := ({ r with cue := { r.cue with pos := pos } } : Run).report t (.cueFired c.num why)
  ∃ (r2 r3 : Run) (waits : Bool),
    (why = .timer ∨ c.follow = none → r2 = r1)
    ∧ (∀ ms, why ≠ .timer → c.follow = some ms → ∃ e, entersWait t (.follow c.num) ms r1 r2 e)
    ∧ (c.prewait = 0 → r3 = r2 ∧ waits = false)
    ∧ (c.prewait ≠ 0 → entersWait t (.prewait c.num) c.prewait r2 r3 waits)
    ∧ let r4 := if waits then r3 else runActions t c r3
      r' = if pos = r.cue.pos then r4 else recompute t true none r4

/-- The part runs as `r`, but for the reply formed in the place its request held. -/
def runsAs (t : State) (r : Run) : Prop := t.toRun = { r with ctl := { r.ctl with places := t.ctl.places } }

/-- The closing frame of the guard window after a GO taken (R61). -/
def guardAfterGo (s : State) : Option Nat :=
  if s.tables.settings.guardMs = 0 then s.cue.guardEnd
  else some (s.port.now + 48 * s.tables.settings.guardMs)

/-- A content operation was accepted (R119): its record stands, its first step `first` is due, or begun as its
transfer on a bus that was free, and its reply is deferred. -/
def acceptedAs (s t : State) (k : ReqKind) (m : Msg) (o : Op) (first : StepKind) : Prop :=
  (t.flash.op = some { o with step := .due first }
    ∨ s.flash.bus = none ∧ t.flash.op = some { o with step := .running } ∧ t.flash.bus = stepXfer s.tables o first)
  ∧ t.ctl.places = s.ctl.places ++ [deferred k m]
  ∧ t.flash.devs = s.flash.devs ∧ t.tables = s.tables ∧ soundKept s t

/-- Every zone has the on-air source that belongs to it (R145, R147). -/
def airIsBest (t : State) : Prop :=
  ∀ z, z < 16 → z < t.page.zones.length → (t.toRun.zone z).onAir = airFor t.tables t.toRun z

/-- The request makes one change of the runtime state, and then the zones are what arbitration makes of it under
the tables it left (R145); nothing else changes but for the reply. -/
def rezoned (s t : State) (k : ReqKind) (m : Msg) (change : Run → Run) : Prop :=
  runsAs t (arbitrate t.tables (change (holdPlace k.code m s.toPart).toRun))

/-- The image area holds no image: its identifier reads FFh, and the image load does not accept it (R130, R131). -/
def noImage (t : State) : Prop :=
  (∀ a, a < 4 → Memory.read t.flash0 a = 0xFF) ∧ checkImage (t.reader 0) = .error .noImage

/-- No device is FAULTED. -/
def noFault (r : Run) : Prop := ∀ d, r.dev d ≠ .faulted

/-- The commands that can load a table: the load requests, the power-on events, and the commands that can
carry a message of any kind. -/
def mayLoad : Instr → Bool
  | .powerOn _ | .imageLoadEnd _ | .frameArrival _ | .messageNotRequest _ _ | .unknownKind _ _ => true
  | .loadLaw _ | .loadInput _ | .loadMix _ | .loadScene _ | .loadCue _ | .deleteCue _ | .clearCues _ => true
  | .loadSegment _ | .loadProfile _ | .loadZone _ | .loadPageSource _ | .loadPageOrder _ | .setLocks _ => true
  | .loadLight _ | .loadSettings _ => true
  | _ => false

/-- Gathers the fragments of one source, in order, into a reassembly table (R185 to R187); the message of
the last one counts. -/
def gather (now counter src : Nat) (fs : List (Nat × List Byte)) (l : List Reasm) : Taken :=
  fs.foldl (fun k e => takeFragment now counter { state := e.1, count := e.2.length, src := src, dst := 0, data := e.2 } k.reasm)
    { reasm := l, msg := none }

end Sys2Proof.Machine
end

