-- ==== Sys2Proof/WellFormed.lean ====
section
/-! DEFINITION. Which commands the outside can give: indices the part has, messages a lane can carry, and
frames that arrive. A meaning answers a next state for every command, well formed or not. -/

namespace Sys2Proof

/-- A message the ring port can hand on: at most 1,024 bytes of payload (R187). -/
def Msg.ok (m : Msg) : Bool := m.payload.length ≤ 1024

/-- A message of a VOICE or PAGE request whose second byte names the operation of its row (R108, R142). -/
def Msg.withOp (op : Byte) (m : Msg) : Bool := m.ok && m.payload[1]? == some op

/-- A well-formed command. -/
def wellFormed : Instr → Bool
  | .powerOn _ => true
  | .imageLoadEnd _ => true
  | .frameArrival f => (Machine.parseFrame f.bytes).isSome
  | .voiceStarved v => v < 16
  | .reassemblyTimeout s => s < 256
  | .ringLoss => true
  | .fadeComplete ref => Machine.refOk ref
  | .guardWindowClose | .prewaitExpiry | .followExpiry | .timerExpiry => true
  | .holdExpiry z => z < 16
  | .goHoldEnd l => l < 8
  | .goKeyPress | .talkKeyChange _ | .showStopKeyPress => true
  | .pageKeyPress k => k < 4
  | .pageKeyRelease k => k < 4
  | .acknowledge l => l < 8
  | .fetchComplete | .flashCommandComplete | .pollDue | .pollComplete _ | .saveStepDue | .contentReadComplete => true
  | .resetCommandComplete => true
  | .messageNotRequest kind m => 128 ≤ kind.toNat && m.ok
  | .unknownKind kind m => kind.toNat < 128 && (Machine.ReqKind.ofCode kind.toNat).isNone && m.ok
  | .voiceStart m => m.withOp 0
  | .voiceStop m => m.withOp 1
  | .voiceRelease m => m.withOp 2
  | .pageOn m => m.withOp 1
  | .pageOff m => m.withOp 0
  | .setLevel m | .fadeLevel m | .loadLaw m | .loadInput m | .loadMix m | .talkSet m | .readMeters m | .loadScene m => m.ok
  | .recall m | .restore m | .loadCue m | .deleteCue m | .clearCues m | .go m | .goTo m | .setStandby m | .readCue m => m.ok
  | .readWaits m | .loadSegment m | .readVoice m | .loadProfile m | .flashErase m | .flashWrite m | .flashRead m => m.ok
  | .flashReset m | .saveShow m | .loadZone m | .loadPageSource m | .loadPageOrder m | .pagingSet m | .readZone m => m.ok
  | .setShowState m | .setLocks m | .showStop m | .showResume m | .loadLight m | .lightSet m | .loadSettings m => m.ok
  | .readStatus m | .restart m => m.ok
  | .restartCarriedOut | .writeEnableComplete => true

end Sys2Proof
end

