-- ==== Sys2Proof/Certificates/Slice0/Obligations.lean ====
section
/-! DEFINITION. The statements for the provers. `accepts` says that checks 2 to 6 of R190 pass;
`State.reply` is the state with nothing changed but a reply formed. -/

section

open Sys2Proof Sys2Proof.Machine

/-! ### Steps, reset, frames -/

/-- A step is the command at the front of the queue, carried out on the state with the queue's rest; with
none waiting the block idles (the model's choice, log entry 21). -/
def Obligations.StepTakesTheFrontCommand : Prop :=
  (∀ (s : State) (c : Instr) (rest : List Instr), s.pending = c :: rest →
    step s = exec c { s with pending := rest })
  ∧ ∀ s : State, s.pending = [] → step s = .next s

/-- Every step answers a next state: nothing stops the part. -/
def Obligations.EveryStepGoesOn : Prop := ∀ s : State, stepSafe s

/-- The state of reset, block by block, where the spec gives the value; the codes of the levels are those of a part
that has read no image yet, which is the model's choice (log entry 4, and 6 for the blank flash) (R10, R29, R48, R54, R60, R61, R71,
R87, R114, R133, R136, R139, R155, R162, R167, R170, R179, R186, R191, R193, R199). -/
def Obligations.ResetHasTheSpecsValues : Prop :=
  let s := State.reset
  (s.lv.crosspoints = List.replicate 960 (Level.rest 0) ∧ s.lv.masters = List.replicate 24 (Level.rest 231)
    ∧ s.lv.trims = List.replicate 40 (Level.rest 231) ∧ s.lv.faders = List.replicate 16 (Level.rest 231)
    ∧ s.lv.programmes = List.replicate 16 (Level.rest 231) ∧ s.lv.ducks = List.replicate 16 (Level.rest 0))
  ∧ (s.mix.talkKey = false ∧ s.mix.talkLatch = false ∧ s.mix.y = List.replicate 24 0 ∧ s.latch = [])
  ∧ (s.cue.pos = 0 ∧ s.cue.held = false ∧ s.cue.guardEnd = none ∧ s.waits = [])
  ∧ (∀ v, v < 16 → (s.toRun.voice v).state = .idle ∧ (s.toRun.voice v).buffer = [])
  ∧ (s.flash.devs = [.ready, .ready] ∧ s.flash.queue = [] ∧ s.flash.line = [] ∧ s.flash.op.map Op.kind = some .imageLoad)
  ∧ (∀ z, z < 16 → s.toRun.zone z = { state := .programme, holdEnd := none, onAir := none })
  ∧ (∀ k, k < 8 → s.toRun.src k = { requested := false, bound := none })
  ∧ (s.page.enabled = false ∧ s.page.mask = 0 ∧ s.page.stopPage = none)
  ∧ (s.shw.inShow = false ∧ s.shw.stopped = false)
  ∧ (∀ l, l < 8 → s.toRun.light l = { state := .off, goEnd := none })
  ∧ (s.port.active = false ∧ s.port.capture = none ∧ s.port.reasm = [] ∧ s.ctl.places = [] ∧ s.ctl.reports = []
    ∧ s.ctl.lossPending = false ∧ s.ctl.taking = false)

/-- The invariants of the other statements hold at reset, and the tables of reset pass every check an
image's tables must pass. -/
def Obligations.InvariantsHoldAtReset : Prop :=
  lawHolds State.reset ∧ slotsHold State.reset ∧ cuesHold State.reset ∧ memoryOk State.reset
    ∧ placesHold State.reset ∧ reportsHold State.reset ∧ waitsHold State.reset ∧ tablesValid State.reset.tables

/-- No command touches the queue, and only a completed poll and power-on change what flash holds. That the bytes
change at that poll, and not at the end of the command before it, is the model's choice (log entry 8). -/
def Obligations.OnlyPollsAndPowerChangeFlash : Prop :=
  ∀ (i : Instr) (s t : State), exec i s = .next t →
    t.pending = s.pending
    ∧ ((∀ x, i ≠ .powerOn x) → (∀ x, i ≠ .pollComplete x) → bytesKept s t ∧ t.serial = s.serial)

/-- Only the load requests, the power-on events and the carriers of messages change a table. -/
def Obligations.OnlyLoadsChangeTables : Prop :=
  ∀ (i : Instr) (s t : State), mayLoad i = false → exec i s = .next t → t.tables = s.tables

/-! ### Invariants that every step keeps -/

/-- R11: the factory law is the rounded power law, every step keeps the conditions of the law table, and
where the table comes from at power-on and at RESTART. That the factory law stands while the image is still
being read is the model's choice (log entry 4). -/
def Obligations.GainLawAlwaysHolds : Prop :=
  (factoryLaw.length = 256 ∧ factoryLaw.getD 0 1 = 0
    ∧ ∀ c, 1 ≤ c → c < 256 →
      (2 * factoryLaw.getD c 0 - 1) ^ 40 * 10 ^ 231 ≤ (2 ^ 21) ^ 40 * 10 ^ c
      ∧ (2 ^ 21) ^ 40 * 10 ^ c < (2 * factoryLaw.getD c 0 + 1) ^ 40 * 10 ^ 231)
  ∧ lawHolds State.reset
  ∧ (∀ s t : State, lawHolds s → step s = .next t →
      lawHolds t ∧ t.tables.law.length = 256 ∧ t.tables.law.getD 0 1 = 0
      ∧ (∀ c, c < 255 → t.tables.law.getD c 0 ≤ t.tables.law.getD (c + 1) 0)
      ∧ ∀ c, c < 256 → t.tables.law.getD c 0 ≤ 4194304)
  ∧ (∀ s t : State, readingImage s.toRun = true → exec (.imageLoadEnd ()) s = .next t →
      (∀ i, checkImage (s.reader 0) = .ok i → t.tables.law = i.tables.law)
      ∧ (∀ w, checkImage (s.reader 0) = .error w → t.tables.law = factoryLaw))
  ∧ (∀ (x : Byte) (s t : State), exec (.powerOn x) s = .next t → t.tables.law = factoryLaw)
  ∧ ∀ s t : State, exec .restartCarriedOut s = .next t → t.tables.law = s.tables.law

/-- No two outputs are assigned the same ring slot, whatever step is taken (R180, R34, R151). -/
def Obligations.OutputSlotsStayDistinct : Prop :=
  ∀ s t : State, slotsHold s → step s = .next t → slotsHold t

/-- The cue list keeps at most 512 cues in strictly ascending number (R49, R51). -/
def Obligations.CueListStaysInOrder : Prop :=
  ∀ s t : State, cuesHold s → step s = .next t → cuesHold t

/-- The contents of both flash devices keep the canonical form (the model's form of memory). -/
def Obligations.FlashContentsStayCanonical : Prop :=
  ∀ s t : State, memoryOk s → step s = .next t → memoryOk t

/-- The reply queue keeps its 8 places, the report queue its 32, and the wait list its 32 entries
(R71, R74 to R76, R191, R193). -/
def Obligations.QueuesStayWithinTheirLimits : Prop :=
  (∀ s t : State, placesHold s → reportsHold s → step s = .next t → placesHold t ∧ reportsHold t)
  ∧ ∀ s t : State, waitsHold s → step s = .next t → waitsHold t

/-! ### Taking a request (chapter 12.1) -/

/-- Checks 2 to 6 of R190, in their order, for every request row; every row does what the message of its kind
does, whichever way it comes (R184, R190); and which requests are content requests and which a lock flag holds
(R157, R158, R160, Table 9-1). -/
def Obligations.RequestChecksInOrder : Prop :=
  (∀ (i : Instr) (k : ReqKind) (m : Msg) (s : State), requestOf i = some (k, m) →
    exec i s = .next { s with toPart := takeMessage k.code m s.toPart }
    ∧ (s.ctl.taking = false ∨ 8 ≤ s.ctl.places.length → exec i s = .next s)
    ∧ (s.ctl.taking = true → s.ctl.places.length < 8 →
        (k.lengthOk m.payload.length = false → exec i s = .next (s.reply k m .badLength []))
        ∧ (k.lengthOk m.payload.length = true →
            ((isContent k && s.shw.inShow) = true → exec i s = .next (s.reply k m .inShow []))
            ∧ ((isContent k && s.shw.inShow) = false → isLocked s.tables s.shw.inShow k m.payload = true →
                exec i s = .next (s.reply k m .locked [])))))
  ∧ (∀ k, isContent k = true ↔ k ∈ [ReqKind.flashErase, .flashWrite, .flashRead, .flashReset, .saveShow])
  ∧ ∀ (t : Tables) (inShow : Bool) (k : ReqKind) (p : List Byte),
    let level := k ∈ [ReqKind.setLevel, .fadeLevel]
    let ofMix := fun role => level ∧ ∃ m, (mixRec t m).role = role
      ∧ (refAt p 0 = some (.master m) ∨ ∃ i, refAt p 0 = some (.crosspoint i m))
    isLocked t inShow k p = true ↔ inShow = true ∧
      (t.locks.cues = true ∧ k ∈ [ReqKind.loadCue, .deleteCue, .clearCues, .loadSegment, .loadLight]
      ∨ t.locks.foldback = true ∧ (k ∈ [ReqKind.loadScene, .recall, .restore] ∨ ofMix .foldback)
      ∨ t.locks.relay = true ∧ (k ∈ [ReqKind.loadZone, .loadPageSource, .loadPageOrder]
          ∨ level ∧ ∃ z, refAt p 0 = some (.zoneProgramme z))
      ∨ t.locks.routing = true ∧ (k ∈ [ReqKind.loadInput, .loadMix, .loadLaw, .loadProfile, .loadSettings]
          ∨ ofMix .programme ∨ level ∧ ∃ i, refAt p 0 = some (.trim i)))

/-- A message of kind 128 or above is discarded; a kind below it that is no request kind takes a place and
is refused UNKNOWN_KIND (R190, checks 1 and 4). Both rows carry a message of any kind, which is taken as one that
came by the lane (log entry 30). -/
def Obligations.MessagesThatAreNoRequest : Prop :=
  (∀ (kind : Byte) (m : Msg) (s : State), 128 ≤ kind.toNat → exec (.messageNotRequest kind m) s = .next s)
  ∧ (∀ (kind : Byte) (m : Msg) (s : State),
      exec (.messageNotRequest kind m) s = .next { s with toPart := takeMessage kind.toNat m s.toPart }
      ∧ exec (.unknownKind kind m) s = .next { s with toPart := takeMessage kind.toNat m s.toPart })
  ∧ ∀ (kind : Byte) (m : Msg) (s : State), kind.toNat < 128 → ReqKind.ofCode kind.toNat = none →
      s.ctl.taking = true → s.ctl.places.length < 8 →
      exec (.unknownKind kind m) s = .next { s with ctl := { s.ctl with places := s.ctl.places ++
        [{ dst := m.src.toNat, kind := kind.toNat, tag := m.tag, answer := some (.unknownKind, []) }] } }

/-- READ_CUE, READ_WAITS, READ_VOICE, READ_ZONE and READ_STATUS change nothing but for their reply, whose
data are the state's own; a number or index out of range is refused BAD_FIELD, and a cue that is not in the list
NOT_FOUND (R59, R84, R109, R154, R196). READ_STATUS counts its own place. Of the data, these are the model's: from
which frame frames remaining are counted (log entry 40), the guard window on its closing frame (34), the bytes of an
identity none (16), and the pass and offset of a cursor at END, which are free values (11). -/
def Obligations.ReadsChangeNothing : Prop :=
  (∀ (m : Msg) (s : State) (c : Cue), accepts s .readCue m → isCueNum (u32 m.payload 0) →
    findCue s.tables (u32 m.payload 0) = some c →
    exec (.readCue m) s = .next (s.reply .readCue m .ok (cueBytes c)))
  ∧ (∀ (m : Msg) (s : State), accepts s .readCue m →
    (isCueNum (u32 m.payload 0) = false → exec (.readCue m) s = .next (s.reply .readCue m .badField []))
    ∧ (isCueNum (u32 m.payload 0) = true → findCue s.tables (u32 m.payload 0) = none →
      exec (.readCue m) s = .next (s.reply .readCue m .notFound [])))
  ∧ (∀ (m : Msg) (s : State), 16 ≤ u8 m.payload 0 →
    (accepts s .readVoice m → exec (.readVoice m) s = .next (s.reply .readVoice m .badField []))
    ∧ (accepts s .readZone m → exec (.readZone m) s = .next (s.reply .readZone m .badField [])))
  ∧ (∀ (m : Msg) (s : State), accepts s .readWaits m →
    exec (.readWaits m) s = .next (s.reply .readWaits m .ok (byte s.waits.length :: s.waits.flatMap (waitBytes s.toRun))))
  ∧ (∀ (m : Msg) (s : State), accepts s .readVoice m → u8 m.payload 0 < 16 →
    exec (.readVoice m) s = .next (s.reply .readVoice m .ok (voiceBytes s.toRun (u8 m.payload 0))))
  ∧ (∀ (m : Msg) (s : State), accepts s .readZone m → u8 m.payload 0 < 16 →
    exec (.readZone m) s = .next (s.reply .readZone m .ok (readZoneBytes s.tables s.toRun (u8 m.payload 0))))
  ∧ ∀ (m : Msg) (s : State), accepts s .readStatus m →
    exec (.readStatus m) s = .next (s.reply .readStatus m .ok
      (statusBytes s.tables (holdPlace ReqKind.readStatus.code m s.toPart).toRun))

/-! ### Levels, gains and mixes (chapters 1 and 2) -/

/-- What a write makes of a level: a set, or a fade from its current value (R4, R5). SET_LEVEL and FADE_LEVEL of a
crosspoint, a master, a trim or a zone programme level write that level and nothing else; a reference that names no level or a duck attenuation is refused BAD_FIELD (R9). -/
def Obligations.LevelRequestsWriteOneLevel : Prop :=
  (∀ (l : Level) (code ms : Nat),
    (ms = 0 → l.write code ms = { fine := 256 * code, fade := none })
    ∧ (0 < ms → l.fine = 256 * code → l.write code ms = { fine := 256 * code, fade := none })
    ∧ (0 < ms → l.fine ≠ 256 * code → l.write code ms
      = { fine := l.fine, fade := some { start := l.fine, target := 256 * code, dur := 48 * ms, k := 0 } }))
  ∧ ∀ (m : Msg) (s : State) (ms : Nat) (k : ReqKind) (i : Instr),
    (i = .setLevel m ∧ k = .setLevel ∧ ms = 0) ∨ (i = .fadeLevel m ∧ k = .fadeLevel ∧ ms = u16 m.payload 4) →
    accepts s k m →
    (∀ ref l, refAt m.payload 0 = some ref → (∀ v, ref ≠ .fader v) → (∀ z, ref ≠ .duck z) → s.lv.get? ref = some l →
      exec i s = .next { s.reply k m .ok [] with lv := s.lv.put (l.write (u8 m.payload 3) ms) ref })
    ∧ (refAt m.payload 0 = none ∨ (∃ z, refAt m.payload 0 = some (.duck z)) →
      exec i s = .next (s.reply k m .badField []))

/-- SET_LEVEL and FADE_LEVEL of a voice fader write the fader's level and are answered OK; the tables, the
mix engine, the waits, the cue engine and flash stand; and a write that comes to rest ends a STOPPING voice at
off and returns it to PLAYING above off (R9, R8, R102; that VOICE comes last is log entry 14). -/
def Obligations.LevelRequestsWriteAFader : Prop :=
  ∀ (m : Msg) (s : State) (ms : Nat) (k : ReqKind) (i : Instr) (v : Nat) (l : Level),
    (i = .setLevel m ∧ k = .setLevel ∧ ms = 0) ∨ (i = .fadeLevel m ∧ k = .fadeLevel ∧ ms = u16 m.payload 4) →
    accepts s k m → refAt m.payload 0 = some (.fader v) → s.lv.get? (.fader v) = some l →
    ∃ t, exec i s = .next t ∧ t.lv.faders = s.lv.faders.set v (l.write (u8 m.payload 3) ms)
      ∧ t.lv.crosspoints = s.lv.crosspoints ∧ t.lv.masters = s.lv.masters ∧ t.lv.trims = s.lv.trims
      ∧ t.lv.programmes = s.lv.programmes ∧ repliedWith s t k m .ok [] ∧ t.tables = s.tables ∧ t.mix = s.mix
      ∧ t.waits = s.waits ∧ t.cue = s.cue ∧ t.latch = s.latch ∧ t.stage = s.stage ∧ storesKept s t
      ∧ (noFault s.toRun → v < s.voices.length → (s.toRun.voice v).state = .stopping → l.completionDue = false →
        let l' := l.write (u8 m.payload 3) ms
        let why := (s.toRun.voice v).stopWhy
        (l'.fade ≠ none → (t.toRun.voice v).state = .stopping ∧ (t.toRun.voice v).stopWhy = why)
        ∧ (l'.fade = none → l'.fine = 0 → (t.toRun.voice v).state = .idle
            ∧ lastReport s.tables s.toRun t.toRun (.voice v (why.getD .stopped) (s.toRun.voice v).startId))
        ∧ (l'.fade = none → l'.fine ≠ 0 → (t.toRun.voice v).state = .playing ∧ (t.toRun.voice v).stopWhy = none))

/-- R2: the code of a level, and that every fade target a write makes is a multiple of 256. -/
def Obligations.CodeOfALevel : Prop :=
  (∀ l : Level, l.fade = none → l.code = l.fine / 256)
  ∧ (∀ (l : Level) (f : Fade), l.fade = some f → l.code = f.target / 256)
  ∧ (∀ (l : Level) (code ms : Nat) (f : Fade), (l.write code ms).fade = some f → f.target = 256 * code)
  ∧ (∀ (l : Level) (code ms : Nat), (l.write code ms).code = code)
  ∧ (∀ p : Part, p.image.codes
      = (p.lv.crosspoints ++ p.lv.masters ++ p.lv.trims ++ p.lv.faders ++ p.lv.programmes).map Level.code)
  ∧ (∀ (t : Tables) (n : Nat) (mode : RecallMode) (mask : BitVec 24) (ms : Nat) (r : Run),
      affected (t.scenes.getD n Scene.empty) mask ≠ [] →
      (recallScene t n mode mask ms r).run.latch
        = (affected (t.scenes.getD n Scene.empty) mask).map (fun e => (e.1, (r.lv.get e.1).code)))
  ∧ (∀ (lv : Levels) (new : List (LevelRef × Nat)) (e : LevelRef × Nat),
      e ∈ neededWrites lv new ↔ e ∈ new ∧ (lv.get e.1).code ≠ e.2)
  ∧ ({ fine := 53184, fade := none } : Level).code = 207
  ∧ ∀ f : Fade, f.target = 256 * 231 → ({ fine := 53184, fade := some f } : Level).code = 231

/-- A fade's value lies between its start and its target on every frame, and is exactly its target when k
reaches D; a frame raises k by one (R6), and a fade that has reached D waits for its completion to be taken
(log entry 1). -/
def Obligations.FadeStaysBetweenItsEnds : Prop :=
  (∀ f : Fade, 0 < f.dur → f.k ≤ f.dur →
    min f.start f.target ≤ f.value ∧ f.value ≤ max f.start f.target ∧ (f.k = f.dur → f.value = f.target))
  ∧ (∀ f : Fade, (f.value : Int) = max 0 (f.start + Int.tdiv ((f.target - f.start) * f.k) f.dur))
  ∧ ∀ l : Level, (l.fade = none → l.advance = l)
    ∧ ∀ f, l.fade = some f →
      (f.k < f.dur → l.advance = { fine := Fade.value { f with k := f.k + 1 }, fade := some { f with k := f.k + 1 } })
      ∧ (f.dur ≤ f.k → l.advance = l)

/-- FADE_COMPLETE: a fade that has reached its end is removed; on a level without notices nothing else changes,
a STOPPING voice ends at off and returns to PLAYING above it, a zone in RELEASE becomes PROGRAMME, and a level
whose fade has not ended stands (R6, R8, R102, R150; that VOICE comes last is log entry 14). -/
def Obligations.FadeCompletionLeavesItsLevelAtRest : Prop :=
  ∀ (s : State) (ref : LevelRef) (l : Level), s.lv.get? ref = some l →
    (l.completionDue = true → (∀ v, ref ≠ .fader v) → (∀ z, ref ≠ .duck z) →
      exec (.fadeComplete ref) s = .next { s with lv := s.lv.put { fine := l.fine, fade := none } ref })
    ∧ (l.completionDue = false → exec (.fadeComplete ref) s = .next s)
    ∧ (∀ v, ref = .fader v → l.completionDue = true →
      let x := s.toRun.voice v
      ∃ t, exec (.fadeComplete ref) s = .next t ∧ t.lv.faders = s.lv.faders.set v { fine := l.fine, fade := none }
        ∧ t.ctl.places = s.ctl.places ∧ t.tables = s.tables ∧ soundKept s t
        ∧ (noFault s.toRun → x.state ≠ .stopping → (t.toRun.voice v).state = x.state)
        ∧ (noFault s.toRun → x.state = .stopping →
          (l.fine = 0 → (t.toRun.voice v).state = .idle
            ∧ lastReport s.tables s.toRun t.toRun (.voice v (x.stopWhy.getD .stopped) x.startId))
          ∧ (l.fine ≠ 0 → (t.toRun.voice v).state = .playing ∧ (t.toRun.voice v).stopWhy = none)))
    ∧ ∀ z, ref = .duck z → l.completionDue = true →
      exec (.fadeComplete ref) s = .next { s with
        lv := s.lv.put { fine := l.fine, fade := none } ref
        page := { s.page with
          zones := if (s.toRun.zone z).state = .release then s.page.zones.modify z (fun x => { x with state := .programme })
            else s.page.zones } }

/-- R12: LOAD_LAW replaces a run, under the conditions of the law table, or leaves the whole table. -/
def Obligations.LoadLawReplacesARun : Prop :=
  ∀ (m : Msg) (s : State),
    (accepts s .loadLaw m →
      let p := m.payload
      let law := lawWith s.tables.law (u8 p 0) (lawValues p)
      (p.length ≠ 2 + 4 * u8 p 1 → exec (.loadLaw m) s = .next (s.reply .loadLaw m .badLength []))
      ∧ (p.length = 2 + 4 * u8 p 1 →
          (1 ≤ u8 p 1 ∧ u8 p 1 ≤ 64 ∧ u8 p 0 + u8 p 1 ≤ 256 ∧ lawOk law = true →
            exec (.loadLaw m) s = .next { s.reply .loadLaw m .ok [] with tables := { s.tables with law := law } })
          ∧ (¬ (1 ≤ u8 p 1 ∧ u8 p 1 ≤ 64 ∧ u8 p 0 + u8 p 1 ≤ 256 ∧ lawOk law = true) →
            exec (.loadLaw m) s = .next (s.reply .loadLaw m .badField []))))
    ∧ (∀ p, lockGroup s.tables .loadLaw p = some .routing)

/-- R14: the gain of a fine value, non-decreasing under every law the part can hold. -/
def Obligations.GainOfAFineValue : Prop :=
  (∀ law, gain law 0 = 0) ∧ (∀ law, gain law 65280 = law.getD 255 0)
  ∧ (∀ (law : List Nat) (fine : Nat), 0 < fine → fine / 256 ≠ 255 →
      gain law fine = law.getD (fine / 256) 0
        + (law.getD (fine / 256 + 1) 0 - law.getD (fine / 256) 0) * (fine % 256) / 256)
  ∧ (∀ (law : List Nat) (a b : Nat), lawOk law = true → a ≤ b → b ≤ 65280 → gain law a ≤ gain law b)
  ∧ (∀ r, 1 ≤ r → r < 256 → gain factoryLaw r = if r < 128 then 0 else 1)
  ∧ (∀ (law : List Nat) (x : Sample) (fine : Nat),
      scaled x (gain law fine) = (x * (gain law fine : Int) + 524288) / 1048576)
  ∧ ∀ (law : List Nat) (channels : List Sample) (points : List Level),
      mixSum law channels points
        = (((channels.zip points).map (fun e => e.1 * (gain law e.2.fine : Int))).sum + 524288) / 1048576

/-- R16: a dimmed master, and when the mix engine asks for it: on every frame for which talk is active, a TALK
change taken on the frame counting already (R23, R29; the mark of such a change is log entry 2). -/
def Obligations.DimmedMaster : Prop :=
  (∀ d, dimmed 0 d = 0)
  ∧ (∀ m d, m ≠ 0 → dimmed m d = max 256 (m - 256 * d) ∧ 256 ≤ dimmed m d)
  ∧ (∀ (t : Tables) (talk : Bool) (x : MixRec) (l : Level),
      masterFine t talk x l =
        if talk = true ∧ x.role = .foldback ∧ x.dim = true then dimmed l.fine t.settings.dimDepth else l.fine)
  ∧ (∀ (t : Tables) (talk : Bool) (lv : Levels) (ch : List Sample) (m : Nat) (l : Level), lv.masters[m]? = some l →
      (mixValue t talk lv ch m).cval
        = scaled (mixSum t.law ch ((lv.crosspoints.drop (40 * m)).take 40)) (gain t.law (masterFine t talk (mixRec t m) l)))
  ∧ (∀ (t : Tables) (lv : Levels) (voices : List Sample) (r : Run) (m : Nat), m < 24 →
      (formMixes t lv voices r).mix.y[m]? = some (mixValue t (talkNow r) lv (channelValues t lv r voices) m).y)
  ∧ (∀ r : Run, (∀ down, KeyEvent.talk down ∉ r.stage.due) → talkNow r = (r.mix.talkKey || r.mix.talkLatch))
  ∧ ∀ (r : Run) (before rest : List KeyEvent) (down : Bool), r.stage.due = before ++ .talk down :: rest →
      (∀ d, KeyEvent.talk d ∉ before) → talkNow r = (down || r.mix.talkLatch)

/-- Every mix value lies within ±8,388,607, and that of a FOLDBACK mix within ± its ceiling (R24); how it and the
channel values come about (R20, R24), and what the meters count of it (R25). -/
def Obligations.MixValuesAreLimited : Prop :=
  (∀ (t : Tables) (talk : Bool) (lv : Levels) (ch : List Sample) (m : Nat),
    -8388607 ≤ (mixValue t talk lv ch m).y ∧ (mixValue t talk lv ch m).y ≤ 8388607
    ∧ ((mixRec t m).role = .foldback →
        -((mixRec t m).ceiling : Int) ≤ (mixValue t talk lv ch m).y
        ∧ (mixValue t talk lv ch m).y ≤ (mixRec t m).ceiling
        ∧ (mixValue t talk lv ch m).y = max (-8388607) (min 8388607
            (max (-((mixRec t m).ceiling : Int)) (min (mixRec t m).ceiling (mixValue t talk lv ch m).cval))))
    ∧ ((mixRec t m).role = .programme →
        (mixValue t talk lv ch m).y = max (-8388607) (min 8388607 (mixValue t talk lv ch m).cval)))
  ∧ (∀ (t : Tables) (lv : Levels) (voices : List Sample) (r : Run) (i : Nat) (c : InputRec) (l : Level),
    t.inputs[i]? = some c → lv.trims[i]? = some l →
    let a := max (-8388607) (min 8388607 (scaled (sourceSample r voices c.source) (gain t.law l.fine)))
    (channelValues t lv r voices)[i]?
      = some (if c.mute = true ∨ c.source = .none then 0 else if c.invert = true then -a else a))
  ∧ ∀ (t : Tables) (lv : Levels) (voices : List Sample) (r : Run) (m p : Nat) (c : Bool), m < 24 →
    r.mix.peaks[m]? = some p → r.mix.clips[m]? = some c →
    let v := mixValue t (talkNow r) lv (channelValues t lv r voices) m
    (formMixes t lv voices r).mix.peaks[m]? = some (max p v.y.natAbs)
    ∧ (formMixes t lv voices r).mix.clips[m]? = some (c || v.y != v.cval)

/-- LOAD_INPUT sets the channel record and its trim whole, or is refused BAD_FIELD (R32; that the index of a source
of kind none is 0 is log entry 15). -/
def Obligations.LoadInputTakesTheChannelWhole : Prop :=
  (∀ (m : Msg) (s : State) (src : Source) (l : Level), accepts s .loadInput m →
    sourceOf (u8 m.payload 1) (u8 m.payload 2) = some src → u8 m.payload 0 < 40 → u8 m.payload 4 < 4 →
    s.lv.trims[u8 m.payload 0]? = some l →
    exec (.loadInput m) s = .next { s.reply .loadInput m .ok [] with
      tables := { s.tables with
        inputs := s.tables.inputs.set (u8 m.payload 0)
          { source := src, invert := u8 m.payload 4 % 2 = 1, mute := u8 m.payload 4 / 2 = 1 } }
      lv := { s.lv with
        trims := s.lv.trims.set (u8 m.payload 0) { fine := 256 * u8 m.payload 3, fade := none } } })
  ∧ ∀ (m : Msg) (s : State), accepts s .loadInput m →
    let kind := u8 m.payload 1
    let index := u8 m.payload 2
    40 ≤ u8 m.payload 0 ∨ 4 ≤ u8 m.payload 4 ∨ 3 ≤ kind ∨ (kind = 0 ∧ index ≠ 0) ∨ (kind = 1 ∧ 64 ≤ index)
      ∨ (kind = 2 ∧ 16 ≤ index) →
    exec (.loadInput m) s = .next (s.reply .loadInput m .badField [])

/-- LOAD_MIX replaces the mix record where its slot is free, with the ceiling clamped; a field out of range, or a
slot another output claims, is refused BAD_FIELD (R33, R34). The last clause: which slots another output claims. -/
def Obligations.LoadMixTakesTheRecord : Prop :=
  (∀ (m : Msg) (s : State) (r : MixRec), accepts s .loadMix m → mixOf m.payload = some r →
    (slotFree s.tables (.mix (u8 m.payload 0)) r.slot = true →
      exec (.loadMix m) s = .next { s.reply .loadMix m (if 8388607 < u24 m.payload 4 then .adjusted else .ok)
          (mixBytes (u8 m.payload 0) r) with
        tables := { s.tables with mixes := s.tables.mixes.set (u8 m.payload 0) r } })
    ∧ (slotFree s.tables (.mix (u8 m.payload 0)) r.slot = false →
      exec (.loadMix m) s = .next (s.reply .loadMix m .badField [])))
  ∧ (∀ (m : Msg) (s : State), accepts s .loadMix m →
    24 ≤ u8 m.payload 0 ∨ 2 ≤ u8 m.payload 1 ∨ (64 ≤ u8 m.payload 2 ∧ u8 m.payload 2 ≠ 255) ∨ 2 ≤ u8 m.payload 3
      ∨ u24 m.payload 4 = 0 →
    exec (.loadMix m) s = .next (s.reply .loadMix m .badField []))
  ∧ ∀ (t : Tables) (o : SlotOwner), slotFree t o none = true
    ∧ ∀ n, slotFree t o (some n) = true ↔ ∀ o', (o', n) ∈ slotClaims t → o' = o

/-- R30: TALK_SET. -/
def Obligations.TalkSetTakesTheLatch : Prop :=
  (∀ (m : Msg) (s : State), accepts s .talkSet m →
    (u8 m.payload 0 = 1 → exec (.talkSet m) s = .next { s.reply .talkSet m .ok [] with mix := { s.mix with talkLatch := true } })
    ∧ (u8 m.payload 0 = 0 →
        exec (.talkSet m) s = .next { s.reply .talkSet m .ok [] with mix := { s.mix with talkLatch := false } })
    ∧ (1 < u8 m.payload 0 → exec (.talkSet m) s = .next (s.reply .talkSet m .badField [])))
  ∧ (∀ (t : Tables) (inShow : Bool) (p : List Byte), isLocked t inShow .talkSet p = false)
  ∧ ∀ x : MixRt, x.talkKey = true → MixRt.talk { x with talkLatch := false } = true
      ∧ MixRt.talk { x with talkLatch := true } = true
      ∧ MixRt.talk { x with talkKey := false, talkLatch := true } = true
      ∧ MixRt.talk { x with talkKey := false, talkLatch := false } = false

/-- READ_METERS answers with every peak and clip flag and clears them, all at once (R36); TALK_KEY_CHANGE
sets the TALK key record and nothing else but the model's mark of the change (R29, R168; log entry 2). -/
def Obligations.MetersAreClearedAndTheTalkKeyIsSet : Prop :=
  (∀ (m : Msg) (s : State), accepts s .readMeters m →
    exec (.readMeters m) s = .next { s.reply .readMeters m .ok (meterBytes s.mix) with
      mix := { s.mix with peaks := List.replicate 24 0, clips := List.replicate 24 false } })
  ∧ ∀ (down : Bool) (s : State),
    exec (.talkKeyChange down) s = .next { s with
      mix := { s.mix with talkKey := down }
      stage := { s.stage with due := s.stage.due.erase (.talk down) } }

/-! ### Scenes (chapter 3) -/

/-- R42: the new code of each mode. That TRIM follows Table 3-1 for codes 233 to 255, where the sentence below it
asks code 1 of a scene code of 0, is the model's choice (log entry 44). -/
def Obligations.RecallModesGiveTheNewCode : Prop :=
  ∀ c s : Nat, c ≤ 255 → s ≤ 255 →
    recallCode .replace c s = s ∧ recallCode .keepHigher c s = max c s ∧ recallCode .keepLower c s = min c s
    ∧ recallCode .trim 0 s = 0
    ∧ (c ≠ 0 → ((recallCode .trim c s : Nat) : Int)
        = if (c : Int) + s - 231 < 1 then 1 else if 255 < (c : Int) + s - 231 then 255 else (c : Int) + s - 231)
    ∧ recallCode .trim c 231 = c ∧ (c ≠ 0 → recallCode .trim c 0 ≠ 0 ∧ (c ≤ 232 → recallCode .trim c 0 = 1))

/-- LOAD_SCENE replaces the whole scene and nothing else, under the checks of R39 in their order; the scene is that
of the payload's sets, with a code for every crosspoint and master they hold. -/
def Obligations.LoadSceneReplacesTheScene : Prop :=
  (∀ (m : Msg) (s : State), accepts s .loadScene m →
    let sc := sceneOf m.payload
    (32 ≤ u8 m.payload 0 ∨ sc.masters &&& ~~~sc.mixes ≠ 0 → exec (.loadScene m) s = .next (s.reply .loadScene m .badField []))
    ∧ (u8 m.payload 0 < 32 → sc.masters &&& ~~~sc.mixes = 0 →
      (sc.codes.length ≠ sceneCodeCount sc → exec (.loadScene m) s = .next (s.reply .loadScene m .badLength []))
      ∧ (sc.codes.length = sceneCodeCount sc →
        exec (.loadScene m) s = .next { s.reply .loadScene m .ok [] with
          tables := { s.tables with scenes := s.tables.scenes.set (u8 m.payload 0) sc } })))
  ∧ (∀ p : List Byte, sceneOf p = { mixes := BitVec.ofNat 24 (u24 p 1)
                                    inputs := BitVec.ofNat 40 (u24 p 4 + 16777216 * u16 p 7)
                                    masters := BitVec.ofNat 24 (u24 p 9), codes := (p.drop 12).map BitVec.toNat })
  ∧ ∀ sc : Scene, sceneCodeCount sc = (List.range 24).countP (fun m => sc.mixes.getLsbD m)
      * (List.range 40).countP (fun i => sc.inputs.getLsbD i) + (List.range 24).countP (fun m => sc.masters.getLsbD m)

/-- RECALL latches the current codes of its affected levels, writes those whose code changes with the recall's
time, and answers with both counts; with no affected level nothing changes; and a scene or mode out of range is
refused BAD_FIELD (R40, R41, R43, R46). The last clause: the affected levels, in the order of a scene's codes (R39,
R40). -/
def Obligations.RecallLatchesAndWrites : Prop :=
  (∀ (m : Msg) (s : State) (mode : RecallMode), accepts s .recall m → u8 m.payload 0 < 32 →
    recallModeOf (u8 m.payload 1) = some mode →
    let ms := u16 m.payload 2
    let aff := affected (s.tables.scenes.getD (u8 m.payload 0) Scene.empty) (BitVec.ofNat 24 (u24 m.payload 4))
    (aff = [] → exec (.recall m) s = .next (s.reply .recall m .ok [0, 0, 0, 0]))
    ∧ (aff ≠ [] → ∃ lv : Levels,
        exec (.recall m) s = .next { s.reply .recall m .ok (le16 aff.length ++ le16 (recallWrites aff mode s.lv)) with
          latch := aff.map (fun e => (e.1, (s.lv.get e.1).code))
          lv := lv }
        ∧ recallsTo aff mode ms s.lv lv ∧ (aff.map Prod.fst).Nodup))
  ∧ (∀ (m : Msg) (s : State), accepts s .recall m → 32 ≤ u8 m.payload 0 ∨ 4 ≤ u8 m.payload 1 →
    exec (.recall m) s = .next (s.reply .recall m .badField []))
  ∧ ∀ (sc : Scene) (mask : BitVec 24),
    let held := fun {w : Nat} (n : Nat) (x : BitVec w) => (List.range n).filter (fun i => x.getLsbD i)
    let levels := (held 24 sc.mixes).flatMap (fun m => (held 40 sc.inputs).map (fun i => LevelRef.crosspoint i m))
      ++ (held 24 sc.masters).map LevelRef.master
    affected sc mask = (levels.zip sc.codes).filter (fun e => match e.1 with
      | .crosspoint _ m => mask.getLsbD m
      | .master m => mask.getLsbD m
      | _ => false)

/-- RESTORE with an empty latch is refused NOT_FOUND. Otherwise each latched level whose code is not its latched
code is written with the RESTORE's time, every other level stands, the latch is empty, the reply carries both
counts, and nothing else changes (R45, R46). -/
def Obligations.RestoreBringsBackTheLatchedCodes : Prop :=
  ∀ (m : Msg) (s : State), accepts s .restore m →
    (s.latch = [] → exec (.restore m) s = .next (s.reply .restore m .notFound []))
    ∧ (s.latch ≠ [] → ∃ lv : Levels,
        exec (.restore m) s = .next { s.reply .restore m .ok
            (le16 s.latch.length ++ le16 (recallWrites s.latch .replace s.lv)) with latch := [], lv := lv }
        ∧ (∀ ref, ref ∉ s.latch.map Prod.fst → lv.get? ref = s.lv.get? ref)
        ∧ ((s.latch.map Prod.fst).Nodup → recallsTo s.latch .replace (u16 m.payload 0) s.lv lv
          ∧ ∀ ref code, (ref, code) ∈ s.latch → s.lv.get? ref ≠ none → (lv.get ref).code = code))

/-! ### The cue list, the GO and the wait list (chapters 4 and 5) -/

/-- LOAD_CUE and DELETE_CUE: the checks in their order, the one cue an edit changes, and the recomputation of the
standby cue that follows (R51, R52, R55); and which cues and which actions are out of range (R49, R50, R51, R203,
Table 4-1). -/
def Obligations.CueEditsChangeOneCue : Prop :=
  (∀ (m : Msg) (s : State), accepts s .loadCue m →
    (m.payload.length ≠ cueLength m.payload → exec (.loadCue m) s = .next (s.reply .loadCue m .badLength []))
    ∧ (m.payload.length = cueLength m.payload →
      (cueOf m.payload = none → exec (.loadCue m) s = .next (s.reply .loadCue m .badField []))
      ∧ ∀ c, cueOf m.payload = some c →
        (findCue s.tables c.num = none → 512 ≤ s.tables.cues.length →
          exec (.loadCue m) s = .next (s.reply .loadCue m .full []))
        ∧ (findCue s.tables c.num ≠ none ∨ s.tables.cues.length < 512 →
          ∃ t, exec (.loadCue m) s = .next t ∧ t.tables = { s.tables with cues := insertCue c s.tables.cues }
            ∧ findCue t.tables c.num = some c ∧ (∀ n, n ≠ c.num → findCue t.tables n = findCue s.tables n)
            ∧ repliedWith s t .loadCue m .ok [] ∧ t.cue.pos = s.cue.pos ∧ t.waits = s.waits
            ∧ levelsKept s t ∧ cueKept s t
            ∧ runsAs t (recompute t.tables false (some c.num) (holdPlace ReqKind.loadCue.code m s.toPart).toRun))))
  ∧ (∀ (m : Msg) (s : State), accepts s .deleteCue m →
    (isCueNum (u32 m.payload 0) = false → exec (.deleteCue m) s = .next (s.reply .deleteCue m .badField []))
    ∧ (isCueNum (u32 m.payload 0) = true →
      (findCue s.tables (u32 m.payload 0) = none → exec (.deleteCue m) s = .next (s.reply .deleteCue m .notFound []))
      ∧ (findCue s.tables (u32 m.payload 0) ≠ none →
        ∃ t, exec (.deleteCue m) s = .next t
          ∧ t.tables = { s.tables with cues := s.tables.cues.filter (fun c => c.num ≠ u32 m.payload 0) }
          ∧ findCue t.tables (u32 m.payload 0) = none
          ∧ (∀ n, n ≠ u32 m.payload 0 → findCue t.tables n = findCue s.tables n)
          ∧ repliedWith s t .deleteCue m .ok [] ∧ t.cue.pos = s.cue.pos ∧ t.waits = s.waits
          ∧ levelsKept s t ∧ cueKept s t
          ∧ runsAs t (recompute t.tables false none (holdPlace ReqKind.deleteCue.code m s.toPart).toRun))))
  ∧ (∀ p : List Byte,
    let b := u8 p
    cueOf p = none ↔ u32 p 0 = 0 ∨ 99999 < u32 p 0 ∨ 24 < b 5 ∨ 4 ≤ b 4 ∨ 8 < b 10
      ∨ (b 4 / 2 = 1 ∧ u16 p 8 = 0) ∨ (b 4 / 2 ≠ 1 ∧ u16 p 8 ≠ 0)
      ∨ (∃ x, x ∈ (p.drop 11).take (b 5) ∧ (x.toNat < 0x20 ∨ 0x7E < x.toNat))
      ∨ ∃ i, i < b 10 ∧ actionOf ((p.drop (11 + b 5 + 8 * i)).take 8) = none)
  ∧ ∀ a : List Byte,
    let b := u8 a
    let kind := u8 a 0
    let ends := [6, 4, 2, 7, 8, 3, 3, 5, 3, 8, 2, 1]
    actionOf a = none ↔ kind = 0 ∨ 12 < kind
      ∨ (kind ∈ [1, 2, 3, 10, 11] ∧ 16 ≤ b 1) ∨ (kind ∈ [7, 8, 9] ∧ 8 ≤ b 1)
      ∨ (kind = 1 ∧ (1024 ≤ u16 a 2 ∨ 2 ≤ b 5))
      ∨ (kind = 4 ∧ (refAt a 1 = none ∨ ∃ z, refAt a 1 = some (.duck z)))
      ∨ (kind = 5 ∧ (32 ≤ b 1 ∨ 4 ≤ b 2)) ∨ (kind = 7 ∧ 2 ≤ b 2) ∨ (kind = 8 ∧ (16 ≤ b 2 ∨ 1024 ≤ u16 a 3))
      ∨ (kind = 9 ∧ 3 ≤ b 2) ∨ (kind = 10 ∧ (3 ≤ b 2 ∨ u16 a 3 = 0 ∨ u24 a 5 = 0 ∨ 99999 < u24 a 5))
      ∨ (kind ≠ 5 ∧ kind ≠ 10 ∧ ∃ n, ends[kind - 1]? = some n ∧ zerosFrom a n = false)

/-- R53: CLEAR_CUES; its recomputation of the standby cue is that of every edit (R55). -/
def Obligations.ClearCuesEmptiesTheList : Prop :=
  (∀ n, ReqKind.clearCues.lengthOk n = true ↔ n = 0)
  ∧ (∀ (m : Msg) (s : State), accepts s .clearCues m →
    ∃ t, exec (.clearCues m) s = .next t ∧ t.tables = { s.tables with cues := [] } ∧ t.cue.pos = 0
      ∧ repliedWith s t .clearCues m .ok [] ∧ t.waits = s.waits ∧ (∀ n, findCue t.tables n = none)
      ∧ levelsKept s t ∧ cueKept s t
      ∧ let r := (holdPlace ReqKind.clearCues.code m s.toPart).toRun
        runsAs t (recompute t.tables (0 != s.cue.pos) none { r with cue := { r.cue with pos := 0 } }))
  ∧ ∀ (m : Msg) (s : State) (c : Cue), accepts s .loadCue m → s.tables.cues = [] → s.cue.pos = 0 →
      m.payload.length = cueLength m.payload → cueOf m.payload = some c → c.enabled = true →
      ∃ t, exec (.loadCue m) s = .next t ∧ standbyCue t.tables t.toRun = some c

/-- SET_STANDBY and GO_TO: the refusals in their order, the position, and the firing (R58, R63, R65); and what a
recomputation of the standby cue does: the old cue's voices unprimed, the new cue's START voices primed where
they are IDLE, the AUTO lights told, and STANDBY given (R55, R56, R94, R175; that it is given last is log entry 13). -/
def Obligations.StandbyAndGoToNameTheirCue : Prop :=
  (∀ (m : Msg) (s : State) (i : Instr) (k : ReqKind), accepts s k m →
    let n := u32 m.payload 0
    (i = .setStandby m ∧ k = .setStandby) ∨ (i = .goTo m ∧ k = .goTo) →
    (isCueNum n = false → exec i s = .next (s.reply k m .badField []))
    ∧ (isCueNum n = true → k = .goTo → s.cue.held = true → exec i s = .next (s.reply k m .held []))
    ∧ (isCueNum n = true → (k = .goTo → s.cue.held = false) →
      (findCue s.tables n = none → exec i s = .next (s.reply k m .notFound []))
      ∧ ∀ c, findCue s.tables n = some c →
        (c.enabled = false → exec i s = .next (s.reply k m .disabled []))
        ∧ (c.enabled = true → k = .goTo → s.toRun.guarded = true → exec i s = .next (s.reply k m .guarded []))
        ∧ (c.enabled = true → k = .goTo → s.toRun.guarded = false →
          ∃ t r, exec i s = .next t ∧ firedBy s t c .goTo ∧ t.cue.guardEnd = guardAfterGo s
            ∧ repliedWith s t k m .ok (le32 n)
            ∧ firing s.tables c .goTo (holdPlace k.code m s.toPart).toRun r ∧ runsAs t (openGuard s.tables r))
        ∧ (c.enabled = true → k = .setStandby →
          ∃ t, exec i s = .next t ∧ t.cue.pos = n - 1 ∧ t.cue.guardEnd = s.cue.guardEnd ∧ t.cue.held = s.cue.held
            ∧ (cuesHold s → standbyCue t.tables t.toRun = some c)
            ∧ repliedWith s t k m .ok [] ∧ t.tables = s.tables ∧ t.waits = s.waits ∧ levelsKept s t ∧ cueKept s t
            ∧ let r := (holdPlace k.code m s.toPart).toRun
              runsAs t (recompute s.tables (n - 1 != s.cue.pos) none { r with cue := { r.cue with pos := n - 1 } }))))
  ∧ ∀ (t : Tables) (moved : Bool) (loaded : Option Nat) (r : Run),
    let new := standbyCue t r
    let r1 := { r with cue := { r.cue with kept := new, fresh := false } }
    let r' := recompute t moved loaded r
    let said := ReportBody.standby r.cue.pos (new.map Cue.num)
    r'.cue = r1.cue
    ∧ (standbyChanged r.cue.kept new r.cue.fresh loaded = false → r' = if moved then r1.report t said else r1)
    ∧ (standbyChanged r.cue.kept new r.cue.fresh loaded = true →
      lastReport t r r' said
      ∧ (∀ (old : Cue) (v : Nat), r.cue.kept = some old → v < 16 → (r.voice v).primedForCue old.num = true →
        (r.voice v).tag = none →
        r.cue.held = true ∨ (∀ c, new = some c → ∀ head code sync, Action.start v head code sync ∉ c.actions) →
        (r'.voice v).state = .idle)
      ∧ ∀ (c : Cue) (i v head code : Nat) (sync : Bool) (sg : Segment), new = some c → r.cue.held = false →
        noFault r → c.actions[i]? = some (.start v head code sync) →
        (∀ j head' code' sync', j < i → c.actions[j]? ≠ some (.start v head' code' sync')) →
        v < r.voices.length → (r.voice v).state = .idle → (r.voice v).tag = none → segmentRec t head = some sg →
        (r'.voice v).state = .primed ∧ (r'.voice v).primeId = some (c.num, i + 1))
    ∧ (standbyChanged r.cue.kept new r.cue.fresh loaded = true →
      r'.stage.standby = new.map Cue.num
      ∧ (∀ l, l ∈ r'.stage.warned ↔ ∃ c, new = some c ∧ Action.light l .go ∈ c.actions)
      ∧ ∀ l, l < 8 → l < r.stage.lights.length →
        let x := r.light l
        (r.shw.stopped = true ∨ (lightRec t l).auto = false → r'.light l = x)
        ∧ (r.shw.stopped = false → (lightRec t l).auto = true → r'.light l =
          if l ∈ r'.stage.warned then
            (if x.state = .off ∨ x.state = .acked ∧ new.map Cue.num ≠ r.stage.standby then { x with state := .standby } else x)
          else (if x.state = .standby ∨ x.state = .acked then { x with state := .off } else x)))

/-- A GO request is refused HELD, GUARDED or END_OF_LIST, in that order, or fires the standby cue (R61, R62, R65);
how an action list is run: in list order, its places counted from 1, its START actions with the sync flag
under one tag that no voice carries (R67; which tag is log entry 10); and what each action does (Table 4-3, R69,
R73 to R76, R100, R102a, R142, R143, R174; that a fader's due completion comes first is log entry 25, and the order
of the voices log entry 36). -/
def Obligations.GoFiresTheStandbyCue : Prop :=
  (∀ (m : Msg) (s : State), accepts s .go m →
    (s.cue.held = true → exec (.go m) s = .next (s.reply .go m .held []))
    ∧ (s.cue.held = false → s.toRun.guarded = true → exec (.go m) s = .next (s.reply .go m .guarded []))
    ∧ (s.cue.held = false → s.toRun.guarded = false →
      (standbyCue s.tables s.toRun = none → exec (.go m) s = .next (s.reply .go m .endOfList []))
      ∧ ∀ c, standbyCue s.tables s.toRun = some c →
        ∃ t r, exec (.go m) s = .next t ∧ firedBy s t c .goRequest ∧ t.cue.guardEnd = guardAfterGo s
          ∧ repliedWith s t .go m .ok (le32 c.num)
          ∧ firing s.tables c .goRequest (holdPlace ReqKind.go.code m s.toPart).toRun r
          ∧ runsAs t (openGuard s.tables r)))
  ∧ (∀ (t : Tables) (c : Cue) (r : Run),
    let g := chooseTag r
    ((∀ a, a ∈ c.actions → Machine.Action.isSyncStart a = false) →
      runActions t c r = setBuilding none (runList t g c (setBuilding none r)))
    ∧ ((∃ a, a ∈ c.actions ∧ Machine.Action.isSyncStart a = true) →
      runActions t c r = syncCheck g (setBuilding none (runList t g c (setBuilding (some g) r))))
    ∧ (r.voices.length ≤ 16 → g ∉ usedTags r))
  ∧ (∀ (t : Tables) (g : Nat) (c : Cue) (a : Action) (r : Run),
    (c.actions = [] → runList t g c r = r)
    ∧ runList t g { c with actions := c.actions ++ [a] } r
      = runAction t g c.num (c.actions.length + 1) a (runList t g c r))
  ∧ (∀ (t : Tables) (g cue place : Nat) (r : Run),
    let run := fun a => runAction t g cue place a r
    (∀ v head code sync, run (.start v head code sync)
      = startVoice t v head code (.start cue place) (if sync = true then some g else none) r)
    ∧ (∀ v ms, noFault r →
      let x := r.voice v
      (ms = 0 ∨ x.state = .idle ∨ x.state = .priming ∨ x.state = .primed → ((run (.stop v ms)).voice v).state = .idle)
      ∧ ∀ l, 0 < ms → x.state = .playing ∨ x.state = .stopping → r.lv.faders[v]? = some l → l.completionDue = false →
        (l.fine = 0 → ((run (.stop v ms)).voice v).state = .idle)
        ∧ (l.fine ≠ 0 → ((run (.stop v ms)).voice v).state = .stopping
          ∧ ((run (.stop v ms)).voice v).stopWhy = some .stopped ∧ (run (.stop v ms)).lv.faders[v]? = some (l.write 0 ms)))
    ∧ (∀ v, run (.release v) = if (r.voice v).state = .idle ∨ (r.voice v).state = .primed then r
        else { r with voices := r.voices.modify v (fun x => { x with release := true }) })
    ∧ (∀ ref l code ms, r.lv.get? ref = some l →
      ((∀ v, ref ≠ .fader v) → (∀ z, ref ≠ .duck z) →
        run (.fade ref code ms) = { r with lv := r.lv.put (l.write code ms) ref })
      ∧ ∀ v, ref = .fader v → (run (.fade ref code ms)).lv.faders = r.lv.faders.set v (l.write code ms))
    ∧ (∀ n mode mask ms,
      let aff := affected (t.scenes.getD n Scene.empty) mask
      (aff = [] → run (.recall n mode mask ms) = r)
      ∧ (aff ≠ [] → ∃ lv, recallsTo aff mode ms r.lv lv
        ∧ run (.recall n mode mask ms) = { r with latch := aff.map (fun e => (e.1, (r.lv.get e.1).code)), lv := lv }))
    ∧ (∀ ms, (r.latch.map Prod.fst).Nodup →
      ∃ lv, recallsTo r.latch .replace ms r.lv lv ∧ run (.restore ms) = { r with latch := [], lv := lv })
    ∧ (∀ k, (r.page.enabled = false → run (.page k true) = r.report t (.pageIgnored k .action .disabled))
      ∧ (r.page.enabled = true →
        (originIdle t r k = true → run (.page k true) = r.report t (.pageIgnored k .action .voiceIdle))
        ∧ (originIdle t r k = false → run (.page k true) = arbitrate t { r with page := { r.page with
            srcs := r.page.srcs.modify k (fun x => { x with requested := true }) } }))
      ∧ (run (.page k false)).page.srcs = r.page.srcs.modify k (fun _ => { requested := false, bound := none })
      ∧ ∀ z, z < 16 → z < r.page.zones.length →
        ((run (.page k false)).zone z).onAir = airFor t (run (.page k false)) z)
    ∧ (∀ k v head,
      let r1 := startVoice t v head 231 (.play cue place) none r
      let r' := run (.pagePlay k v head)
      let mine := (pageRec t k).origin = .voice v
      (r.page.enabled = false → r' = r1.report t (.pageIgnored k .play .disabled))
      ∧ (r.page.enabled = true → ¬ mine → r' = r1.report t (.pageIgnored k .play .origin))
      ∧ (r.page.enabled = true → mine → (r1.voice v).state = .idle → r' = r1.report t (.pageIgnored k .play .voiceIdle))
      ∧ (r.page.enabled = true → mine → (r1.voice v).state ≠ .idle → k < r.page.srcs.length →
        r'.src k = { requested := true, bound := some v } ∧ (r'.voice v).bound = some k
        ∧ (∀ o, o ≠ k → (r1.voice v).bound = some o → (r'.src o).bound = none)
        ∧ ∀ z, z < 16 → z < r.page.zones.length → (r'.zone z).onAir = airFor t r' z))
    ∧ (∀ l c x, (c = .off ∧ x = { state := .off, goEnd := none }) ∨ (c = .standby ∧ x = { state := .standby, goEnd := none })
        ∨ (c = .go ∧ x = { state := .go, goEnd := some (r.port.now + 48 * (lightRec t l).goHold) }) →
      run (.light l c) = { r with stage := { r.stage with lights := r.stage.lights.set l x } })
    ∧ ∀ v, v < 16 →
      let x := r.voice v
      (run .stopAll).waits = [] ∧ ((x.state = .idle → x.tag = none) → ((run .stopAll).voice v).state = .idle)
      ∧ (x.state = .priming ∨ x.state = .playing ∨ x.state = .stopping →
        givesReport t r (run .stopAll) (.voice v .stopAll x.startId)))
  ∧ ∀ (t : Tables) (g cue place id per n : Nat) (mode : TimerMode) (r : Run),
    let r' := runAction t g cue place (.timer id mode per n) r
    let k : WaitKind := .timer id mode per n
    let expiry := r.port.now + 48 * per
    let others := r.waits.filter (fun w => !(w.what.code = 2 && w.what.key = id))
    let placed := fun (k : WaitKind) => others.takeWhile (fun w => w.expiry ≤ expiry)
      ++ { what := k, expiry := expiry } :: others.dropWhile (fun w => w.expiry ≤ expiry)
    (others = r.waits → r.waits.length < 32 → r' = { r with waits := placed k })
    ∧ (others = r.waits → 32 ≤ r.waits.length → r' = r.report t (.waitDropped k .listFull))
    ∧ ∀ old mode' per' n', r.waits.find? (fun w => w.what.code = 2 && w.what.key = id) = some old →
      old.what = .timer id mode' per' n' →
      (mode = .single → r' = r)
      ∧ (mode = .retrigger → r' = { r with waits := placed (.timer id mode' per n') })
      ∧ (mode = .continuous → r' = { r with waits := placed k })

/-- A press of the GO key fires as a GO does, and gives GO_REFUSED where one would be refused; and the
guard window closes on its closing frame (R61, R62, R65; the mark of the press is log entry 2, and that the
window counts as closed before its closing is taken is log entry 34). -/
def Obligations.GoKeyFiresOrReports : Prop :=
  (∀ s : State,
    let s1 := { s with stage := { s.stage with due := s.stage.due.erase .goPress } }
    (s.cue.held = true → exec .goKeyPress s = .next (s1.give (.goRefused .held)))
    ∧ (s.cue.held = false → s.toRun.guarded = true → exec .goKeyPress s = .next (s1.give (.goRefused .guarded)))
    ∧ (s.cue.held = false → s.toRun.guarded = false →
      (standbyCue s.tables s.toRun = none → exec .goKeyPress s = .next (s1.give (.goRefused .endOfList)))
      ∧ ∀ c, standbyCue s.tables s.toRun = some c →
        ∃ t r, exec .goKeyPress s = .next t ∧ firedBy s t c .goKey ∧ t.cue.guardEnd = guardAfterGo s
          ∧ t.ctl.places = s.ctl.places
          ∧ firing s.tables c .goKey s1.toRun r ∧ t.toRun = onArrival (fun _ => openGuard s.tables r) s.toRun))
  ∧ (∀ s : State, s.toRun.guarded = true ↔ ∃ f, s.cue.guardEnd = some f ∧ s.port.now < f)
  ∧ ∀ s : State,
    (∀ f, s.cue.guardEnd = some f → f ≤ s.port.now →
      exec .guardWindowClose s = .next { s with cue := { s.cue with guardEnd := none } })
    ∧ (s.toRun.guarded = true ∨ s.cue.guardEnd = none → exec .guardWindowClose s = .next s)

/-- The expiries of the wait list: only the entry due next is taken, by the command of its kind, off the list or
reloaded, and its request is carried out (R64 to R66, R68, R77 to R80); and where an entry is put and which is taken
off (R73, R75). -/
def Obligations.WaitsExpireInTurn : Prop :=
  (∀ (s : State) (w : Wait), dueWait s.toRun = some w ↔ s.waits.head? = some w ∧ w.expiry ≤ s.port.now)
  ∧ (∀ (k : WaitKind) (w : Wait) (l : List Wait),
    dropWait k l = l.filter (fun x => !(x.what.code = k.code && x.what.key = k.key))
    ∧ placeWait w l = l.takeWhile (fun x => x.expiry ≤ w.expiry) ++ w :: l.dropWhile (fun x => x.expiry ≤ w.expiry))
  ∧ (∀ s : State,
    ((∀ w, dueWait s.toRun = some w → w.what.code ≠ 0) → exec .prewaitExpiry s = .next s)
    ∧ ((∀ w, dueWait s.toRun = some w → w.what.code ≠ 1) → exec .followExpiry s = .next s)
    ∧ ((∀ w, dueWait s.toRun = some w → w.what.code ≠ 2) → exec .timerExpiry s = .next s))
  ∧ (∀ (s : State) (w : Wait) (n : Nat), dueWait s.toRun = some w → w.what = .prewait n →
    (findCue s.tables n = none → exec .prewaitExpiry s
      = .next (State.give { s with waits := dropWait w.what s.waits } (.waitDropped w.what .noCue)))
    ∧ ∀ c, findCue s.tables n = some c →
      ∃ t, exec .prewaitExpiry s = .next t
        ∧ t.toRun = onArrival (fun r => runActions s.tables c { r with waits := dropWait w.what r.waits }) s.toRun
        ∧ t.cue.pos = s.cue.pos ∧ t.cue.guardEnd = s.cue.guardEnd
        ∧ t.cue.held = s.cue.held ∧ (c.actions = [] → t.waits = dropWait w.what s.waits)
        ∧ t.tables = s.tables ∧ t.ctl.places = s.ctl.places ∧ cueKept s t)
  ∧ (∀ (s : State) (w : Wait) (n : Nat), dueWait s.toRun = some w → w.what = .follow n →
    (firstEnabledAfter s.tables n = none →
      exec .followExpiry s = .next { s with waits := dropWait w.what s.waits })
    ∧ ∀ c, firstEnabledAfter s.tables n = some c →
      ∃ t r, exec .followExpiry s = .next t ∧ firedBy s t c .follow ∧ t.cue.guardEnd = s.cue.guardEnd
        ∧ t.ctl.places = s.ctl.places
        ∧ firing s.tables c .follow { s.toRun with waits := dropWait w.what s.waits } r
        ∧ t.toRun = onArrival (fun _ => r) s.toRun)
  ∧ ∀ (s : State) (w : Wait) (id per n : Nat) (mode : TimerMode), dueWait s.toRun = some w →
    w.what = .timer id mode per n →
    let left := if mode = .continuous then
        placeWait { what := w.what, expiry := w.expiry + 48 * per } (dropWait w.what s.waits)
      else dropWait w.what s.waits
    ((∀ c, findCue s.tables n = some c → c.enabled = false) →
      exec .timerExpiry s = .next (State.give { s with waits := left } (.waitDropped w.what .noTarget)))
    ∧ ∀ c, findCue s.tables n = some c → c.enabled = true →
      ∃ t r, exec .timerExpiry s = .next t ∧ t.cue.pos = s.cue.pos ∧ t.cue.guardEnd = s.cue.guardEnd
        ∧ t.cue.held = s.cue.held ∧ reportsFirst s t (.cueFired c.num .timer)
        ∧ (c.actions = [] → c.prewait = 0 → t.waits = left)
        ∧ t.tables = s.tables ∧ t.ctl.places = s.ctl.places ∧ cueKept s t
        ∧ firing s.tables c .timer { s.toRun with waits := left } r
        ∧ t.toRun = onArrival (fun _ => r) s.toRun

/-- R81: a TIMER_CANCEL action. -/
def Obligations.TimerCancelTakesItsTimerOff : Prop :=
  ∀ (t : Tables) (tag cue place id : Nat) (r : Run),
    let r' := runAction t tag cue place (.timerCancel id) r
    r' = { r with waits := r.waits.filter (fun w => !(w.what.code = 2 && w.what.key = id)) }
    ∧ (∀ w, w ∈ r'.waits → w.what.code = 2 → w.what.key ≠ id)
    ∧ (∀ w, w ∈ r.waits → w.what.code ≠ 2 ∨ w.what.key ≠ id → w ∈ r'.waits)
    ∧ ((∀ w, w ∈ r.waits → w.what.code = 2 → w.what.key ≠ id) → r' = r)
    ∧ ∀ (mode : TimerMode) (per n : Nat), r'.waits.length < 32 →
        { what := .timer id mode per n, expiry := r.port.now + 48 * per }
          ∈ (runAction t tag cue place (.timer id mode per n) r').waits

/-! ### Voices (chapter 6) -/

/-- LOAD_SEGMENT: BAD_FIELD for each case of R86, BUSY for the segment of a voice's fetch cursor, or the record
whole (R86). -/
def Obligations.LoadSegmentTakesTheRecord : Prop :=
  ∀ (m : Msg) (s : State), accepts s .loadSegment m →
    let b := u8 m.payload
    let n := u16 m.payload 0
    let addr := u32 m.payload 3
    let len := u24 m.payload 7
    let next := u16 m.payload 12
    let ok := n < 1024 ∧ b 2 < 2 ∧ 1 ≤ len ∧ b 10 < 2 ∧ (next < 1024 ∨ next = 65535)
      ∧ (∃ pr, s.tables.profiles[b 2]? = some pr ∧ addr + len * (if b 10 = 0 then 2 else 3) ≤ pr.size)
      ∧ (b 2 = 0 → 1048576 ≤ addr)
    let inUse := ∃ x c, x ∈ s.voices ∧ x.state ≠ .idle ∧ x.cursor = some c ∧ c.seg = n
    (¬ ok → exec (.loadSegment m) s = .next (s.reply .loadSegment m .badField []))
    ∧ (ok → inUse → exec (.loadSegment m) s = .next (s.reply .loadSegment m .busy []))
    ∧ (ok → ¬ inUse → exec (.loadSegment m) s = .next { s.reply .loadSegment m .ok [] with
        tables := { s.tables with segments := s.tables.segments.set n (some {
          device := b 2, addr := addr, len := len, format := if b 10 = 0 then .s16 else .s24, loops := b 11
          next := if next = 65535 then none else some next }) } })

/-- VOICE START: the refusals in their order, and the voice PRIMING with its fader set (R93, R108): with no device
FAULTED, or, whatever the other device, with a head segment that no segment follows. And every START: the use of its
own prime (R57, R93a), the cut (R93b), and the check of the head segment, whose report carries the START's identity
by the model's choice (log entry 41). -/
def Obligations.VoiceStartStartsItsVoice : Prop :=
  (∀ (m : Msg) (s : State), accepts s .voice m → u8 m.payload 1 = 0 →
    let v := u8 m.payload 0
    let head := u16 m.payload 2
    (16 ≤ v ∨ 1024 ≤ head → exec (.voiceStart m) s = .next (s.reply .voice m .badField []))
    ∧ (v < 16 → head < 1024 →
      (s.shw.stopped = true → exec (.voiceStart m) s = .next (s.reply .voice m .held []))
      ∧ (s.shw.stopped = false →
        (segmentRec s.tables head = none → exec (.voiceStart m) s = .next (s.reply .voice m .notFound []))
        ∧ ∀ sg, segmentRec s.tables head = some sg →
          (s.toRun.dev sg.device = .faulted → exec (.voiceStart m) s = .next (s.reply .voice m .flashFault []))
          ∧ (s.toRun.dev sg.device ≠ .faulted → noFault s.toRun ∨ sg.next = none → v < s.voices.length → v < s.lv.faders.length →
            ∃ t, exec (.voiceStart m) s = .next t ∧ (t.toRun.voice v).state = .priming
              ∧ (t.toRun.voice v).startId = .none ∧ (t.toRun.voice v).tag = none
              ∧ (t.toRun.voice v).buffer = [] ∧ t.lv.faders[v]? = some (Level.rest (u8 m.payload 4))
              ∧ repliedWith s t .voice m .ok [1] ∧ t.tables = s.tables ∧ soundKept s t))))
  ∧ ∀ (t : Tables) (v head code : Nat) (id : Ident) (g : Option Nat) (r : Run), v < r.voices.length →
    v < r.lv.faders.length →
    let x := r.voice v
    let r' := startVoice t v head code id g r
    let own := x.state = .primed ∧ ∃ c p, x.primeId = some (c, p) ∧ id = .start c p
    let begun := fun state : VState => (r'.voice v).state = state ∧ (r'.voice v).startId = id ∧ (r'.voice v).tag = g
      ∧ (r'.voice v).primeId = none ∧ r'.lv.faders[v]? = some (Level.rest code)
    (noFault r → own → begun (if g = none then .playing else .priming) ∧ (r'.voice v).buffer = x.buffer)
    ∧ (noFault r → ¬ own → ∀ sg, segmentRec t head = some sg → begun .priming ∧ (r'.voice v).buffer = []
      ∧ (x.state = .playing ∨ x.state = .stopping → givesReport t r r' (.voice v .stolen x.startId))
      ∧ ∀ k, x.state ≠ .idle → x.bound = some k → r'.src k = { requested := false, bound := none })
    ∧ (noFault r → ¬ own → segmentRec t head = none →
      (r'.voice v).state = .idle ∧ lastReport t r r' (.voice v .noSegment id))
    ∧ (¬ own → (x.state = .idle → x.tag = none) → ∀ sg, segmentRec t head = some sg → r.dev sg.device = .faulted →
      (r'.voice v).state = .idle ∧ givesReport t r r' (.voice v .deviceFault id))

/-- VOICE STOP, VOICE RELEASE and VOICE_STARVED with the reports they give, and the STOP_ALL request, which comes by
the lane or by a row that carries a message of any kind (R82, R97, R99, R100, R102a, R103, R108; log entries 15, 30
and, for the order of the voices, 36). -/
def Obligations.VoiceStopReleaseAndStarved : Prop :=
  (∀ (m : Msg) (s : State) (i : Instr), i = .voiceStart m ∨ i = .voiceStop m ∨ i = .voiceRelease m → accepts s .voice m →
    16 ≤ u8 m.payload 0 ∨ 3 ≤ u8 m.payload 1 ∨ (u8 m.payload 1 = 1 ∧ u8 m.payload 4 ≠ 0)
      ∨ (u8 m.payload 1 = 2 ∧ zerosFrom m.payload 2 = false) →
    exec i s = .next (s.reply .voice m .badField []))
  ∧ (∀ (m : Msg) (s : State), accepts s .voice m → u8 m.payload 0 < 16 → u8 m.payload 1 = 1 → u8 m.payload 4 = 0 →
    noFault s.toRun →
    let v := u8 m.payload 0
    let ms := u16 m.payload 2
    let x := s.toRun.voice v
    ∃ t, exec (.voiceStop m) s = .next t ∧ repliedWith s t .voice m .ok [byte (t.toRun.voice v).state.code]
      ∧ t.tables = s.tables ∧ soundKept s t
      ∧ (ms = 0 ∨ x.state = .idle ∨ x.state = .priming ∨ x.state = .primed → (t.toRun.voice v).state = .idle)
      ∧ (x.state = .priming ∨ ms = 0 ∧ (x.state = .playing ∨ x.state = .stopping) →
          givesReport s.tables s.toRun t.toRun (.voice v .stopped x.startId))
      ∧ ∀ l, v < s.voices.length → 0 < ms → x.state = .playing ∨ x.state = .stopping →
          s.lv.faders[v]? = some l → l.completionDue = false →
          (l.fine = 0 → (t.toRun.voice v).state = .idle
            ∧ givesReport s.tables s.toRun t.toRun (.voice v .stopped x.startId))
          ∧ (l.fine ≠ 0 → (t.toRun.voice v).state = .stopping ∧ (t.toRun.voice v).stopWhy = some .stopped
              ∧ t.lv.faders[v]? = some (l.write 0 ms)))
  ∧ (∀ (m : Msg) (s : State), accepts s .voice m → u8 m.payload 0 < 16 → u8 m.payload 1 = 2 →
    zerosFrom m.payload 2 = true →
    let v := u8 m.payload 0
    exec (.voiceRelease m) s = .next { s.reply .voice m .ok [byte (s.toRun.voice v).state.code] with
      voices := if (s.toRun.voice v).state = .idle ∨ (s.toRun.voice v).state = .primed then s.voices
        else s.voices.modify v (fun x => { x with release := true }) })
  ∧ (∀ (m : Msg) (s : State) (i : Instr), accepts s .stopAll m →
    i = .unknownKind 0x15 m ∨ i = .messageNotRequest 0x15 m →
    ∃ t, exec i s = .next t ∧ t.waits = [] ∧ repliedWith s t .stopAll m .ok [] ∧ t.tables = s.tables
      ∧ soundKept s { t with waits := s.waits }
      ∧ ∀ v, v < 16 →
        let x := s.toRun.voice v
        ((x.state = .idle → x.tag = none) → (t.toRun.voice v).state = .idle)
        ∧ (x.state = .priming ∨ x.state = .playing ∨ x.state = .stopping →
          givesReport s.tables s.toRun t.toRun (.voice v .stopAll x.startId)))
  ∧ ∀ (s : State) (v : Nat),
    let x := s.toRun.voice v
    ((x.state = .playing ∨ x.state = .stopping) ∧ 4096 ≤ x.missed →
      ∃ t, exec (.voiceStarved v) s = .next t ∧ (t.toRun.voice v).state = .idle ∧ (t.toRun.voice v).buffer = []
        ∧ givesReport s.tables s.toRun t.toRun (.voice v .starved x.startId)
        ∧ t.ctl.places = s.ctl.places ∧ t.tables = s.tables ∧ soundKept s t)
    ∧ (¬ ((x.state = .playing ∨ x.state = .stopping) ∧ 4096 ≤ x.missed) → exec (.voiceStarved v) s = .next s)

/-! ### Flash (chapter 7) -/

/-- LOAD_PROFILE: BAD_FIELD for each case of R111, BUSY, or the profile as stored, ADJUSTED where the poll interval
was clamped (R111, R112; that the mode byte of a profile without one is 0 is log entry 15). -/
def Obligations.LoadProfileTakesTheProfile : Prop :=
  ∀ (m : Msg) (s : State), accepts s .loadProfile m →
    let b := u8 m.payload
    let size := u32 m.payload 1
    let ok := b 0 < 2 ∧ (∃ k, k ≤ 12 ∧ size = 2 ^ (16 + k)) ∧ (b 0 = 0 → 2097152 ≤ size)
      ∧ (b 6 = 3 ∧ size ≤ 16777216 ∨ b 6 = 4) ∧ b 7 < 2 ∧ (b 7 = 0 → b 8 = 0) ∧ b 9 ≤ 15
      ∧ (∀ i, 10 ≤ i → i ≤ 12 → b i = 1 ∨ b i = 2 ∨ b i = 4) ∧ b 16 < 2 ∧ b 18 ≤ 7 ∧ b 19 < 2
      ∧ u16 m.payload 24 ≠ 0
      ∧ ∀ (i : Nat) (sg : Segment), s.tables.segments[i]? = some (some sg) → sg.device = b 0 →
          sg.addr + sg.len * (if sg.format = .s16 then 2 else 3) ≤ size
    let pr : Profile := {
      size := size, readInstr := byte (b 5), addrBytes := b 6, modeByte := if b 7 = 0 then none else some (byte (b 8))
      dummy := b 9, instrLanes := b 10, addrLanes := b 11, dataLanes := b 12, writeEnable := byte (b 13)
      program := byte (b 14), erase := byte (b 15), sector := if b 16 = 0 then 4096 else 65536
      statusRead := byte (b 17), busyBit := b 18, busyWhen := decide (b 19 = 1), reset1 := byte (b 20)
      reset2 := byte (b 21), pollMs := max 1 (min 255 (u16 m.payload 22)), pollLimit := u16 m.payload 24 }
    let held := ∃ o, s.flash.op = some o ∧ o.dev = b 0
    (¬ ok → exec (.loadProfile m) s = .next (s.reply .loadProfile m .badField []))
    ∧ (ok → held → exec (.loadProfile m) s = .next (s.reply .loadProfile m .busy []))
    ∧ (ok → ¬ held → exec (.loadProfile m) s = .next {
        s.reply .loadProfile m (if u16 m.payload 22 = pr.pollMs then .ok else .adjusted) (profileBytes (b 0) pr) with
          tables := { s.tables with profiles := s.tables.profiles.set (b 0) pr } })

/-- FLASH_ERASE, FLASH_WRITE, FLASH_READ, FLASH_RESET and SAVE_SHOW with their fields in range: BUSY while an
operation is held, FLASH_FAULT on a FAULTED device (but a reset), and otherwise the operation accepted with its
first step due or begun and its reply deferred (R119, R122 to R125, R129). The last clause: every field out of range
is refused BAD_FIELD, whatever is held, and FLASH_WRITE's data of no byte or above 256 BAD_LENGTH (R122 to R125, R206);
and what a new operation holds, and the commands of a save (R119, R130). -/
def Obligations.ContentRequestsAreAccepted : Prop :=
  (∀ (m : Msg) (s : State) (i : Instr) (k : ReqKind) (o : Op) (first : StepKind), accepts s k m →
    let p := m.payload
    let dev := u8 p 0
    let pr := profileRec s.tables dev
    (i = .flashErase m ∧ k = .flashErase ∧ dev < 2 ∧ u32 p 1 * pr.sector < pr.size
        ∧ (dev = 0 → 1048576 ≤ u32 p 1 * pr.sector)
        ∧ first = .command
        ∧ o = newOp s.tables .erase dev [.erase (u32 p 1 * pr.sector) pr.sector] .running (p.take 5))
    ∨ (i = .flashWrite m ∧ k = .flashWrite ∧ dev < 2 ∧ 6 ≤ p.length ∧ p.length ≤ 261
        ∧ u32 p 1 + (p.length - 5) ≤ pr.size ∧ (dev = 0 → 1048576 ≤ u32 p 1)
        ∧ u32 p 1 % 256 + (p.length - 5) ≤ 256 ∧ first = .command
        ∧ o = newOp s.tables .write dev [.program (u32 p 1) (p.drop 5)] .running (p.take 5 ++ le16 (p.length - 5)))
    ∨ (i = .flashRead m ∧ k = .flashRead ∧ dev < 2 ∧ 1 ≤ u16 p 5 ∧ u16 p 5 ≤ 1000
        ∧ u32 p 1 + u16 p 5 ≤ pr.size ∧ first = .read (u32 p 1) (u16 p 5)
        ∧ o = newOp s.tables .read dev [] .running (p.take 5))
    ∨ (i = .flashReset m ∧ k = .flashReset ∧ dev < 2 ∧ first = .reset1
        ∧ o = newOp s.tables .reset dev [] .running [byte dev, byte (s.toRun.dev dev).code])
    ∨ (i = .saveShow m ∧ k = .saveShow ∧ first = .command
        ∧ o = newOp s.tables .save 0 (saveCmds (profileRec s.tables 0).sector (imageBytes s.toPart.image)) .running
            (le32 (imageBytes s.toPart.image).length)) →
    (s.flash.op ≠ none → exec i s = .next (s.reply k m .busy []))
    ∧ (s.flash.op = none → s.toRun.dev o.dev = .faulted → k ≠ .flashReset →
        exec i s = .next (s.reply k m .flashFault []))
    ∧ (s.flash.op = none → s.toRun.dev o.dev ≠ .faulted ∨ k = .flashReset →
        ∃ t, exec i s = .next t ∧ acceptedAs s t k m o first))
  ∧ (∀ (m : Msg) (s : State),
    let p := m.payload
    let dev := u8 p 0
    let addr := u32 p 1
    let pr := profileRec s.tables dev
    (accepts s .flashErase m →
      2 ≤ dev ∨ pr.size ≤ addr * pr.sector ∨ (dev = 0 ∧ addr * pr.sector < 1048576) →
      exec (.flashErase m) s = .next (s.reply .flashErase m .badField []))
    ∧ (accepts s .flashWrite m → p.length = 5 ∨ 261 < p.length →
      exec (.flashWrite m) s = .next (s.reply .flashWrite m .badLength []))
    ∧ (accepts s .flashWrite m → 6 ≤ p.length → p.length ≤ 261 →
      2 ≤ dev ∨ pr.size < addr + (p.length - 5) ∨ (dev = 0 ∧ addr < 1048576) ∨ 256 < addr % 256 + (p.length - 5) →
      exec (.flashWrite m) s = .next (s.reply .flashWrite m .badField []))
    ∧ (accepts s .flashRead m → 2 ≤ dev ∨ u16 p 5 = 0 ∨ 1000 < u16 p 5 ∨ pr.size < addr + u16 p 5 →
      exec (.flashRead m) s = .next (s.reply .flashRead m .badField []))
    ∧ (accepts s .flashReset m → 2 ≤ dev → exec (.flashReset m) s = .next (s.reply .flashReset m .badField [])))
  ∧ (∀ (t : Tables) (k : OpKind) (dev : Nat) (cmds : List Cmd) (st : OpStep) (reply : List Byte),
    newOp t k dev cmds st reply = { kind := k, dev := dev, cmds := cmds, step := st, polls := 0, reply := reply
                                    pollMs := (profileRec t dev).pollMs, pollLimit := (profileRec t dev).pollLimit })
  ∧ ∀ (sector : Nat) (bytes : List Byte),
    let page := fun p => Cmd.program (256 * p) ((bytes.drop (256 * p)).take 256)
    saveCmds sector bytes
      = (List.range ((bytes.length + sector - 1) / sector)).map (fun k => Cmd.erase (sector * k) sector)
        ++ (List.range ((bytes.length + 255) / 256 - 1)).map (fun p => page (p + 1)) ++ [page 0]

/-- WRITE_ENABLE_COMPLETE and FLASH_COMMAND_COMPLETE: the command follows at once on the held bus, and the
device is then WORKING with its first poll one poll interval away; a write enable whose operation was
abandoned sends no command (R114, R120, R122, R126). -/
def Obligations.WriteEnableThenCommandThenWorking : Prop :=
  (∀ (s : State) (d : Nat) (c : Cmd) (q : BusSeq),
    s.flash.bus = some { kind := .writeEnable d c true, seq := q } →
    exec .writeEnableComplete s = .next { s with flash := { s.flash with
      bus := some { kind := .command d c, seq := cmdSeq (profileRec s.tables d) d c } } })
  ∧ (∀ (s : State) (d : Nat) (c : Cmd) (q : BusSeq),
    s.flash.bus = some { kind := .writeEnable d c false, seq := q } →
    ∃ t, exec .writeEnableComplete s = .next t
      ∧ (∀ d' c' q', t.flash.bus ≠ some { kind := .command d' c', seq := q' })
      ∧ t.flash.devs = s.flash.devs ∧ t.tables = s.tables ∧ soundKept s t)
  ∧ ∀ (s : State) (d : Nat) (c : Cmd) (q : BusSeq) (o : Op),
    s.flash.bus = some { kind := .command d c, seq := q } → s.flash.op = some o →
    ∃ t, exec .flashCommandComplete s = .next t ∧ t.flash.devs = s.flash.devs.set d (.working c)
      ∧ t.flash.op = some { o with step := .pollAt (s.port.now + 48 * o.pollMs), polls := 0 }
      ∧ t.ctl.places = s.ctl.places ∧ t.tables = s.tables ∧ soundKept s t

/-- POLL_COMPLETE: a device that is no longer busy is READY and its command's bytes show (an erased byte
reads FFh, a programmed byte the AND of old and new); a busy one is polled again one interval later; and at
the limit it is FAULTED, with only the command's bytes unknown and every voice tied to it IDLE. A save that timed out
or was left to a settle leaves no image: the identifier reads FFh where its command concerned it (R105, R120 to R123,
R130; log entries 8 and 46; that FLASH_FAULT is the first report of a fault is log entry 37). -/
def Obligations.PollDecidesTheCommand : Prop :=
  ∀ (s : State) (status : Byte) (d : Nat) (q : BusSeq) (o : Op) (c : Cmd), memoryOk s → d < 2 →
    s.flash.bus = some { kind := .poll d true, seq := q } → s.flash.op = some o → s.toRun.dev d = .working c →
    ∃ t, exec (.pollComplete status) s = .next t ∧ t.tables = s.tables ∧ levelsKept s t ∧ t.mix = s.mix
      ∧ t.cue = s.cue ∧ t.waits = s.waits ∧ t.shw = s.shw ∧ t.stage = s.stage ∧ t.port = s.port
      ∧ t.pending = s.pending ∧ (∀ d' a, d' < 2 → d' ≠ d → Memory.read (t.mem d') a = Memory.read (s.mem d') a)
      ∧ (status.getLsbD (profileRec s.tables d).busyBit ≠ (profileRec s.tables d).busyWhen →
          t.flash.devs = s.flash.devs.set d .ready ∧ t.serial = s.serial
          ∧ (∀ a n, c = .erase a n → ∀ x, ¬ (o.kind = .settle ∧ d = 0 ∧ a = 0 ∧ x < 4) → Memory.read (t.mem d) x
              = if a ≤ x ∧ x < a + n then 0xFF else Memory.read (s.mem d) x)
          ∧ (o.kind = .settle → d = 0 → c.addr = 0 → noImage t)
          ∧ (∀ a b, c = .program a b → ∀ x, ¬ (o.kind = .settle ∧ d = 0 ∧ a = 0 ∧ x < 4) → Memory.read (t.mem d) x
              = if a ≤ x ∧ x < a + b.length then Memory.read (s.mem d) x &&& b.getD (x - a) 0
                else Memory.read (s.mem d) x)
          ∧ (∀ c1 c2 rest, o.cmds = c1 :: c2 :: rest → t.ctl.places = s.ctl.places
              ∧ t.flash.op = some { o with cmds := c2 :: rest, step := .stepAt (s.port.now + 1) })
          ∧ (o.cmds.length < 2 → t.flash.op = none
              ∧ (o.kind ≠ .settle → o.kind ≠ .imageLoad → t.ctl.places = fillPlace (.ok, o.reply) s.ctl.places)))
      ∧ (status.getLsbD (profileRec s.tables d).busyBit = (profileRec s.tables d).busyWhen →
          (o.polls + 1 < o.pollLimit → storesKept s t ∧ t.flash.devs = s.flash.devs ∧ t.ctl.places = s.ctl.places
            ∧ t.flash.op = some { o with step := .pollAt (s.port.now + 48 * o.pollMs), polls := o.polls + 1 })
          ∧ (o.pollLimit ≤ o.polls + 1 →
            t.flash.devs = s.flash.devs.set d .faulted ∧ t.flash.op = none ∧ reportsFirst s t (.flashFault d o.kind)
            ∧ (o.kind ≠ .settle → o.kind ≠ .imageLoad → t.ctl.places = fillPlace (.flashTimeout, []) s.ctl.places)
            ∧ (∀ v, v < 16 →
              let x := s.toRun.voice v
              let tied := x.state ≠ .idle
                ∧ ((∃ c sg, x.cursor = some c ∧ segmentRec s.tables c.seg = some sg ∧ sg.device = d)
                  ∨ (∃ y, y ∈ x.buffer ∧ y.dev = d) ∨ ∃ f, f ∈ s.flash.queue ∧ f.voice = v ∧ f.dev = d)
              (tied → (t.toRun.voice v).state = .idle)
              ∧ (tied → x.state = .priming ∨ x.state = .playing ∨ x.state = .stopping →
                  givesReport s.tables s.toRun t.toRun (.voice v .deviceFault x.startId))
              ∧ (¬ tied → x.cursor = none → x.tag = none → (t.toRun.voice v).state = x.state))
            ∧ (d = 0 → c.addr = 0 ∨ Memory.read s.flash0 0 = 0xFF →
                checkImage (t.reader 0) = .error .noImage ∧ (c.addr = 0 → noImage t))
            ∧ (∀ a n x, c = .erase a n → x < a ∨ a + n ≤ x → ¬ (d = 0 ∧ a = 0 ∧ x < 4) →
                Memory.read (t.mem d) x = Memory.read (s.mem d) x)
            ∧ (∀ a b x, c = .program a b → x < a ∨ a + b.length ≤ x → ¬ (d = 0 ∧ a = 0 ∧ x < 4) →
                Memory.read (t.mem d) x = Memory.read (s.mem d) x)))

/-- POLL_DUE and SAVE_STEP_DUE: a step that is due goes to the arbiter and begins, or waits for the bus; one
that is not due changes nothing. The arbiter, with the bus free, starts a step that is due, and else the fetch of the
voice with the fewest samples, the earliest among equals, from a READY device (R117, R120, R130; that refills and
fetches of a frame go before a step that is due on it is log entry 48). The last clauses: the transfer that carries out
each step, and the sequences of R113. -/
def Obligations.StepsFallDueOnTheirFrames : Prop :=
  (∀ (s : State) (o : Op) (f : Nat), s.flash.op = some o → o.step = .pollAt f → f ≤ s.port.now →
    ∃ t o', exec .pollDue s = .next t ∧ t.flash.op = some o' ∧ o'.rest = o.rest
      ∧ (o'.step = .due .poll ∨ o'.step = .running ∧ ∃ q, t.flash.bus = some { kind := .poll o.dev true, seq := q })
      ∧ t.flash.devs = s.flash.devs ∧ t.ctl.places = s.ctl.places ∧ t.tables = s.tables ∧ soundKept s t)
  ∧ (∀ (s : State) (o : Op) (f : Nat) (c : Cmd) (rest : List Cmd), s.flash.op = some o → o.step = .stepAt f →
    o.cmds = c :: rest → f ≤ s.port.now →
    ∃ t o', exec .saveStepDue s = .next t ∧ t.flash.op = some o' ∧ o'.rest = o.rest
      ∧ (o'.step = .due .command
        ∨ o'.step = .running ∧ ∃ q, t.flash.bus = some { kind := .writeEnable o.dev c true, seq := q })
      ∧ t.flash.devs = s.flash.devs ∧ t.ctl.places = s.ctl.places ∧ t.tables = s.tables ∧ soundKept s t)
  ∧ (∀ s : State, (pollIsDue s.toRun = false → exec .pollDue s = .next s)
      ∧ (saveStepIsDue s.toRun = false → exec .saveStepDue s = .next s))
  ∧ ∀ (t : Tables) (r : Run),
    let ready := r.flash.queue.filter (fun f => r.dev f.dev = .ready)
    let held := fun f : Fetch => (r.voice f.voice).buffer.length
    (r.flash.bus ≠ none → arbiterStart t r = none)
    ∧ (∀ o k x, r.flash.bus = none → r.flash.op = some o → o.step = .due k → stepXfer t o k = some x →
        arbiterStart t r = some { r with flash := { r.flash with bus := some x, op := some { o with step := .running } } })
    ∧ (r.flash.bus = none → (∀ o k, r.flash.op = some o → o.step ≠ .due k) →
      (ready = [] → arbiterStart t r = none)
      ∧ ∀ before f rest, ready = before ++ f :: rest → (∀ g, g ∈ before → held f < held g) →
        (∀ g, g ∈ rest → held f ≤ held g) →
        arbiterStart t r = some { r with flash := { r.flash with
          queue := r.flash.queue.filter (fun g => g.voice ≠ f.voice)
          bus := some { kind := .fetch f false
                        seq := readSeq (profileRec t f.dev) f.dev f.addr (f.count * sampleSize f.format) } } })
  ∧ (∀ (t : Tables) (o : Op),
    let pr := profileRec t o.dev
    let sends := fun (instr : Byte) => commandSeq o.dev instr [] []
    (∀ c rest, o.cmds = c :: rest →
      stepXfer t o .command = some { kind := .writeEnable o.dev c true, seq := sends pr.writeEnable })
    ∧ (∀ a n, stepXfer t o (.read a n) = some { kind := .contentRead o.dev a n true, seq := readSeq pr o.dev a n })
    ∧ stepXfer t o .reset1 = some { kind := .reset o.dev false true, seq := sends pr.reset1 }
    ∧ stepXfer t o .reset2 = some { kind := .reset o.dev true true, seq := sends pr.reset2 }
    ∧ stepXfer t o .poll = some { kind := .poll o.dev true, seq := { sends pr.statusRead with inBytes := 1 } })
  ∧ ∀ (pr : Profile) (d a n : Nat) (bytes : List Byte),
    let addr := if pr.addrBytes = 4 then [byte (a / 16777216), byte (a / 65536), byte (a / 256), byte a]
      else [byte (a / 65536), byte (a / 256), byte a]
    let cmd := fun (instr : Byte) (addr out : List Byte) =>
      ({ dev := d, instr := instr, instrLanes := 1, addr := addr, addrLanes := 1, mode := none, dummy := 0, out := out
         inLanes := 1, inBytes := 0 } : BusSeq)
    (∀ instr, commandSeq d instr [] [] = cmd instr [] [])
    ∧ (pr.addrBytes = 3 ∨ pr.addrBytes = 4 →
      cmdSeq pr d (.erase a n) = cmd pr.erase addr []
      ∧ cmdSeq pr d (.program a bytes) = cmd pr.program addr bytes
      ∧ readSeq pr d a n = { dev := d, instr := pr.readInstr, instrLanes := pr.instrLanes, addr := addr
                             addrLanes := pr.addrLanes, mode := pr.modeByte, dummy := pr.dummy, out := []
                             inLanes := pr.dataLanes, inBytes := n })

/-- FETCH_COMPLETE, CONTENT_READ_COMPLETE and RESET_COMMAND_COMPLETE: where the data go, that a transfer
abandoned leaves nothing, what a voice makes of a completion, and its refills (R88, R90 to R93, R95, R98, R115, R116,
R118, R124 to R126; which voice refills first, and how far the flash side runs, are log entries 26 and 28, and that
the VOICE report of a voice that ends stands behind the ZONE reports, so last, is log entry 14). Two clauses say which
place a reply is put in (R191), and the samples and origins of the bytes read (R113, R118). -/
def Obligations.TransfersDeliverTheirData : Prop :=
  (∀ (s : State) (f : Fetch) (discard : Bool) (q : BusSeq),
    s.flash.bus = some { kind := .fetch f discard, seq := q } → noFault s.toRun → f.voice < s.voices.length →
    f.voice < 16 →
    ∃ t, exec .fetchComplete s = .next t
      ∧ (discard = true → (t.toRun.voice f.voice).buffer = (s.toRun.voice f.voice).buffer)
      ∧ (discard = false → (t.toRun.voice f.voice).buffer
          = ((s.toRun.voice f.voice).buffer ++ fetchSamples f (s.reader f.dev f.addr (f.count * sampleSize f.format))).drop
              (min (s.toRun.voice f.voice).missed f.count))
      ∧ (∀ v, v ≠ f.voice → (t.toRun.voice v).buffer = (s.toRun.voice v).buffer)
      ∧ t.ctl.places = s.ctl.places ∧ t.flash.devs = s.flash.devs ∧ t.tables = s.tables ∧ soundKept s t)
  ∧ (∀ (s : State) (f : Fetch) (discard : Bool) (q : BusSeq),
    s.flash.bus = some { kind := .fetch f discard, seq := q } →
    let free : Run := { s.toRun with flash := { s.flash with bus := none } }
    let samples := fetchSamples f (s.reader f.dev f.addr (f.count * sampleSize f.format))
    exec .fetchComplete s = .next { s with
      toRun := pump s.tables (if discard then free else takeSamples s.tables f.voice samples free) })
  ∧ (∀ (t : Tables) (v : Nat) (samples : List BufSample) (r : Run), v < r.voices.length →
    let x := r.voice v
    let n := min x.missed samples.length
    let y : Voice := { x with
      reserved := x.reserved - samples.length, buffer := (x.buffer ++ samples).drop n, missed := x.missed - n }
    let r' := takeSamples t v samples r
    let ended := y.cursor = none ∧ y.reserved = 0 ∧ y.buffer = []
    let heard := y.state = .priming ∨ y.state = .playing ∨ y.state = .stopping
    (heard → ended → (r'.voice v).state = .idle ∧ lastReport t r r' (.voice v .ended x.startId))
    ∧ (¬ ended → ∀ g, y.tag = some g → r' = syncCheck g (r.onVoice v (fun _ => y)))
    ∧ (¬ (heard ∧ ended) → y.tag = none → r' = r.onVoice v (fun _ =>
        if y.state = .priming ∧ (1024 ≤ y.buffer.length ∨ y.cursor = none ∧ y.reserved = 0) then { y with state := .playing }
        else y)))
  ∧ (∀ (g : Nat) (r : Run), r.voices.length ≤ 16 →
    let waits := fun x : Voice => x.tag = some g ∧ x.buffer.length < 1024 ∧ (x.cursor ≠ none ∨ x.reserved ≠ 0)
    (r.cue.building = some g ∨ (∃ x, x ∈ r.voices ∧ waits x) → syncCheck g r = r)
    ∧ (r.cue.building ≠ some g → (∀ x, x ∈ r.voices → ¬ waits x) → syncCheck g r = { r with
        voices := r.voices.map (fun x => if x.tag = some g then { x with state := .playing, tag := none } else x) }))
  ∧ (∀ (r : Run) (v : Nat), wantsRefill r v = true ↔
    (r.voice v).state ≠ .idle ∧ (r.voice v).waiting = false ∧ (r.voice v).cursor ≠ none
    ∧ (∀ f, f ∈ r.flash.queue → f.voice ≠ v) ∧ (r.voice v).buffer.length + (r.voice v).reserved + 512 ≤ 2048)
  ∧ (∀ (t : Tables) (v : Nat) (c : Cursor) (sg : Segment) (r : Run), (r.voice v).cursor = some c →
    segmentRec t c.seg = some sg →
    let n := min 512 (sg.len - c.off)
    let f : Fetch := { voice := v, dev := sg.device, addr := sg.addr + c.off * sampleSize sg.format
                       format := sg.format, count := n, src := c }
    let goesTo := fun (c' : Option Cursor) (release : Bool) =>
      makeRefill t v r = { r with flash := { r.flash with queue := r.flash.queue ++ [f] } }.onVoice v
        (fun x => { x with reserved := x.reserved + n, cursor := c', release := release })
    let release := (r.voice v).release
    let again := sg.loops ≠ 255 ∧ c.pass < sg.loops ∨ sg.loops = 255 ∧ release = false
    (c.off + n < sg.len → goesTo (some { c with off := c.off + n }) release)
    ∧ (sg.len ≤ c.off + n → again → goesTo (some { c with pass := min 65535 (c.pass + 1), off := 0 }) release)
    ∧ (sg.len ≤ c.off + n → ¬ again →
      let left := if sg.loops = 255 then false else release
      (sg.next = none ∨ (∃ m, sg.next = some m ∧ segmentRec t m = none) → goesTo none left)
      ∧ ∀ m next, sg.next = some m → segmentRec t m = some next →
        (r.dev next.device ≠ .faulted → goesTo (some { seg := m, pass := 0, off := 0 }) left)
        ∧ (r.dev next.device = .faulted → (r.voice v).state ≠ .idle →
          ((makeRefill t v r).voice v).state = .idle ∧ ∀ g, g ∈ (makeRefill t v r).flash.queue → g.voice ≠ v)))
  ∧ (∀ (t : Tables) (r : Run),
    (∀ v rest, r.flash.line = v :: rest → r.flash.queue.length < 8 → pumpOnce t r
      = some (makeRefill t v ({ r with flash := { r.flash with line := rest } }.onVoice v (fun x => { x with waiting := false }))))
    ∧ (r.flash.line = [] ∨ 8 ≤ r.flash.queue.length →
      (∀ v, v < 16 → wantsRefill r v = true → (∀ u, u < v → wantsRefill r u = false) → pumpOnce t r
        = some (if r.flash.queue.length < 8 then makeRefill t v r
            else { r with flash := { r.flash with line := r.flash.line ++ [v] } }.onVoice v (fun x => { x with waiting := true })))
      ∧ ((∀ v, v < 16 → wantsRefill r v = false) → pumpOnce t r = arbiterStart t r))
    ∧ pump t r = pumpLoop t 64 r
    ∧ ∀ n, (pumpOnce t r = none → pumpLoop t (n + 1) r = r)
      ∧ ∀ r', pumpOnce t r = some r' → pumpLoop t (n + 1) r = pumpLoop t n r')
  ∧ (∀ (s : State) (d a n : Nat) (live : Bool) (q : BusSeq) (o : Op),
    s.flash.bus = some { kind := .contentRead d a n live, seq := q } → s.flash.op = some o →
    ∃ t, exec .contentReadComplete s = .next t
      ∧ (live = true → t.flash.op = none ∧ (o.kind ≠ .settle → o.kind ≠ .imageLoad →
          t.ctl.places = fillPlace (.ok, o.reply ++ Memory.readRange (s.mem d) a n) s.ctl.places))
      ∧ (live = false → t.flash.op.map Op.rest = some o.rest ∧ t.ctl.places = s.ctl.places)
      ∧ t.flash.devs = s.flash.devs ∧ t.tables = s.tables ∧ soundKept s t)
  ∧ (∀ (a : Status × List Byte) (before rest : List Place) (p : Place), (∀ x, x ∈ before → x.answer ≠ none) →
    fillPlace a before = before
    ∧ (p.answer = none → fillPlace a (before ++ p :: rest) = before ++ { p with answer := some a } :: rest))
  ∧ (∀ (f : Fetch) (bytes : List Byte), (fetchSamples f bytes).length = f.count
    ∧ ∀ i, i < f.count → ∃ x, (fetchSamples f bytes)[i]? = some x ∧ x.dev = f.dev
      ∧ x.src = { f.src with off := f.src.off + i }
      ∧ (f.format = .s16 → let n := u16 bytes (2 * i)
          x.value = 256 * ((n : Int) - if n < 32768 then 0 else 65536))
      ∧ (f.format = .s24 → let n := u24 bytes (3 * i)
          x.value = (n : Int) - if n < 8388608 then 0 else 16777216))
  ∧ ∀ (s : State) (d : Nat) (second live : Bool) (q : BusSeq) (o : Op),
    s.flash.bus = some { kind := .reset d second live, seq := q } → s.flash.op = some o →
    ∃ t, exec .resetCommandComplete s = .next t
      ∧ (live = true → second = true → t.flash.op = none ∧ t.flash.devs = s.flash.devs.set d .ready
          ∧ (o.kind ≠ .settle → o.kind ≠ .imageLoad → t.ctl.places = fillPlace (.ok, o.reply) s.ctl.places))
      ∧ (live = false ∨ second = false →
          t.flash.op.map Op.rest = some o.rest ∧ t.flash.devs = s.flash.devs ∧ t.ctl.places = s.ctl.places)
      ∧ (live = true → second = false →
          t.flash.op = some { o with step := .due .reset2 }
          ∨ t.flash.op = some { o with step := .running } ∧ t.flash.bus = stepXfer s.tables o .reset2)
      ∧ t.tables = s.tables ∧ soundKept s t

/-! ### Relay and page engine (chapter 8) -/

/-- LOAD_ZONE, LOAD_PAGE_SOURCE and LOAD_PAGE_ORDER replace their record; a changed origin withdraws the
source; every zone is recomputed, and nothing else changes; and a field out of range is refused BAD_FIELD (R140, R145,
R151 to R153, R34; that the index of an origin of kind none is 0 is log entry 15); and the records those payloads
hold. -/
def Obligations.RelayLoadsReplaceAndRecompute : Prop :=
  (∀ (m : Msg) (s : State) (zr : ZoneRec), accepts s .loadZone m → zoneOf m.payload = some zr →
    let z := u8 m.payload 0
    (slotFree s.tables (.zone z) zr.slot = false → exec (.loadZone m) s = .next (s.reply .loadZone m .badField []))
    ∧ (slotFree s.tables (.zone z) zr.slot = true →
      ∃ t, exec (.loadZone m) s = .next t ∧ t.tables = { s.tables with zones := s.tables.zones.set z zr }
        ∧ t.lv.programmes = s.lv.programmes.set z (Level.rest (u8 m.payload 2))
        ∧ t.lv.crosspoints = s.lv.crosspoints ∧ t.lv.masters = s.lv.masters ∧ t.lv.trims = s.lv.trims
        ∧ t.mix = s.mix ∧ t.cue = s.cue ∧ t.waits = s.waits ∧ t.voices = s.voices ∧ airIsBest t
        ∧ repliedWith s t .loadZone m (if 120 < u8 m.payload 4 then .adjusted else .ok) (zoneBytes z zr (u8 m.payload 2))
        ∧ storesKept s t ∧ rezoned s t .loadZone m (fun r => { r with
            lv := { r.lv with programmes := r.lv.programmes.set z (Level.rest (u8 m.payload 2)) } })))
  ∧ (∀ (m : Msg) (s : State) (pg : PageRec), accepts s .loadPageSource m → pageOf m.payload = some pg →
    let k := u8 m.payload 0
    ∃ t, exec (.loadPageSource m) s = .next t ∧ t.tables = { s.tables with pages := s.tables.pages.set k pg }
      ∧ (pg.origin ≠ (pageRec s.tables k).origin → (t.toRun.src k).requested = false ∧ (t.toRun.src k).bound = none)
      ∧ (pg.origin = (pageRec s.tables k).origin → t.page.srcs = s.page.srcs)
      ∧ airIsBest t ∧ repliedWith s t .loadPageSource m .ok [] ∧ soundKept s t
      ∧ rezoned s t .loadPageSource m (fun r => if pg.origin = (pageRec s.tables k).origin then r else withdraw k r))
  ∧ (∀ (m : Msg) (s : State) (o : PageOrder), accepts s .loadPageOrder m → Machine.orderOf m.payload = some o →
    ∃ t, exec (.loadPageOrder m) s = .next t ∧ t.tables = { s.tables with order := o } ∧ t.page.srcs = s.page.srcs
      ∧ airIsBest t ∧ repliedWith s t .loadPageOrder m .ok [] ∧ soundKept s t ∧ rezoned s t .loadPageOrder m id)
  ∧ (∀ (p : List Byte) (pg : PageRec), pageOf p = some pg →
      pg.gain = u8 p 3 ∧ pg.zones = BitVec.ofNat 16 (u16 p 4)
      ∧ pg.origin = if u8 p 1 = 0 then .none else if u8 p 1 = 1 then .slot (u8 p 2) else .voice (u8 p 2))
  ∧ (∀ (p : List Byte) (o : PageOrder), Machine.orderOf p = some o → o.order = (p.take 4).map BitVec.toNat
      ∧ o.oddLeads = [4, 5, 6, 7].map (fun i => decide (u8 p i = 1)))
  ∧ (∀ (k : Nat) (r : Run), withdraw k r = { r with
      page := { r.page with srcs := r.page.srcs.modify k (fun _ => { requested := false, bound := none }) }
      voices := match (r.src k).bound with
        | none => r.voices
        | some v => r.voices.modify v (fun x => if x.bound = some k then { x with bound := none } else x) })
  ∧ ∀ (m : Msg) (s : State),
    let b := u8 m.payload
    (accepts s .loadZone m →
      16 ≤ b 0 ∨ (24 ≤ b 1 ∧ b 1 ≠ 255) ∨ (64 ≤ b 11 ∧ b 11 ≠ 255) →
      exec (.loadZone m) s = .next (s.reply .loadZone m .badField []))
    ∧ (accepts s .loadPageSource m →
      8 ≤ b 0 ∨ 3 ≤ b 1 ∨ (b 1 = 0 ∧ b 2 ≠ 0) ∨ (b 1 = 1 ∧ 64 ≤ b 2) ∨ (b 1 = 2 ∧ 16 ≤ b 2) →
      exec (.loadPageSource m) s = .next (s.reply .loadPageSource m .badField []))
    ∧ (accepts s .loadPageOrder m →
      isClassOrder ((m.payload.take 4).map BitVec.toNat) = false ∨ (∃ i, i < 4 ∧ 2 ≤ b (4 + i)) →
      exec (.loadPageOrder m) s = .next (s.reply .loadPageOrder m .badField []))

/-- PAGING_SET, and PAGE with ON and OFF: the refusals in their order and what is raised or withdrawn, with
every zone recomputed and nothing else changed (R139, R140, R142, R145). -/
def Obligations.PagingAndPageRequests : Prop :=
  (∀ (m : Msg) (s : State) (on : Bool), accepts s .pagingSet m → flagOf (u8 m.payload 0) = some on →
    ∃ t, exec (.pagingSet m) s = .next t ∧ t.page.enabled = on ∧ t.page.mask = BitVec.ofNat 8 (u8 m.payload 1)
      ∧ (on = true → t.page.srcs = s.page.srcs)
      ∧ (on = false → ∀ k, k < 8 → (t.toRun.src k).requested = false ∧ (t.toRun.src k).bound = none)
      ∧ airIsBest t ∧ repliedWith s t .pagingSet m .ok [] ∧ t.tables = s.tables ∧ soundKept s t
      ∧ rezoned s t .pagingSet m (fun r =>
          let r1 := { r with page := { r.page with enabled := on, mask := BitVec.ofNat 8 (u8 m.payload 1) } }
          if on = true then r1 else forEach 8 withdraw r1))
  ∧ (∀ (m : Msg) (s : State), accepts s .pagingSet m → 2 ≤ u8 m.payload 0 →
    exec (.pagingSet m) s = .next (s.reply .pagingSet m .badField []))
  ∧ (∀ (m : Msg) (s : State) (i : Instr), i = .pageOn m ∨ i = .pageOff m → accepts s .page m → 2 ≤ u8 m.payload 1 →
    exec i s = .next (s.reply .page m .badField []))
  ∧ (∀ (m : Msg) (s : State), accepts s .page m → u8 m.payload 1 = 1 →
    let k := u8 m.payload 0
    (8 ≤ k → exec (.pageOn m) s = .next (s.reply .page m .badField []))
    ∧ (k < 8 → s.page.enabled = false → exec (.pageOn m) s = .next (s.reply .page m .disabled []))
    ∧ (k < 8 → s.page.enabled = true →
      (originIdle s.tables s.toRun k = true → exec (.pageOn m) s = .next (s.reply .page m .badField []))
      ∧ (originIdle s.tables s.toRun k = false →
        ∃ t, exec (.pageOn m) s = .next t
          ∧ t.page.srcs = s.page.srcs.modify k (fun x => { x with requested := true })
          ∧ airIsBest t ∧ repliedWith s t .page m .ok [] ∧ t.tables = s.tables ∧ soundKept s t
          ∧ rezoned s t .page m (fun r => { r with page := { r.page with
              srcs := r.page.srcs.modify k (fun x => { x with requested := true }) } }))))
  ∧ ∀ (m : Msg) (s : State), accepts s .page m → u8 m.payload 1 = 0 →
    let k := u8 m.payload 0
    (8 ≤ k → exec (.pageOff m) s = .next (s.reply .page m .badField []))
    ∧ (k < 8 → ∃ t, exec (.pageOff m) s = .next t
        ∧ t.page.srcs = s.page.srcs.modify k (fun _ => { requested := false, bound := none })
        ∧ airIsBest t ∧ repliedWith s t .page m .ok [] ∧ t.tables = s.tables ∧ soundKept s t
        ∧ rezoned s t .page m (withdraw k))

/-- The eight ranks are 0 to 7, each once, the source on air is the eligible one of lowest rank, and what a change of
it makes of a zone, its duck and the reports (R137, R145, R148 to R150; the order of the zones is log entry 38, the
state reported at a hold of 0 log entry 14). -/
def Obligations.BestSourceHasTheLowestRank : Prop :=
  (∀ o : PageOrder, isClassOrder o.order = true → o.oddLeads.length = 4 →
    (∀ k, k < 8 → sourceRank o k < 8) ∧ ∀ j k, j < 8 → k < 8 → sourceRank o j = sourceRank o k → j = k)
  ∧ (∀ (o : PageOrder) (k : Nat), k < 8 →
      sourceRank o k = 2 * o.order.idxOf (k / 2) + (if (k % 2 == 1) = o.oddLeads.getD (k / 2) false then 0 else 1))
  ∧ (∀ (t : Tables) (r : Run) (z : Nat),
    (∀ k, r.page.stopPage = some k → airFor t r z = some k)
    ∧ (r.page.stopPage = none →
      (airFor t r z = none ↔ ∀ k, k < 8 → eligible t r z k = false)
      ∧ ∀ k, airFor t r z = some k → k < 8 ∧ eligible t r z k = true
          ∧ ∀ j, j < 8 → eligible t r z j = true → sourceRank t.order k ≤ sourceRank t.order j))
  ∧ (∀ (t : Tables) (r : Run) (z k : Nat), eligible t r z k = true ↔ (r.src k).requested = true
      ∧ r.page.mask.getLsbD k = false ∧ (pageRec t k).zones.getLsbD z = true ∧ (zoneRec t z).accept.getLsbD k = true)
  ∧ (∀ (t : Tables) (r : Run) (z : Nat),
    let old := (r.zone z).onAir
    let new := airFor t r z
    arbitrate t r = forEach 16 (arbitrateZone t) r
    ∧ (new = old → arbitrateZone t z r = r)
    ∧ (new ≠ old → (arbitrateZone t z r).ctl.reports
        = (r.report t (.zone z old new (if new = none then .hold else .ducked))).ctl.reports))
  ∧ ∀ (t : Tables) (r : Run) (z : Nat) (l : Level), z < 16 → z < r.page.zones.length → r.lv.ducks[z]? = some l →
    let old := r.zone z
    let new := airFor t r z
    let cfg := zoneRec t z
    let r' := arbitrate t r
    (new = old.onAir → r'.zone z = old ∧ r'.lv.ducks[z]? = some l)
    ∧ (∀ k, new = some k → old.onAir ≠ some k →
      r'.zone z = { state := .ducked, holdEnd := none, onAir := some k }
      ∧ (old.state = .programme ∨ old.state = .release → r'.lv.ducks[z]? = some (l.write cfg.depth cfg.attack))
      ∧ (old.state = .ducked ∨ old.state = .hold → r'.lv.ducks[z]? = some l))
    ∧ (new = none → old.onAir ≠ none →
      (0 < cfg.hold →
        r'.zone z = { state := .hold, holdEnd := some (r.port.now + 48 * cfg.hold), onAir := none }
        ∧ r'.lv.ducks[z]? = some l)
      ∧ (cfg.hold = 0 →
        let l' := l.write 0 cfg.release
        r'.zone z = { state := if l'.fade = none then .programme else .release, holdEnd := none, onAir := none }
        ∧ r'.lv.ducks[z]? = some l'))

/-- HOLD_EXPIRY releases its zone; a page key's press raises the source it is bound to, or gives PAGE_IGNORED,
and its release withdraws the pressed source (R141, R150, R169; the marks are log entry 2). -/
def Obligations.HoldExpiryAndPageKeys : Prop :=
  (∀ (s : State) (z f : Nat) (l : Level), (s.toRun.zone z).holdEnd = some f → z < s.page.zones.length →
    s.lv.ducks[z]? = some l →
    let l' := l.write 0 (zoneRec s.tables z).release
    (f ≤ s.port.now → exec (.holdExpiry z) s = .next { s with
      lv := { s.lv with ducks := s.lv.ducks.set z l' }
      page := { s.page with
        zones := s.page.zones.set z { state := if l'.fade = none then .programme else .release, holdEnd := none
                                      onAir := (s.toRun.zone z).onAir } } })
    ∧ (s.port.now < f → exec (.holdExpiry z) s = .next s))
  ∧ (∀ (s : State) (z : Nat), (s.toRun.zone z).holdEnd = none → exec (.holdExpiry z) s = .next s)
  ∧ (∀ (s : State) (key : Nat),
    let st := { s.stage with due := s.stage.due.erase (.pagePress key) }
    (s.tables.settings.bindings.getD key none = none → exec (.pageKeyPress key) s
      = .next { s with stage := { st with pressedSrc := s.stage.pressedSrc.set key none } })
    ∧ ∀ k, s.tables.settings.bindings.getD key none = some k →
      let s1 := { s with stage := { st with pressedSrc := s.stage.pressedSrc.set key (some k) } }
      (s.page.enabled = false → exec (.pageKeyPress key) s = .next (s1.give (.pageIgnored k .key .disabled)))
      ∧ (s.page.enabled = true →
        (originIdle s.tables s.toRun k = true →
          exec (.pageKeyPress key) s = .next (s1.give (.pageIgnored k .key .voiceIdle)))
        ∧ (originIdle s.tables s.toRun k = false →
          ∃ t, exec (.pageKeyPress key) s = .next t
            ∧ t.page.srcs = s.page.srcs.modify k (fun x => { x with requested := true }) ∧ airIsBest t
            ∧ t.ctl.places = s.ctl.places ∧ t.tables = s.tables ∧ soundKept s1 t)))
  ∧ ∀ (s : State) (key : Nat),
    let st := { s.stage with due := s.stage.due.erase (.pageRelease key) }
    (s.stage.pressedSrc.getD key none = none → exec (.pageKeyRelease key) s = .next { s with stage := st })
    ∧ ∀ k, s.stage.pressedSrc.getD key none = some k →
      ∃ t, exec (.pageKeyRelease key) s = .next t
        ∧ t.page.srcs = s.page.srcs.modify k (fun _ => { requested := false, bound := none }) ∧ airIsBest t
        ∧ t.ctl.places = s.ctl.places ∧ t.tables = s.tables
        ∧ soundKept { s with stage := { st with pressedSrc := s.stage.pressedSrc.set key none } } t

/-! ### Show control, keys and lights (chapters 9 and 10) -/

/-- SET_SHOW_STATE and SET_LOCKS: what they set, and a SHOW report where something changed (R156, R161, R165). -/
def Obligations.ShowStateAndLocksAreSet : Prop :=
  (∀ (m : Msg) (s : State) (on : Bool), accepts s .setShowState m → flagOf (u8 m.payload 0) = some on →
    (on = true → s.flash.op ≠ none → exec (.setShowState m) s = .next (s.reply .setShowState m .flashBusy []))
    ∧ (on = false ∨ s.flash.op = none →
      (s.shw.inShow = on → exec (.setShowState m) s = .next (s.reply .setShowState m .ok [flagByte on]))
      ∧ (s.shw.inShow ≠ on → exec (.setShowState m) s
        = .next (State.give { s.reply .setShowState m .ok [flagByte on] with shw := { s.shw with inShow := on } }
            (.showChange on s.shw.stopped s.tables.locks .state)))))
  ∧ (∀ (m : Msg) (s : State), accepts s .setShowState m → 2 ≤ u8 m.payload 0 →
      exec (.setShowState m) s = .next (s.reply .setShowState m .badField []))
  ∧ ∀ (m : Msg) (s : State), accepts s .setLocks m →
    let new := fun i (old : Bool) => if u8 m.payload i = 0 then old else decide (u8 m.payload i = 1)
    let l : Locks := { cues := new 0 s.tables.locks.cues, foldback := new 1 s.tables.locks.foldback
                       relay := new 2 s.tables.locks.relay, routing := new 3 s.tables.locks.routing }
    ((∃ i, i < 4 ∧ 3 ≤ u8 m.payload i) → exec (.setLocks m) s = .next (s.reply .setLocks m .badField []))
    ∧ ((∀ i, i < 4 → u8 m.payload i < 3) →
      (l = s.tables.locks → exec (.setLocks m) s = .next (s.reply .setLocks m .ok [lockByte l]))
      ∧ (l ≠ s.tables.locks → exec (.setLocks m) s
        = .next (State.give { s.reply .setLocks m .ok [lockByte l] with tables := { s.tables with locks := l } }
            (.showChange s.shw.inShow s.shw.stopped l .locks))))

/-- The show stop, by request or key, and the resume (R60, R82, R104, R147, R162 to R164, R176; that the press
leaves no mark of the change is log entry 2). Where the show-stop page is raised or ends, every zone is recomputed. -/
def Obligations.ShowStopAndResume : Prop :=
  (∀ (s : State) (i : Instr) (s0 : State) (why : ShowCause),
    (∃ m, i = .showStop m ∧ accepts s .showStop m ∧ s0 = s.reply .showStop m .ok [1] ∧ why = .stopRequest)
    ∨ (i = .showStopKeyPress ∧ why = .stopKey
        ∧ s0 = { s with stage := { s.stage with due := s.stage.due.erase .stopPress } }) →
    (s.shw.stopped = true → exec i s = .next s0)
    ∧ (s.shw.stopped = false →
      ∃ t, exec i s = .next t ∧ t.shw = { s.shw with stopped := true } ∧ t.cue.held = true ∧ t.cue.guardEnd = none
        ∧ t.cue.pos = s.cue.pos ∧ t.waits = [] ∧ (∀ l, l < 8 → (t.toRun.light l).state = .off)
        ∧ (∀ v, v < 16 → (s.toRun.voice v).tag = none →
            (s.toRun.voice v).state = .priming ∨ (s.toRun.voice v).state = .primed →
            (t.toRun.voice v).state = .idle)
        ∧ (∀ v, v < 16 → noFault s.toRun →
            (∀ u, (s.toRun.voice u).state = .primed → (s.toRun.voice u).tag ≠ (s.toRun.voice v).tag) →
            (s.toRun.voice v).state = .priming → (t.toRun.voice v).state = .idle)
        ∧ (∀ v l, v < 16 → noFault s.toRun → (s.toRun.voice v).state = .playing → (s.toRun.voice v).tag = none →
            s.lv.faders[v]? = some l → l.completionDue = false →
            let ms := s.tables.settings.stopFadeMs
            (ms = 0 ∨ l.fine = 0 → (t.toRun.voice v).state = .idle)
            ∧ (ms ≠ 0 → l.fine ≠ 0 → (t.toRun.voice v).state = .stopping ∧ (t.toRun.voice v).stopWhy = some .showStop
                ∧ t.lv.faders[v]? = some (l.write 0 ms)))
        ∧ (∀ v, v < 16 → noFault s.toRun → (s.toRun.voice v).state = .stopping → (s.toRun.voice v).tag = none →
            (t.toRun.voice v).state = .stopping ∧ (t.toRun.voice v).stopWhy = (s.toRun.voice v).stopWhy)
        ∧ (s.page.stopPage = none → t.page.stopPage = s.tables.settings.stopSource)
        ∧ (∀ k, s.page.stopPage = none → s.tables.settings.stopSource = some k →
            airIsBest t ∧ ∀ z, z < 16 → z < t.page.zones.length → (t.toRun.zone z).onAir = some k)
        ∧ reportsFirst s t (.showChange s.shw.inShow true s.tables.locks why) ∧ t.ctl.places = s0.ctl.places
        ∧ t.tables = s.tables ∧ levelsKept s t ∧ cueKept s t))
  ∧ ∀ (m : Msg) (s : State), accepts s .showResume m →
    (s.shw.stopped = false → exec (.showResume m) s = .next (s.reply .showResume m .notFound []))
    ∧ (s.shw.stopped = true →
      ∃ t, exec (.showResume m) s = .next t ∧ t.shw = { s.shw with stopped := false } ∧ t.cue.held = false
        ∧ t.cue.pos = s.cue.pos ∧ t.waits = s.waits ∧ t.page.stopPage = none
        ∧ (s.page.stopPage ≠ none → airIsBest t)
        ∧ reportsFirst s t (.showChange s.shw.inShow false s.tables.locks .resume)
        ∧ (∀ (c : Cue) (i v head code : Nat) (sync : Bool) (sg : Segment), standbyCue s.tables s.toRun = some c →
          noFault s.toRun → c.actions[i]? = some (.start v head code sync) →
          (∀ j head' code' sync', j < i → c.actions[j]? ≠ some (.start v head' code' sync')) →
          v < s.voices.length → (s.toRun.voice v).state = .idle → (s.toRun.voice v).tag = none →
          segmentRec s.tables head = some sg →
          (t.toRun.voice v).state = .primed ∧ (t.toRun.voice v).primeId = some (c.num, i + 1))
        ∧ (∀ l, l < 8 → (t.toRun.light l).state = .off →
            (lightRec s.tables l).auto = false ∨ l ∉ t.stage.warned ∨ s.stage.lights.length ≤ l)
        ∧ (standbyChanged s.cue.kept (standbyCue s.tables s.toRun) s.cue.fresh none = false →
          t.stage.warned = s.stage.warned
          ∧ (∀ l, l < 8 → l < s.stage.lights.length → t.toRun.light l =
              if (lightRec s.tables l).auto = true ∧ l ∈ s.stage.warned ∧ (s.toRun.light l).state = .off then
                { s.toRun.light l with state := .standby }
              else s.toRun.light l)
          ∧ (noFault s.toRun → s.page.stopPage = none →
              t.ctl.reports
                = (s.toRun.report s.tables (.showChange s.shw.inShow false s.tables.locks .resume)).ctl.reports))
        ∧ repliedWith s t .showResume m .ok [] ∧ t.tables = s.tables ∧ levelsKept s t ∧ cueKept s t)

/-- LOAD_LIGHT and LIGHT_SET with their refusals, ACKNOWLEDGE and GO_HOLD_END, and the lamps and the blink phase of a frame (R170 to
R174, Table 10-2; the mark is log entry 2, and the lamps of a light that changes after its frame log entry 24). -/
def Obligations.CueLightsTakeTheirStates : Prop :=
  (∀ (m : Msg) (s : State),
    (accepts s .loadLight m → 8 ≤ u8 m.payload 0 ∨ 2 ≤ u8 m.payload 1 ∨ u16 m.payload 2 = 0 →
      exec (.loadLight m) s = .next (s.reply .loadLight m .badField []))
    ∧ (accepts s .lightSet m → 8 ≤ u8 m.payload 0 ∨ 3 ≤ u8 m.payload 1 →
      exec (.lightSet m) s = .next (s.reply .lightSet m .badField [])))
  ∧ (∀ (m : Msg) (s : State) (auto : Bool), accepts s .loadLight m → flagOf (u8 m.payload 1) = some auto →
    u8 m.payload 0 < 8 →
    (u16 m.payload 2 = 0 → exec (.loadLight m) s = .next (s.reply .loadLight m .badField []))
    ∧ (1 ≤ u16 m.payload 2 → exec (.loadLight m) s = .next { s.reply .loadLight m .ok [] with
        tables := { s.tables with
          lights := s.tables.lights.set (u8 m.payload 0) { auto := auto, goHold := u16 m.payload 2 } } }))
  ∧ (∀ (m : Msg) (s : State) (x : LightRt), accepts s .lightSet m →
    let l := u8 m.payload 0
    l < 8 → l < s.stage.lights.length →
    (u8 m.payload 1 = 0 ∧ x = { state := .off, goEnd := none })
    ∨ (u8 m.payload 1 = 1 ∧ x = { state := .standby, goEnd := none })
    ∨ (u8 m.payload 1 = 2 ∧ x = { state := .go, goEnd := some (s.port.now + 48 * (lightRec s.tables l).goHold) }) →
    exec (.lightSet m) s = .next { s.reply .lightSet m .ok [byte x.state.code] with
      stage := { s.stage with lights := s.stage.lights.set l x } })
  ∧ (∀ (s : State) (l : Nat),
    let due := s.stage.due.erase (.ack l)
    (l < 8 ∧ (s.toRun.light l).state = .standby → exec (.acknowledge l) s
      = .next (State.give { s with
          stage := { s.stage with
            due := due
            lamps := s.stage.lamps.set l (true, false)
            lights := s.stage.lights.modify l (fun x => { x with state := .acked }) } } (.lightAck l s.stage.standby)))
    ∧ (¬ (l < 8 ∧ (s.toRun.light l).state = .standby) →
      exec (.acknowledge l) s = .next { s with stage := { s.stage with due := due } }))
  ∧ (∀ (s : State) (l f : Nat), (s.toRun.light l).goEnd = some f → l < s.stage.lights.length →
    let new := if (lightRec s.tables l).auto = true ∧ s.shw.stopped = false ∧ l ∈ s.stage.warned then LState.standby
      else .off
    (f ≤ s.port.now → exec (.goHoldEnd l) s = .next { s with
        stage := { s.stage with
          lamps := if (s.toRun.light l).state = new then s.stage.lamps
            else s.stage.lamps.set l (if new = .standby then (s.stage.lit, false) else (false, false))
          lights := s.stage.lights.set l { goEnd := none, state := new } } })
    ∧ (s.port.now < f → exec (.goHoldEnd l) s = .next s))
  ∧ ∀ (t : Tables) (x : FrameIn) (r : Run),
    let h := 48 * t.settings.blinkMs
    let b := r.stage.blink
    let st := (blocksTake t x r).stage
    st.blink = (if r.stage.blinkStart = true ∨ 2 * h ≤ b + 1 then 0 else b + 1) ∧ st.blinkStart = false
    ∧ st.lit = decide (st.blink < h)
    ∧ st.lamps = st.lights.map (fun y => match y.state with
        | .off => (false, false)
        | .standby => (st.lit, false)
        | .acked => (true, false)
        | .go => (false, true))

/-- R167: the debouncers. Every taken frame, good or bad, whatever its lane carries, samples every line once after
the events left over from the last frame, and none while the ring is LOST; the marks of changes are log entry 2,
what `hold` leaves to its own commands and when left-over events are taken is log entry 1, and the order in which a
frame hands on several changes is log entry 45. Each change is handed on as its own command does it (R168, R169,
R172). -/
def Obligations.DebouncersCountTo240 : Prop :=
  (∀ (d : Debounce) (active : Bool),
    (active = d.pressed → d.sample active = ({ pressed := d.pressed, count := 0 }, none))
    ∧ (active ≠ d.pressed → d.count < 239 → d.sample active = ({ pressed := d.pressed, count := d.count + 1 }, none))
    ∧ (active ≠ d.pressed → 239 ≤ d.count → d.sample active = ({ pressed := active, count := 0 }, some active)))
  ∧ (∀ n, n ≤ 240 → ∀ d : Debounce, d.count = 0 →
      (Nat.repeat (fun x : Debounce => (x.sample (!d.pressed)).1) n d)
        = if n < 240 then { d with count := n } else { pressed := !d.pressed, count := 0 })
  ∧ (∀ (s : State) (x : FrameIn) (f : RingFrame), parseFrame x.bytes = some f →
      let r := takeDue s.tables s.toRun
      let good := frameGood x.bytes
      (s.port.active = false → good = false →
        exec (.frameArrival x) s = .next { s with toRun := { r with port := { r.port with ringOut := some x.bytes } } })
      ∧ (s.port.active = true ∨ good = true →
        ∃ t, exec (.frameArrival x) s = .next t
          ∧ (x.hold = true ∨ (portFrame s.tables good x.bytes f r).run.ctl.restartDue = false →
            t.stage.keys = r.stage.keys.zipIdx.map (fun e => (e.1.sample (x.keys.getLsbD e.2)).1)
            ∧ t.stage.acks = r.stage.acks.zipIdx.map (fun e => (e.1.sample (x.acks.getLsbD e.2)).1))
          ∧ (x.hold = true → t.stage.due = r.stage.due
              ++ r.stage.keys.zipIdx.filterMap (fun e => (e.1.sample (x.keys.getLsbD e.2)).2.bind (keyMark e.2))
              ++ r.stage.acks.zipIdx.filterMap (fun e => (e.1.sample (x.acks.getLsbD e.2)).2.bind (ackMark e.2)))
          ∧ (x.hold = false → t.stage.due = [])
          ∧ (x.hold = false → (portFrame s.tables good x.bytes f r).run.ctl.restartDue = true →
            ∀ d, d ∈ t.stage.keys ++ t.stage.acks → d = { pressed := false, count := 0 })))
  ∧ (∀ (t : Tables) (r : Run), handOnAll t r
      = r.stage.due.foldl (fun y e => handOn t e y) { r with stage := { r.stage with due := [] } })
  ∧ (∀ (s : State) (i : Instr) (e : KeyEvent),
      (i = .goKeyPress ∧ e = .goPress) ∨ (∃ down, i = .talkKeyChange down ∧ e = .talk down)
        ∨ (i = .showStopKeyPress ∧ e = .stopPress) ∨ (∃ k, i = .pageKeyPress k ∧ e = .pagePress k)
        ∨ (∃ k, i = .pageKeyRelease k ∧ e = .pageRelease k) ∨ (∃ l, i = .acknowledge l ∧ e = .ack l) →
      exec i s = .next (s.event (fun t r => handOn t e { r with stage := { r.stage with due := r.stage.due.erase e } })))
  ∧ (∀ (x : Byte) (s t : State), exec (.powerOn x) s = .next t →
      ∀ d, d ∈ t.stage.keys ++ t.stage.acks → d = { pressed := false, count := 0 })
  ∧ ∀ s t : State, s.ctl.restartDue = true → exec .restartCarriedOut s = .next t →
      ∀ d, d ∈ t.stage.keys ++ t.stage.acks → d = { pressed := false, count := 0 }

/-! ### Settings, RESTART, power-on and the ring (chapters 7.4, 11 and 12) -/

/-- LOAD_SETTINGS replaces the settings whole, with its clamps; RESTART stops the taking of requests; and
the RESTART carried out leaves the state of R198 with every table as it stood (R10, R126, R195, R197, R198). That
the frame count is kept is log entry 29, that every LOAD_SETTINGS restarts the blink phase log entry 24. The last
clauses: the settle an operation becomes, and what is left of a transfer on the bus (R126). -/
def Obligations.SettingsAndRestart : Prop :=
  (∀ (m : Msg) (s : State), accepts s .loadSettings m →
    let b := u8 m.payload
    let w := u16 m.payload
    let ok := (∀ i, 5 ≤ i → i ≤ 9 → b i < 8 ∨ b i = 255) ∧ w 12 < 8192
    let clamped := 80 < b 0 ∨ 5000 < w 1 ∨ w 10 < 100 ∨ 5000 < w 10
    let source := fun i => if b i = 255 then none else some (b i)
    let x : Settings := {
      dimDepth := min 80 (b 0), guardMs := min 5000 (w 1), stopFadeMs := w 3, stopSource := source 5
      bindings := [source 6, source 7, source 8, source 9], blinkMs := max 100 (min 5000 (w 10))
      reports := BitVec.ofNat 16 (w 12), node := b 14 }
    (¬ ok → exec (.loadSettings m) s = .next (s.reply .loadSettings m .badField []))
    ∧ ∀ st, st = .adjusted ∧ clamped ∨ st = .ok ∧ ¬ clamped → ok → exec (.loadSettings m) s
      = .next { s.reply .loadSettings m st (settingsBytes x) with
          tables := { s.tables with settings := x }
          stage := { s.stage with blinkStart := true } })
  ∧ (∀ (m : Msg) (s : State), accepts s .restart m → ∃ t, exec (.restart m) s = .next t
      ∧ t = { s with ctl := { s.ctl with
          taking := false, places := s.ctl.places ++ [answered .restart m .ok []] } })
  ∧ (∀ s : State, s.ctl.restartDue = false → exec .restartCarriedOut s = .next s)
  ∧ (∀ (t : Tables) (r : Run),
    (r.flash.op = none → settleOp t r = none)
    ∧ ∀ o, r.flash.op = some o →
      let pr := profileRec t o.dev
      let settle := fun (st : OpStep) => ({ kind := .settle, dev := o.dev, cmds := [], step := st, pollMs := pr.pollMs
                                            pollLimit := pr.pollLimit, polls := 0, reply := [] } : Op)
      let sends := ∃ d c q, r.flash.bus = some { kind := .command d c, seq := q }
      (sends → settleOp t r = some (settle .settleWait))
      ∧ (¬ sends →
        (∀ c, r.dev o.dev = .working c → settleOp t r = some (settle (.pollAt (r.port.now + 48 * pr.pollMs))))
        ∧ ((∀ c, r.dev o.dev ≠ .working c) → settleOp t r = none)))
  ∧ (∀ (q : BusSeq) (d a n : Nat) (c : Cmd) (f : Fetch) (b : Bool),
    let left := fun k => (abandonXfer { kind := k, seq := q } : Xfer)
    left (.contentRead d a n b) = { kind := .contentRead d a n false, seq := q }
    ∧ left (.writeEnable d c b) = { kind := .writeEnable d c false, seq := q }
    ∧ left (.poll d b) = { kind := .poll d false, seq := q }
    ∧ (∀ second, left (.reset d second b) = { kind := .reset d second false, seq := q })
    ∧ left (.fetch f b) = { kind := .fetch f true, seq := q }
    ∧ left (.command d c) = { kind := .command d c, seq := q })
  ∧ ∀ s : State, s.ctl.restartDue = true →
    ∃ t, exec .restartCarriedOut s = .next t ∧ t.tables = s.tables ∧ storesKept s t
      ∧ t.lv.crosspoints = s.lv.crosspoints.map Level.restart ∧ t.lv.masters = s.lv.masters.map Level.restart
      ∧ t.lv.trims = s.lv.trims.map Level.restart ∧ t.lv.programmes = s.lv.programmes.map Level.restart
      ∧ t.lv.faders = s.lv.faders.map Level.restart ∧ t.lv.ducks = s.lv.ducks.map (fun _ => Level.rest 0)
      ∧ t.mix = { talkKey := false, talkLatch := false, peaks := s.mix.peaks.map (fun _ => 0)
                  clips := s.mix.clips.map (fun _ => false), y := s.mix.y.map (fun _ => 0) } ∧ t.latch = [] ∧ t.cue.pos = 0 ∧ t.cue.held = false
      ∧ t.cue.guardEnd = none ∧ t.waits = [] ∧ t.shw = { inShow := false, stopped := false }
      ∧ (∀ v, (t.toRun.voice v).state = .idle ∨ ((t.toRun.voice v).state = .primed
          ∧ ∃ c i, firstEnabledAfter s.tables 0 = some c ∧ (t.toRun.voice v).primeId = some (c.num, i)))
      ∧ t.cue.kept = firstEnabledAfter s.tables 0
      ∧ t.ctl.reports = (({ s.toRun with ctl := { s.ctl with reports := [] } } : Run).report s.tables
          (.standby 0 ((firstEnabledAfter s.tables 0).map Cue.num))).ctl.reports
      ∧ t.ctl.lossPending = false
      ∧ t.flash.devs = s.flash.devs.map (fun x => if x = .faulted then .ready else x)
      ∧ t.flash.op = settleOp s.tables s.toRun
      ∧ (∀ x, s.flash.bus = some x → t.flash.bus = some (abandonXfer x))
      ∧ t.page.zones = s.page.zones.map (fun _ => { state := .programme, holdEnd := none, onAir := none })
      ∧ t.page.srcs = s.page.srcs.map (fun _ => { requested := false, bound := none }) ∧ t.page.mask = 0
      ∧ (∀ z, zoneOut t.toRun z = 0)
      ∧ (∀ l, l < 8 → l < s.stage.lights.length → t.toRun.light l = { goEnd := none, state :=
          if (lightRec s.tables l).auto = true ∧ l ∈ ((firstEnabledAfter s.tables 0).map warnedBy).getD [] then .standby
          else .off })
      ∧ t.stage.blinkStart = true ∧ t.stage.pressedSrc = s.stage.pressedSrc.map (fun _ => none) ∧ t.stage.due = []
      ∧ t.page.enabled = false ∧ t.page.stopPage = none ∧ t.ctl.places = [] ∧ t.ctl.taking = true
      ∧ t.ctl.restartDue = false ∧ t.port.reasm = [] ∧ t.port.sending = none
      ∧ t.port.capture = none ∧ t.port.node = s.port.node ∧ t.port.active = s.port.active
      ∧ t.port.now = s.port.now ∧ t.port.counter = s.port.counter

/-- POWER_ON gives every block its power-on state and keeps flash; the image is checked in the order of
Table 7-5 and taken whole, or not at all, from what flash holds (R10, R130, R131, R184, R199; log entries 4, 8, 9, 24,
46 and, for the two reads on the bus, 32). -/
def Obligations.PowerOnAndImageLoad : Prop :=
  (∀ (x : Byte) (s : State), ∃ t, exec (.powerOn x) s = .next t ∧ t.toRun = Run.powerOn (strapNode x)
    ∧ t.tables = Tables.default ∧ t.pending = s.pending
    ∧ ((∀ d c, s.toRun.dev d ≠ .working c) → (∀ d c q, s.flash.bus ≠ some { kind := .command d c, seq := q }) →
        storesKept s t)
    ∧ (s.flash.op.map Op.kind = some .settle →
        (∃ c, s.toRun.dev 0 = .working c ∧ c.addr = 0)
          ∨ (∃ c q, s.flash.bus = some { kind := .command 0 c, seq := q } ∧ c.addr = 0) → noImage t))
  ∧ (strapNode 0 = 254 ∧ strapNode 255 = 254 ∧ ∀ x : Byte, x ≠ 0 → x ≠ 255 → strapNode x = x.toNat)
  ∧ (∀ read : Nat → Nat → List Byte,
    let h := read 0 16
    let n := u32 h 8
    (h.take 4 ≠ [0x50, 0x48, 0x31, 0x36] → checkImage read = .error .noImage)
    ∧ (h.take 4 = [0x50, 0x48, 0x31, 0x36] →
      (u32 h 4 ≠ 1 → checkImage read = .error .version)
      ∧ (u32 h 4 = 1 →
        (n = 0 ∨ 1048560 < n → checkImage read = .error .length)
        ∧ (n ≠ 0 → n ≤ 1048560 →
          (crc32 (read 16 n) ≠ u32 h 12 → checkImage read = .error .crc)
          ∧ (crc32 (read 16 n) = u32 h 12 →
            (∀ i, imageOf (read 16 n) = some i → imageValid i = true → checkImage read = .ok i)
            ∧ ((∀ i, imageOf (read 16 n) = some i → imageValid i = false) → checkImage read = .error .content))))))
  ∧ (∀ (s : State) (i : Image), imageValid i = true → Memory.readRange s.flash0 0 16 = imageHeader (imageBody i) →
    Memory.readRange s.flash0 16 (imageBody i).length = imageBody i → checkImage (s.reader 0) = .ok i)
  ∧ (∀ (s : State) (q : BusSeq), s.flash.bus = some { kind := .imageHeader, seq := q } →
    let h := Memory.readRange s.flash0 0 16
    let n := u32 h 8
    let good := h.take 4 = [0x50, 0x48, 0x31, 0x36] ∧ u32 h 4 = 1 ∧ n ≠ 0 ∧ n ≤ 1048560
    (good → exec .contentReadComplete s = .next { s with flash := { s.flash with
        bus := some { kind := .imageBody n, seq := readSeq Profile.default 0 16 n } } })
    ∧ (¬ good → exec .contentReadComplete s = .next s))
  ∧ (∀ s : State, readingImage s.toRun = true ↔
      ∃ q, s.flash.bus = some { kind := .imageHeader, seq := q } ∨ ∃ n, s.flash.bus = some { kind := .imageBody n, seq := q })
  ∧ (∀ s : State, readingImage s.toRun = false → exec (.imageLoadEnd ()) s = .next s)
  ∧ ∀ s : State, readingImage s.toRun = true →
    ∃ t, exec (.imageLoadEnd ()) s = .next t ∧ t.ctl.taking = true ∧ t.flash.op = none ∧ storesKept s t
      ∧ t.cue.pos = s.cue.pos ∧ t.ctl.places = s.ctl.places ∧ t.flash.devs = s.flash.devs.map (fun _ => .ready)
      ∧ t.stage.blinkStart = true ∧ t.cue.kept = firstEnabledAfter t.tables s.cue.pos
      ∧ (∀ w, checkImage (s.reader 0) = .error w → t.tables = Tables.default ∧ t.flash.imageReport = some (some w)
          ∧ t.lv.crosspoints = Levels.default.crosspoints ∧ t.lv.masters = Levels.default.masters
          ∧ t.lv.trims = Levels.default.trims ∧ t.lv.faders = Levels.default.faders
          ∧ t.lv.programmes = Levels.default.programmes)
      ∧ ∀ i, checkImage (s.reader 0) = .ok i → t.tables = i.tables ∧ t.flash.imageReport = some none
          ∧ t.lv.crosspoints = (i.codes.take 960).map Level.rest
          ∧ t.lv.masters = ((i.codes.drop 960).take 24).map Level.rest
          ∧ t.lv.trims = ((i.codes.drop 984).take 40).map Level.rest
          ∧ t.lv.faders = ((i.codes.drop 1024).take 16).map Level.rest
          ∧ t.lv.programmes = ((i.codes.drop 1040).take 16).map Level.rest

/-- FRAME_ARRIVAL, RING_LOSS and REASSEMBLY_TIMEOUT: the counter, the capture, the claimed slots, the lane and the
message it completes, the choice of what the part sends and what its last fragment leaves, the RING and IMAGE reports,
what every block makes of the frame, the events the frame itself takes, and what the loss of the ring closes (R3, R22,
R96 to R98, R131, R134, R178 to R184, R186, R188, R190, R191, R193, R197). The model's
choices: `hold`, the left-over events and the order of the events a frame takes (log entry 1), with the fetches of
the frame's refills before a step of the flash controller that falls due on it (48); that the lane is dealt
before any block takes the frame, so that no report given on the frame goes out with it (42); that the message is taken
after the events the frame takes, a due RESTART among them (43); the frame number behind the timeout's count (18); the
place of the reports (14, 17 and 39); the order of the voices (36). -/
def Obligations.TheRingTakesAndLosesFrames : Prop :=
  (∀ (s : State) (x : FrameIn) (f : RingFrame), parseFrame x.bytes = some f → frameGood x.bytes = true →
    let r := takeDue s.tables s.toRun
    let d := dealLane f.lane (portTake true f r)
    let out := frameBytes { counter := f.counter, slots := slotsOut s.tables r f.slots, lane := d.lane }
    let told := if s.port.active = true ∨ s.port.now = 0 then d.run
      else (d.run.reportAt s.tables s.port.counter (.ring false)).report s.tables (.ring true)
    let taken := blocksTake s.tables x (giveImageReport s.tables
      { told with port := { told.port with ringOut := some out } })
    let p : Part := { toRun := if x.hold = true then taken else takeDue s.tables taken, tables := s.tables }
    ∃ t, exec (.frameArrival x) s = .next t ∧ t.port.now = s.port.now + 1 ∧ t.port.counter = f.counter
      ∧ t.port.active = true ∧ t.port.node = s.port.node ∧ storesKept s t ∧ t.port.ringOut = some out
      ∧ (x.hold = true → t.port.capture = some f.slots)
      ∧ (x.hold = true ∨ d.run.ctl.restartDue = false → told.ctl.reports <+: t.ctl.reports)
      ∧ (d.msg = none → t.toPart = p) ∧ ∀ c, d.msg = some c → t.toPart = takeMessage c.kind c.msg p)
  ∧ (∀ (s : State) (x : FrameIn) (f : RingFrame), parseFrame x.bytes = some f → frameGood x.bytes = false →
    s.port.active = true →
    let r := takeDue s.tables s.toRun
    let taken := blocksTake s.tables x (giveImageReport s.tables
      { portTake false f r with port := { (portTake false f r).port with ringOut := some x.bytes } })
    ∃ t, exec (.frameArrival x) s = .next t ∧ t.port.now = s.port.now + 1
      ∧ t.port.counter = (s.port.counter + 1) % 65536 ∧ t.port.ringOut = some x.bytes
      ∧ (x.hold = true → t.port.capture = r.port.capture) ∧ storesKept s t
      ∧ t.toPart = { toRun := if x.hold = true then taken else takeDue s.tables taken, tables := s.tables })
  ∧ (∀ (t : Tables) (r : Run), takeDue t r = onArrival (fun r0 =>
      let r1 := forEach 16 (fun z => completeLevel t (.duck z)) (forEach 16 (fun v => completeLevel t (.fader v))
        (completeQuiet r0))
      let r2 := expireAll t 33 (handOnAll t (closeGuard r1))
      let r3 := forEach 16 (starve t) (forEach 8 (endGoHold t) (forEach 16 (expireHold t) r2))
      carryRestart t (saveStepDueNow t (pollDueNow t (timeoutAll r3)))) r)
  ∧ (∀ (s : State) (ref : LevelRef) (z l v : Nat),
    exec (.fadeComplete ref) s = .next (s.event (fun t => completeLevel t ref))
    ∧ exec .guardWindowClose s = .next (s.event (fun _ => closeGuard))
    ∧ exec (.holdExpiry z) s = .next (s.event (fun t => expireHold t z))
    ∧ exec (.goHoldEnd l) s = .next (s.event (fun t => endGoHold t l))
    ∧ exec (.voiceStarved v) s = .next (s.event (fun t => starve t v))
    ∧ exec .pollDue s = .next (s.event pollDueNow) ∧ exec .saveStepDue s = .next (s.event saveStepDueNow)
    ∧ exec .restartCarriedOut s = .next (s.event carryRestart))
  ∧ (∀ (lane : List Byte) (r : Run),
    let f := fragmentOf lane
    let d := dealLane lane r
    let k := takeFragment r.port.now r.port.counter f r.port.reasm
    let r1 := { r with port := { r.port with reasm := k.reasm } }
    (f.state = 0 → d.run = (fillLane r).run ∧ d.lane = (fillLane r).lane ∧ d.msg = none)
    ∧ (5 ≤ f.state ∨ f.state ≠ 0 ∧ f.dst ≠ r.port.node ∧ f.dst ≠ 255 → d.run = r ∧ d.lane = lane ∧ d.msg = none)
    ∧ (f.state ≠ 0 → f.state < 5 → f.dst = 255 → d.run = r1 ∧ d.lane = lane ∧ d.msg = k.msg)
    ∧ (f.state ≠ 0 → f.state < 5 → f.dst = r.port.node → f.dst ≠ 255 →
        d.run = (fillLane r1).run ∧ d.lane = (fillLane r1).lane ∧ d.msg = k.msg))
  ∧ (∀ r : Run,
    let sent := fun (x : Sending) (o : Outgoing) (r1 : Run) =>
      if (fragments o).length ≤ 1 then finishSending { r1 with port := { r1.port with sending := some x } }
      else { r1 with port := { r1.port with sending := some { x with sent := 1 } } }
    (r.port.sending = none → (∀ p, p ∈ r.ctl.places → p.answer = none) → r.ctl.reports = [] →
      (fillLane r).run = r ∧ (fillLane r).lane = List.replicate 8 0)
    ∧ (∀ x o st data, r.port.sending = some x → inProgress r = some o → (fragments o)[x.sent]? = some (st, data) →
      (fillLane r).lane = laneBytes st r.port.node o.dst data
      ∧ (fillLane r).run = if (fragments o).length ≤ x.sent + 1 then finishSending r
          else { r with port := { r.port with sending := some { x with sent := x.sent + 1 } } })
    ∧ (∀ before p rest o st data, r.port.sending = none → r.ctl.places = before ++ p :: rest →
      (∀ q, q ∈ before → q.answer = none) → placeMessage p = some o → (fragments o)[0]? = some (st, data) →
      (fillLane r).lane = laneBytes st r.port.node p.dst data
      ∧ (fillLane r).run = sent { item := .reply before.length, sent := 0 } o r)
    ∧ (∀ y rest st data, r.port.sending = none → (∀ p, p ∈ r.ctl.places → p.answer = none) → r.ctl.reports = y :: rest →
      let z : Report := { y with lost := some r.ctl.lossPending }
      (fragments (reportMessage z))[0]? = some (st, data) →
      (fillLane r).lane = laneBytes st r.port.node y.dst data ∧ (fillLane r).run.ctl.lossPending = false
      ∧ (fillLane r).run = sent { item := .report, sent := 0 } (reportMessage z)
          { r with ctl := { r.ctl with reports := z :: rest, lossPending := false } })
    ∧ (∀ before p rest n, r.port.sending = some { item := .reply before.length, sent := n } →
      r.ctl.places = before ++ p :: rest →
      inProgress r = placeMessage p
      ∧ (∀ a data, p.answer = some (a, data) → placeMessage p
          = some { kind := p.kind + 128, tag := p.tag, payload := byte a.code :: data, dst := p.dst })
      ∧ ∃ due, finishSending r = { r with port := { r.port with sending := none }
                                          ctl := { r.ctl with places := before ++ rest, restartDue := due } }
          ∧ (due = true ↔ r.ctl.restartDue = true
              ∨ p.kind = ReqKind.restart.code ∧ ∃ data, p.answer = some (.ok, data)))
    ∧ (∀ y rest n, r.port.sending = some { item := .report, sent := n } → r.ctl.reports = y :: rest →
      inProgress r = some (reportMessage y)
      ∧ reportMessage y = { kind := 240 + y.body.index, tag := 0, dst := y.dst
                            payload := le16 y.counter ++ byte (if y.lost = some true then 1 else 0) :: y.body.bytes }
      ∧ finishSending r = { r with port := { r.port with sending := none }, ctl := { r.ctl with reports := rest } }))
  ∧ (∀ (t : Tables) (r : Run) (slots : List Sample),
    let out := slotsOut t r slots
    out.length = slots.length
    ∧ (∀ n, (∀ o, (o, n) ∉ slotClaims t) → out[n]? = slots[n]?)
    ∧ (claimsDistinct t = true → ∀ o n, (o, n) ∈ slotClaims t → n < slots.length →
      out[n]? = some (match o with
        | .mix m => r.mix.y.getD m 0
        | .zone z => zoneOut r z))
    ∧ ∀ i n, ((.mix i, n) ∈ slotClaims t ↔ t.mixes[i]?.bind MixRec.slot = some n)
        ∧ ((.zone i, n) ∈ slotClaims t ↔ t.zones[i]?.bind ZoneRec.slot = some n))
  ∧ (∀ (t : Tables) (r : Run),
    (r.flash.imageReport = none → giveImageReport t r = r)
    ∧ ∀ res, r.flash.imageReport = some res →
      giveImageReport t r = ({ r with flash := { r.flash with imageReport := none } } : Run).report t (.image res))
  ∧ (∀ (t : Tables) (x : FrameIn) (r : Run),
    let lv := r.lv.map Level.advance
    let p := playAll t (advanceBlink t (readLines x { r with lv := lv }))
    let r' := blocksTake t x r
    r'.lv.crosspoints = lv.crosspoints ∧ r'.lv.masters = lv.masters ∧ r'.lv.trims = lv.trims ∧ r'.lv.faders = lv.faders
    ∧ r'.lv.programmes = lv.programmes ∧ r'.mix = (formMixes t lv p.out (readLines x r)).mix
    ∧ ∀ z, z < 16 → zoneOut r' z = max (-8388607) (min 8388607
        ((match (zoneRec t z).prog with
          | none => 0
          | some m => scaled (r'.mix.y.getD m 0)
              (gain t.law ((lv.get (.zoneProgramme z)).fine - (lv.get (.duck z)).fine)))
        + match (r'.zone z).onAir with
          | none => 0
          | some k => if k < 8 then scaled (sourceSample r p.out (pageRec t k).origin) (gain t.law (256 * (pageRec t k).gain))
              else 0)))
  ∧ (∀ (t : Tables) (r : Run), (playAll t r).run = forEach 16 (fun v y => (playVoice t v y).1) r
    ∧ ∀ v, v < 16 → (playAll t r).out[v]? = some (playVoice t v (forEach v (fun u y => (playVoice t u y).1) r)).2)
  ∧ (∀ (t : Tables) (v : Nat) (r : Run),
    let x := r.voice v
    let heard := x.state = .playing ∨ x.state = .stopping
    let ended := x.cursor = none ∧ x.reserved = 0
    (¬ heard → playVoice t v r = (r, 0))
    ∧ (∀ y rest, heard → x.buffer = y :: rest →
      (playVoice t v r).2 = max (-8388607) (min 8388607 (scaled y.value (gain t.law (r.lv.get (.fader v)).fine)))
      ∧ (¬ (ended ∧ rest = []) → (playVoice t v r).1 = r.onVoice v (fun z => { z with buffer := rest }))
      ∧ (ended ∧ rest = [] → ((playVoice t v r).1.voice v).state = .idle
          ∧ lastReport t r (playVoice t v r).1 (.voice v .ended x.startId)))
    ∧ (heard → x.buffer = [] → (playVoice t v r).2 = 0
      ∧ (ended → (playVoice t v r).1 = r)
      ∧ (¬ ended →
        let r1 := r.onVoice v (fun z => { z with missed := min 4096 (z.missed + 1) })
        (playVoice t v r).1 = if x.missed = 0 then r1.report t (.underrun v x.startId) else r1)))
  ∧ (∀ s : State, s.port.active = false → exec .ringLoss s = .next s)
  ∧ (∀ s : State, s.port.active = true →
    ∃ t, exec .ringLoss s = .next t ∧ t.port.active = false ∧ t.port.reasm = [] ∧ t.port.now = s.port.now
      ∧ t.port.counter = s.port.counter ∧ (∀ y, t.port.sending = some y → y.sent = 0)
      ∧ (takeDue s.tables s.toRun = s.toRun → t = { s with port := { s.port with
          active := false, reasm := [], sending := s.port.sending.map (fun y => { y with sent := 0 }) } })
      ∧ storesKept s t)
  ∧ ∀ (s : State) (src : Nat), exec (.reassemblyTimeout src) s = .next { s with port := { s.port with
      reasm := s.port.reasm.filter (fun y => ¬ (y.src = src ∧ y.last + 48000 ≤ s.port.now)) } }

/-! ### Layouts (chapter 13) -/

/-- Every cue, profile, mix record, zone configuration and settings record in range is read back from the
bytes it is sent as, at every value its fields admit (R203, R206, R207). -/
def Obligations.RecordsSurviveTheirLayouts : Prop :=
  (∀ c : Cue, cueOk c = true → cueOf (cueBytes c) = some c ∧ (cueBytes c).length = cueLength (cueBytes c))
  ∧ (∀ (d : Nat) (pr : Profile), d < 2 → profileOk d pr = true → profileOf (profileBytes d pr) = some pr)
  ∧ (∀ (m : Nat) (r : MixRec), m < 24 → mixOk r = true → mixOf (mixBytes m r) = some r)
  ∧ (∀ (z code : Nat) (r : ZoneRec), z < 16 → zoneOk r = true → zoneOf (zoneBytes z r code) = some r)
  ∧ ∀ x : Settings, settingsOk x = true → settingsOf (settingsBytes x) = some x

/-- Every message of up to 1,024 bytes is put together again from its fragments, every fragment is read back
from its lane, and every frame from its bytes, with its check good; what a fragment makes of the reassembly table,
whose slot holds the frame counter of its last fragment; and the check strings of both CRCs (R128, R178, R185 to R188,
R200 to R202; the frame number beside the counter is log entry 18). -/
def Obligations.MessagesAndFramesSurviveTheRing : Prop :=
  (∀ (now counter src : Nat) (o : Outgoing), o.kind < 256 → o.payload.length ≤ 1024 →
    (gather now counter src (fragments o) []).reasm = []
    ∧ (gather now counter src (fragments o) []).msg
        = some { kind := o.kind, msg := { src := byte src, tag := o.tag, payload := o.payload } })
  ∧ (∀ (now counter : Nat) (f : Fragment) (l : List Reasm),
    let l' := (takeFragment now counter f l).reasm
    let holds := fun b => slotOf l' f.src = some { src := f.src, bytes := b, counter := counter, last := now }
    (∀ src, src ≠ f.src → slotOf l' src = slotOf l src)
    ∧ (f.state = 4 → l' = l)
    ∧ (fragmentOk f = false → f.state ≠ 4 → l' = l.filter (fun x => x.src ≠ f.src))
    ∧ (fragmentOk f = true → f.state = 1 →
      (slotOf l f.src ≠ none ∨ l.length < 4 → holds f.data) ∧ (slotOf l f.src = none → 4 ≤ l.length → l' = l))
    ∧ (fragmentOk f = true → f.state = 2 ∨ f.state = 3 →
      (slotOf l f.src = none → l' = l)
      ∧ ∀ x, slotOf l f.src = some x →
        (f.state = 2 → x.bytes.length + f.data.length ≤ 1030 → holds (x.bytes ++ f.data))
        ∧ (f.state = 3 ∨ 1030 < x.bytes.length + f.data.length → slotOf l' f.src = none)))
  ∧ (∀ (st src dst : Nat) (data : List Byte), st < 8 → src < 256 → dst < 256 → data.length ≤ 5 →
      fragmentOf (laneBytes st src dst data) = { state := st, count := data.length, src := src, dst := dst, data := data }
      ∧ (laneBytes st src dst data).length = 8)
  ∧ (∀ f : RingFrame, f.counter < 65536 → f.slots.length = 64 → f.lane.length = 8 →
      (∀ x, x ∈ f.slots → -8388608 ≤ x ∧ x ≤ 8388607) →
      parseFrame (frameBytes f) = some f ∧ frameGood (frameBytes f) = true)
  ∧ crc16 [0x31, 0x32, 0x33, 0x34, 0x35, 0x36, 0x37, 0x38, 0x39] = 0x29B1
  ∧ crc32 [0x31, 0x32, 0x33, 0x34, 0x35, 0x36, 0x37, 0x38, 0x39] = 0xCBF43926

end
end

