-- ==== Sys2Proof/Laws/State.lean ====
section
/-! SUPPORT. One lemma per field per named update, true by rfl: what an update leaves as it stands, and
what it puts in the field it changes. -/

namespace Sys2Proof.Machine

open Sys2Proof

@[simp] theorem Run.onVoice_lv (r : Run) (v : Nat) (f : Voice → Voice) : (r.onVoice v f).lv = r.lv := rfl
@[simp] theorem Run.onVoice_mix (r : Run) (v : Nat) (f : Voice → Voice) : (r.onVoice v f).mix = r.mix := rfl
@[simp] theorem Run.onVoice_latch (r : Run) (v : Nat) (f : Voice → Voice) : (r.onVoice v f).latch = r.latch := rfl
@[simp] theorem Run.onVoice_cue (r : Run) (v : Nat) (f : Voice → Voice) : (r.onVoice v f).cue = r.cue := rfl
@[simp] theorem Run.onVoice_waits (r : Run) (v : Nat) (f : Voice → Voice) : (r.onVoice v f).waits = r.waits := rfl
@[simp] theorem Run.onVoice_voices (r : Run) (v : Nat) (f : Voice → Voice) : (r.onVoice v f).voices = r.voices.modify v f := rfl
@[simp] theorem Run.onVoice_flash (r : Run) (v : Nat) (f : Voice → Voice) : (r.onVoice v f).flash = r.flash := rfl
@[simp] theorem Run.onVoice_page (r : Run) (v : Nat) (f : Voice → Voice) : (r.onVoice v f).page = r.page := rfl
@[simp] theorem Run.onVoice_shw (r : Run) (v : Nat) (f : Voice → Voice) : (r.onVoice v f).shw = r.shw := rfl
@[simp] theorem Run.onVoice_stage (r : Run) (v : Nat) (f : Voice → Voice) : (r.onVoice v f).stage = r.stage := rfl
@[simp] theorem Run.onVoice_port (r : Run) (v : Nat) (f : Voice → Voice) : (r.onVoice v f).port = r.port := rfl
@[simp] theorem Run.onVoice_ctl (r : Run) (v : Nat) (f : Voice → Voice) : (r.onVoice v f).ctl = r.ctl := rfl

@[simp] theorem Run.onZone_lv (r : Run) (z : Nat) (f : ZoneRt → ZoneRt) : (r.onZone z f).lv = r.lv := rfl
@[simp] theorem Run.onZone_mix (r : Run) (z : Nat) (f : ZoneRt → ZoneRt) : (r.onZone z f).mix = r.mix := rfl
@[simp] theorem Run.onZone_latch (r : Run) (z : Nat) (f : ZoneRt → ZoneRt) : (r.onZone z f).latch = r.latch := rfl
@[simp] theorem Run.onZone_cue (r : Run) (z : Nat) (f : ZoneRt → ZoneRt) : (r.onZone z f).cue = r.cue := rfl
@[simp] theorem Run.onZone_waits (r : Run) (z : Nat) (f : ZoneRt → ZoneRt) : (r.onZone z f).waits = r.waits := rfl
@[simp] theorem Run.onZone_voices (r : Run) (z : Nat) (f : ZoneRt → ZoneRt) : (r.onZone z f).voices = r.voices := rfl
@[simp] theorem Run.onZone_flash (r : Run) (z : Nat) (f : ZoneRt → ZoneRt) : (r.onZone z f).flash = r.flash := rfl
@[simp] theorem Run.onZone_page (r : Run) (z : Nat) (f : ZoneRt → ZoneRt) : (r.onZone z f).page = { r.page with zones := r.page.zones.modify z f } := rfl
@[simp] theorem Run.onZone_shw (r : Run) (z : Nat) (f : ZoneRt → ZoneRt) : (r.onZone z f).shw = r.shw := rfl
@[simp] theorem Run.onZone_stage (r : Run) (z : Nat) (f : ZoneRt → ZoneRt) : (r.onZone z f).stage = r.stage := rfl
@[simp] theorem Run.onZone_port (r : Run) (z : Nat) (f : ZoneRt → ZoneRt) : (r.onZone z f).port = r.port := rfl
@[simp] theorem Run.onZone_ctl (r : Run) (z : Nat) (f : ZoneRt → ZoneRt) : (r.onZone z f).ctl = r.ctl := rfl

@[simp] theorem Run.onSrc_lv (r : Run) (k : Nat) (f : SrcRt → SrcRt) : (r.onSrc k f).lv = r.lv := rfl
@[simp] theorem Run.onSrc_mix (r : Run) (k : Nat) (f : SrcRt → SrcRt) : (r.onSrc k f).mix = r.mix := rfl
@[simp] theorem Run.onSrc_latch (r : Run) (k : Nat) (f : SrcRt → SrcRt) : (r.onSrc k f).latch = r.latch := rfl
@[simp] theorem Run.onSrc_cue (r : Run) (k : Nat) (f : SrcRt → SrcRt) : (r.onSrc k f).cue = r.cue := rfl
@[simp] theorem Run.onSrc_waits (r : Run) (k : Nat) (f : SrcRt → SrcRt) : (r.onSrc k f).waits = r.waits := rfl
@[simp] theorem Run.onSrc_voices (r : Run) (k : Nat) (f : SrcRt → SrcRt) : (r.onSrc k f).voices = r.voices := rfl
@[simp] theorem Run.onSrc_flash (r : Run) (k : Nat) (f : SrcRt → SrcRt) : (r.onSrc k f).flash = r.flash := rfl
@[simp] theorem Run.onSrc_page (r : Run) (k : Nat) (f : SrcRt → SrcRt) : (r.onSrc k f).page = { r.page with srcs := r.page.srcs.modify k f } := rfl
@[simp] theorem Run.onSrc_shw (r : Run) (k : Nat) (f : SrcRt → SrcRt) : (r.onSrc k f).shw = r.shw := rfl
@[simp] theorem Run.onSrc_stage (r : Run) (k : Nat) (f : SrcRt → SrcRt) : (r.onSrc k f).stage = r.stage := rfl
@[simp] theorem Run.onSrc_port (r : Run) (k : Nat) (f : SrcRt → SrcRt) : (r.onSrc k f).port = r.port := rfl
@[simp] theorem Run.onSrc_ctl (r : Run) (k : Nat) (f : SrcRt → SrcRt) : (r.onSrc k f).ctl = r.ctl := rfl

@[simp] theorem Run.onLight_lv (r : Run) (l : Nat) (f : LightRt → LightRt) : (r.onLight l f).lv = r.lv := rfl
@[simp] theorem Run.onLight_mix (r : Run) (l : Nat) (f : LightRt → LightRt) : (r.onLight l f).mix = r.mix := rfl
@[simp] theorem Run.onLight_latch (r : Run) (l : Nat) (f : LightRt → LightRt) : (r.onLight l f).latch = r.latch := rfl
@[simp] theorem Run.onLight_cue (r : Run) (l : Nat) (f : LightRt → LightRt) : (r.onLight l f).cue = r.cue := rfl
@[simp] theorem Run.onLight_waits (r : Run) (l : Nat) (f : LightRt → LightRt) : (r.onLight l f).waits = r.waits := rfl
@[simp] theorem Run.onLight_voices (r : Run) (l : Nat) (f : LightRt → LightRt) : (r.onLight l f).voices = r.voices := rfl
@[simp] theorem Run.onLight_flash (r : Run) (l : Nat) (f : LightRt → LightRt) : (r.onLight l f).flash = r.flash := rfl
@[simp] theorem Run.onLight_page (r : Run) (l : Nat) (f : LightRt → LightRt) : (r.onLight l f).page = r.page := rfl
@[simp] theorem Run.onLight_shw (r : Run) (l : Nat) (f : LightRt → LightRt) : (r.onLight l f).shw = r.shw := rfl
@[simp] theorem Run.onLight_stage (r : Run) (l : Nat) (f : LightRt → LightRt) : (r.onLight l f).stage = { r.stage with lights := r.stage.lights.modify l f } := rfl
@[simp] theorem Run.onLight_port (r : Run) (l : Nat) (f : LightRt → LightRt) : (r.onLight l f).port = r.port := rfl
@[simp] theorem Run.onLight_ctl (r : Run) (l : Nat) (f : LightRt → LightRt) : (r.onLight l f).ctl = r.ctl := rfl

@[simp] theorem Run.setDev_lv (r : Run) (d : Nat) (x : DevState) : (r.setDev d x).lv = r.lv := rfl
@[simp] theorem Run.setDev_mix (r : Run) (d : Nat) (x : DevState) : (r.setDev d x).mix = r.mix := rfl
@[simp] theorem Run.setDev_latch (r : Run) (d : Nat) (x : DevState) : (r.setDev d x).latch = r.latch := rfl
@[simp] theorem Run.setDev_cue (r : Run) (d : Nat) (x : DevState) : (r.setDev d x).cue = r.cue := rfl
@[simp] theorem Run.setDev_waits (r : Run) (d : Nat) (x : DevState) : (r.setDev d x).waits = r.waits := rfl
@[simp] theorem Run.setDev_voices (r : Run) (d : Nat) (x : DevState) : (r.setDev d x).voices = r.voices := rfl
@[simp] theorem Run.setDev_flash (r : Run) (d : Nat) (x : DevState) : (r.setDev d x).flash = { r.flash with devs := r.flash.devs.set d x } := rfl
@[simp] theorem Run.setDev_page (r : Run) (d : Nat) (x : DevState) : (r.setDev d x).page = r.page := rfl
@[simp] theorem Run.setDev_shw (r : Run) (d : Nat) (x : DevState) : (r.setDev d x).shw = r.shw := rfl
@[simp] theorem Run.setDev_stage (r : Run) (d : Nat) (x : DevState) : (r.setDev d x).stage = r.stage := rfl
@[simp] theorem Run.setDev_port (r : Run) (d : Nat) (x : DevState) : (r.setDev d x).port = r.port := rfl
@[simp] theorem Run.setDev_ctl (r : Run) (d : Nat) (x : DevState) : (r.setDev d x).ctl = r.ctl := rfl

@[simp] theorem Part.withCtl_lv (p : Part) (c : Control) : (p.withCtl c).lv = p.lv := rfl
@[simp] theorem Part.withCtl_mix (p : Part) (c : Control) : (p.withCtl c).mix = p.mix := rfl
@[simp] theorem Part.withCtl_latch (p : Part) (c : Control) : (p.withCtl c).latch = p.latch := rfl
@[simp] theorem Part.withCtl_cue (p : Part) (c : Control) : (p.withCtl c).cue = p.cue := rfl
@[simp] theorem Part.withCtl_waits (p : Part) (c : Control) : (p.withCtl c).waits = p.waits := rfl
@[simp] theorem Part.withCtl_voices (p : Part) (c : Control) : (p.withCtl c).voices = p.voices := rfl
@[simp] theorem Part.withCtl_flash (p : Part) (c : Control) : (p.withCtl c).flash = p.flash := rfl
@[simp] theorem Part.withCtl_page (p : Part) (c : Control) : (p.withCtl c).page = p.page := rfl
@[simp] theorem Part.withCtl_shw (p : Part) (c : Control) : (p.withCtl c).shw = p.shw := rfl
@[simp] theorem Part.withCtl_stage (p : Part) (c : Control) : (p.withCtl c).stage = p.stage := rfl
@[simp] theorem Part.withCtl_port (p : Part) (c : Control) : (p.withCtl c).port = p.port := rfl
@[simp] theorem Part.withCtl_ctl (p : Part) (c : Control) : (p.withCtl c).ctl = c := rfl
@[simp] theorem Part.withCtl_tables (p : Part) (c : Control) : (p.withCtl c).tables = p.tables := rfl
@[simp] theorem Part.withTables_tables (p : Part) (t : Tables) : (p.withTables t).tables = t := rfl
@[simp] theorem Part.withTables_toRun (p : Part) (t : Tables) : (p.withTables t).toRun = p.toRun := rfl
@[simp] theorem Part.withCues_tables (p : Part) (l : List Cue) : (p.withCues l).tables = { p.tables with cues := l } := rfl
@[simp] theorem Part.withCues_toRun (p : Part) (l : List Cue) : (p.withCues l).toRun = p.toRun := rfl
@[simp] theorem Part.onRun_tables (f : Tables → Run → Run) (p : Part) : (p.onRun f).tables = p.tables := rfl
@[simp] theorem Part.onRun_toRun (f : Tables → Run → Run) (p : Part) : (p.onRun f).toRun = f p.tables p.toRun := rfl

@[simp] theorem State.onPart_toPart (s : State) (f : Part → Part) : (s.onPart f).toPart = f s.toPart := rfl
@[simp] theorem State.onPart_flash0 (s : State) (f : Part → Part) : (s.onPart f).flash0 = s.flash0 := rfl
@[simp] theorem State.onPart_flash1 (s : State) (f : Part → Part) : (s.onPart f).flash1 = s.flash1 := rfl
@[simp] theorem State.onPart_serial (s : State) (f : Part → Part) : (s.onPart f).serial = s.serial := rfl
@[simp] theorem State.onPart_pending (s : State) (f : Part → Part) : (s.onPart f).pending = s.pending := rfl

@[simp] theorem State.onRun_toPart (s : State) (f : Tables → Run → Run) : (s.onRun f).toPart = s.toPart.onRun f := rfl
@[simp] theorem State.onRun_flash0 (s : State) (f : Tables → Run → Run) : (s.onRun f).flash0 = s.flash0 := rfl
@[simp] theorem State.onRun_flash1 (s : State) (f : Tables → Run → Run) : (s.onRun f).flash1 = s.flash1 := rfl
@[simp] theorem State.onRun_serial (s : State) (f : Tables → Run → Run) : (s.onRun f).serial = s.serial := rfl
@[simp] theorem State.onRun_pending (s : State) (f : Tables → Run → Run) : (s.onRun f).pending = s.pending := rfl

@[simp] theorem State.event_toPart (s : State) (f : Tables → Run → Run) : (s.event f).toPart = s.toPart.onRun (fun t r => onArrival (f t) r) := rfl
@[simp] theorem State.event_flash0 (s : State) (f : Tables → Run → Run) : (s.event f).flash0 = s.flash0 := rfl
@[simp] theorem State.event_flash1 (s : State) (f : Tables → Run → Run) : (s.event f).flash1 = s.flash1 := rfl
@[simp] theorem State.event_serial (s : State) (f : Tables → Run → Run) : (s.event f).serial = s.serial := rfl
@[simp] theorem State.event_pending (s : State) (f : Tables → Run → Run) : (s.event f).pending = s.pending := rfl

@[simp] theorem State.request_toPart (s : State) (k : ReqKind) (own : Owner) (m : Msg) : (s.request k own m).toPart = takeRequest k own m s.toPart := rfl
@[simp] theorem State.request_flash0 (s : State) (k : ReqKind) (own : Owner) (m : Msg) : (s.request k own m).flash0 = s.flash0 := rfl
@[simp] theorem State.request_flash1 (s : State) (k : ReqKind) (own : Owner) (m : Msg) : (s.request k own m).flash1 = s.flash1 := rfl
@[simp] theorem State.request_serial (s : State) (k : ReqKind) (own : Owner) (m : Msg) : (s.request k own m).serial = s.serial := rfl
@[simp] theorem State.request_pending (s : State) (k : ReqKind) (own : Owner) (m : Msg) : (s.request k own m).pending = s.pending := rfl

/-- Changing a device's contents leaves the part, the serial number and the queue. -/
@[simp] theorem State.onMem_toPart (s : State) (d : Nat) (f : List Host.Cell → List Host.Cell) :
    (s.onMem d f).toPart = s.toPart := by unfold State.onMem; split <;> rfl
@[simp] theorem State.onMem_pending (s : State) (d : Nat) (f : List Host.Cell → List Host.Cell) :
    (s.onMem d f).pending = s.pending := by unfold State.onMem; split <;> rfl
@[simp] theorem State.onMem_serial (s : State) (d : Nat) (f : List Host.Cell → List Host.Cell) :
    (s.onMem d f).serial = s.serial := by unfold State.onMem; split <;> rfl
@[simp] theorem State.onMem_zero (s : State) (f : List Host.Cell → List Host.Cell) :
    s.onMem 0 f = { s with flash0 := f s.flash0 } := rfl
@[simp] theorem State.onMem_one (s : State) (f : List Host.Cell → List Host.Cell) :
    s.onMem 1 f = { s with flash1 := f s.flash1 } := rfl

end Sys2Proof.Machine
end

