-- ==== Sys2Proof/Laws/Frames.lean ====
section
/-! SUPPORT. What the operations of the page engine, the voice bank and the fetch side of the flash
controller leave as it stands: one lemma per operation. `Frame` says it once. -/

namespace Sys2Proof.Machine

open Sys2Proof

/-- Only reports were given: the reply queue, the taking of requests and a due RESTART stand, the reports
queued stand in front, and the queue's limit is kept (R193). -/
structure CtlFrame (c c' : Control) : Prop where
  places     : c'.places = c.places
  taking     : c'.taking = c.taking
  restartDue : c'.restartDue = c.restartDue
  reports    : c.reports <+: c'.reports
  bound      : c.reports.length ≤ 32 → c'.reports.length ≤ 32

theorem CtlFrame.refl (c : Control) : CtlFrame c c := ⟨rfl, rfl, rfl, List.prefix_refl _, id⟩

theorem CtlFrame.trans {a b c : Control} (h : CtlFrame a b) (k : CtlFrame b c) : CtlFrame a c :=
  ⟨k.places.trans h.places, k.taking.trans h.taking, k.restartDue.trans h.restartDue, h.reports.trans k.reports,
   fun x => k.bound (h.bound x)⟩

/-- What a sound, relay or fetch operation leaves as it stands. -/
structure Frame (r r' : Run) : Prop where
  crosspoints : r'.lv.crosspoints = r.lv.crosspoints
  masters     : r'.lv.masters = r.lv.masters
  trims       : r'.lv.trims = r.lv.trims
  programmes  : r'.lv.programmes = r.lv.programmes
  mix         : r'.mix = r.mix
  latch       : r'.latch = r.latch
  cue         : r'.cue = r.cue
  waits       : r'.waits = r.waits
  shw         : r'.shw = r.shw
  stage       : r'.stage = r.stage
  port        : r'.port = r.port
  devs        : r'.flash.devs = r.flash.devs
  image       : r'.flash.imageReport = r.flash.imageReport
  op          : r'.flash.op.map Op.rest = r.flash.op.map Op.rest
  ctl         : CtlFrame r.ctl r'.ctl

theorem Frame.refl (r : Run) : Frame r r :=
  ⟨rfl, rfl, rfl, rfl, rfl, rfl, rfl, rfl, rfl, rfl, rfl, rfl, rfl, rfl, CtlFrame.refl _⟩

theorem Frame.trans {a b c : Run} (h : Frame a b) (k : Frame b c) : Frame a c :=
  ⟨k.crosspoints.trans h.crosspoints, k.masters.trans h.masters, k.trims.trans h.trims,
   k.programmes.trans h.programmes, k.mix.trans h.mix, k.latch.trans h.latch, k.cue.trans h.cue,
   k.waits.trans h.waits, k.shw.trans h.shw, k.stage.trans h.stage, k.port.trans h.port, k.devs.trans h.devs,
   k.image.trans h.image, k.op.trans h.op, h.ctl.trans k.ctl⟩

theorem Frame.foldl {α : Type} (f : Run → α → Run) (h : ∀ r a, Frame r (f r a)) (l : List α) :
    ∀ r, Frame r (l.foldl f r) := by
  induction l with
  | nil => exact fun r => Frame.refl r
  | cons a rest ih => exact fun r => (h r a).trans (ih (f r a))

theorem Frame.forEach {n : Nat} {f : Nat → Run → Run} (h : ∀ i r, Frame r (f i r)) (r : Run) :
    Frame r (forEach n f r) := Frame.foldl (fun x i => f i x) (fun x i => h i x) _ r

theorem Frame.ite {r a b : Run} {p : Prop} [Decidable p] (h : p → Frame r a) (k : ¬p → Frame r b) :
    Frame r (if p then a else b) := by
  split
  · exact h ‹_›
  · exact k ‹_›

/-! ### The plain updates -/

theorem Frame.onVoice (r : Run) (v : Nat) (f : Voice → Voice) : Frame r (r.onVoice v f) :=
  ⟨rfl, rfl, rfl, rfl, rfl, rfl, rfl, rfl, rfl, rfl, rfl, rfl, rfl, rfl, CtlFrame.refl _⟩

theorem Frame.withPage (r : Run) (x : PageRt) : Frame r { r with page := x } :=
  ⟨rfl, rfl, rfl, rfl, rfl, rfl, rfl, rfl, rfl, rfl, rfl, rfl, rfl, rfl, CtlFrame.refl _⟩

theorem Frame.onZone (r : Run) (z : Nat) (f : ZoneRt → ZoneRt) : Frame r (r.onZone z f) := Frame.withPage r _

theorem Frame.onSrc (r : Run) (k : Nat) (f : SrcRt → SrcRt) : Frame r (r.onSrc k f) := Frame.withPage r _

theorem Frame.queues (r : Run) (q : List Fetch) (l : List Nat) (b : Option Xfer) :
    Frame r { r with flash := { r.flash with queue := q, line := l, bus := b } } :=
  ⟨rfl, rfl, rfl, rfl, rfl, rfl, rfl, rfl, rfl, rfl, rfl, rfl, rfl, rfl, CtlFrame.refl _⟩

theorem Frame.faders (r : Run) (l : List Level) : Frame r { r with lv := { r.lv with faders := l } } :=
  ⟨rfl, rfl, rfl, rfl, rfl, rfl, rfl, rfl, rfl, rfl, rfl, rfl, rfl, rfl, CtlFrame.refl _⟩

theorem Frame.ducks (r : Run) (l : List Level) : Frame r { r with lv := { r.lv with ducks := l } } :=
  ⟨rfl, rfl, rfl, rfl, rfl, rfl, rfl, rfl, rfl, rfl, rfl, rfl, rfl, rfl, CtlFrame.refl _⟩

/-- Giving a report (R193): the queue takes it at its back, or drops it. -/
theorem CtlFrame.reportAt (t : Tables) (n : Nat) (b : ReportBody) (r : Run) :
    CtlFrame r.ctl (r.reportAt t n b).ctl := by
  unfold Run.reportAt
  split
  · exact CtlFrame.refl _
  · split
    · exact ⟨rfl, rfl, rfl, List.prefix_refl _, id⟩
    · refine ⟨rfl, rfl, rfl, List.prefix_append _ _, fun _ => ?_⟩
      simp only [List.length_append, List.length_singleton]
      omega

/-- Giving a report changes nothing but the control block. -/
theorem Run.reportAt_eq (t : Tables) (n : Nat) (b : ReportBody) (r : Run) :
    r.reportAt t n b = { r with ctl := (r.reportAt t n b).ctl } := by
  unfold Run.reportAt
  split
  · rfl
  · split <;> rfl

theorem Frame.withCtl (r : Run) {c : Control} (h : CtlFrame r.ctl c) : Frame r { r with ctl := c } :=
  ⟨rfl, rfl, rfl, rfl, rfl, rfl, rfl, rfl, rfl, rfl, rfl, rfl, rfl, rfl, h⟩

theorem Frame.reportAt (t : Tables) (n : Nat) (b : ReportBody) (r : Run) : Frame r (r.reportAt t n b) := by
  rw [Run.reportAt_eq]
  exact Frame.withCtl r (CtlFrame.reportAt t n b r)

theorem Frame.report (t : Tables) (b : ReportBody) (r : Run) : Frame r (r.report t b) := Frame.reportAt t _ b r

/-! ### The page engine (chapter 8) -/

theorem Frame.writeDuckLevel (z code ms : Nat) (r : Run) : Frame r (r.writeLevel (.duck z) code ms) := by
  unfold Run.writeLevel
  split
  · exact Frame.ducks r _
  · exact Frame.refl r

theorem Frame.duckNotice (z : Nat) (r : Run) : Frame r (duckNotice z r) := by
  unfold Machine.duckNotice
  exact Frame.ite (fun _ => Frame.onZone r z _) (fun _ => Frame.refl r)

theorem Frame.writeDuck (z code ms : Nat) (r : Run) : Frame r (writeDuck z code ms r) := by
  unfold Machine.writeDuck
  exact Frame.ite (fun _ => (Frame.writeDuckLevel z code ms r).trans (Frame.duckNotice z _))
    (fun _ => Frame.writeDuckLevel z code ms r)

theorem Frame.endHold (t : Tables) (z : Nat) (r : Run) : Frame r (endHold t z r) :=
  (Frame.onZone r z _).trans (Frame.writeDuck z _ _ _)

theorem Frame.changeAir (t : Tables) (z : Nat) (new : Option Nat) (r : Run) : Frame r (changeAir t z new r) := by
  unfold Machine.changeAir
  cases new with
  | none =>
    have h := (Frame.onZone r z (fun _ =>
      { state := .hold, holdEnd := some (r.port.now + frames (zoneRec t z).hold), onAir := none })).trans
      (Frame.report t (.zone z (r.zone z).onAir none .hold) _)
    exact Frame.ite (fun _ => h.trans (Frame.endHold t z _)) (fun _ => h)
  | some k =>
    have h := (Frame.onZone r z (fun _ => { state := .ducked, holdEnd := none, onAir := some k })).trans
      (Frame.report t (.zone z (r.zone z).onAir (some k) .ducked) _)
    exact Frame.ite (fun _ => h.trans (Frame.writeDuck z _ _ _)) (fun _ => h)

theorem Frame.arbitrateZone (t : Tables) (z : Nat) (r : Run) : Frame r (arbitrateZone t z r) := by
  unfold Machine.arbitrateZone
  exact Frame.ite (fun _ => Frame.refl r) (fun _ => Frame.changeAir t z _ r)

theorem Frame.arbitrate (t : Tables) (r : Run) : Frame r (arbitrate t r) := Frame.forEach (Frame.arbitrateZone t) r

theorem Frame.withdraw (k : Nat) (r : Run) : Frame r (withdraw k r) := by
  unfold Machine.withdraw
  split
  · exact (Frame.onVoice r _ _).trans (Frame.onSrc _ k _)
  · exact Frame.onSrc r k _

theorem Frame.withdrawWhere (cond : Nat → Bool) (r : Run) : Frame r (withdrawWhere cond r) :=
  Frame.forEach (fun k _ => Frame.ite (fun _ => Frame.withdraw k _) (fun _ => Frame.refl _)) r

theorem Frame.pageVoiceIdle (t : Tables) (v : Nat) (b : Option Nat) (r : Run) : Frame r (pageVoiceIdle t v b r) :=
  (Frame.withdrawWhere _ r).trans (Frame.arbitrate t _)

theorem Frame.dropSource (t : Tables) (k : Nat) (r : Run) : Frame r (dropSource t k r) :=
  (Frame.withdraw k r).trans (Frame.arbitrate t _)

theorem Frame.pageVoiceCut (t : Tables) (b : Option Nat) (r : Run) : Frame r (pageVoiceCut t b r) := by
  unfold Machine.pageVoiceCut
  split
  · exact Frame.dropSource t _ r
  · exact Frame.refl r

theorem Frame.raise (t : Tables) (k : Nat) (r : Run) : Frame r (Machine.arbitrate t (setRequested k r)) :=
  (Frame.onSrc r k _).trans (Frame.arbitrate t _)

theorem Frame.raiseSource (t : Tables) (o : RaiseFrom) (k : Nat) (r : Run) : Frame r (raiseSource t o k r) := by
  unfold Machine.raiseSource
  exact Frame.ite (fun _ => Frame.report t _ r)
    (fun _ => Frame.ite (fun _ => Frame.report t _ r) (fun _ => Frame.raise t k r))

theorem Frame.raiseBound (t : Tables) (k v : Nat) (r : Run) : Frame r (raiseBound t k v r) := by
  unfold Machine.raiseBound
  refine Frame.ite (fun _ => Frame.report t _ r) (fun _ => Frame.ite (fun _ => Frame.report t _ r)
    (fun _ => Frame.ite (fun _ => Frame.report t _ r) (fun _ => ?_)))
  have h : Frame r (match (r.voice v).bound with
      | some o => if o = k then r else r.onSrc o (fun x => { x with bound := none })
      | none => r) := by
    split
    · exact Frame.ite (fun _ => Frame.refl r) (fun _ => Frame.onSrc r _ _)
    · exact Frame.refl r
  exact ((h.trans (Frame.onSrc _ k _)).trans (Frame.onVoice _ v _)).trans (Frame.arbitrate t _)

theorem Frame.raiseStopPage (t : Tables) (r : Run) : Frame r (raiseStopPage t r) := by
  unfold Machine.raiseStopPage
  split
  · exact (Frame.withPage r _).trans (Frame.arbitrate t _)
  · exact Frame.refl r

theorem Frame.dropStopPage (t : Tables) (r : Run) : Frame r (dropStopPage t r) := by
  unfold Machine.dropStopPage
  split
  · exact (Frame.withPage r _).trans (Frame.arbitrate t _)
  · exact Frame.refl r

/-! ### The voice bank and the fetches (chapters 6 and 7.2) -/

theorem Frame.withdrawFetches (v : Nat) (r : Run) : Frame r (withdrawFetches v r) :=
  (Frame.queues r (r.flash.queue.filter (fun f => f.voice ≠ v)) (r.flash.line.filter (fun w => w ≠ v))
    (discardOnBus v r.flash.bus)).trans (Frame.onVoice _ v _)

theorem Frame.syncCheck (g : Nat) (r : Run) : Frame r (syncCheck g r) := by
  unfold Machine.syncCheck
  exact Frame.ite (fun _ => Frame.refl r)
    (fun _ => Frame.ite (fun _ => Frame.foldl _ (fun x v => Frame.onVoice x v _) _ r) (fun _ => Frame.refl r))

theorem Frame.leaveGroup (g : Option Nat) (r : Run) : Frame r (leaveGroup g r) := by
  unfold Machine.leaveGroup
  split
  · exact Frame.syncCheck _ r
  · exact Frame.refl r

theorem Frame.goIdle (t : Tables) (v : Nat) (why : VReason) (r : Run) : Frame r (goIdle t v why r) := by
  unfold Machine.goIdle
  refine Frame.ite (fun _ => Frame.refl r) (fun _ => ?_)
  have h := (((Frame.withdrawFetches v r).trans (Frame.onVoice _ v Voice.toIdle)).trans
    (Frame.leaveGroup (r.voice v).tag _)).trans (Frame.pageVoiceIdle t v (r.voice v).bound _)
  exact Frame.ite (fun _ => h.trans (Frame.report t _ _)) (fun _ => h)

theorem Frame.endCheck (t : Tables) (v : Nat) (r : Run) : Frame r (endCheck t v r) := by
  unfold Machine.endCheck
  exact Frame.ite (fun _ => Frame.goIdle t v _ r) (fun _ => Frame.refl r)

theorem Frame.makeRefill (t : Tables) (v : Nat) (r : Run) : Frame r (makeRefill t v r) := by
  unfold Machine.makeRefill
  split
  · exact Frame.refl r
  · split
    · exact Frame.onVoice r v _
    · have h := fun q => Frame.queues r q r.flash.line r.flash.bus
      dsimp only
      split
      · exact (h _).trans (Frame.onVoice _ v _)
      · exact ((h _).trans (Frame.onVoice _ v _)).trans (Frame.goIdle t v _ _)

theorem Frame.askRefill (t : Tables) (v : Nat) (r : Run) : Frame r (askRefill t v r) := by
  unfold Machine.askRefill
  exact Frame.ite (fun _ => Frame.makeRefill t v r)
    (fun _ => (Frame.queues r r.flash.queue _ r.flash.bus).trans (Frame.onVoice _ v _))

theorem dueStep_op {t : Tables} {r : Run} {o : Op} {x : Xfer} (h : dueStep t r = some (o, x)) :
    r.flash.op = some o := by
  unfold dueStep at h
  split at h
  · split at h
    · rw [Option.map_eq_some_iff] at h
      obtain ⟨_, _, e⟩ := h
      cases e
      assumption
    · cases h
  · cases h

theorem Frame.arbiterStart {t : Tables} {r r' : Run} (h : arbiterStart t r = some r') : Frame r r' := by
  unfold Machine.arbiterStart at h
  split at h
  · cases h
  · split at h
    · rename_i o x hd
      have ho := dueStep_op hd
      cases h
      exact ⟨rfl, rfl, rfl, rfl, rfl, rfl, rfl, rfl, rfl, rfl, rfl, rfl, rfl, by simp [ho, Op.rest], CtlFrame.refl _⟩
    · split at h
      · cases h
        exact Frame.queues r _ r.flash.line _
      · cases h

theorem Frame.pumpOnce {t : Tables} {r r' : Run} (h : pumpOnce t r = some r') : Frame r r' := by
  unfold Machine.pumpOnce at h
  split at h
  · cases h
    exact ((Frame.queues r r.flash.queue _ r.flash.bus).trans (Frame.onVoice _ _ _)).trans (Frame.makeRefill t _ _)
  · split at h
    · cases h
      exact Frame.askRefill t _ r
    · exact Frame.arbiterStart h

theorem Frame.pumpLoop (t : Tables) (n : Nat) : ∀ r, Frame r (pumpLoop t n r) := by
  induction n with
  | zero => exact fun r => Frame.refl r
  | succ n ih =>
    intro r
    unfold Machine.pumpLoop
    split
    · exact (Frame.pumpOnce ‹_›).trans (ih _)
    · exact Frame.refl r

theorem Frame.pump (t : Tables) (r : Run) : Frame r (pump t r) := Frame.pumpLoop t 64 r

theorem Frame.faderNotice (t : Tables) (v : Nat) (r : Run) : Frame r (faderNotice t v r) := by
  unfold Machine.faderNotice
  exact Frame.ite (fun _ => Frame.ite (fun _ => Frame.goIdle t v _ r) (fun _ => Frame.onVoice r v _))
    (fun _ => Frame.refl r)

theorem Frame.completeFader (t : Tables) (v : Nat) (r : Run) : Frame r (completeFader t v r) := by
  unfold Machine.completeFader
  exact Frame.ite (fun _ => (Frame.faders r _).trans (Frame.faderNotice t v _)) (fun _ => Frame.refl r)

theorem Frame.writeFaderLevel (v code ms : Nat) (r : Run) : Frame r (r.writeLevel (.fader v) code ms) := by
  unfold Run.writeLevel
  split
  · exact Frame.faders r _
  · exact Frame.refl r

theorem Frame.writeFader (t : Tables) (v code ms : Nat) (r : Run) : Frame r (writeFader t v code ms r) := by
  unfold Machine.writeFader
  have h := (Frame.completeFader t v r).trans (Frame.writeFaderLevel v code ms _)
  exact Frame.ite (fun _ => h.trans (Frame.faderNotice t v _)) (fun _ => h)

theorem Frame.cutVoice (t : Tables) (v : Nat) (r : Run) : Frame r (cutVoice t v r) := by
  unfold Machine.cutVoice
  have h : Frame r (if (r.voice v).state = .playing ∨ (r.voice v).state = .stopping then
      r.report t (.voice v .stolen (r.voice v).startId) else r) :=
    Frame.ite (fun _ => Frame.report t _ r) (fun _ => Frame.refl r)
  exact (((h.trans (Frame.withdrawFetches v _)).trans (Frame.onVoice _ v _)).trans (Frame.leaveGroup _ _)).trans
    (Frame.pageVoiceCut t _ _)

theorem Frame.startIdle (t : Tables) (v head code : Nat) (id : Ident) (g : Option Nat) (r : Run) :
    Frame r (startIdle t v head code id g r) := by
  unfold Machine.startIdle
  split
  · exact Frame.report t _ r
  · exact Frame.ite (fun _ => Frame.report t _ r) (fun _ => (Frame.onVoice r v _).trans (Frame.writeFader t v _ _ _))

theorem Frame.startCut (t : Tables) (v head code : Nat) (id : Ident) (g : Option Nat) (r : Run) :
    Frame r (startCut t v head code id g r) := by
  refine ((Frame.cutVoice t v r).trans ?_).trans (Frame.startIdle t v head code id g _)
  exact Frame.ite (fun _ => Frame.refl _) (fun _ => Frame.pageVoiceIdle t v none _)

theorem Frame.startVoice (t : Tables) (v head code : Nat) (id : Ident) (g : Option Nat) (r : Run) :
    Frame r (startVoice t v head code id g r) := by
  refine Frame.trans (Frame.ite (fun _ => ?_) (fun _ => Frame.ite (fun _ => ?_) (fun _ => ?_))) (Frame.pump t _)
  · exact (Frame.onVoice r v _).trans (Frame.writeFader t v _ _ _)
  · exact Frame.startIdle t v head code id g r
  · exact Frame.startCut t v head code id g r

theorem Frame.primeVoice (t : Tables) (v head cue place : Nat) (r : Run) :
    Frame r (primeVoice t v head cue place r) := by
  unfold Machine.primeVoice
  split
  · exact Frame.refl r
  · exact Frame.ite (fun _ => (Frame.onVoice r v _).trans (Frame.pump t _)) (fun _ => Frame.refl r)

theorem Frame.unprime (t : Tables) (cue : Nat) (r : Run) : Frame r (unprime t cue r) :=
  (Frame.forEach (fun v _ => Frame.ite (fun _ => Frame.goIdle t v _ _) (fun _ => Frame.refl _)) r).trans (Frame.pump t _)

theorem Frame.fadeOut (t : Tables) (v ms : Nat) (why : VReason) (r : Run) : Frame r (fadeOut t v ms why r) := by
  unfold Machine.fadeOut
  exact Frame.ite (fun _ => Frame.goIdle t v why r) (fun _ => (Frame.completeFader t v r).trans
    (Frame.ite (fun _ => Frame.refl _) (fun _ => (Frame.onVoice _ v _).trans (Frame.writeFader t v _ _ _))))

theorem Frame.stopVoice (t : Tables) (v ms : Nat) (r : Run) : Frame r (stopVoice t v ms r) := by
  refine Frame.trans ?_ (Frame.pump t _)
  split
  · exact Frame.refl r
  · exact Frame.goIdle t v _ r
  · exact Frame.goIdle t v _ r
  · exact Frame.fadeOut t v ms _ r
  · exact Frame.fadeOut t v ms _ r

theorem Frame.releaseVoice (v : Nat) (r : Run) : Frame r (releaseVoice v r) := by
  unfold Machine.releaseVoice
  exact Frame.ite (fun _ => Frame.onVoice r v _) (fun _ => Frame.refl r)

theorem Frame.stopAllVoices (t : Tables) (r : Run) : Frame r (stopAllVoices t r) :=
  (Frame.forEach (fun v _ => Frame.goIdle t v _ _) r).trans (Frame.pump t _)

theorem Frame.showStopVoices (t : Tables) (r : Run) : Frame r (showStopVoices t r) := by
  refine Frame.trans (Frame.forEach (fun v x => ?_) r) (Frame.pump t _)
  split
  · exact Frame.refl x
  · exact Frame.refl x
  · exact Frame.goIdle t v _ x
  · exact Frame.goIdle t v _ x
  · exact Frame.fadeOut t v _ _ x

theorem Frame.faultVoices (t : Tables) (d : Nat) (r : Run) : Frame r (faultVoices t d r) :=
  (Frame.forEach (fun v _ => Frame.ite (fun _ => Frame.goIdle t v _ _) (fun _ => Frame.refl _)) r).trans (Frame.pump t _)

theorem Frame.readyCheck (v : Nat) (r : Run) : Frame r (readyCheck v r) := by
  unfold Machine.readyCheck
  exact Frame.ite (fun _ => Frame.onVoice r v _) (fun _ => Frame.refl r)

theorem Frame.takeSamples (t : Tables) (v : Nat) (s : List BufSample) (r : Run) : Frame r (takeSamples t v s r) :=
  (((Frame.onVoice r v _).trans (Frame.readyCheck v _)).trans (Frame.leaveGroup _ _)).trans (Frame.endCheck t v _)

theorem Frame.playVoice (t : Tables) (v : Nat) (r : Run) : Frame r (playVoice t v r).1 := by
  unfold Machine.playVoice
  dsimp only
  split
  · split
    · exact (Frame.onVoice r v _).trans (Frame.endCheck t v _)
    · split
      · exact Frame.refl r
      · dsimp only
        exact Frame.ite (fun _ => (Frame.onVoice r v _).trans (Frame.report t _ _)) (fun _ => Frame.onVoice r v _)
  · exact Frame.refl r

theorem Frame.playAll (t : Tables) (r : Run) : Frame r (playAll t r).run := by
  have h : ∀ (l : List Nat) (p : Played), Frame p.run (l.foldl (playStep t) p).run := by
    intro l
    induction l with
    | nil => exact fun p => Frame.refl _
    | cons v rest ih => exact fun p => (Frame.playVoice t v p.run).trans (ih (playStep t p v))
  exact h (List.range 16) { run := r, out := [] }

theorem Frame.starve (t : Tables) (v : Nat) (r : Run) : Frame r (starve t v r) := by
  unfold Machine.starve
  exact Frame.ite (fun _ => (Frame.goIdle t v _ r).trans (Frame.pump t _)) (fun _ => Frame.refl r)

theorem Frame.expireHold (t : Tables) (z : Nat) (r : Run) : Frame r (expireHold t z r) := by
  unfold Machine.expireHold
  split
  · exact Frame.ite (fun _ => Frame.endHold t z r) (fun _ => Frame.refl r)
  · exact Frame.refl r

end Sys2Proof.Machine
end

