-- ==== Sys2Proof/Laws/CueFrames.lean ====
section
/-! SUPPORT. What the operations of the cue engine, the wait list, the scene store, the lights and show
control leave as it stands: one lemma per operation. -/

namespace Sys2Proof.Machine

open Sys2Proof

/-- What a cue, wait, light, recall or show operation leaves as it stands; the wait list keeps its limit. -/
structure CueFrame (r r' : Run) : Prop where
  mix   : r'.mix = r.mix
  port  : r'.port = r.port
  devs  : r'.flash.devs = r.flash.devs
  image : r'.flash.imageReport = r.flash.imageReport
  op    : r'.flash.op.map Op.rest = r.flash.op.map Op.rest
  ctl   : CtlFrame r.ctl r'.ctl
  waits : r.waits.length ≤ 32 → r'.waits.length ≤ 32

theorem CueFrame.refl (r : Run) : CueFrame r r := ⟨rfl, rfl, rfl, rfl, rfl, CtlFrame.refl _, id⟩

theorem CueFrame.trans {a b c : Run} (h : CueFrame a b) (k : CueFrame b c) : CueFrame a c :=
  ⟨k.mix.trans h.mix, k.port.trans h.port, k.devs.trans h.devs, k.image.trans h.image, k.op.trans h.op,
   h.ctl.trans k.ctl, fun x => k.waits (h.waits x)⟩

theorem Frame.cueFrame {r r' : Run} (h : Frame r r') : CueFrame r r' :=
  ⟨h.mix, h.port, h.devs, h.image, h.op, h.ctl, fun x => by rw [h.waits]; exact x⟩

theorem CueFrame.ite {r a b : Run} {p : Prop} [Decidable p] (h : p → CueFrame r a) (k : ¬p → CueFrame r b) :
    CueFrame r (if p then a else b) := by
  split
  · exact h ‹_›
  · exact k ‹_›

theorem CueFrame.foldl {α : Type} (f : Run → α → Run) (h : ∀ r a, CueFrame r (f r a)) (l : List α) :
    ∀ r, CueFrame r (l.foldl f r) := by
  induction l with
  | nil => exact fun r => CueFrame.refl r
  | cons a rest ih => exact fun r => (h r a).trans (ih (f r a))

theorem CueFrame.forEach {n : Nat} {f : Nat → Run → Run} (h : ∀ i r, CueFrame r (f i r)) (r : Run) :
    CueFrame r (forEach n f r) := CueFrame.foldl (fun x i => f i x) (fun x i => h i x) _ r

theorem CueFrame.report (t : Tables) (b : ReportBody) (r : Run) : CueFrame r (r.report t b) :=
  (Frame.report t b r).cueFrame

theorem CueFrame.withCue (r : Run) (x : CueRt) : CueFrame r { r with cue := x } :=
  ⟨rfl, rfl, rfl, rfl, rfl, CtlFrame.refl _, id⟩
theorem CueFrame.withStage (r : Run) (x : StageRt) : CueFrame r { r with stage := x } :=
  ⟨rfl, rfl, rfl, rfl, rfl, CtlFrame.refl _, id⟩
theorem CueFrame.withShow (r : Run) (x : ShowRt) : CueFrame r { r with shw := x } :=
  ⟨rfl, rfl, rfl, rfl, rfl, CtlFrame.refl _, id⟩
theorem CueFrame.withLatch (r : Run) (x : List (LevelRef × Nat)) : CueFrame r { r with latch := x } :=
  ⟨rfl, rfl, rfl, rfl, rfl, CtlFrame.refl _, id⟩
theorem CueFrame.withLevels (r : Run) (x : Levels) : CueFrame r { r with lv := x } :=
  ⟨rfl, rfl, rfl, rfl, rfl, CtlFrame.refl _, id⟩
theorem CueFrame.withWaits (r : Run) {x : List Wait} (h : r.waits.length ≤ 32 → x.length ≤ 32) :
    CueFrame r { r with waits := x } := ⟨rfl, rfl, rfl, rfl, rfl, CtlFrame.refl _, h⟩

/-! ### Levels and scenes -/

theorem CueFrame.writeLevel (ref : LevelRef) (code ms : Nat) (r : Run) : CueFrame r (r.writeLevel ref code ms) := by
  unfold Run.writeLevel
  split
  · exact CueFrame.withLevels r _
  · exact CueFrame.refl r

theorem CueFrame.writeAny (t : Tables) (ref : LevelRef) (code ms : Nat) (r : Run) :
    CueFrame r (writeAny t ref code ms r) := by
  unfold Machine.writeAny
  split
  · exact ((Frame.writeFader t _ code ms r).trans (Frame.pump t _)).cueFrame
  · exact CueFrame.refl r
  · exact CueFrame.writeLevel _ code ms r

theorem CueFrame.completeLevel (t : Tables) (ref : LevelRef) (r : Run) : CueFrame r (completeLevel t ref r) := by
  unfold Machine.completeLevel
  dsimp only
  refine CueFrame.ite (fun _ => ?_) (fun _ => CueFrame.refl r)
  split
  · exact ((Frame.completeFader t _ r).trans (Frame.pump t _)).cueFrame
  · exact (CueFrame.withLevels r _).trans (Frame.duckNotice _ _).cueFrame
  · exact CueFrame.withLevels r _

theorem CueFrame.writeAll (ms : Nat) (ws : List (LevelRef × Nat)) (r : Run) : CueFrame r (writeAll ms ws r) :=
  CueFrame.foldl (fun x (e : LevelRef × Nat) => x.writeLevel e.1 e.2 ms)
    (fun x e => CueFrame.writeLevel e.1 e.2 ms x) ws r

theorem CueFrame.recallScene (t : Tables) (scene : Nat) (mode : RecallMode) (mask : BitVec 24) (ms : Nat) (r : Run) :
    CueFrame r (recallScene t scene mode mask ms r).run := by
  unfold Machine.recallScene
  dsimp only
  split
  · exact CueFrame.refl r
  · exact (CueFrame.withLatch r _).trans (CueFrame.writeAll ms _ _)

theorem CueFrame.restoreLatch (ms : Nat) (r : Run) : CueFrame r (restoreLatch ms r).run :=
  (CueFrame.withLatch r []).trans (CueFrame.writeAll ms _ _)

/-! ### Lights -/

theorem CueFrame.onLight (r : Run) (l : Nat) (f : LightRt → LightRt) : CueFrame r (r.onLight l f) :=
  CueFrame.withStage r _

theorem CueFrame.standbyNotice (t : Tables) (c : Option Cue) (r : Run) : CueFrame r (standbyNotice t c r) := by
  unfold Machine.standbyNotice
  dsimp only
  exact CueFrame.ite (fun _ => CueFrame.withStage r _) (fun _ => (CueFrame.withStage r _).trans
    (CueFrame.forEach (fun l x => CueFrame.ite (fun _ => CueFrame.onLight x l _) (fun _ => CueFrame.refl x)) _))

theorem CueFrame.acknowledgeLight (t : Tables) (l : Nat) (r : Run) : CueFrame r (acknowledgeLight t l r) := by
  unfold Machine.acknowledgeLight
  exact CueFrame.ite (fun _ => (CueFrame.onLight r l _).trans (CueFrame.report t _ _)) (fun _ => CueFrame.refl r)

theorem CueFrame.endGoHold (t : Tables) (l : Nat) (r : Run) : CueFrame r (endGoHold t l r) := by
  unfold Machine.endGoHold
  exact CueFrame.ite (fun _ => CueFrame.onLight r l _) (fun _ => CueFrame.refl r)

theorem CueFrame.stopLights (r : Run) : CueFrame r (stopLights r) :=
  CueFrame.forEach (fun l x => CueFrame.onLight x l _) r

theorem CueFrame.resumeLights (t : Tables) (r : Run) : CueFrame r (resumeLights t r) :=
  CueFrame.forEach (fun l x => CueFrame.ite (fun _ => CueFrame.onLight x l _) (fun _ => CueFrame.refl x)) r

/-! ### Waits -/

theorem placeWait_length (w : Wait) (l : List Wait) : (placeWait w l).length = l.length + 1 := by
  induction l with
  | nil => rfl
  | cons x rest ih =>
    unfold placeWait
    split
    · simp [ih]
    · rfl

theorem dropWait_length (k : WaitKind) (l : List Wait) : (dropWait k l).length ≤ l.length := List.length_filter_le _ _

theorem dropWait_length_lt {k : WaitKind} {l : List Wait} {w : Wait}
    (h : l.find? (fun x => x.what.same k) = some w) : (dropWait k l).length < l.length := by
  have hm := List.mem_of_find?_eq_some h
  have hs := List.find?_some h
  unfold dropWait
  refine List.length_filter_lt_length_iff_exists.mpr ⟨w, hm, ?_⟩
  simpa using hs

/-- What a request to enter can do: the list keeps its limit. -/
theorem CueFrame.enterWait (t : Tables) (k : WaitKind) (ms : Nat) (r : Run) : CueFrame r (enterWait t k ms r).run := by
  unfold Machine.enterWait
  dsimp only
  split
  · rename_i old hf
    split
    · refine CueFrame.withWaits r (fun h => ?_)
      rw [placeWait_length]
      have := dropWait_length_lt hf
      omega
    · exact CueFrame.refl r
  · split
    · exact CueFrame.withWaits r (fun _ => by rw [placeWait_length]; omega)
    · exact CueFrame.report t _ r

theorem CueFrame.cancelTimer (id : Nat) (r : Run) : CueFrame r (cancelTimer id r) :=
  CueFrame.withWaits r (fun h => (dropWait_length _ _).trans h)

theorem CueFrame.emptyWaits (r : Run) : CueFrame r (emptyWaits r) := CueFrame.withWaits r (fun _ => Nat.zero_le _)

/-! ### The cue engine -/

theorem CueFrame.primeCue (t : Tables) (c : Option Cue) (r : Run) : CueFrame r (primeCue t c r) := by
  unfold Machine.primeCue
  split
  · exact CueFrame.refl r
  · refine CueFrame.foldl _ (fun x e => ?_) _ r
    show CueFrame x (primeAction t _ (e.2 + 1) e.1 x)
    unfold primeAction
    split
    · exact (Frame.primeVoice t _ _ _ _ x).cueFrame
    · exact CueFrame.refl x

theorem CueFrame.unprimeCue (t : Tables) (c : Option Cue) (r : Run) : CueFrame r (unprimeCue t c r) := by
  unfold Machine.unprimeCue
  split
  · exact CueFrame.refl r
  · exact (Frame.unprime t _ r).cueFrame

theorem CueFrame.recompute (t : Tables) (moved : Bool) (loaded : Option Nat) (r : Run) :
    CueFrame r (recompute t moved loaded r) := by
  unfold Machine.recompute
  dsimp only
  have h := CueFrame.withCue r { r.cue with kept := standbyCue t r, fresh := false }
  refine CueFrame.ite (fun _ => ?_) (fun _ => CueFrame.ite (fun _ => h.trans (CueFrame.report t _ _)) (fun _ => h))
  refine CueFrame.trans ?_ (CueFrame.report t _ _)
  have k := (h.trans (CueFrame.unprimeCue t r.cue.kept _)).trans (CueFrame.standbyNotice t (standbyCue t r) _)
  exact CueFrame.ite (fun _ => k) (fun _ => k.trans (CueFrame.primeCue t _ _))

theorem CueFrame.moveTo (t : Tables) (pos : Nat) (r : Run) : CueFrame r (moveTo t pos r) :=
  (CueFrame.withCue r _).trans (CueFrame.recompute t _ _ _)

theorem CueFrame.stopAll (t : Tables) (r : Run) : CueFrame r (stopAll t r) :=
  (Frame.stopAllVoices t r).cueFrame.trans (CueFrame.emptyWaits _)

theorem CueFrame.runAction (t : Tables) (g cue place : Nat) (a : Action) (r : Run) :
    CueFrame r (runAction t g cue place a r) := by
  unfold Machine.runAction
  split
  · exact (Frame.startVoice t _ _ _ _ _ r).cueFrame
  · exact (Frame.stopVoice t _ _ r).cueFrame
  · exact (Frame.releaseVoice _ r).cueFrame
  · exact CueFrame.writeAny t _ _ _ r
  · exact CueFrame.recallScene t _ _ _ _ r
  · exact CueFrame.restoreLatch _ r
  · exact CueFrame.ite (fun _ => (Frame.raiseSource t _ _ r).cueFrame) (fun _ => (Frame.dropSource t _ r).cueFrame)
  · exact ((Frame.startVoice t _ _ _ _ _ r).trans (Frame.raiseBound t _ _ _)).cueFrame
  · exact CueFrame.onLight r _ _
  · exact CueFrame.enterWait t _ _ r
  · exact CueFrame.cancelTimer _ r
  · exact CueFrame.stopAll t r

theorem CueFrame.runList (t : Tables) (g : Nat) (c : Cue) (r : Run) : CueFrame r (runList t g c r) :=
  CueFrame.foldl (fun x (e : Action × Nat) => Machine.runAction t g c.num (e.2 + 1) e.1 x)
    (fun x e => CueFrame.runAction t g c.num (e.2 + 1) e.1 x) _ r

theorem CueFrame.setBuilding (g : Option Nat) (r : Run) : CueFrame r (setBuilding g r) := CueFrame.withCue r _

theorem CueFrame.runActions (t : Tables) (c : Cue) (r : Run) : CueFrame r (runActions t c r) := by
  have h := ((CueFrame.setBuilding (if c.actions.any Action.isSyncStart then some (chooseTag r) else none) r).trans
    (CueFrame.runList t (chooseTag r) c _)).trans (CueFrame.setBuilding none _)
  exact CueFrame.ite (fun _ => h.trans (Frame.syncCheck _ _).cueFrame) (fun _ => h)

theorem CueFrame.enterFollow (t : Tables) (c : Cue) (why : Cause) (r : Run) : CueFrame r (enterFollow t c why r) := by
  unfold Machine.enterFollow
  split
  · exact CueFrame.ite (fun _ => CueFrame.refl r) (fun _ => CueFrame.enterWait t _ _ r)
  · exact CueFrame.refl r

theorem CueFrame.enterPrewait (t : Tables) (c : Cue) (r : Run) : CueFrame r (enterPrewait t c r) := by
  unfold Machine.enterPrewait
  refine CueFrame.ite (fun _ => CueFrame.runActions t c r) (fun _ => ?_)
  exact CueFrame.ite (fun _ => CueFrame.enterWait t _ _ r)
    (fun _ => (CueFrame.enterWait t _ _ r).trans (CueFrame.runActions t c _))

theorem CueFrame.fire (t : Tables) (c : Cue) (why : Cause) (r : Run) : CueFrame r (fire t c why r) := by
  unfold Machine.fire
  dsimp only
  have h := fun p => (((CueFrame.withCue r { r.cue with pos := p }).trans (CueFrame.report t (.cueFired c.num why) _)).trans
    (CueFrame.enterFollow t c why _)).trans (CueFrame.enterPrewait t c _)
  exact CueFrame.ite (fun _ => h _) (fun _ => (h _).trans (CueFrame.recompute t _ _ _))

theorem CueFrame.openGuard (t : Tables) (r : Run) : CueFrame r (openGuard t r) := by
  unfold Machine.openGuard
  exact CueFrame.ite (fun _ => CueFrame.refl r) (fun _ => CueFrame.withCue r _)

theorem CueFrame.goCue (t : Tables) (why : Cause) (r : Run) : CueFrame r (goCue t why r).run := by
  unfold Machine.goCue
  split
  · exact CueFrame.refl r
  · split
    · exact CueFrame.refl r
    · split
      · exact CueFrame.refl r
      · exact (CueFrame.fire t _ why r).trans (CueFrame.openGuard t _)

theorem CueFrame.goKey (t : Tables) (r : Run) : CueFrame r (goKey t r) := by
  unfold Machine.goKey
  dsimp only
  split
  · exact CueFrame.goCue t _ r
  · exact (CueFrame.goCue t _ r).trans (CueFrame.report t _ _)

theorem CueFrame.closeGuard (r : Run) : CueFrame r (closeGuard r) := by
  unfold Machine.closeGuard
  split
  · exact CueFrame.ite (fun _ => CueFrame.withCue r _) (fun _ => CueFrame.refl r)
  · exact CueFrame.refl r

theorem CueFrame.fireTimer (t : Tables) (k : WaitKind) (target : Nat) (r : Run) :
    CueFrame r (fireTimer t k target r) := by
  unfold Machine.fireTimer
  split
  · exact CueFrame.ite (fun _ => CueFrame.fire t _ _ r) (fun _ => CueFrame.report t _ r)
  · exact CueFrame.report t _ r

theorem CueFrame.expirePrewait (t : Tables) (cue : Nat) (r : Run) : CueFrame r (expirePrewait t cue r) := by
  unfold Machine.expirePrewait
  split
  · exact CueFrame.runActions t _ r
  · exact CueFrame.report t _ r

theorem CueFrame.expireFollow (t : Tables) (cue : Nat) (r : Run) : CueFrame r (expireFollow t cue r) := by
  unfold Machine.expireFollow
  split
  · exact CueFrame.fire t _ _ r
  · exact CueFrame.refl r

/-- The entry that is due next stands at the front of the list. -/
theorem dueWait_mem {r : Run} {w : Wait} (h : dueWait r = some w) : w ∈ r.waits := by
  unfold dueWait at h
  split at h
  · split at h
    · cases h
      simp_all
    · cases h
  · cases h

theorem dropWait_mem_lt {l : List Wait} {w : Wait} (h : w ∈ l) : (dropWait w.what l).length < l.length := by
  unfold dropWait
  refine List.length_filter_lt_length_iff_exists.mpr ⟨w, h, ?_⟩
  simp [WaitKind.same]

theorem CueFrame.expireWait {t : Tables} {w : Wait} {r : Run} (hm : w ∈ r.waits) : CueFrame r (expireWait t w r) := by
  have hlt := dropWait_mem_lt hm
  have hoff : CueFrame r { r with waits := dropWait w.what r.waits } :=
    CueFrame.withWaits r (fun h => by omega)
  unfold Machine.expireWait
  dsimp only
  split
  · exact hoff.trans (CueFrame.expirePrewait t _ _)
  · exact hoff.trans (CueFrame.expireFollow t _ _)
  · refine CueFrame.trans (CueFrame.withWaits r (fun h => ?_)) (CueFrame.fireTimer t _ _ _)
    rw [placeWait_length]
    omega
  · exact hoff.trans (CueFrame.fireTimer t _ _ _)

theorem CueFrame.expireKind (t : Tables) (code : Nat) (r : Run) : CueFrame r (expireKind t code r) := by
  unfold Machine.expireKind
  split
  · exact CueFrame.ite (fun _ => CueFrame.expireWait (dueWait_mem ‹_›)) (fun _ => CueFrame.refl r)
  · exact CueFrame.refl r

theorem CueFrame.expireAll (t : Tables) (n : Nat) : ∀ r, CueFrame r (expireAll t n r) := by
  induction n with
  | zero => exact fun r => CueFrame.refl r
  | succ n ih =>
    intro r
    unfold Machine.expireAll
    split
    · exact (CueFrame.expireWait (dueWait_mem ‹_›)).trans (ih _)
    · exact CueFrame.refl r

/-! ### Show control -/

theorem CueFrame.holdEngine (t : Tables) (r : Run) : CueFrame r (holdEngine t r) :=
  ((CueFrame.withCue r _).trans (CueFrame.unprimeCue t _ _)).trans (CueFrame.recompute t _ _ _)

theorem CueFrame.resumeEngine (t : Tables) (r : Run) : CueFrame r (resumeEngine t r) :=
  ((CueFrame.withCue r _).trans (CueFrame.recompute t _ _ _)).trans (CueFrame.primeCue t _ _)

theorem CueFrame.handStop (t : Tables) (r : Run) : CueFrame r (handStop t r) :=
  ((((CueFrame.holdEngine t r).trans (CueFrame.emptyWaits _)).trans (Frame.showStopVoices t _).cueFrame).trans
    (Frame.raiseStopPage t _).cueFrame).trans (CueFrame.stopLights _)

theorem CueFrame.showStopNow (t : Tables) (why : ShowCause) (r : Run) : CueFrame r (showStopNow t why r) := by
  unfold Machine.showStopNow
  exact CueFrame.ite (fun _ => CueFrame.refl r)
    (fun _ => ((CueFrame.withShow r _).trans (CueFrame.report t _ _)).trans (CueFrame.handStop t _))

theorem CueFrame.showResumeNow (t : Tables) (r : Run) : CueFrame r (showResumeNow t r) :=
  ((((CueFrame.withShow r _).trans (CueFrame.report t _ _)).trans (CueFrame.resumeEngine t _)).trans
    (Frame.dropStopPage t _).cueFrame).trans (CueFrame.resumeLights t _)

/-! ### Keys and due events -/

theorem CueFrame.clearMark (e : KeyEvent) (r : Run) : CueFrame r (clearMark e r) := CueFrame.withStage r _
theorem CueFrame.setPressed (key : Nat) (k : Option Nat) (r : Run) : CueFrame r (setPressed key k r) :=
  CueFrame.withStage r _

theorem CueFrame.pressPageKey (t : Tables) (key : Nat) (r : Run) : CueFrame r (pressPageKey t key r) := by
  unfold Machine.pressPageKey
  split
  · exact (CueFrame.setPressed key _ r).trans (Frame.raiseSource t _ _ _).cueFrame
  · exact CueFrame.setPressed key _ r

theorem CueFrame.releasePageKey (t : Tables) (key : Nat) (r : Run) : CueFrame r (releasePageKey t key r) := by
  unfold Machine.releasePageKey
  split
  · exact (CueFrame.setPressed key _ r).trans (Frame.dropSource t _ _).cueFrame
  · exact CueFrame.refl r

theorem CueFrame.pollDueNow (t : Tables) (r : Run) : CueFrame r (pollDueNow t r) := by
  unfold Machine.pollDueNow
  refine CueFrame.ite (fun _ => CueFrame.trans ?_ (Frame.pump t _).cueFrame) (fun _ => CueFrame.refl r)
  exact ⟨rfl, rfl, rfl, rfl, by simp only [setStep, Option.map_map]; rfl, CtlFrame.refl _, id⟩

theorem CueFrame.saveStepDueNow (t : Tables) (r : Run) : CueFrame r (saveStepDueNow t r) := by
  unfold Machine.saveStepDueNow
  refine CueFrame.ite (fun _ => CueFrame.trans ?_ (Frame.pump t _).cueFrame) (fun _ => CueFrame.refl r)
  exact ⟨rfl, rfl, rfl, rfl, by simp only [setStep, Option.map_map]; rfl, CtlFrame.refl _, id⟩

end Sys2Proof.Machine
end

