-- ==== Sys2Proof/Laws/Requests.lean ====
section
/-! SUPPORT. How a request that reaches its owner is answered (R190, R191), and when an event taken on the
arrival of a frame shows nothing new for it. -/

namespace Sys2Proof.Machine

open Sys2Proof

/-! ### Taking a place changes nothing else -/

@[simp] theorem holdPlace_lv (k : Nat) (m : Msg) (p : Part) : (holdPlace k m p).lv = p.lv := rfl
@[simp] theorem holdPlace_mix (k : Nat) (m : Msg) (p : Part) : (holdPlace k m p).mix = p.mix := rfl
@[simp] theorem holdPlace_latch (k : Nat) (m : Msg) (p : Part) : (holdPlace k m p).latch = p.latch := rfl
@[simp] theorem holdPlace_cue (k : Nat) (m : Msg) (p : Part) : (holdPlace k m p).cue = p.cue := rfl
@[simp] theorem holdPlace_waits (k : Nat) (m : Msg) (p : Part) : (holdPlace k m p).waits = p.waits := rfl
@[simp] theorem holdPlace_voices (k : Nat) (m : Msg) (p : Part) : (holdPlace k m p).voices = p.voices := rfl
@[simp] theorem holdPlace_flash (k : Nat) (m : Msg) (p : Part) : (holdPlace k m p).flash = p.flash := rfl
@[simp] theorem holdPlace_page (k : Nat) (m : Msg) (p : Part) : (holdPlace k m p).page = p.page := rfl
@[simp] theorem holdPlace_shw (k : Nat) (m : Msg) (p : Part) : (holdPlace k m p).shw = p.shw := rfl
@[simp] theorem holdPlace_stage (k : Nat) (m : Msg) (p : Part) : (holdPlace k m p).stage = p.stage := rfl
@[simp] theorem holdPlace_port (k : Nat) (m : Msg) (p : Part) : (holdPlace k m p).port = p.port := rfl
@[simp] theorem holdPlace_tables (k : Nat) (m : Msg) (p : Part) : (holdPlace k m p).tables = p.tables := rfl
@[simp] theorem holdPlace_guarded (k : Nat) (m : Msg) (p : Part) : (holdPlace k m p).toRun.guarded = p.toRun.guarded := rfl
@[simp] theorem holdPlace_dev (k : Nat) (m : Msg) (p : Part) (d : Nat) : (holdPlace k m p).toRun.dev d = p.toRun.dev d := rfl
@[simp] theorem holdPlace_voice (k : Nat) (m : Msg) (p : Part) (v : Nat) : (holdPlace k m p).toRun.voice v = p.toRun.voice v := rfl
@[simp] theorem holdPlace_zone (k : Nat) (m : Msg) (p : Part) (z : Nat) : (holdPlace k m p).toRun.zone z = p.toRun.zone z := rfl
@[simp] theorem holdPlace_src (k : Nat) (m : Msg) (p : Part) (j : Nat) : (holdPlace k m p).toRun.src j = p.toRun.src j := rfl
@[simp] theorem holdPlace_light (k : Nat) (m : Msg) (p : Part) (l : Nat) : (holdPlace k m p).toRun.light l = p.toRun.light l := rfl

/-! ### Answers -/

theorem modify_last {α : Type} (l : List α) (x : α) (f : α → α) :
    (l ++ [x]).modify ((l ++ [x]).length - 1) f = l ++ [f x] := by
  induction l with
  | nil => simp
  | cons a rest ih => simpa using ih

theorem judge_of_passes {k : ReqKind} {own : Owner} {payload : List Byte} {p : Part}
    (h3 : k.lengthOk payload.length = true) (h4 : (isContent k && p.shw.inShow) = false)
    (h5 : isLocked p.tables p.shw.inShow k payload = false) : judge k own payload p = own payload p := by
  unfold judge
  rw [if_neg (by simp [h3]), if_neg (by simp only [h4]; decide), if_neg (by simp only [h5]; decide)]

theorem canTake_of_accepts {s : State} {k : ReqKind} {m : Msg} (h : accepts s k m) : canTake s.toPart = true := by
  simp only [canTake, h.1, h.2.1, Bool.true_and, decide_true]

/-- A request that passes checks 2 to 6 of R190 is what its owner makes of it. -/
theorem request_of_accepts {s : State} {k : ReqKind} {m : Msg} (own : Owner) (h : accepts s k m) :
    s.request k own m = s.onPart (fun p => answerPlace (own m.payload (holdPlace k.code m p))) := by
  have e : takeRequest k own m s.toPart = answerPlace (own m.payload (holdPlace k.code m s.toPart)) := by
    unfold takeRequest
    rw [if_pos (canTake_of_accepts h)]
    exact congrArg answerPlace (judge_of_passes (p := holdPlace k.code m s.toPart) h.2.2.1 h.2.2.2.1 h.2.2.2.2)
  simp only [State.request, State.onPart, e]

/-- An immediate answer whose owner left the reply queue alone stands in the place taken last. -/
theorem answerPlace_now {p q : Part} {k : ReqKind} {m : Msg} {st : Status} {data : List Byte}
    (h : q.ctl.places = (holdPlace k.code m p).ctl.places) :
    answerPlace { part := q, answer := .now st data }
      = q.withCtl { q.ctl with places := p.ctl.places ++ [answered k m st data] } := by
  simp only [answerPlace, h, holdPlace, Part.withCtl, modify_last, answered]

/-- A refusal changes nothing but its reply (R192). -/
theorem answerPlace_refuse (p : Part) (k : ReqKind) (m : Msg) (st : Status) :
    answerPlace (refuse st (holdPlace k.code m p))
      = p.withCtl { p.ctl with places := p.ctl.places ++ [answered k m st []] } := by
  rw [refuse, answerPlace_now (p := p) rfl]
  rfl

/-- A request its owner refuses leaves the state as `State.reply` says. -/
theorem request_refused {s : State} {k : ReqKind} {m : Msg} {own : Owner} {st : Status} (h : accepts s k m)
    (e : own m.payload (holdPlace k.code m s.toPart) = refuse st (holdPlace k.code m s.toPart)) :
    s.request k own m = s.reply k m st [] := by
  rw [request_of_accepts own h]
  simp only [State.onPart, e, answerPlace_refuse]
  rfl

/-- A request its owner answers at once from a part whose reply queue it left alone. -/
theorem request_now {s : State} {k : ReqKind} {m : Msg} {own : Owner} {q : Part} {st : Status} {data : List Byte}
    (h : accepts s k m) (e : own m.payload (holdPlace k.code m s.toPart) = { part := q, answer := .now st data })
    (hq : q.ctl.places = (holdPlace k.code m s.toPart).ctl.places) :
    s.request k own m = { s with toPart := q.withCtl { q.ctl with
      places := s.ctl.places ++ [answered k m st data] } } := by
  rw [request_of_accepts own h]
  simp only [State.onPart, e, answerPlace_now hq]

/-- A message of a request kind is that request, taken by its owner (R190, Table 12-1). -/
theorem takeMessage_of_code (k : ReqKind) (m : Msg) (p : Part) :
    takeMessage k.code m p = takeRequest k (ownerOf k) m p := by cases k <;> rfl

/-- One field out of range leaves the whole list unread. -/
theorem allSome_none {α : Type} : ∀ {l : List (Option α)}, none ∈ l → allSome l = none
  | none :: _, _ => rfl
  | some x :: rest, h => by
    have : none ∈ rest := by simpa using h
    simp only [allSome, allSome_none this]

/-! ### Events -/

theorem map_zipIdx_ite_same {α : Type} (l : List α) (c : Nat → Prop) [DecidablePred c] (g : α → Nat → α)
    (h : ∀ i, c i) : l.zipIdx.map (fun (a, i) => if c i then a else g a i) = l := by
  simp only [h, if_true]
  exact List.zipIdx_map_fst 0 l

/-- Where no zone's on-air source and no light's state changed, an event shows nothing new. -/
theorem onArrival_quiet (f : Run → Run) (r : Run) (hz : ∀ z, ((f r).zone z).onAir = (r.zone z).onAir)
    (hl : ∀ l, ((f r).light l).state = (r.light l).state) : onArrival f r = f r := by
  have ha : airAfter r (f r) = (f r).page.air :=
    map_zipIdx_ite_same _ (fun z => ((f r).zone z).onAir = (r.zone z).onAir) (fun _ z => ((f r).zone z).onAir) hz
  have hb : lampsAfter r (f r) = (f r).stage.lamps :=
    map_zipIdx_ite_same _ (fun l => ((f r).light l).state = (r.light l).state)
      (fun _ l => lampsOf (f r).stage.lit ((f r).light l).state) hl
  simp only [onArrival, ha, hb]

/-- An event that changes neither the page engine nor the stage signal unit's lights shows nothing new. -/
theorem onArrival_of_eq (f : Run → Run) (r : Run) (hz : (f r).page.zones = r.page.zones)
    (hl : (f r).stage.lights = r.stage.lights) : onArrival f r = f r :=
  onArrival_quiet f r (fun z => by simp only [Run.zone, hz]) (fun l => by simp only [Run.light, hl])

theorem onArrival_id {f : Run → Run} {r : Run} (h : f r = r) : onArrival f r = r := by
  rw [onArrival_of_eq f r (by rw [h]) (by rw [h]), h]

/-- An event that changes nothing leaves the state. -/
theorem event_id {f : Tables → Run → Run} {s : State} (h : f s.tables s.toRun = s.toRun) : s.event f = s := by
  simp only [State.event, State.onRun, State.onPart, Part.onRun, onArrival_id h]

end Sys2Proof.Machine
end

