-- ==== Sys2Proof/Laws/Fields.lean ====
section
/-! SUPPORT. What each of the payloads of LOAD_SEGMENT, LOAD_PROFILE, LOAD_SETTINGS and LOAD_CUE is read as, and
exactly when a field of it is out of range (R49 to R51, R86, R111, R146, R169, R195); which requests a lock flag holds
(R157), and the samples of a fetch's bytes (R113). -/

namespace Sys2Proof.Machine

open Sys2Proof

theorem sampleSize_eq (f : Format) : sampleSize f = if f = .s16 then 2 else 3 := by cases f <;> rfl

theorem flagOf_lt {n : Nat} (h : n < 2) : flagOf n = some (decide (n = 1)) := by
  rcases (by omega : n = 0 ∨ n = 1) with rfl | rfl <;> rfl

theorem flagOf_ge {n : Nat} (h : ¬ n < 2) : flagOf n = none := by
  unfold flagOf
  rw [if_neg (by omega), if_neg (by omega)]

theorem indexOrNone_eq {bound : Nat} (hb : bound ≤ 255) (n : Nat) : indexOrNone bound n
    = if n < bound ∨ n = 255 then some (if n = 255 then none else some n) else none := by
  unfold indexOrNone
  by_cases h : n < bound
  · simp [h, show n ≠ 255 by omega]
  · by_cases k : n = 255
    · subst k; simp [h]
    · simp [h, k]

/-! ### Segments (R86) -/

/-- The fields of a segment record that R86 checks without a profile. -/
def segmentFieldsOk (p : List Byte) : Prop :=
  u8 p 2 < 2 ∧ 1 ≤ u24 p 7 ∧ u8 p 10 < 2 ∧ (u16 p 12 < 1024 ∨ u16 p 12 = 65535)

theorem segmentOf_taken {p : List Byte} (h : segmentFieldsOk p) : segmentOf p = some {
    device := u8 p 2, addr := u32 p 3, len := u24 p 7, format := if u8 p 10 = 0 then .s16 else .s24
    loops := u8 p 11, next := if u16 p 12 = 65535 then none else some (u16 p 12) } := if_pos h

theorem segmentOf_refused {p : List Byte} (h : ¬ segmentFieldsOk p) : segmentOf p = none := if_neg h

theorem segmentFits_iff (profiles : List Profile) (s : Segment) : segmentFits profiles s = true ↔
    (∃ pr, profiles[s.device]? = some pr ∧ s.addr + s.len * (if s.format = .s16 then 2 else 3) ≤ pr.size)
    ∧ (s.device = 0 → 1048576 ≤ s.addr) := by
  unfold segmentFits
  cases h : profiles[s.device]? with
  | none => simp
  | some pr => simp [sampleSize_eq, imp_iff_not_or]

theorem segmentInUse_iff (r : Run) (n : Nat) : segmentInUse r n = true ↔
    ∃ x c, x ∈ r.voices ∧ x.state ≠ .idle ∧ x.cursor = some c ∧ c.seg = n := by
  simp only [segmentInUse, List.any_eq_true]
  constructor
  · rintro ⟨x, hx, h⟩
    simp at h
    obtain ⟨h1, c, h2, h3⟩ := h
    exact ⟨x, c, hx, h1, h2, h3⟩
  · rintro ⟨x, c, hx, h1, h2, h3⟩
    exact ⟨x, hx, by simp [h1, h2, h3]⟩

/-! ### Profiles (R111, R112) -/

/-- The fields of a profile in the ranges of R111, the segments apart. -/
def profileFieldsOk (p : List Byte) : Prop :=
  let b := u8 p
  let size := u32 p 1
  b 0 < 2 ∧ (∃ k, k ≤ 12 ∧ size = 2 ^ (16 + k)) ∧ (b 0 = 0 → 2097152 ≤ size)
  ∧ (b 6 = 3 ∧ size ≤ 16777216 ∨ b 6 = 4) ∧ b 7 < 2 ∧ (b 7 = 0 → b 8 = 0) ∧ b 9 ≤ 15
  ∧ (∀ i, 10 ≤ i → i ≤ 12 → b i = 1 ∨ b i = 2 ∨ b i = 4) ∧ b 16 < 2 ∧ b 18 ≤ 7 ∧ b 19 < 2 ∧ u16 p 24 ≠ 0

theorem mem_deviceSizes (n : Nat) : n ∈ deviceSizes ↔ ∃ k, k ≤ 12 ∧ n = 2 ^ (16 + k) := by
  simp only [deviceSizes, List.mem_map, List.mem_range]
  exact ⟨fun ⟨k, h, e⟩ => ⟨k, by omega, e.symm⟩, fun ⟨k, h, e⟩ => ⟨k, by omega, e.symm⟩⟩

theorem forall_lanes (P : Nat → Prop) : (∀ i, 10 ≤ i → i ≤ 12 → P i) ↔ P 10 ∧ P 11 ∧ P 12 :=
  ⟨fun h => ⟨h 10 (by omega) (by omega), h 11 (by omega) (by omega), h 12 (by omega) (by omega)⟩,
   fun h i h1 h2 => by rcases (by omega : i = 10 ∨ i = 11 ∨ i = 12) with rfl | rfl | rfl <;> tauto⟩

/-- With every flag byte 0 or 1, the fields are in range where `profileOf` takes them. -/
theorem profileFieldsOk_iff {p : List Byte} (h7 : u8 p 7 < 2) (h16 : u8 p 16 < 2) (h19 : u8 p 19 < 2) :
    profileFieldsOk p ↔ (u8 p 0 < 2 ∧ u32 p 1 ∈ deviceSizes ∧ (u8 p 0 = 0 → 2097152 ≤ u32 p 1)
      ∧ (u8 p 6 = 4 ∨ (u8 p 6 = 3 ∧ u32 p 1 ≤ 16777216)) ∧ (decide (u8 p 7 = 1) = false → u8 p 8 = 0)
      ∧ u8 p 9 ≤ 15 ∧ (u8 p 10 = 1 || u8 p 10 = 2 || u8 p 10 = 4) ∧ (u8 p 11 = 1 || u8 p 11 = 2 || u8 p 11 = 4)
      ∧ (u8 p 12 = 1 || u8 p 12 = 2 || u8 p 12 = 4) ∧ u8 p 18 ≤ 7 ∧ 1 ≤ u16 p 24) := by
  have e7 : (decide (u8 p 7 = 1) = false) ↔ u8 p 7 = 0 := by simp; omega
  have eo : 1 ≤ u16 p 24 ↔ u16 p 24 ≠ 0 := by omega
  simp only [profileFieldsOk, forall_lanes, mem_deviceSizes, e7, h7, h16, h19, eo, Bool.or_eq_true, decide_eq_true_eq]
  constructor
  · rintro ⟨a1, a2, a3, a4, -, a6, a7, ⟨a8, a9, a10⟩, -, a11, -, a12⟩
    exact ⟨a1, a2, a3, a4.symm, a6, a7, or_assoc.2 a8, or_assoc.2 a9, or_assoc.2 a10, a11, a12⟩
  · rintro ⟨a1, a2, a3, a4, a6, a7, a8, a9, a10, a11, a12⟩
    exact ⟨a1, a2, a3, a4.symm, trivial, a6, a7, ⟨or_assoc.1 a8, or_assoc.1 a9, or_assoc.1 a10⟩, trivial, a11, trivial, a12⟩

/-- A profile in range is read with its poll interval clamped (R111). -/
theorem profileOf_taken {p : List Byte} (h : profileFieldsOk p) : profileOf p = some {
    size := u32 p 1, readInstr := byte (u8 p 5), addrBytes := u8 p 6
    modeByte := if u8 p 7 = 0 then none else some (byte (u8 p 8)), dummy := u8 p 9, instrLanes := u8 p 10
    addrLanes := u8 p 11, dataLanes := u8 p 12, writeEnable := byte (u8 p 13), program := byte (u8 p 14)
    erase := byte (u8 p 15), sector := if u8 p 16 = 0 then 4096 else 65536, statusRead := byte (u8 p 17)
    busyBit := u8 p 18, busyWhen := decide (u8 p 19 = 1), reset1 := byte (u8 p 20), reset2 := byte (u8 p 21)
    pollMs := max 1 (min 255 (u16 p 22)), pollLimit := u16 p 24 } := by
  have h7 := h.2.2.2.2.1
  have h16 := h.2.2.2.2.2.2.2.2.1
  have h19 := h.2.2.2.2.2.2.2.2.2.2.1
  unfold profileOf
  simp only [flagOf_lt h7, flagOf_lt h16, flagOf_lt h19]
  rw [if_pos ((profileFieldsOk_iff h7 h16 h19).1 h)]
  rcases (by omega : u8 p 7 = 0 ∨ u8 p 7 = 1) with e | e <;>
  rcases (by omega : u8 p 16 = 0 ∨ u8 p 16 = 1) with e' | e' <;> simp [e, e']

theorem profileOf_refused {p : List Byte} (h : ¬ profileFieldsOk p) : profileOf p = none := by
  unfold profileOf
  by_cases hf : u8 p 7 < 2 ∧ u8 p 16 < 2 ∧ u8 p 19 < 2
  · obtain ⟨h7, h16, h19⟩ := hf
    simp only [flagOf_lt h7, flagOf_lt h16, flagOf_lt h19]
    exact if_neg (fun k => h ((profileFieldsOk_iff h7 h16 h19).2 k))
  · split
    · rename_i a b c h1 h2 h3
      refine absurd ⟨?_, ?_, ?_⟩ hf <;> by_contra hn
      · rw [flagOf_ge hn] at h1; cases h1
      · rw [flagOf_ge hn] at h2; cases h2
      · rw [flagOf_ge hn] at h3; cases h3
    · rfl

theorem segmentsFit_iff (t : Tables) (d size : Nat) : segmentsFit t d size = true ↔
    ∀ (i : Nat) (sg : Segment), t.segments[i]? = some (some sg) → sg.device = d →
      sg.addr + sg.len * (if sg.format = .s16 then 2 else 3) ≤ size := by
  simp only [segmentsFit, List.all_eq_true, sampleSize_eq]
  constructor
  · intro h i sg hi hd
    simpa [hd] using h _ (List.mem_of_getElem? hi)
  · intro h x hx
    obtain ⟨i, hi⟩ := List.mem_iff_getElem?.1 hx
    cases x with
    | none => rfl
    | some sg =>
      by_cases hd : sg.device = d
      · simpa [hd] using h i sg hi hd
      · simp [hd]

theorem opOn_iff (r : Run) (d : Nat) : opOn r d = true ↔ ∃ o, r.flash.op = some o ∧ o.dev = d := by
  unfold opOn
  cases h : r.flash.op <;> simp

/-! ### Settings (R195) -/

/-- The settings an owner may refuse are in range: the show-stop source, the bindings and the report mask. -/
def settingsFieldsOk (p : List Byte) : Prop :=
  (∀ i, 5 ≤ i → i ≤ 9 → u8 p i < 8 ∨ u8 p i = 255) ∧ u16 p 12 < 8192

theorem settingsOf_taken {p : List Byte} (h : settingsFieldsOk p) :
    let source := fun i => if u8 p i = 255 then none else some (u8 p i)
    settingsOf p = some {
      dimDepth := min 80 (u8 p 0), guardMs := min 5000 (u16 p 1), stopFadeMs := u16 p 3, stopSource := source 5
      bindings := [source 6, source 7, source 8, source 9], blinkMs := max 100 (min 5000 (u16 p 10))
      reports := BitVec.ofNat 16 (u16 p 12), node := u8 p 14 } := by
  intro source
  have e : ∀ i, 5 ≤ i → i ≤ 9 → indexOrNone 8 (u8 p i) = some (source i) := fun i h1 h2 => by
    rw [indexOrNone_eq (by omega), if_pos (h.1 i h1 h2)]
  have e4 : allSome ((List.range 4).map (fun i => indexOrNone 8 (u8 p (6 + i))))
      = some [source 6, source 7, source 8, source 9] := by
    rw [show List.range 4 = [0, 1, 2, 3] from rfl]
    simp [e, allSome]
  unfold settingsOf
  simp only [e 5 (by omega) (by omega), e4, if_pos h.2]

theorem settingsOf_refused {p : List Byte} (h : ¬ settingsFieldsOk p) : settingsOf p = none := by
  by_contra hc
  obtain ⟨x, hx⟩ := Option.ne_none_iff_exists'.1 hc
  unfold settingsOf at hx
  split at hx
  · rename_i src binds h1 h2
    split at hx
    · refine h ⟨fun i hi hj => ?_, by assumption⟩
      by_contra hb
      have hn : indexOrNone 8 (u8 p i) = none := by rw [indexOrNone_eq (by omega), if_neg hb]
      by_cases h5 : i = 5
      · subst h5; rw [hn] at h1; cases h1
      · have hm : none ∈ (List.range 4).map (fun i => indexOrNone 8 (u8 p (6 + i))) :=
          List.mem_map.2 ⟨i - 6, List.mem_range.2 (by omega), by rw [show 6 + (i - 6) = i by omega, hn]⟩
        rw [allSome_none hm] at h2; cases h2
    · cases hx
  · cases hx

/-! ### Actions and cues (R49 to R51) -/

theorem flagOf_none_iff (n : Nat) : flagOf n = none ↔ 2 ≤ n := by
  match n with
  | 0 | 1 => simp [flagOf]
  | n + 2 => simp [flagOf]

theorem recallModeOf_none_iff (n : Nat) : recallModeOf n = none ↔ 4 ≤ n := by
  match n with
  | 0 | 1 | 2 | 3 => simp [recallModeOf]
  | n + 4 => simp [recallModeOf]

theorem lightCmdOf_none_iff (n : Nat) : lightCmdOf n = none ↔ 3 ≤ n := by
  match n with
  | 0 | 1 | 2 => simp [lightCmdOf]
  | n + 3 => simp [lightCmdOf]

theorem timerModeOf_none_iff (n : Nat) : timerModeOf n = none ↔ 3 ≤ n := by
  match n with
  | 0 | 1 | 2 => simp [timerModeOf]
  | n + 3 => simp [timerModeOf]

theorem allSome_none_iff {α : Type} : ∀ l : List (Option α), allSome l = none ↔ none ∈ l := by
  intro l
  induction l with
  | nil => simp [allSome]
  | cons x l ih =>
    cases x with
    | none => simp [allSome]
    | some x => cases h : allSome l <;> simp_all [allSome]

/-- The actions out of range (R50, Table 4-1). -/
theorem actionOf_none_iff : ∀ a : List Byte,
    let b := u8 a
    let kind := u8 a 0
    let ends := [6, 4, 2, 7, 8, 3, 3, 5, 3, 8, 2, 1]
    actionOf a = none ↔ kind = 0 ∨ 12 < kind
      ∨ (kind ∈ [1, 2, 3, 10, 11] ∧ 16 ≤ b 1) ∨ (kind ∈ [7, 8, 9] ∧ 8 ≤ b 1)
      ∨ (kind = 1 ∧ (1024 ≤ u16 a 2 ∨ 2 ≤ b 5))
      ∨ (kind = 4 ∧ (refAt a 1 = none ∨ ∃ z, refAt a 1 = some (.duck z)))
      ∨ (kind = 5 ∧ (32 ≤ b 1 ∨ 4 ≤ b 2)) ∨ (kind = 7 ∧ 2 ≤ b 2) ∨ (kind = 8 ∧ (16 ≤ b 2 ∨ 1024 ≤ u16 a 3))
      ∨ (kind = 9 ∧ 3 ≤ b 2) ∨ (kind = 10 ∧ (3 ≤ b 2 ∨ u16 a 3 = 0 ∨ u24 a 5 = 0 ∨ 99999 < u24 a 5))
      ∨ (kind ≠ 5 ∧ kind ≠ 10 ∧ ∃ n, ends[kind - 1]? = some n ∧ zerosFrom a n = false) := by
  intro a b kind ends
  have hz : ∀ n, (¬ zerosFrom a n = true) ↔ zerosFrom a n = false := fun n => by simp
  by_cases hk : kind = 0 ∨ 12 < kind
  · refine ⟨fun _ => by rcases hk with h | h; exacts [.inl h, .inr (.inl h)], fun _ => ?_⟩
    clear hz
    have hk' : u8 a 0 = 0 ∨ 12 < u8 a 0 := hk
    unfold actionOf
    split <;> first | rfl | (exfalso; omega)
  · have : kind < 13 ∧ 0 < kind := by omega
    obtain ⟨h1, h2⟩ := this
    unfold actionOf
    change (match kind with
      | 1 => _ | 2 => _ | 3 => _ | 4 => _ | 5 => _ | 6 => _ | 7 => _ | 8 => _ | 9 => _ | 10 => _ | 11 => _ | 12 => _
      | _ => _) = none ↔ _
    generalize kind = k at *
    interval_cases k <;> (try simp only [ends, b])
    · have := flagOf_none_iff (u8 a 5)
      cases h : flagOf (u8 a 5) <;> simp_all
      by_cases hh : zerosFrom a 6 = true <;> simp_all <;> omega
    · by_cases hh : zerosFrom a 4 = true <;> simp_all
    · by_cases hh : zerosFrom a 2 = true <;> simp_all
    · cases h : refAt a 1 with
      | none => simp
      | some r => cases r <;> simp
    · have := recallModeOf_none_iff (u8 a 2)
      cases h : recallModeOf (u8 a 2) <;> simp_all
    · by_cases hh : zerosFrom a 3 = true <;> simp_all
    · have := flagOf_none_iff (u8 a 2)
      cases h : flagOf (u8 a 2) <;> simp_all
      by_cases hh : zerosFrom a 3 = true <;> simp_all
    · by_cases hh : zerosFrom a 5 = true <;> simp_all <;> omega
    · have := lightCmdOf_none_iff (u8 a 2)
      cases h : lightCmdOf (u8 a 2) <;> simp_all
      by_cases hh : zerosFrom a 3 = true <;> simp_all
    · have := timerModeOf_none_iff (u8 a 2)
      cases h : timerModeOf (u8 a 2) <;> simp_all <;> omega
    · by_cases hh : zerosFrom a 2 = true <;> simp_all
    · by_cases hh : zerosFrom a 1 = true <;> simp_all

/-- The cues out of range (R49, R51). -/
theorem cueOf_none_iff : ∀ p : List Byte,
    let b := u8 p
    cueOf p = none ↔ u32 p 0 = 0 ∨ 99999 < u32 p 0 ∨ 24 < b 5 ∨ 4 ≤ b 4 ∨ 8 < b 10
      ∨ (b 4 / 2 = 1 ∧ u16 p 8 = 0) ∨ (b 4 / 2 ≠ 1 ∧ u16 p 8 ≠ 0)
      ∨ (∃ x, x ∈ (p.drop 11).take (b 5) ∧ (x.toNat < 0x20 ∨ 0x7E < x.toNat))
      ∨ ∃ i, i < b 10 ∧ actionOf ((p.drop (11 + b 5 + 8 * i)).take 8) = none := by
  intro p b
  have ha : allSome ((List.range (u8 p 10)).map (fun i => actionOf ((p.drop (11 + u8 p 5 + 8 * i)).take 8))) = none
     ↔ ∃ i, i < u8 p 10 ∧ actionOf ((p.drop (11 + u8 p 5 + 8 * i)).take 8) = none := by
    rw [allSome_none_iff]; simp
  have hl : ((p.drop 11).take (u8 p 5)).all (fun b => 0x20 ≤ b.toNat && b.toNat ≤ 0x7E) = true
      ↔ ¬ ∃ x, x ∈ (p.drop 11).take (b 5) ∧ (x.toNat < 0x20 ∨ 0x7E < x.toNat) := by
    rw [List.all_eq_true]
    push Not
    refine forall_congr' fun x => forall_congr' fun hx => ?_
    simp
  unfold cueOf
  dsimp only
  split
  · rename_i h
    simp only [true_iff]
    have := ha.1 h
    tauto
  · rename_i acts h
    have ha' : ¬ ∃ i, i < u8 p 10 ∧ actionOf ((p.drop (11 + u8 p 5 + 8 * i)).take 8) = none :=
      fun e => by rw [ha.2 e] at h; cases h
    have hc : ∀ (c : Prop) [Decidable c] (x : Cue), (if c then some x else none) = none ↔ ¬ c :=
      fun c _ x => by by_cases c <;> simp [*]
    refine (hc _ _).trans ?_
    have hn : isCueNum (u32 p 0) = true ↔ 1 ≤ u32 p 0 ∧ u32 p 0 ≤ 99999 := by simp [isCueNum]
    have hw : (if u8 p 4 / 2 = 1 then 1 ≤ u16 p 8 else u16 p 8 = 0) ↔
        (u8 p 4 / 2 = 1 ∧ 1 ≤ u16 p 8) ∨ (u8 p 4 / 2 ≠ 1 ∧ u16 p 8 = 0) := by
      split_ifs with e <;> simp [e]
    rw [hw]
    simp only [show b = u8 p from rfl] at hl ⊢
    by_cases B : ∃ x, x ∈ (p.drop 11).take (u8 p 5) ∧ (x.toNat < 0x20 ∨ 0x7E < x.toNat)
    · have := fun e => hl.1 e B
      exact ⟨fun _ => by simp only [B, true_or, or_true], fun _ hh => this hh.2.2.1⟩
    · have hB := hl.2 B
      constructor
      · intro hh
        have hh2 : ¬ ((1 ≤ u32 p 0 ∧ u32 p 0 ≤ 99999) ∧ u8 p 5 ≤ 24 ∧ u8 p 4 < 4
            ∧ ((u8 p 4 / 2 = 1 ∧ 1 ≤ u16 p 8) ∨ (u8 p 4 / 2 ≠ 1 ∧ u16 p 8 = 0)) ∧ u8 p 10 ≤ 8) := by
          intro ⟨a, b, c, d, e⟩; exact hh ⟨hn.2 a, b, hB, c, d, e⟩
        by_contra hx
        push Not at hx
        obtain ⟨x1, x2, x3, x4, x5, x6, x7, x8, x9⟩ := hx
        apply hh2
        refine ⟨⟨by omega, x2⟩, x3, x4, ?_, x5⟩
        by_cases e : u8 p 4 / 2 = 1
        · exact .inl ⟨e, by have := x6 e; omega⟩
        · exact .inr ⟨e, x7 e⟩
      · rintro hh ⟨a, b1, c, d, e, f⟩
        have a := hn.1 a
        clear hn hw ha hl hc h
        rcases hh with h | h | h | h | h | h | h | h | h
        · omega
        · omega
        · omega
        · omega
        · omega
        · obtain ⟨h1, h2⟩ := h; rcases e with e | e <;> omega
        · obtain ⟨h1, h2⟩ := h; rcases e with e | e <;> omega
        · exact B h
        · exact ha' h

/-! ### Locked requests and the bytes of a fetch -/

/-- The requests a lock flag holds in SHOW (R157, R158, R160, Table 9-1). -/
theorem isLocked_iff : ∀ (t : Tables) (inShow : Bool) (k : ReqKind) (p : List Byte),
    let level := k ∈ [ReqKind.setLevel, .fadeLevel]
    let ofMix := fun role => level ∧ ∃ m, (mixRec t m).role = role
      ∧ (refAt p 0 = some (.master m) ∨ ∃ i, refAt p 0 = some (.crosspoint i m))
    isLocked t inShow k p = true ↔ inShow = true ∧
      (t.locks.cues = true ∧ k ∈ [ReqKind.loadCue, .deleteCue, .clearCues, .loadSegment, .loadLight]
      ∨ t.locks.foldback = true ∧ (k ∈ [ReqKind.loadScene, .recall, .restore] ∨ ofMix .foldback)
      ∨ t.locks.relay = true ∧ (k ∈ [ReqKind.loadZone, .loadPageSource, .loadPageOrder]
          ∨ level ∧ ∃ z, refAt p 0 = some (.zoneProgramme z))
      ∨ t.locks.routing = true ∧ (k ∈ [ReqKind.loadInput, .loadMix, .loadLaw, .loadProfile, .loadSettings]
          ∨ ofMix .programme ∨ level ∧ ∃ i, refAt p 0 = some (.trim i))) := by
  intro t inShow k p
  by_cases hk : k = .setLevel ∨ k = .fadeLevel
  · have e : lockGroup t k p = levelGroup t (refAt p 0) := by rcases hk with rfl | rfl <;> rfl
    have hl : k ∈ [ReqKind.setLevel, .fadeLevel] := by simpa using hk
    simp only [isLocked, e, hl, true_and]
    have h1 : k ∉ [ReqKind.loadCue, .deleteCue, .clearCues, .loadSegment, .loadLight] := by
      rcases hk with rfl | rfl <;> decide
    have h2 : k ∉ [ReqKind.loadScene, .recall, .restore] := by
      rcases hk with rfl | rfl <;> decide
    have h3 : k ∉ [ReqKind.loadZone, .loadPageSource, .loadPageOrder] := by
      rcases hk with rfl | rfl <;> decide
    have h4 : k ∉ [ReqKind.loadInput, .loadMix, .loadLaw, .loadProfile, .loadSettings] := by
      rcases hk with rfl | rfl <;> decide
    simp only [h1, h2, h3, h4, and_false, false_or]
    cases hr : refAt p 0 with
    | none => simp [levelGroup]
    | some r =>
      cases r with
      | crosspoint i m => cases hm : (mixRec t m).role <;> simp [levelGroup, roleGroup, hm, lockSet]
      | master m => cases hm : (mixRec t m).role <;> simp [levelGroup, roleGroup, hm, lockSet]
      | _ => simp [levelGroup, lockSet]
  · have hl : k ∉ [ReqKind.setLevel, .fadeLevel] := by simpa using hk
    simp only [hl, false_and, or_false]
    cases k <;> simp at hk <;> simp [isLocked, lockGroup, lockSet]

theorem u8_take_drop (l : List Byte) (k n j : Nat) (h : j < n) : u8 ((l.drop k).take n) j = u8 l (k + j) := by
  simp [u8, List.getD_eq_getElem?_getD, h]

/-- The samples of a fetch from the bytes read, by format (R113, R118). -/
theorem fetchSamples_spec : ∀ (f : Fetch) (bytes : List Byte), (fetchSamples f bytes).length = f.count
    ∧ ∀ i, i < f.count → ∃ x, (fetchSamples f bytes)[i]? = some x ∧ x.dev = f.dev
      ∧ x.src = { f.src with off := f.src.off + i }
      ∧ (f.format = .s16 → let n := u16 bytes (2 * i)
          x.value = 256 * ((n : Int) - if n < 32768 then 0 else 65536))
      ∧ (f.format = .s24 → let n := u24 bytes (3 * i)
          x.value = (n : Int) - if n < 8388608 then 0 else 16777216) := by
  intro f bytes
  refine ⟨by simp [fetchSamples], fun i hi => ?_⟩
  simp only [fetchSamples, List.getElem?_map, List.getElem?_range hi, Option.map_some, Option.some.injEq, exists_eq_left',
    true_and]
  refine ⟨fun h => ?_, fun h => ?_⟩
  · rw [h]
    have : u16 ((bytes.drop (i * sampleSize .s16)).take (sampleSize .s16)) 0 = u16 bytes (2 * i) := by
      simp only [u16, sampleSize]
      rw [u8_take_drop _ _ _ _ (by omega), u8_take_drop _ _ _ _ (by omega)]
      simp [Nat.mul_comm]
    simp only [sampleValue, this, signed]
    norm_num
    split_ifs <;> ring
  · rw [h]
    have : u24 ((bytes.drop (i * sampleSize .s24)).take (sampleSize .s24)) 0 = u24 bytes (3 * i) := by
      simp only [u24, u16, sampleSize]
      rw [u8_take_drop _ _ _ _ (by omega), u8_take_drop _ _ _ _ (by omega), u8_take_drop _ _ _ _ (by omega)]
      simp [Nat.mul_comm]
    simp only [sampleValue, this, signed]
    norm_num
    split_ifs <;> ring

end Sys2Proof.Machine
end

