-- ==== Sys2Proof/Laws/Memory.lean ====
section
/-! SUPPORT. Flash contents: every operation keeps the canonical form, what each one reads as, and that a save
that came to nothing leaves no image. -/

namespace Sys2Proof.Machine

open Sys2Proof

theorem Memory.wfFrom_mono {lo lo' : Nat} {m : List Host.Cell} (h : lo ≤ lo') (w : Memory.wfFrom lo' m = true) :
    Memory.wfFrom lo m = true := by
  cases m with
  | nil => rfl
  | cons c rest =>
    obtain ⟨a, b⟩ := c
    simp only [Memory.wfFrom, Bool.and_eq_true, decide_eq_true_eq] at w ⊢
    exact ⟨⟨by omega, w.1.2⟩, w.2⟩

theorem Memory.write_wfFrom {m : List Host.Cell} : ∀ {lo x : Nat} {v : Byte}, lo ≤ x →
    Memory.wfFrom lo m = true → Memory.wfFrom lo (Memory.write m x v) = true := by
  induction m with
  | nil =>
    intro lo x v h _
    simp only [Memory.write]
    split
    · rfl
    · rename_i hv; simp [Memory.wfFrom, h, hv]
  | cons c rest ih =>
    intro lo x v h w
    obtain ⟨a, b⟩ := c
    simp only [Memory.wfFrom, Bool.and_eq_true, decide_eq_true_eq] at w
    simp only [Memory.write]
    split
    · rename_i hlt
      split
      · simp [Memory.wfFrom, w]
      · rename_i hv
        simp only [Memory.wfFrom, Bool.and_eq_true, decide_eq_true_eq]
        exact ⟨⟨h, by simp [hv]⟩, ⟨by omega, w.1.2⟩, w.2⟩
    · split
      · rename_i _ heq
        split
        · exact Memory.wfFrom_mono (by omega) w.2
        · rename_i hv
          simp only [Memory.wfFrom, Bool.and_eq_true, decide_eq_true_eq]
          exact ⟨⟨h, by simp [hv]⟩, heq ▸ w.2⟩
      · simp only [Memory.wfFrom, Bool.and_eq_true, decide_eq_true_eq]
        exact ⟨w.1, ih (by omega) w.2⟩

/-- A write keeps the canonical form. -/
theorem Memory.write_wf {m : List Host.Cell} (x : Nat) (v : Byte) (h : Memory.wf m = true) :
    Memory.wf (Memory.write m x v) = true := Memory.write_wfFrom (Nat.zero_le _) h

theorem Memory.erase_wfFrom {m : List Host.Cell} (x n : Nat) : ∀ {lo : Nat}, Memory.wfFrom lo m = true →
    Memory.wfFrom lo (Memory.erase m x n) = true := by
  induction m with
  | nil => intro _ _; rfl
  | cons c rest ih =>
    intro lo w
    obtain ⟨a, b⟩ := c
    simp only [Memory.wfFrom, Bool.and_eq_true, decide_eq_true_eq] at w
    unfold Memory.erase at ih ⊢
    rw [List.filter_cons]
    split
    · simp only [Memory.wfFrom, Bool.and_eq_true, decide_eq_true_eq]
      exact ⟨w.1, ih w.2⟩
    · exact Memory.wfFrom_mono (by omega) (ih w.2)

/-- An erase keeps the canonical form. -/
theorem Memory.erase_wf {m : List Host.Cell} (x n : Nat) (h : Memory.wf m = true) :
    Memory.wf (Memory.erase m x n) = true := Memory.erase_wfFrom x n h

/-- A program keeps the canonical form. -/
theorem Memory.program_wf (d : List Byte) : ∀ {m : List Host.Cell} (x : Nat), Memory.wf m = true →
    Memory.wf (Memory.program m x d) = true := by
  induction d with
  | nil => intro m x h; exact h
  | cons b rest ih => intro m x h; exact ih (x + 1) (Memory.write_wf x _ h)

/-- Free bytes keep the canonical form. -/
theorem Memory.scramble_wf (n : Nat) : ∀ {m : List Host.Cell} (k x : Nat), Memory.wf m = true →
    Memory.wf (Memory.scramble m k x n) = true := by
  induction n with
  | zero => intro m k x h; exact h
  | succ n ih => intro m k x h; exact ih k (x + 1) (Memory.write_wf x _ h)

/-- A command's effect keeps the canonical form. -/
theorem Cmd.apply_wf (c : Cmd) {m : List Host.Cell} (h : Memory.wf m = true) : Memory.wf (c.apply m) = true := by
  cases c with
  | erase a n => exact Memory.erase_wf a n h
  | program a d => exact Memory.program_wf d a h

/-- A command cut short keeps the canonical form. -/
theorem Cmd.scramble_wf (c : Cmd) (k : Nat) {m : List Host.Cell} (h : Memory.wf m = true) :
    Memory.wf (c.scramble k m) = true := by
  cases c with
  | erase a n => exact Memory.scramble_wf n k a h
  | program a d => exact Memory.scramble_wf d.length k a h

theorem Memory.read_of_wfFrom {m : List Host.Cell} : ∀ {lo x : Nat}, Memory.wfFrom lo m = true → x < lo →
    Memory.read m x = Memory.blank := by
  induction m with
  | nil => intro _ _ _ _; rfl
  | cons c rest ih =>
    intro lo x w h
    obtain ⟨a, b⟩ := c
    simp only [Memory.wfFrom, Bool.and_eq_true, decide_eq_true_eq] at w
    simp only [Memory.read]
    rw [if_neg (by omega)]
    exact ih w.2 (by omega)

theorem Memory.read_write_from {m : List Host.Cell} : ∀ {lo : Nat}, Memory.wfFrom lo m = true → ∀ (x : Nat) (v : Byte)
    (y : Nat), Memory.read (Memory.write m x v) y = if y = x then v else Memory.read m y := by
  induction m with
  | nil =>
    intro lo _ x v y
    simp only [Memory.write]
    by_cases hv : v = Memory.blank
    · simp [hv, Memory.read]
    · by_cases hy : y = x
      · subst hy; simp [hv, Memory.read]
      · simp [hv, Memory.read, hy, Ne.symm hy]
  | cons c rest ih =>
    intro lo w x v y
    obtain ⟨a, b⟩ := c
    simp only [Memory.wfFrom, Bool.and_eq_true, decide_eq_true_eq] at w
    have hrest := ih w.2 x v y
    have hlow : ∀ z, z ≤ a → Memory.read rest z = Memory.blank := fun z hz =>
      Memory.read_of_wfFrom w.2 (by omega)
    simp only [Memory.write]
    by_cases hxa : x < a
    · rw [if_pos hxa]
      by_cases hv : v = Memory.blank
      · rw [if_pos hv]
        by_cases hy : y = x
        · subst hy
          simp only [Memory.read, if_true]
          rw [if_neg (by omega), hlow y (by omega), hv]
        · rw [if_neg hy]
      · rw [if_neg hv]
        by_cases hy : y = x
        · subst hy; simp [Memory.read]
        · simp only [Memory.read]
          rw [if_neg (Ne.symm hy), if_neg hy]
    · rw [if_neg hxa]
      by_cases hxe : x = a
      · rw [if_pos hxe]
        subst hxe
        by_cases hv : v = Memory.blank
        · rw [if_pos hv]
          by_cases hy : y = x
          · subst hy; rw [if_pos rfl, hlow y (Nat.le_refl _), hv]
          · rw [if_neg hy]; simp only [Memory.read]; rw [if_neg (fun e => hy e.symm)]
        · rw [if_neg hv]
          by_cases hy : y = x
          · subst hy; simp [Memory.read]
          · simp only [Memory.read]; rw [if_neg (Ne.symm hy), if_neg hy, if_neg (Ne.symm hy)]
      · rw [if_neg hxe]
        by_cases hya : a = y
        · subst hya
          simp only [Memory.read, if_true]
          rw [if_neg (Ne.symm hxe)]
        · simp only [Memory.read]
          rw [if_neg hya, hrest, if_neg hya]

/-- What a write leaves each address reading as. -/
theorem Memory.read_write {m : List Host.Cell} (h : Memory.wf m = true) (x : Nat) (v : Byte) (y : Nat) :
    Memory.read (Memory.write m x v) y = if y = x then v else Memory.read m y := Memory.read_write_from h x v y

/-- What an erase leaves each address reading as (R122). -/
theorem Memory.read_erase (m : List Host.Cell) (x n y : Nat) :
    Memory.read (Memory.erase m x n) y = if x ≤ y ∧ y < x + n then Memory.blank else Memory.read m y := by
  induction m with
  | nil => simp [Memory.erase, Memory.read]
  | cons c rest ih =>
    obtain ⟨a, b⟩ := c
    unfold Memory.erase at ih ⊢
    rw [List.filter_cons]
    by_cases hin : x ≤ a ∧ a < x + n
    · rw [if_neg (by simp; omega), ih]
      by_cases hya : a = y
      · subst hya; simp [hin]
      · simp only [Memory.read]; rw [if_neg hya]
    · rw [if_pos (by simp; omega)]
      simp only [Memory.read]
      by_cases hya : a = y
      · subst hya; rw [if_pos rfl, if_pos rfl, if_neg hin]
      · rw [if_neg hya, if_neg hya, ih]

/-- What a program leaves each address reading as (R123): the AND of old and new inside, the old outside. -/
theorem Memory.read_program (d : List Byte) : ∀ {m : List Host.Cell}, Memory.wf m = true → ∀ (x y : Nat),
    Memory.read (Memory.program m x d) y
      = if x ≤ y ∧ y < x + d.length then Memory.read m y &&& d.getD (y - x) 0 else Memory.read m y := by
  induction d with
  | nil => intro m _ x y; simp only [Memory.program, List.length_nil]; rw [if_neg (by omega)]
  | cons b rest ih =>
    intro m h x y
    simp only [Memory.program, List.length_cons]
    rw [ih (Memory.write_wf x _ h), Memory.read_write h]
    by_cases hyx : y = x
    · subst hyx
      rw [if_neg (by omega), if_pos rfl, if_pos (by omega)]
      simp
    · rw [if_neg hyx]
      by_cases hin : x + 1 ≤ y ∧ y < x + 1 + rest.length
      · rw [if_pos hin, if_pos (by omega)]
        obtain ⟨k, hk⟩ : ∃ k, y - x = k + 1 := ⟨y - x - 1, by omega⟩
        have : y - (x + 1) = k := by omega
        rw [this, hk]; simp
      · rw [if_neg hin, if_neg (by omega)]

/-! ### A save that leaves no image (R130; log entry 46) -/

/-- All that `loseHeader` can do. -/
theorem loseHeader_cases (d : Nat) (c : Cmd) (s : State) :
    s.loseHeader d c = if d = 0 ∧ c.addr = 0 then { s with flash0 := Memory.erase s.flash0 0 4 } else s := rfl

@[simp] theorem loseHeader_toPart (d : Nat) (c : Cmd) (s : State) : (s.loseHeader d c).toPart = s.toPart := by
  rw [loseHeader_cases]; split <;> rfl
@[simp] theorem loseWork_toPart (d : Nat) (s : State) : (s.loseWork d).toPart = s.toPart := by
  unfold State.loseWork; split <;> simp

theorem loseHeader_memoryOk (d : Nat) (c : Cmd) {s : State} (h : memoryOk s = true) :
    memoryOk (s.loseHeader d c) = true := by
  rw [loseHeader_cases]
  split
  · simp only [memoryOk, Bool.and_eq_true] at h ⊢
    exact ⟨Memory.erase_wf 0 4 h.1, h.2⟩
  · exact h

theorem loseWork_memoryOk (d : Nat) {s : State} (h : memoryOk s = true) : memoryOk (s.loseWork d) = true := by
  unfold State.loseWork
  split
  · exact loseHeader_memoryOk d _ h
  · exact h

theorem loseSettled_memoryOk {s : State} (h : memoryOk s = true) : memoryOk s.loseSettled = true := by
  unfold State.loseSettled
  split
  · split
    · exact loseWork_memoryOk 0 (loseHeader_memoryOk _ _ h)
    · exact loseWork_memoryOk 0 h
  · exact h

/-- A first byte of FFh is no identifier (R131, R204). -/
theorem checkImage_noImage (s : State) (h : Memory.read s.flash0 0 = 0xFF) :
    checkImage (s.reader 0) = .error .noImage := by
  unfold checkImage headerCheck
  have : (s.reader 0 0 16).take 4 ≠ [0x50, 0x48, 0x31, 0x36] := by
    intro e
    have e0 : ((s.reader 0 0 16).take 4)[0]? = some (Memory.read s.flash0 0) := rfl
    rw [e, h] at e0
    exact absurd e0 (by decide)
  rw [if_pos this]

theorem noImage_of_flash0 {s t : State} (h : t.flash0 = s.flash0) (k : noImage s) : noImage t :=
  ⟨fun a ha => by rw [h]; exact k.1 a ha, checkImage_noImage _ (by rw [h]; exact k.1 0 (by omega))⟩

/-- After a command at the header that came to nothing, the image area holds no image. -/
theorem loseHeader_noImage (c : Cmd) (s : State) (h : c.addr = 0) : noImage (s.loseHeader 0 c) := by
  have k : ∀ a, a < 4 → Memory.read (s.loseHeader 0 c).flash0 a = 0xFF := by
    intro a ha
    rw [loseHeader_cases, if_pos ⟨rfl, h⟩]
    simp only
    rw [Memory.read_erase, if_pos (by omega)]
    rfl
  exact ⟨k, checkImage_noImage _ (k 0 (by omega))⟩

end Sys2Proof.Machine
end

