-- ==== Sys2Proof/Laws/Image.lean ====
section
/-! SUPPORT. The show image: what a save writes, the image load accepts (R127 to R131). -/

namespace Sys2Proof.Machine

open Sys2Proof

theorem byte_toNat (n : Nat) : (byte n).toNat = n % 256 := by simp [byte]

theorem le32_u32 (n : Nat) (h : n < 4294967296) (l r : List Byte) : u32 (l ++ (le32 n ++ r)) l.length = n := by
  simp only [u32, u16, u8, List.getD, le32, List.cons_append, List.nil_append]
  rw [List.getElem?_append_right (Nat.le_refl _), List.getElem?_append_right (by omega),
    List.getElem?_append_right (by omega), List.getElem?_append_right (by omega)]
  have h1 : l.length + 1 - l.length = 1 := by omega
  have h2 : l.length + 2 - l.length = 2 := by omega
  have h3 : l.length + 2 + 1 - l.length = 3 := by omega
  simp only [Nat.sub_self, h1, h2, h3, List.getElem?_cons_zero, List.getElem?_cons_succ, Option.getD_some, byte_toNat]
  omega

theorem crc32_lt (l : List Byte) : crc32 l < 4294967296 := (~~~ (l.foldl crc32Byte 0xFFFFFFFF#32)).isLt

theorem imageHeader_length (b : List Byte) : (imageHeader b).length = 16 := by
  simp [imageHeader, le32]

theorem and_blank (b : Byte) : Memory.blank &&& b = b := by
  have : Memory.blank = BitVec.allOnes 8 := by decide
  rw [this, BitVec.allOnes_and]

/-- Bytes programmed into an erased device are read back. -/
theorem readRange_program (d : List Byte) (k n : Nat) (h : k + n ≤ d.length) :
    Memory.readRange (Memory.program [] 0 d) k n = (d.drop k).take n := by
  apply List.ext_getElem
  · simp [Memory.readRange]; omega
  · intro i h1 h2
    have hi : i < n := by simpa [Memory.readRange] using h1
    simp only [Memory.readRange, List.getElem_map, List.getElem_range]
    rw [Memory.read_program d (m := []) rfl 0 (k + i)]
    simp only [Memory.read, and_blank, List.getElem_take, List.getElem_drop]
    have hk : k + i < d.length := by omega
    simp [List.getD, hk]

/-! ### The layout is read back -/

/-- Values of a coding are read back from the bytes they are written as. -/
def Coding.Reads {α : Type} (c : Coding α) : Prop := ∀ x rest, c.get (c.put x ++ rest) = some (x, rest)

theorem numGet_numBytes (fuel : Nat) : ∀ n rest, n ≤ fuel → numGet (numBytes fuel n ++ rest) = some (n, rest) := by
  induction fuel with
  | zero =>
    intro n rest h
    obtain rfl : n = 0 := by omega
    rfl
  | succ k ih =>
    intro n rest h
    unfold numBytes
    split
    · simp [numGet, byte_toNat, show n % 256 = n by omega, *]
    · rw [List.cons_append, numGet, ih (n / 128) rest (by omega), if_neg (by rw [byte_toNat]; omega)]
      simp only [byte_toNat, Option.some.injEq, Prod.mk.injEq, and_true]
      omega

theorem numCode_reads : numCode.Reads := fun n rest => numGet_numBytes n n rest (Nat.le_refl n)

theorem Coding.Reads.pair {α β : Type} {a : Coding α} {b : Coding β} (ha : a.Reads) (hb : b.Reads) :
    (pairCode a b).Reads := by
  intro x rest
  simp only [pairCode, List.append_assoc, ha x.1 _, hb x.2 _]

theorem Coding.Reads.via {α β : Type} {a : Coding α} (ha : a.Reads) {f : β → α} {g : α → β} (h : ∀ x, g (f x) = x) :
    (viaCode a f g).Reads := by
  intro x rest
  simp only [viaCode, ha (f x) _, h]

theorem manyGet_flatMap {α : Type} {a : Coding α} (ha : a.Reads) (l : List α) :
    ∀ rest, manyGet a l.length (l.flatMap a.put ++ rest) = some (l, rest) := by
  induction l with
  | nil => exact fun rest => rfl
  | cons x xs ih => intro rest; simp only [List.length_cons, List.flatMap_cons, List.append_assoc, manyGet, ha x _, ih]

theorem Coding.Reads.list {α : Type} {a : Coding α} (ha : a.Reads) : (listCode a).Reads := by
  intro l rest
  simp only [listCode, List.append_assoc, numCode_reads l.length _, manyGet_flatMap ha]

theorem flagCode_reads : flagCode.Reads := numCode_reads.via (by decide)
theorem bitsCode_reads (w : Nat) : (bitsCode w).Reads := numCode_reads.via (fun x => by simp)
theorem Coding.Reads.opt {α : Type} {a : Coding α} (ha : a.Reads) : (optCode a).Reads :=
  ha.list.via (fun x => by cases x <;> rfl)

theorem actionOfNums_actionNums (a : Action) : actionOfNums (actionNums a) = a := by
  cases a with
  | fade r c ms => cases r <;> rfl
  | start v h c sync => cases sync <;> rfl
  | page s on => cases on <;> rfl
  | light l c => cases c <;> rfl
  | timer id m per tgt => cases m <;> rfl
  | stop | release | restore | pagePlay | timerCancel | stopAll => rfl
  | _ s m mask ms => cases m <;> simp [actionNums, actionOfNums, recallModeCode, recallModeOf]

theorem settingsCode_reads : settingsCode.Reads :=
  (numCode_reads.pair (numCode_reads.pair (numCode_reads.pair (numCode_reads.opt.pair
    (numCode_reads.opt.list.pair (numCode_reads.pair ((bitsCode_reads 16).pair numCode_reads))))))).via (fun _ => rfl)
theorem locksCode_reads : locksCode.Reads :=
  (flagCode_reads.pair (flagCode_reads.pair (flagCode_reads.pair flagCode_reads))).via (fun _ => rfl)
theorem profileReadCode_reads : profileReadCode.Reads :=
  numCode_reads.pair ((bitsCode_reads 8).pair (numCode_reads.pair ((bitsCode_reads 8).opt.pair
    (numCode_reads.pair (numCode_reads.pair (numCode_reads.pair numCode_reads))))))
theorem profileCommandCode_reads : profileCommandCode.Reads :=
  (bitsCode_reads 8).pair ((bitsCode_reads 8).pair ((bitsCode_reads 8).pair (numCode_reads.pair ((bitsCode_reads 8).pair
    (numCode_reads.pair (flagCode_reads.pair ((bitsCode_reads 8).pair ((bitsCode_reads 8).pair
      (numCode_reads.pair numCode_reads)))))))))
theorem profileCode_reads : profileCode.Reads := (profileReadCode_reads.pair profileCommandCode_reads).via (fun _ => rfl)
theorem sourceCode_reads : sourceCode.Reads := (numCode_reads.pair numCode_reads).via (fun x => by cases x <;> rfl)
theorem inputCode_reads : inputCode.Reads := (sourceCode_reads.pair (flagCode_reads.pair flagCode_reads)).via (fun _ => rfl)
theorem mixCode_reads : mixCode.Reads :=
  (numCode_reads.pair (numCode_reads.opt.pair (flagCode_reads.pair numCode_reads))).via
    (fun ⟨r, _, _, _⟩ => by cases r <;> rfl)
theorem sceneCode_reads : sceneCode.Reads :=
  ((bitsCode_reads 24).pair ((bitsCode_reads 40).pair ((bitsCode_reads 24).pair numCode_reads.list))).via (fun _ => rfl)
theorem zoneCode_reads : zoneCode.Reads :=
  (numCode_reads.opt.pair ((bitsCode_reads 8).pair (numCode_reads.pair (numCode_reads.pair (numCode_reads.pair
    (numCode_reads.pair numCode_reads.opt)))))).via (fun _ => rfl)
theorem pageCode_reads : pageCode.Reads :=
  (sourceCode_reads.pair (numCode_reads.pair (bitsCode_reads 16))).via (fun _ => rfl)
theorem orderCode_reads : orderCode.Reads := (numCode_reads.list.pair flagCode_reads.list).via (fun _ => rfl)
theorem lightCode_reads : lightCode.Reads := (flagCode_reads.pair numCode_reads).via (fun _ => rfl)
theorem segmentCode_reads : segmentCode.Reads :=
  (numCode_reads.pair (numCode_reads.pair (numCode_reads.pair (flagCode_reads.pair (numCode_reads.pair
    numCode_reads.opt))))).via (fun ⟨_, _, _, f, _, _⟩ => by cases f <;> rfl)
theorem cueCode_reads : cueCode.Reads :=
  (numCode_reads.pair ((bitsCode_reads 8).list.pair (flagCode_reads.pair (numCode_reads.pair
    (numCode_reads.opt.pair (numCode_reads.list.via actionOfNums_actionNums).list))))).via (fun _ => rfl)

/-- Every image is read back from the bytes of its tables. -/
theorem imageCode_reads : imageCode.Reads :=
  (settingsCode_reads.pair (locksCode_reads.pair (profileCode_reads.list.pair (numCode_reads.list.pair
    (inputCode_reads.list.pair (mixCode_reads.list.pair (numCode_reads.list.pair (sceneCode_reads.list.pair
    (zoneCode_reads.list.pair (pageCode_reads.list.pair (orderCode_reads.pair (lightCode_reads.list.pair
    (segmentCode_reads.opt.list.pair cueCode_reads.list))))))))))))).via (fun _ => rfl)

theorem maskBytes_maskBytes (l : List Byte) : maskBytes (maskBytes l) = l := by
  apply List.ext_getElem
  · simp [maskBytes]
  · intro i _ _
    simp [maskBytes]

/-- Every image is read back from its body. -/
theorem imageOf_imageBody (i : Image) : imageOf (imageBody i) = some i := by
  have h : imageCode.get (maskBytes (imageBody i)) = some (i, (Config.imageFill i).take (1048560 - (imageCode.put i).length)) := by
    rw [imageBody, maskBytes_maskBytes]
    exact imageCode_reads i _
  simp only [imageOf, h, if_true]

/-- Only the body of an image reads as that image. -/
theorem imageBody_of_imageOf {b : List Byte} {i : Image} (h : imageOf b = some i) : imageBody i = b := by
  unfold imageOf at h
  split at h
  · split at h
    · cases h
      assumption
    · cases h
  · cases h

/-! ### Every body fits (R127) -/

/-- Values for which `P` holds are written in at most `n` bytes. -/
def Coding.Within {α : Type} (c : Coding α) (P : α → Prop) (n : Nat) : Prop := ∀ x, P x → (c.put x).length ≤ n

theorem numBytes_length (fuel : Nat) : ∀ n k, n < 128 ^ (k + 1) → (numBytes fuel n).length ≤ k + 1 := by
  induction fuel with
  | zero => intro n k _; simp [numBytes]
  | succ f ih =>
    intro n k h
    unfold numBytes
    split
    · simp
    · cases k with
      | zero => omega
      | succ k =>
        have := ih (n / 128) k (Nat.div_lt_of_lt_mul (by rw [← Nat.pow_succ']; exact h))
        simp only [List.length_cons]
        omega

/-- Every number of a valid image is below 2^35, so it is written in at most five bytes. -/
abbrev Small (n : Nat) : Prop := n < 34359738368

theorem numCode_within : numCode.Within Small 5 := fun n h => numBytes_length n n 4 h

theorem Coding.Within.pair {α β : Type} {a : Coding α} {b : Coding β} {P : α → Prop} {Q : β → Prop} {n m : Nat}
    (ha : a.Within P n) (hb : b.Within Q m) : (pairCode a b).Within (fun x => P x.1 ∧ Q x.2) (n + m) := by
  intro x h
  have h1 := ha x.1 h.1
  have h2 := hb x.2 h.2
  simp only [pairCode, List.length_append]
  omega

theorem Coding.Within.via {α β : Type} {a : Coding α} {P : α → Prop} {n : Nat} {f : β → α} {g : α → β} (ha : a.Within P n) :
    (viaCode a f g).Within (fun x => P (f x)) n := fun x h => ha (f x) h

theorem flatMap_length_le {α : Type} {a : Coding α} {P : α → Prop} {n : Nat} (ha : a.Within P n) (l : List α) :
    (∀ x, x ∈ l → P x) → (l.flatMap a.put).length ≤ l.length * n := by
  induction l with
  | nil => exact fun _ => by simp
  | cons x xs ih =>
    intro h
    have h1 := ha x (h x List.mem_cons_self)
    have h2 := ih (fun y hy => h y (List.mem_cons_of_mem x hy))
    simp only [List.flatMap_cons, List.length_append, List.length_cons, Nat.add_mul, Nat.one_mul]
    omega

theorem Coding.Within.list {α : Type} {a : Coding α} {P : α → Prop} {n : Nat} (ha : a.Within P n) (m : Nat)
    (hm : Small m) : (listCode a).Within (fun l => l.length ≤ m ∧ ∀ x, x ∈ l → P x) (5 + m * n) := by
  intro l h
  have h1 := numCode_within l.length (lt_of_le_of_lt h.1 hm)
  have h2 := (flatMap_length_le ha l h.2).trans (Nat.mul_le_mul_right n h.1)
  simp only [listCode, List.length_append]
  omega

theorem Coding.Within.mono {α : Type} {a : Coding α} {P Q : α → Prop} {n m : Nat} (ha : a.Within P n)
    (h : ∀ x, Q x → P x) (k : n ≤ m) : a.Within Q m := fun x hx => (ha x (h x hx)).trans k

theorem flagCode_within : flagCode.Within (fun _ => True) 5 :=
  (numCode_within.via (f := Bool.toNat)).mono (fun x _ => by cases x <;> decide) (Nat.le_refl _)

theorem bitsCode_within (w : Nat) (h : 2 ^ w ≤ 34359738368) : (bitsCode w).Within (fun _ => True) 5 :=
  (numCode_within.via (f := BitVec.toNat)).mono (fun x _ => lt_of_lt_of_le x.isLt h) (Nat.le_refl _)

theorem bits40_within : (bitsCode 40).Within (fun _ => True) 6 :=
  fun x _ => numBytes_length _ _ 5 (lt_of_lt_of_le x.isLt (by decide))

theorem Coding.Within.opt {α : Type} {a : Coding α} {P : α → Prop} {n : Nat} (ha : a.Within P n) :
    (optCode a).Within (fun o => ∀ x, o = some x → P x) (5 + n) :=
  ((ha.list 1 (by decide)).via (f := Option.toList)).mono
    (fun o h => ⟨by cases o <;> simp, fun x hx => h x (by cases o <;> simp_all)⟩) (by omega)

theorem optNum_within (b : Nat) (hb : Small b) : (optCode numCode).Within (fun o => optBelow b o = true) 10 :=
  numCode_within.opt.mono (fun o h x e => by subst e; exact lt_trans (by simpa [optBelow] using h) hb) (by omega)

theorem settingsCode_within : settingsCode.Within (fun x => settingsOk x = true) 90 := by
  refine ((numCode_within.pair (numCode_within.pair (numCode_within.pair ((optNum_within 8 (by decide)).pair
    (((optNum_within 8 (by decide)).list 4 (by decide)).pair (numCode_within.pair
      ((bitsCode_within 16 (by decide)).pair numCode_within))))))).via).mono (fun x h => ?_) (by omega)
  simp only [settingsOk, Bool.and_eq_true, decide_eq_true_eq, List.all_eq_true] at h
  obtain ⟨⟨⟨⟨⟨⟨⟨⟨⟨h1, h2⟩, h3⟩, h4⟩, h5⟩, h6⟩, h7⟩, h8⟩, h9⟩, h10⟩ := h
  dsimp only
  exact ⟨by omega, by omega, by omega, h4, ⟨by omega, h6⟩, by omega, trivial, by omega⟩

theorem locksCode_within : locksCode.Within (fun _ => True) 20 :=
  ((flagCode_within.pair (flagCode_within.pair (flagCode_within.pair flagCode_within))).via).mono
    (fun _ _ => ⟨trivial, trivial, trivial, trivial⟩) (by omega)

theorem profileOk_size {d : Nat} {x : Profile} (h : profileOk d x = true) : x.size ≤ 268435456 := by
  simp only [profileOk, Bool.and_eq_true] at h
  obtain ⟨⟨⟨⟨⟨⟨⟨⟨⟨⟨⟨⟨h1, _⟩, _⟩, _⟩, _⟩, _⟩, _⟩, _⟩, _⟩, _⟩, _⟩, _⟩, _⟩ := h
  exact (by decide : ∀ n ∈ deviceSizes, n ≤ 268435456) _ (List.contains_iff_mem.mp h1)

theorem profileCode_within : profileCode.Within (fun x => ∃ d, profileOk d x = true) 100 := by
  have h8 := bitsCode_within 8 (by decide)
  refine ((Coding.Within.pair (a := profileReadCode) (b := profileCommandCode)
    (numCode_within.pair (h8.pair (numCode_within.pair (h8.opt.pair
      (numCode_within.pair (numCode_within.pair (numCode_within.pair numCode_within)))))))
    (h8.pair (h8.pair (h8.pair (numCode_within.pair (h8.pair (numCode_within.pair (flagCode_within.pair
      (h8.pair (h8.pair (numCode_within.pair numCode_within))))))))))).via).mono (fun x h => ?_) (by omega)
  obtain ⟨d, h⟩ := h
  have hs := profileOk_size h
  simp only [profileOk, Bool.and_eq_true, Bool.or_eq_true, decide_eq_true_eq] at h
  obtain ⟨⟨⟨⟨⟨⟨⟨⟨⟨⟨⟨⟨_, _⟩, h2⟩, h3⟩, h4⟩, h5⟩, h6⟩, h7⟩, h9⟩, _⟩, h10⟩, _⟩, h11⟩ := h
  dsimp only
  exact ⟨⟨by omega, trivial, by omega, fun _ _ => trivial, by omega, by omega, by omega, by omega⟩,
    trivial, trivial, trivial, by omega, trivial, by omega, trivial, trivial, trivial, by omega, by omega⟩

theorem sourceCode_within : sourceCode.Within (fun x => sourceOk x = true) 10 := by
  refine ((numCode_within.pair numCode_within).via).mono (fun x h => ?_) (by omega)
  cases x <;> simp [sourceOk, sourceNums] at h ⊢ <;> omega

theorem inputCode_within : inputCode.Within (fun x => sourceOk x.source = true) 20 :=
  ((sourceCode_within.pair (flagCode_within.pair flagCode_within)).via).mono (fun _ h => ⟨h, trivial, trivial⟩) (by omega)

theorem mixCode_within : mixCode.Within (fun x => mixOk x = true) 25 := by
  refine ((numCode_within.pair ((optNum_within 64 (by decide)).pair (flagCode_within.pair numCode_within))).via).mono
    (fun x h => ?_) (by omega)
  simp only [mixOk, Bool.and_eq_true, decide_eq_true_eq] at h
  dsimp only
  exact ⟨by cases x.role <;> decide, h.1.1, trivial, by omega⟩

theorem members_length {w n : Nat} (s : BitVec w) : (members n s).length ≤ n :=
  (List.length_filter_le _ _).trans (by simp)

theorem sceneCode_within : sceneCode.Within (fun x => sceneOk x = true) 4941 := by
  refine (((bitsCode_within 24 (by decide)).pair (bits40_within.pair ((bitsCode_within 24 (by decide)).pair
    (numCode_within.list 984 (by decide))))).via).mono (fun x h => ?_) (by omega)
  simp only [sceneOk, Bool.and_eq_true, decide_eq_true_eq, List.all_eq_true] at h
  have h1 := members_length (n := 24) x.mixes
  have h2 := members_length (n := 40) x.inputs
  have h3 := members_length (n := 24) x.masters
  have h4 := Nat.mul_le_mul h1 h2
  have h5 := h.1.2
  simp only [sceneCodeCount] at h5
  dsimp only
  exact ⟨trivial, trivial, trivial, by omega, fun c hc => by have := h.2 c hc; omega⟩

theorem zoneCode_within : zoneCode.Within (fun x => zoneOk x = true) 45 := by
  refine (((optNum_within 24 (by decide)).pair ((bitsCode_within 8 (by decide)).pair (numCode_within.pair
    (numCode_within.pair (numCode_within.pair (numCode_within.pair (optNum_within 64 (by decide)))))))).via).mono
    (fun x h => ?_) (by omega)
  simp only [zoneOk, Bool.and_eq_true, decide_eq_true_eq] at h
  obtain ⟨⟨⟨⟨⟨h1, h2⟩, h3⟩, h4⟩, h5⟩, h6⟩ := h
  dsimp only
  exact ⟨h1, trivial, by omega, by omega, by omega, by omega, h6⟩

theorem pageCode_within : pageCode.Within (fun x => pageOk x = true) 20 := by
  refine ((sourceCode_within.pair (numCode_within.pair (bitsCode_within 16 (by decide)))).via).mono (fun x h => ?_) (by omega)
  simp only [pageOk, Bool.and_eq_true, decide_eq_true_eq] at h
  dsimp only
  exact ⟨h.1, by omega, trivial⟩

theorem classOrder_small {l : List Nat} (h : isClassOrder l = true) : l.length = 4 ∧ ∀ x, x ∈ l → Small x := by
  simp only [isClassOrder, Bool.and_eq_true, decide_eq_true_eq] at h
  obtain ⟨h4, h⟩ := h
  refine ⟨h4, ?_⟩
  match l, h4 with
  | [a, b, c, d], _ =>
    simp [List.range_succ] at h
    simp
    omega

theorem orderCode_within : orderCode.Within (fun x => isClassOrder x.order = true ∧ x.oddLeads.length = 4) 50 := by
  refine (((numCode_within.list 4 (by decide)).pair (flagCode_within.list 4 (by decide))).via).mono (fun x h => ?_) (by omega)
  have hc := classOrder_small h.1
  dsimp only
  exact ⟨⟨by omega, hc.2⟩, by omega, fun _ _ => trivial⟩

theorem lightCode_within : lightCode.Within (fun x => lightOk x = true) 10 := by
  refine ((flagCode_within.pair numCode_within).via).mono (fun x h => ?_) (by omega)
  simp only [lightOk, Bool.and_eq_true, decide_eq_true_eq] at h
  exact ⟨trivial, by dsimp only; omega⟩

theorem segmentCode_within (p : List Profile) (hp : ∀ x, x ∈ p → x.size ≤ 268435456) :
    segmentCode.Within (fun x => segmentOk p x = true) 35 := by
  refine ((numCode_within.pair (numCode_within.pair (numCode_within.pair (flagCode_within.pair (numCode_within.pair
    (optNum_within 1024 (by decide))))))).via).mono (fun x h => ?_) (by omega)
  simp only [segmentOk, segmentFits, Bool.and_eq_true, decide_eq_true_eq] at h
  obtain ⟨⟨⟨⟨⟨h1, h2⟩, h3⟩, h4⟩, h5⟩, h6⟩ := h
  split at h6
  · cases h6
  · rename_i pr he
    have := hp pr (List.mem_of_getElem? he)
    simp only [Bool.and_eq_true, decide_eq_true_eq] at h6
    dsimp only
    exact ⟨by omega, by omega, by omega, trivial, by omega, h5⟩

theorem refNums_small {r : LevelRef} (h : refOk r = true) :
    Small (refNums r).1 ∧ Small (refNums r).2.1 ∧ Small (refNums r).2.2 := by
  cases r <;> simp [refOk, refNums] at h ⊢ <;> omega

theorem actionNums_small {a : Action} (h : actionOk a = true) :
    (actionNums a).length ≤ 6 ∧ ∀ x, x ∈ actionNums a → Small x := by
  refine ⟨by cases a <;> simp [actionNums], ?_⟩
  cases a with
  | start v hd c sync => cases sync <;> simp [actionOk, actionNums] at h ⊢ <;> omega
  | fade r c ms =>
    have hr : refOk r = true := by cases r <;> simp_all [actionOk]
    have := refNums_small hr
    have hc : c ≤ 255 ∧ ms < 65536 := by cases r <;> simp_all [actionOk]
    simp [actionNums]
    omega
  | page s on => cases on <;> simp [actionOk, actionNums] at h ⊢ <;> omega
  | light l c => cases c <;> simp [actionOk, actionNums, lightCmdCode] at h ⊢ <;> omega
  | timer id m per tgt => cases m <;> simp [actionOk, actionNums, timerModeCode, isCueNum] at h ⊢ <;> omega
  | stop | release | restore | pagePlay | timerCancel | stopAll => simp [actionOk, actionNums] at h ⊢ <;> omega
  | _ s m mask ms =>
    have := mask.isLt
    cases m <;> simp [actionOk, actionNums, recallModeCode] at h ⊢ <;> omega

theorem cueCode_within : cueCode.Within (fun x => cueOk x = true) 450 := by
  refine ((numCode_within.pair (((bitsCode_within 8 (by decide)).list 24 (by decide)).pair (flagCode_within.pair
    (numCode_within.pair ((numCode_within.opt).pair (((numCode_within.list 6 (by decide)).via (f := actionNums)).list 8
      (by decide))))))).via).mono (fun x h => ?_) (by omega)
  simp only [cueOk, isCueNum, Bool.and_eq_true, decide_eq_true_eq, List.all_eq_true] at h
  obtain ⟨⟨⟨⟨⟨⟨h1, h2⟩, _⟩, h3⟩, h4⟩, h5⟩, h6⟩ := h
  dsimp only
  refine ⟨by omega, ⟨h2, fun _ _ => trivial⟩, trivial, by omega, fun ms e => ?_, h5, fun a ha => actionNums_small (h6 a ha)⟩
  rw [e] at h4
  simp only [Bool.and_eq_true, decide_eq_true_eq] at h4
  omega

/-- The two profiles of valid tables. -/
theorem profiles_ok {t : Tables} (h2 : t.profiles.length = 2) (h3 : profileOk 0 (profileRec t 0) = true)
    (h4 : profileOk 1 (profileRec t 1) = true) : ∀ x, x ∈ t.profiles → ∃ d, profileOk d x = true := by
  intro x hx
  unfold profileRec at h3 h4
  match hp : t.profiles, h2 with
  | [a, b], _ =>
    rw [hp] at hx h3 h4
    rcases List.mem_cons.mp hx with rfl | hb
    · exact ⟨0, h3⟩
    · rw [List.mem_singleton.mp hb]
      exact ⟨1, h4⟩

/-- The tables of every valid image fit. -/
theorem imageCode_within : imageCode.Within (fun i => imageValid i = true) 1048560 := by
  intro i h
  simp only [imageValid, tablesValid, lawOk, cueListOk, Bool.and_eq_true, decide_eq_true_eq, List.all_eq_true] at h
  obtain ⟨⟨⟨⟨⟨⟨⟨⟨⟨⟨⟨⟨⟨⟨⟨⟨⟨⟨⟨⟨⟨⟨⟨⟨⟨h1, h2⟩, h3⟩, h4⟩, ⟨⟨⟨h5, _⟩, _⟩, h6⟩⟩, h7⟩, h8⟩, h9⟩, h10⟩, h11⟩, h12⟩, h13⟩, h14⟩, _⟩,
    h15⟩, h16⟩, h17⟩, h18⟩, h19⟩, h20⟩, h21⟩, h22⟩, ⟨h23, _⟩⟩, h24⟩, h25⟩, h26⟩ := h
  have hp := profiles_ok h2 h3 h4
  have hseg := segmentCode_within i.tables.profiles (fun x hx => profileOk_size (hp x hx).choose_spec)
  have hb := settingsCode_within.pair (locksCode_within.pair ((profileCode_within.list 2 (by decide)).pair
    ((numCode_within.list 256 (by decide)).pair ((inputCode_within.list 40 (by decide)).pair
    ((mixCode_within.list 24 (by decide)).pair ((numCode_within.list 1056 (by decide)).pair
    ((sceneCode_within.list 32 (by decide)).pair ((zoneCode_within.list 16 (by decide)).pair
    ((pageCode_within.list 8 (by decide)).pair (orderCode_within.pair ((lightCode_within.list 8 (by decide)).pair
    ((hseg.opt.list 1024 (by decide)).pair (cueCode_within.list 512 (by decide))))))))))))))
  refine (hb _ ?_).trans (by omega)
  refine ⟨h1, trivial, ⟨h2.le, hp⟩, ⟨h5.le, fun x hx => lt_of_le_of_lt (h6 x hx) (by decide)⟩, ⟨h7.le, h8⟩, ⟨h9.le, h10⟩,
    ⟨h25.le, fun x hx => lt_of_le_of_lt (h26 x hx) (by decide)⟩, ⟨h11.le, h12⟩, ⟨h13.le, h14⟩, ⟨h15.le, h16⟩, ⟨h17, h18⟩,
    ⟨h19.le, h20⟩, ⟨h21.le, fun x hx y hy => ?_⟩, ⟨h23, h24⟩⟩
  subst hy
  exact h22 _ hx

/-- Every body of a valid image has at least one byte and fits (R127). -/
theorem imageBody_length {i : Image} (h : imageValid i = true) :
    1 ≤ (imageBody i).length ∧ (imageBody i).length ≤ 1048560 := by
  have hw := imageCode_within i h
  have hn : 1 ≤ (imageCode.put i).length := by
    have h0 := imageCode_reads i []
    rcases hz : imageCode.put i with _ | ⟨b, l⟩
    · rw [hz] at h0
      cases h0
    · simp
  simp only [imageBody, maskBytes, List.length_mapIdx, List.length_append, List.length_take]
  omega

/-! ### What a save writes is accepted -/

/-- The header of a valid image's body passes its checks (R131, R204). -/
theorem headerCheck_imageHeader {i : Image} (h : imageValid i = true) :
    headerCheck (imageHeader (imageBody i)) = .ok (imageBody i).length := by
  have hl := imageBody_length h
  have m : (imageHeader (imageBody i)).take 4 = [0x50, 0x48, 0x31, 0x36] := rfl
  have v : u32 (imageHeader (imageBody i)) 4 = 1 := by
    have := le32_u32 1 (by decide) [0x50, 0x48, 0x31, 0x36] (le32 (imageBody i).length ++ le32 (crc32 (imageBody i)))
    rw [show ([0x50, 0x48, 0x31, 0x36] : List Byte).length = 4 from rfl] at this
    simpa only [imageHeader, List.append_assoc] using this
  have n : u32 (imageHeader (imageBody i)) 8 = (imageBody i).length := by
    have := le32_u32 (imageBody i).length (by omega) ([0x50, 0x48, 0x31, 0x36] ++ le32 1) (le32 (crc32 (imageBody i)))
    rw [show ([0x50, 0x48, 0x31, 0x36] ++ le32 1 : List Byte).length = 8 from rfl] at this
    simpa only [imageHeader, List.append_assoc] using this
  simp only [headerCheck, m, v, n]
  rw [if_neg (by simp), if_neg (by simp), if_neg (by omega)]

/-- A device that holds the header and body of a valid image holds one that is accepted (R131), whatever
else it holds. -/
theorem checkImage_of_stored {read : Nat → Nat → List Byte} {i : Image} (h : imageValid i = true)
    (e1 : read 0 16 = imageHeader (imageBody i)) (e2 : read 16 (imageBody i).length = imageBody i) :
    checkImage read = .ok i := by
  have c : u32 (imageHeader (imageBody i)) 12 = crc32 (imageBody i) := by
    have := le32_u32 _ (crc32_lt (imageBody i)) ([0x50, 0x48, 0x31, 0x36] ++ le32 1 ++ le32 (imageBody i).length) []
    rw [show ([0x50, 0x48, 0x31, 0x36] ++ le32 1 ++ le32 (imageBody i).length : List Byte).length = 12 from rfl] at this
    simpa only [imageHeader, List.append_assoc, List.append_nil] using this
  simp only [checkImage, e1, headerCheck_imageHeader h, e2, c, imageOf_imageBody, h, if_true]
  rw [if_neg (by simp)]

/-- A device erased and then programmed with an image reads back its header and its body. -/
theorem readRange_imageBytes (i : Image) :
    Memory.readRange (Memory.program [] 0 (imageBytes i)) 0 16 = imageHeader (imageBody i)
    ∧ Memory.readRange (Memory.program [] 0 (imageBytes i)) 16 (imageBody i).length = imageBody i := by
  have hh := imageHeader_length (imageBody i)
  constructor
  · rw [readRange_program _ _ _ (by simp only [imageBytes, List.length_append, hh]; omega)]
    simp [imageBytes, ← hh]
  · rw [readRange_program _ _ _ (by simp only [imageBytes, List.length_append, hh]; omega)]
    simp [imageBytes, ← hh]

/-- A good header read is followed by the read of the body (R131). -/
theorem contentReadDone_header (read : Nat → Nat → Nat → List Byte) (t : Tables) (r : Run) (q : BusSeq) (n : Nat)
    (e : r.flash.bus = some { kind := .imageHeader, seq := q }) (h : headerCheck (read 0 0 16) = .ok n) :
    contentReadDone read t r = { r with flash := { r.flash with
      bus := some { kind := .imageBody n, seq := readSeq Profile.default 0 16 n } } } := by
  simp only [contentReadDone, e, imageHeaderDone, h]

/-- A device erased and then programmed with a valid image holds one that is accepted. -/
theorem checkImage_imageBytes (i : Image) (h : imageValid i = true) :
    checkImage (Memory.readRange (Memory.program [] 0 (imageBytes i))) = .ok i :=
  checkImage_of_stored h (readRange_imageBytes i).1 (readRange_imageBytes i).2

end Sys2Proof.Machine
end

