-- ==== Sys2Proof/Laws/Lane.lean ====
section
/-! SUPPORT. What leaves with a good frame: the claimed slots (R180, R181), the message the outgoing arbiter chooses
(R188, R191, R193), and what its last fragment leaves (R197). -/

namespace Sys2Proof.Machine

open Sys2Proof

/-! ### Slots -/

/-- The claims of a slot map are those of the mix records (R180). -/
theorem mem_slotClaims_mix (t : Tables) (i n : Nat) :
    (.mix i, n) ∈ slotClaims t ↔ t.mixes[i]?.bind MixRec.slot = some n := by
  simp [slotClaims, List.mem_zipIdx_iff_getElem?, Option.bind_eq_some_iff]

/-- And those of the zone records (R180). -/
theorem mem_slotClaims_zone (t : Tables) (i n : Nat) :
    (.zone i, n) ∈ slotClaims t ↔ t.zones[i]?.bind ZoneRec.slot = some n := by
  simp [slotClaims, List.mem_zipIdx_iff_getElem?, Option.bind_eq_some_iff]

theorem foldl_set_length {α β : Type} (g : β → α) (c : List (β × Nat)) : ∀ l : List α,
    (c.foldl (fun l e => l.set e.2 (g e.1)) l).length = l.length := by
  induction c with
  | nil => exact fun _ => rfl
  | cons e rest ih => intro l; rw [List.foldl_cons, ih, List.length_set]

theorem foldl_set_other {α β : Type} (g : β → α) (n : Nat) : ∀ (c : List (β × Nat)) (l : List α),
    n ∉ c.map Prod.snd → (c.foldl (fun l e => l.set e.2 (g e.1)) l)[n]? = l[n]? := by
  intro c
  induction c with
  | nil => exact fun _ _ => rfl
  | cons e rest ih =>
    intro l h
    simp only [List.map_cons, List.mem_cons, not_or] at h
    rw [List.foldl_cons, ih _ h.2, List.getElem?_set_ne (Ne.symm h.1)]

theorem foldl_set_mem {α β : Type} (g : β → α) (o : β) (n : Nat) : ∀ (c : List (β × Nat)) (l : List α),
    (c.map Prod.snd).Nodup → (o, n) ∈ c → n < l.length →
    (c.foldl (fun l e => l.set e.2 (g e.1)) l)[n]? = some (g o) := by
  intro c
  induction c with
  | nil => intro l _ h; cases h
  | cons e rest ih =>
    intro l hd h hn
    rw [List.map_cons, List.nodup_cons] at hd
    rw [List.foldl_cons]
    rcases List.mem_cons.1 h with rfl | h
    · rw [foldl_set_other g n rest _ hd.1, List.getElem?_set_self hn]
    · exact ih _ hd.2 h (by rwa [List.length_set])

theorem slotsOut_length (t : Tables) (r : Run) (slots : List Sample) : (slotsOut t r slots).length = slots.length :=
  foldl_set_length _ _ _

/-- An unclaimed slot leaves as it arrived (R181). -/
theorem slotsOut_unclaimed (t : Tables) (r : Run) (slots : List Sample) (n : Nat) (h : ∀ o, (o, n) ∉ slotClaims t) :
    (slotsOut t r slots)[n]? = slots[n]? :=
  foldl_set_other _ n _ _ (fun hn => by
    obtain ⟨⟨o, k⟩, he, rfl⟩ := List.mem_map.1 hn
    exact h o he)

/-- A claimed slot leaves with its owner's value (R181). -/
theorem slotsOut_claimed (t : Tables) (r : Run) (slots : List Sample) (o : SlotOwner) (n : Nat)
    (h : claimsDistinct t = true) (hc : (o, n) ∈ slotClaims t) (hn : n < slots.length) :
    (slotsOut t r slots)[n]? = some (ownerValue r o) :=
  foldl_set_mem _ o n _ _ (by simpa [claimsDistinct] using h) hc hn

/-! ### Sending -/

/-- The oldest formed reply is chosen (R188, R191). -/
theorem chooseMessage_reply (r : Run) (before : List Place) (p : Place) (rest : List Place)
    (h0 : r.port.sending = none) (hp : r.ctl.places = before ++ p :: rest) (hb : ∀ q, q ∈ before → q.answer = none)
    (ha : p.answer.isSome) :
    chooseMessage r = { r with port := { r.port with sending := some { item := .reply before.length, sent := 0 } } } := by
  have e : r.ctl.places.findIdx? (fun p => p.answer.isSome) = some before.length := by
    rw [hp, List.findIdx?_append, List.findIdx?_eq_none_iff.2 (fun q hq => by simp [hb q hq])]
    simp [List.findIdx?_cons, ha]
  simp only [chooseMessage, h0, e]

/-- With no reply formed the oldest report is chosen, and takes its lost field (R188, R193). -/
theorem chooseMessage_report (r : Run) (y : Report) (rest : List Report) (h0 : r.port.sending = none)
    (hp : ∀ p, p ∈ r.ctl.places → p.answer = none) (hr : r.ctl.reports = y :: rest) :
    chooseMessage r = { r with
      port := { r.port with sending := some { item := .report, sent := 0 } }
      ctl := { r.ctl with
        reports := { y with lost := some r.ctl.lossPending } :: rest, lossPending := false } } := by
  have e : r.ctl.places.findIdx? (fun p => p.answer.isSome) = none :=
    List.findIdx?_eq_none_iff.2 (fun q hq => by simp [hp q hq])
  simp only [chooseMessage, h0, e, chooseReport, hr]

/-- A reply that has gone whole frees its place, and makes a RESTART due if it was the reply of one (R191, R197). -/
theorem finishSending_reply (r : Run) (before : List Place) (p : Place) (rest : List Place) (n : Nat)
    (hs : r.port.sending = some { item := .reply before.length, sent := n }) (hp : r.ctl.places = before ++ p :: rest) :
    finishSending r = { r with
      port := { r.port with sending := none }
      ctl := { r.ctl with places := before ++ rest, restartDue := r.ctl.restartDue || isRestartReply p } } := by
  simp [finishSending, hs, hp, List.eraseIdx_append_of_length_le]

/-- A report that has gone whole leaves its queue (R193). -/
theorem finishSending_report (r : Run) (y : Report) (rest : List Report) (n : Nat)
    (hs : r.port.sending = some { item := .report, sent := n }) (hr : r.ctl.reports = y :: rest) :
    finishSending r = { r with port := { r.port with sending := none }, ctl := { r.ctl with reports := rest } } := by
  simp [finishSending, hs, hr]

end Sys2Proof.Machine
end

