-- ==== Sys2Proof/Laws/PerInstr.lean ====
section
/-! SUPPORT. Facts of every command as syntax, one lemma per constructor: a well-formed request carries at
most 1,024 bytes of payload (R187), and its kind is read back from its value (Table 13-6). -/

namespace Sys2Proof.Laws

open Sys2Proof Sys2Proof.Machine

/-- What holds of every command as syntax. -/
def Table.Statement (i : Instr) : Prop :=
  ∀ k m, requestOf i = some (k, m) → wellFormed i = true →
    m.payload.length ≤ 1024 ∧ 1 ≤ k.code ∧ k.code ≤ 43 ∧ ReqKind.ofCode k.code = some k

theorem Table.kind_code (k : ReqKind) : 1 ≤ k.code ∧ k.code ≤ 43 ∧ ReqKind.ofCode k.code = some k := by
  cases k <;> decide

theorem Table.ofRequest {i : Instr} {k : ReqKind} {m : Msg} (h : requestOf i = some (k, m))
    (w : wellFormed i = true → m.ok = true) : Table.Statement i := by
  intro k' m' h' hw
  rw [h] at h'
  cases h'
  exact ⟨by simpa [Msg.ok] using w hw, Table.kind_code k⟩

theorem Table.ofNone {i : Instr} (h : requestOf i = none) : Table.Statement i := by
  intro k m h'
  rw [h] at h'
  cases h'

theorem Table.ok_of_withOp {m : Msg} {op : Byte} (h : m.withOp op = true) : m.ok = true := by
  simp only [Msg.withOp, Bool.and_eq_true] at h
  exact h.1

theorem Table.powerOn (straps : Byte) : Table.Statement (.powerOn straps) := Table.ofNone rfl
theorem Table.imageLoadEnd (x : Unit) : Table.Statement (.imageLoadEnd x) := Table.ofNone rfl
theorem Table.frameArrival (f : FrameIn) : Table.Statement (.frameArrival f) := Table.ofNone rfl
theorem Table.voiceStarved (voice : Nat) : Table.Statement (.voiceStarved voice) := Table.ofNone rfl
theorem Table.reassemblyTimeout (source : Nat) : Table.Statement (.reassemblyTimeout source) := Table.ofNone rfl
theorem Table.ringLoss : Table.Statement .ringLoss := Table.ofNone rfl
theorem Table.fadeComplete (ref : LevelRef) : Table.Statement (.fadeComplete ref) := Table.ofNone rfl
theorem Table.guardWindowClose : Table.Statement .guardWindowClose := Table.ofNone rfl
theorem Table.prewaitExpiry : Table.Statement .prewaitExpiry := Table.ofNone rfl
theorem Table.followExpiry : Table.Statement .followExpiry := Table.ofNone rfl
theorem Table.timerExpiry : Table.Statement .timerExpiry := Table.ofNone rfl
theorem Table.holdExpiry (zone : Nat) : Table.Statement (.holdExpiry zone) := Table.ofNone rfl
theorem Table.goHoldEnd (light : Nat) : Table.Statement (.goHoldEnd light) := Table.ofNone rfl
theorem Table.goKeyPress : Table.Statement .goKeyPress := Table.ofNone rfl
theorem Table.talkKeyChange (down : Bool) : Table.Statement (.talkKeyChange down) := Table.ofNone rfl
theorem Table.showStopKeyPress : Table.Statement .showStopKeyPress := Table.ofNone rfl
theorem Table.pageKeyPress (key : Nat) : Table.Statement (.pageKeyPress key) := Table.ofNone rfl
theorem Table.pageKeyRelease (key : Nat) : Table.Statement (.pageKeyRelease key) := Table.ofNone rfl
theorem Table.acknowledge (light : Nat) : Table.Statement (.acknowledge light) := Table.ofNone rfl
theorem Table.fetchComplete : Table.Statement .fetchComplete := Table.ofNone rfl
theorem Table.flashCommandComplete : Table.Statement .flashCommandComplete := Table.ofNone rfl
theorem Table.pollDue : Table.Statement .pollDue := Table.ofNone rfl
theorem Table.pollComplete (status : Byte) : Table.Statement (.pollComplete status) := Table.ofNone rfl
theorem Table.saveStepDue : Table.Statement .saveStepDue := Table.ofNone rfl
theorem Table.contentReadComplete : Table.Statement .contentReadComplete := Table.ofNone rfl
theorem Table.resetCommandComplete : Table.Statement .resetCommandComplete := Table.ofNone rfl
theorem Table.messageNotRequest (kind : Byte) (m : Msg) : Table.Statement (.messageNotRequest kind m) := Table.ofNone rfl
theorem Table.unknownKind (kind : Byte) (m : Msg) : Table.Statement (.unknownKind kind m) := Table.ofNone rfl
theorem Table.setLevel (m : Msg) : Table.Statement (.setLevel m) := Table.ofRequest rfl id
theorem Table.fadeLevel (m : Msg) : Table.Statement (.fadeLevel m) := Table.ofRequest rfl id
theorem Table.loadLaw (m : Msg) : Table.Statement (.loadLaw m) := Table.ofRequest rfl id
theorem Table.loadInput (m : Msg) : Table.Statement (.loadInput m) := Table.ofRequest rfl id
theorem Table.loadMix (m : Msg) : Table.Statement (.loadMix m) := Table.ofRequest rfl id
theorem Table.talkSet (m : Msg) : Table.Statement (.talkSet m) := Table.ofRequest rfl id
theorem Table.readMeters (m : Msg) : Table.Statement (.readMeters m) := Table.ofRequest rfl id
theorem Table.loadScene (m : Msg) : Table.Statement (.loadScene m) := Table.ofRequest rfl id
theorem Table.recall (m : Msg) : Table.Statement (.recall m) := Table.ofRequest rfl id
theorem Table.restore (m : Msg) : Table.Statement (.restore m) := Table.ofRequest rfl id
theorem Table.loadCue (m : Msg) : Table.Statement (.loadCue m) := Table.ofRequest rfl id
theorem Table.deleteCue (m : Msg) : Table.Statement (.deleteCue m) := Table.ofRequest rfl id
theorem Table.clearCues (m : Msg) : Table.Statement (.clearCues m) := Table.ofRequest rfl id
theorem Table.go (m : Msg) : Table.Statement (.go m) := Table.ofRequest rfl id
theorem Table.goTo (m : Msg) : Table.Statement (.goTo m) := Table.ofRequest rfl id
theorem Table.setStandby (m : Msg) : Table.Statement (.setStandby m) := Table.ofRequest rfl id
theorem Table.readCue (m : Msg) : Table.Statement (.readCue m) := Table.ofRequest rfl id
theorem Table.readWaits (m : Msg) : Table.Statement (.readWaits m) := Table.ofRequest rfl id
theorem Table.loadSegment (m : Msg) : Table.Statement (.loadSegment m) := Table.ofRequest rfl id
theorem Table.voiceStart (m : Msg) : Table.Statement (.voiceStart m) := Table.ofRequest rfl Table.ok_of_withOp
theorem Table.voiceStop (m : Msg) : Table.Statement (.voiceStop m) := Table.ofRequest rfl Table.ok_of_withOp
theorem Table.voiceRelease (m : Msg) : Table.Statement (.voiceRelease m) := Table.ofRequest rfl Table.ok_of_withOp
theorem Table.readVoice (m : Msg) : Table.Statement (.readVoice m) := Table.ofRequest rfl id
theorem Table.loadProfile (m : Msg) : Table.Statement (.loadProfile m) := Table.ofRequest rfl id
theorem Table.flashErase (m : Msg) : Table.Statement (.flashErase m) := Table.ofRequest rfl id
theorem Table.flashWrite (m : Msg) : Table.Statement (.flashWrite m) := Table.ofRequest rfl id
theorem Table.flashRead (m : Msg) : Table.Statement (.flashRead m) := Table.ofRequest rfl id
theorem Table.flashReset (m : Msg) : Table.Statement (.flashReset m) := Table.ofRequest rfl id
theorem Table.saveShow (m : Msg) : Table.Statement (.saveShow m) := Table.ofRequest rfl id
theorem Table.loadZone (m : Msg) : Table.Statement (.loadZone m) := Table.ofRequest rfl id
theorem Table.loadPageSource (m : Msg) : Table.Statement (.loadPageSource m) := Table.ofRequest rfl id
theorem Table.loadPageOrder (m : Msg) : Table.Statement (.loadPageOrder m) := Table.ofRequest rfl id
theorem Table.pagingSet (m : Msg) : Table.Statement (.pagingSet m) := Table.ofRequest rfl id
theorem Table.pageOn (m : Msg) : Table.Statement (.pageOn m) := Table.ofRequest rfl Table.ok_of_withOp
theorem Table.pageOff (m : Msg) : Table.Statement (.pageOff m) := Table.ofRequest rfl Table.ok_of_withOp
theorem Table.readZone (m : Msg) : Table.Statement (.readZone m) := Table.ofRequest rfl id
theorem Table.setShowState (m : Msg) : Table.Statement (.setShowState m) := Table.ofRequest rfl id
theorem Table.setLocks (m : Msg) : Table.Statement (.setLocks m) := Table.ofRequest rfl id
theorem Table.showStop (m : Msg) : Table.Statement (.showStop m) := Table.ofRequest rfl id
theorem Table.showResume (m : Msg) : Table.Statement (.showResume m) := Table.ofRequest rfl id
theorem Table.loadLight (m : Msg) : Table.Statement (.loadLight m) := Table.ofRequest rfl id
theorem Table.lightSet (m : Msg) : Table.Statement (.lightSet m) := Table.ofRequest rfl id
theorem Table.loadSettings (m : Msg) : Table.Statement (.loadSettings m) := Table.ofRequest rfl id
theorem Table.readStatus (m : Msg) : Table.Statement (.readStatus m) := Table.ofRequest rfl id
theorem Table.restart (m : Msg) : Table.Statement (.restart m) := Table.ofRequest rfl id
theorem Table.restartCarriedOut : Table.Statement .restartCarriedOut := Table.ofNone rfl
theorem Table.writeEnableComplete : Table.Statement .writeEnableComplete := Table.ofNone rfl

end Sys2Proof.Laws
end

