-- ==== Sys2Proof/Laws/Playing.lean ====
section
/-! SUPPORT. What one voice and every voice do on a frame (R96 to R98), what a request to enter the wait list does
(R73 to R76), and a firing of a cue (R65). -/

namespace Sys2Proof.Machine

open Sys2Proof

/-- A voice that is not heard gives 0 and stands (R96). -/
theorem playVoice_silent (t : Tables) (v : Nat) (r : Run)
    (h : ¬ ((r.voice v).state = .playing ∨ (r.voice v).state = .stopping)) : playVoice t v r = (r, 0) := by
  simp only [playVoice]
  rw [if_neg h]

/-- A heard voice plays the front of its buffer through its fader (R96). -/
theorem playVoice_sample (t : Tables) (v : Nat) (r : Run) (y : BufSample) (rest : List BufSample)
    (h : (r.voice v).state = .playing ∨ (r.voice v).state = .stopping) (e : (r.voice v).buffer = y :: rest) :
    playVoice t v r = (endCheck t v (r.onVoice v (fun z => { z with buffer := rest })),
      sat (scaled y.value (gain t.law (r.lv.get (.fader v)).fine))) := by
  simp only [playVoice]
  rw [if_pos h, e]

/-- A heard voice with nothing buffered gives 0, and misses a sample unless it has ended (R97). -/
theorem playVoice_empty (t : Tables) (v : Nat) (r : Run)
    (h : (r.voice v).state = .playing ∨ (r.voice v).state = .stopping) (e : (r.voice v).buffer = []) :
    playVoice t v r =
      if (r.voice v).cursor.isNone && (r.voice v).reserved = 0 then (r, 0)
      else
        let r1 := r.onVoice v (fun y => { y with missed := min 4096 (y.missed + 1) })
        (if (r.voice v).missed = 0 then r1.report t (.underrun v (r.voice v).startId) else r1, 0) := by
  simp only [playVoice]
  rw [if_pos h, e]

/-- The first `n` voices on a frame: the state they leave, and their outputs by number (R96). -/
theorem playSteps (t : Tables) (r : Run) : ∀ n,
    let p := (List.range n).foldl (playStep t) { run := r, out := [] }
    p.run = forEach n (fun v y => (playVoice t v y).1) r ∧ p.out.length = n
    ∧ ∀ v, v < n → p.out[v]? = some (playVoice t v (forEach v (fun u y => (playVoice t u y).1) r)).2
  | 0 => ⟨rfl, rfl, fun v h => by omega⟩
  | n + 1 => by
    obtain ⟨a, b, c⟩ := playSteps t r n
    simp only [List.range_succ, List.foldl_append, List.foldl_cons, List.foldl_nil, playStep]
    refine ⟨?_, by simp [b], fun v hv => ?_⟩
    · rw [a]
      simp only [forEach, List.range_succ, List.foldl_append, List.foldl_cons, List.foldl_nil]
    · by_cases h : v < n
      · rw [List.getElem?_append_left (by omega)]
        exact c v h
      · obtain rfl : v = n := by omega
        rw [List.getElem?_append_right (by omega), b, a]
        simp

/-- Every voice on a frame (R96). -/
theorem playAll_spec (t : Tables) (r : Run) :
    (playAll t r).run = forEach 16 (fun v y => (playVoice t v y).1) r
    ∧ ∀ v, v < 16 → (playAll t r).out[v]? = some (playVoice t v (forEach v (fun u y => (playVoice t u y).1) r)).2 :=
  ⟨(playSteps t r 16).1, (playSteps t r 16).2.2⟩

/-- An entry stands behind every entry that expires no later, up to the first that expires later (R73). -/
theorem placeWait_eq (w : Wait) : ∀ l : List Wait,
    placeWait w l = l.takeWhile (fun x => x.expiry ≤ w.expiry) ++ w :: l.dropWhile (fun x => x.expiry ≤ w.expiry)
  | [] => rfl
  | x :: rest => by
    by_cases h : x.expiry ≤ w.expiry
    · simp [placeWait, h, placeWait_eq w rest]
    · simp [placeWait, h]

/-- What `entersWait` says holds of a FOLLOW and a PREWAIT asked to enter. -/
theorem enterWait_enters (t : Tables) (k : WaitKind) (ms : Nat) (r : Run) (hk : k.code ≠ 2) :
    entersWait t k ms r (enterWait t k ms r).run (enterWait t k ms r).entered := by
  have hr : ∀ old, restartKind old k = some k := by
    intro old
    cases k with
    | timer => exact absurd rfl hk
    | prewait n => cases old <;> rfl
    | follow n => cases old <;> rfl
  have hd : r.waits.filter (fun w => !(w.what.code = k.code && w.what.key = k.key)) = dropWait k r.waits := by
    simp [dropWait, WaitKind.same]
  simp only [entersWait, hd]
  unfold enterWait
  match h : r.waits.find? (fun w => w.what.same k) with
  | some old =>
    have hm := List.mem_of_find?_eq_some h
    have hs := List.find?_some h
    have hl : (dropWait k r.waits).length < r.waits.length := by
      simp only [dropWait]
      exact List.length_filter_lt_length_iff_exists.mpr ⟨old, hm, by simpa using hs⟩
    rw [if_pos (Or.inl hl)]
    simp only [h, hr, placeWait_eq]
    exact ⟨trivial, rfl⟩
  | none =>
    have hf : dropWait k r.waits = r.waits := by
      simp only [dropWait, List.filter_eq_self]
      intro a ha
      simpa using List.find?_eq_none.mp h a ha
    simp only [h, hf]
    by_cases hl : r.waits.length < 32
    · rw [if_pos (Or.inr hl), if_pos hl]
      simp only [placeWait_eq]
      exact ⟨trivial, rfl⟩
    · rw [if_neg (by omega), if_neg hl]
      exact ⟨rfl, rfl⟩

/-- What `firing` says holds of a firing (R65). -/
theorem fire_firing (t : Tables) (c : Cue) (why : Cause) (r : Run) : firing t c why r (fire t c why r) := by
  let pos := if why = .timer then r.cue.pos else c.num
  let r1 := ({ r with cue := { r.cue with pos := pos } } : Run).report t (.cueFired c.num why)
  let r2 := enterFollow t c why r1
  let e := enterWait t (.prewait c.num) c.prewait r2
  refine ⟨r2, if c.prewait = 0 then r2 else e.run, !decide (c.prewait = 0) && e.entered, ?_, ?_, ?_, ?_, ?_⟩
  · intro h
    simp only [r2, enterFollow]
    rcases h with h | h
    · subst h
      split <;> simp [r1, pos]
    · rw [h]
  · intro ms h1 h2
    refine ⟨(enterWait t (.follow c.num) ms r1).entered, ?_⟩
    have : r2 = (enterWait t (.follow c.num) ms r1).run := by simp only [r2, enterFollow, h2]; rw [if_neg h1]
    rw [this]
    exact enterWait_enters t _ ms r1 (fun h => nomatch h)
  · intro h
    simp [h]
  · intro h
    simp only [h, if_false, decide_false, Bool.not_false, Bool.true_and]
    exact enterWait_enters t _ _ r2 (fun h => nomatch h)
  · show fire t c why r = _
    by_cases h : c.prewait = 0
    · simp only [fire, enterPrewait, h, if_true, decide_true, Bool.not_true, Bool.false_and, Bool.false_eq_true, if_false]
      rfl
    · simp only [fire, enterPrewait, h, if_false, decide_false, Bool.not_false, Bool.true_and]
      rfl

end Sys2Proof.Machine
end

