-- ==== Sys2Proof/Laws/Zones.lean ====
section
/-! SUPPORT. What a recomputation makes of a zone and its duck attenuation, and what it leaves of every other zone
(R145, R148 to R150). -/

namespace Sys2Proof.Machine

open Sys2Proof

/-- What a write of a duck attenuation does to its zone and level (R4, R5, R8, R150). -/
theorem writeDuck_eq (z code ms : Nat) (r : Run) (l : Level) (h : r.lv.ducks[z]? = some l) :
    writeDuck z code ms r =
      let r1 : Run := { r with lv := { r.lv with ducks := r.lv.ducks.set z (l.write code ms) } }
      if (l.write code ms).fade = none then duckNotice z r1 else r1 := by
  have hz : z < r.lv.ducks.length := by
    by_contra k
    rw [List.getElem?_eq_none (by omega)] at h
    cases h
  have e1 : r.writeLevel (.duck z) code ms = { r with lv := { r.lv with ducks := r.lv.ducks.set z (l.write code ms) } } := by
    simp [Run.writeLevel, Levels.get?, h, Levels.put]
  have e2 : ({ r.lv with ducks := r.lv.ducks.set z (l.write code ms) } : Levels).get (.duck z) = l.write code ms := by
    simp [Levels.get, Levels.get?, hz]
  simp only [writeDuck, e1, e2, Level.atRest, Option.isNone_iff_eq_none]

/-- What an operation on zone `z` leaves: every other zone and its duck, and all that eligibility reads (R145). -/
structure ZoneFrame (z : Nat) (r r' : Run) : Prop where
  zones : ∀ u, u ≠ z → r'.page.zones[u]? = r.page.zones[u]?
  ducks : ∀ u, u ≠ z → r'.lv.ducks[u]? = r.lv.ducks[u]?
  size  : r'.page.zones.length = r.page.zones.length
  srcs  : r'.page.srcs = r.page.srcs
  mask  : r'.page.mask = r.page.mask
  stop  : r'.page.stopPage = r.page.stopPage
  port  : r'.port = r.port

theorem ZoneFrame.refl (z : Nat) (r : Run) : ZoneFrame z r r := ⟨fun _ _ => rfl, fun _ _ => rfl, rfl, rfl, rfl, rfl, rfl⟩

theorem ZoneFrame.trans {z : Nat} {a b c : Run} (h : ZoneFrame z a b) (k : ZoneFrame z b c) : ZoneFrame z a c :=
  ⟨fun u e => (k.zones u e).trans (h.zones u e), fun u e => (k.ducks u e).trans (h.ducks u e), k.size.trans h.size,
   k.srcs.trans h.srcs, k.mask.trans h.mask, k.stop.trans h.stop, k.port.trans h.port⟩

theorem ZoneFrame.onZone (z : Nat) (r : Run) (f : ZoneRt → ZoneRt) : ZoneFrame z r (r.onZone z f) :=
  ⟨fun u e => by simp [Ne.symm e], fun _ _ => rfl, by simp, rfl, rfl, rfl, rfl⟩

theorem ZoneFrame.report (z : Nat) (t : Tables) (b : ReportBody) (r : Run) : ZoneFrame z r (r.report t b) := by
  unfold Run.report Run.reportAt
  split
  · exact .refl z r
  · split
    · exact ⟨fun _ _ => rfl, fun _ _ => rfl, rfl, rfl, rfl, rfl, rfl⟩
    · exact ⟨fun _ _ => rfl, fun _ _ => rfl, rfl, rfl, rfl, rfl, rfl⟩

theorem ZoneFrame.duckNotice (z : Nat) (r : Run) : ZoneFrame z r (duckNotice z r) := by
  unfold Machine.duckNotice
  split
  · exact .onZone z r _
  · exact .refl z r

theorem ZoneFrame.writeDuck (z code ms : Nat) (r : Run) : ZoneFrame z r (writeDuck z code ms r) := by
  have h : ZoneFrame z r (r.writeLevel (.duck z) code ms) := by
    unfold Run.writeLevel
    split
    · exact ⟨fun _ _ => rfl, fun u e => by simp [Levels.put, Ne.symm e], rfl, rfl, rfl, rfl, rfl⟩
    · exact .refl z r
  unfold Machine.writeDuck
  simp only
  split
  · exact h.trans (.duckNotice z _)
  · exact h

theorem ZoneFrame.arbitrateZone (t : Tables) (z : Nat) (r : Run) : ZoneFrame z r (arbitrateZone t z r) := by
  unfold Machine.arbitrateZone
  simp only
  split
  · exact .refl z r
  · unfold changeAir
    simp only
    split
    · split
      · exact ((ZoneFrame.onZone z r _).trans (.report z t _ _)).trans (.writeDuck z _ _ _)
      · exact (ZoneFrame.onZone z r _).trans (.report z t _ _)
    · split
      · exact ((ZoneFrame.onZone z r _).trans (.report z t _ _)).trans ((ZoneFrame.onZone z _ _).trans (.writeDuck z _ _ _))
      · exact (ZoneFrame.onZone z r _).trans (.report z t _ _)

/-- What belongs on air depends on requests, mask and show-stop page alone (R145). -/
theorem airFor_congr {t : Tables} {r r' : Run} (hs : r'.page.srcs = r.page.srcs) (hm : r'.page.mask = r.page.mask)
    (hp : r'.page.stopPage = r.page.stopPage) (z : Nat) : airFor t r' z = airFor t r z := by
  have he : eligible t r' z = eligible t r z := by
    funext k
    simp only [eligible, Run.src, hs, hm]
  simp only [airFor, bestSource, hp, he]

/-- The recomputations of other zones leave a zone to its own (R145; log entry 38). -/
theorem arbitrate_zone (t : Tables) (r : Run) (z : Nat) (hz : z < 16) : ∃ r1 : Run,
    r1.page.zones[z]? = r.page.zones[z]? ∧ r1.lv.ducks[z]? = r.lv.ducks[z]? ∧ airFor t r1 z = airFor t r z
    ∧ r1.port = r.port
    ∧ (arbitrate t r).page.zones[z]? = (arbitrateZone t z r1).page.zones[z]?
    ∧ (arbitrate t r).lv.ducks[z]? = (arbitrateZone t z r1).lv.ducks[z]? := by
  have key : ∀ n, n ≤ 16 →
      let x := forEach n (arbitrateZone t) r
      x.page.srcs = r.page.srcs ∧ x.page.mask = r.page.mask ∧ x.page.stopPage = r.page.stopPage ∧ x.port = r.port
      ∧ (n ≤ z → x.page.zones[z]? = r.page.zones[z]? ∧ x.lv.ducks[z]? = r.lv.ducks[z]?)
      ∧ (z < n → let r1 := forEach z (arbitrateZone t) r
          x.page.zones[z]? = (arbitrateZone t z r1).page.zones[z]? ∧ x.lv.ducks[z]? = (arbitrateZone t z r1).lv.ducks[z]?) := by
    intro n
    induction n with
    | zero => exact fun _ => ⟨rfl, rfl, rfl, rfl, fun _ => ⟨rfl, rfl⟩, fun h => by omega⟩
    | succ n ih =>
      intro hn
      obtain ⟨a, b, c, d, e, f⟩ := ih (by omega)
      have es : forEach (n + 1) (arbitrateZone t) r = arbitrateZone t n (forEach n (arbitrateZone t) r) := by
        simp [forEach, List.range_succ]
      have k := ZoneFrame.arbitrateZone t n (forEach n (arbitrateZone t) r)
      simp only [es]
      refine ⟨k.srcs.trans a, k.mask.trans b, k.stop.trans c, k.port.trans d, fun h => ?_, fun h => ?_⟩
      · exact ⟨(k.zones z (by omega)).trans (e (by omega)).1, (k.ducks z (by omega)).trans (e (by omega)).2⟩
      · by_cases hzn : z < n
        · exact ⟨(k.zones z (by omega)).trans (f hzn).1, (k.ducks z (by omega)).trans (f hzn).2⟩
        · obtain rfl : z = n := by omega
          exact ⟨rfl, rfl⟩
  obtain ⟨a, b, c, d, e, _⟩ := key z (by omega)
  obtain ⟨_, _, _, _, _, f⟩ := key 16 (Nat.le_refl 16)
  exact ⟨_, (e (Nat.le_refl z)).1, (e (Nat.le_refl z)).2, airFor_congr a b c z, d, (f hz).1, (f hz).2⟩

/-- The zone state machine (R148 to R150), of one zone and its duck attenuation. -/
theorem arbitrateZone_cases (t : Tables) (r : Run) (z : Nat) (old : ZoneRt) (l : Level)
    (hz : r.page.zones[z]? = some old) (hl : r.lv.ducks[z]? = some l) :
    let new := airFor t r z
    let cfg := zoneRec t z
    let r' := arbitrateZone t z r
    (new = old.onAir → r' = r)
    ∧ (∀ k, new = some k → old.onAir ≠ some k →
      r'.page.zones[z]? = some { state := .ducked, holdEnd := none, onAir := some k }
      ∧ r'.lv.ducks[z]? = some (if old.state = .programme ∨ old.state = .release then l.write cfg.depth cfg.attack else l))
    ∧ (new = none → old.onAir ≠ none →
      (0 < cfg.hold →
        r'.page.zones[z]? = some { state := .hold, holdEnd := some (r.port.now + 48 * cfg.hold), onAir := none }
        ∧ r'.lv.ducks[z]? = some l)
      ∧ (cfg.hold = 0 →
        let l' := l.write 0 cfg.release
        r'.page.zones[z]? = some { state := if l'.fade = none then .programme else .release, holdEnd := none, onAir := none }
        ∧ r'.lv.ducks[z]? = some l')) := by
  intro new cfg r'
  have hzone : r.zone z = old := by simp [Run.zone, hz]
  have hlen : z < r.page.zones.length := by
    by_contra k
    rw [List.getElem?_eq_none (by omega)] at hz
    cases hz
  have hd : z < r.lv.ducks.length := by
    by_contra k
    rw [List.getElem?_eq_none (by omega)] at hl
    cases hl
  have hrl : ∀ (x : Run) (b : ReportBody), (x.report t b).lv = x.lv ∧ (x.report t b).page = x.page := by
    intro x b
    unfold Run.report Run.reportAt
    split
    · exact ⟨rfl, rfl⟩
    · split <;> exact ⟨rfl, rfl⟩
  refine ⟨fun h => ?_, fun k hk ho => ?_, fun hn ho => ⟨fun hp => ?_, fun hp => ?_⟩⟩
  · simp only [r', arbitrateZone, hzone]
    rw [if_pos h]
  · have e : r' = changeAir t z (some k) r := by
      simp only [r', arbitrateZone, hzone]
      rw [if_neg (by rw [show airFor t r z = some k from hk]; exact fun h => ho h.symm), show airFor t r z = some k from hk]
    rw [e]
    simp only [changeAir, hzone]
    split
    · rename_i hs
      rw [writeDuck_eq (l := l) (h := by rw [(hrl _ _).1]; exact hl)]
      simp only
      split
      · unfold duckNotice
        rw [if_neg]
        · refine ⟨?_, ?_⟩
          · simp [(hrl _ _).2, hlen]
          · simp [(hrl _ _).1, hd, cfg]
        · simp [Run.zone, (hrl _ _).2, hlen]
      · refine ⟨?_, ?_⟩
        · simp [(hrl _ _).2, hlen]
        · simp [(hrl _ _).1, hd, cfg]
    · rename_i hs
      refine ⟨?_, ?_⟩
      · simp [(hrl _ _).2, hlen]
      · simp [(hrl _ _).1, hl]
  · have e : r' = changeAir t z none r := by
      simp only [r', arbitrateZone, hzone]
      rw [if_neg (by rw [show airFor t r z = none from hn]; exact fun h => ho h.symm), show airFor t r z = none from hn]
    rw [e]
    simp only [changeAir]
    rw [if_neg (by simp only [cfg] at hp; omega)]
    refine ⟨?_, ?_⟩
    · simp [(hrl _ _).2, hlen, frames, cfg]
    · simp [(hrl _ _).1, hl]
  · have e : r' = changeAir t z none r := by
      simp only [r', arbitrateZone, hzone]
      rw [if_neg (by rw [show airFor t r z = none from hn]; exact fun h => ho h.symm), show airFor t r z = none from hn]
    rw [e]
    simp only [changeAir]
    rw [if_pos (show (zoneRec t z).hold = 0 from hp)]
    simp only [endHold]
    rw [writeDuck_eq (l := l) (h := by rw [Run.onZone_lv, (hrl _ _).1]; exact hl)]
    simp only
    split
    · rename_i hf
      unfold duckNotice
      rw [if_pos]
      · refine ⟨?_, ?_⟩
        · simp [(hrl _ _).2, hlen]
        · simp [(hrl _ _).1, hd, cfg]
      · simp [Run.zone, (hrl _ _).2, hlen]
    · rename_i hf
      refine ⟨?_, ?_⟩
      · simp [(hrl _ _).2, hlen]
      · simp [(hrl _ _).1, hd, cfg]

/-! ### What the page engine leaves of the voices -/

theorem report_voices (t : Tables) (b : ReportBody) (r : Run) : (r.report t b).voices = r.voices := by
  unfold Run.report Run.reportAt
  split
  · rfl
  · split <;> rfl

theorem writeDuck_voices (z code ms : Nat) (r : Run) : (writeDuck z code ms r).voices = r.voices := by
  have h : (r.writeLevel (.duck z) code ms).voices = r.voices := by
    unfold Run.writeLevel
    split <;> rfl
  unfold writeDuck duckNotice
  simp only
  split
  · split <;> exact h
  · exact h

/-- A recomputation of the zones leaves the voice bank (R145). -/
theorem arbitrate_voices (t : Tables) (r : Run) : (arbitrate t r).voices = r.voices := by
  have h : ∀ z x, (arbitrateZone t z x).voices = x.voices := by
    intro z x
    unfold arbitrateZone changeAir endHold
    simp only
    split
    · rfl
    · split
      · split
        · rw [writeDuck_voices, report_voices]; rfl
        · rw [report_voices]; rfl
      · split
        · rw [writeDuck_voices, Run.onZone_voices, report_voices]; rfl
        · rw [report_voices]; rfl
  unfold arbitrate forEach
  generalize List.range 16 = l
  induction l generalizing r with
  | nil => rfl
  | cons z l ih => rw [List.foldl_cons, ih, h]

/-- A voice's record but for its binding to a page source. -/
def Voice.unbound (x : Voice) : Voice := { x with bound := none }

/-- A withdrawal changes bindings only (R140). -/
theorem withdraw_unbound (k u : Nat) (r : Run) : ((withdraw k r).voice u).unbound = (r.voice u).unbound := by
  unfold withdraw
  simp only [Run.voice, Run.onSrc_voices]
  split
  · rename_i v _
    simp only [Run.onVoice_voices, List.getD_eq_getElem?_getD, List.getElem?_modify]
    by_cases e : v = u
    · subst e
      simp only [if_true]
      cases r.voices[v]? with
      | none => rfl
      | some x => simp only [Option.map_eq_map, Option.map_some, Option.getD_some, Voice.unbound]; split <;> rfl
    · simp [e]
  · rfl

/-- Telling the page engine that a voice is IDLE changes bindings only (R144). -/
theorem pageVoiceIdle_unbound (t : Tables) (v u : Nat) (b : Option Nat) (r : Run) :
    ((pageVoiceIdle t v b r).voice u).unbound = (r.voice u).unbound := by
  have h : ∀ (l : List Nat) (x : Run), ((l.foldl (fun x k => if (pageRec t k).origin = .voice v || b = some k
      then withdraw k x else x) x).voice u).unbound = (x.voice u).unbound := by
    intro l
    induction l with
    | nil => exact fun _ => rfl
    | cons k l ih =>
      intro x
      rw [List.foldl_cons, ih]
      split
      · exact withdraw_unbound k u x
      · rfl
  unfold pageVoiceIdle
  simp only [Run.voice, arbitrate_voices]
  exact h _ r

/-! ### What a recomputation puts on air -/

theorem report_page (t : Tables) (b : ReportBody) (r : Run) : (r.report t b).page = r.page := by
  unfold Run.report Run.reportAt
  split
  · rfl
  · split <;> rfl

/-- A write of a duck leaves what is on air (R150). -/
theorem writeDuck_onAir (z code ms u : Nat) (r : Run) :
    ((writeDuck z code ms r).zone u).onAir = (r.zone u).onAir := by
  have h : (r.writeLevel (.duck z) code ms).page = r.page := by
    unfold Run.writeLevel
    split <;> rfl
  unfold writeDuck duckNotice
  simp only
  split
  · split
    · simp only [Run.zone, Run.onZone_page, h, List.getD_eq_getElem?_getD, List.getElem?_modify]
      cases r.page.zones[u]? with
      | none => rfl
      | some x => by_cases e : z = u <;> simp [e]
    · simp only [Run.zone, h]
  · simp only [Run.zone, h]

/-- The recomputation of a zone puts on air what belongs there (R145). -/
theorem arbitrateZone_onAir (t : Tables) (z : Nat) (r : Run) (hz : z < r.page.zones.length) :
    ((arbitrateZone t z r).zone z).onAir = airFor t r z := by
  have h : ∀ (b : ReportBody) (x : ZoneRt),
      (((r.onZone z (fun _ => x)).report t b).zone z).onAir = x.onAir := fun b x => by
    simp [Run.zone, report_page, hz]
  unfold arbitrateZone changeAir endHold
  simp only
  split
  · exact (by assumption : airFor t r z = _).symm
  · split
    · rename_i k hk
      rw [hk]
      split
      · rw [writeDuck_onAir, h]
      · rw [h]
    · rename_i hk
      rw [hk]
      split
      · rw [writeDuck_onAir]
        simp [Run.zone, report_page, hz]
      · rw [h]

/-- After a recomputation every zone has on air what belongs there (R145, R147). -/
theorem arbitrate_best (t : Tables) (r : Run) (z : Nat) (hz : z < 16) (hl : z < (arbitrate t r).page.zones.length) :
    ((arbitrate t r).zone z).onAir = airFor t (arbitrate t r) z := by
  have key : ∀ n, n ≤ 16 →
      let x := forEach n (arbitrateZone t) r
      x.page.zones.length = r.page.zones.length ∧ x.page.srcs = r.page.srcs ∧ x.page.mask = r.page.mask
      ∧ x.page.stopPage = r.page.stopPage ∧ (z < n → z < r.page.zones.length → (x.zone z).onAir = airFor t r z) := by
    intro n
    induction n with
    | zero => exact fun _ => ⟨rfl, rfl, rfl, rfl, fun h => by omega⟩
    | succ n ih =>
      intro hn
      obtain ⟨l, a, b, c, e⟩ := ih (by omega)
      have es : forEach (n + 1) (arbitrateZone t) r = arbitrateZone t n (forEach n (arbitrateZone t) r) := by
        simp [forEach, List.range_succ]
      have k := ZoneFrame.arbitrateZone t n (forEach n (arbitrateZone t) r)
      simp only [es]
      refine ⟨k.size.trans l, k.srcs.trans a, k.mask.trans b, k.stop.trans c, fun h hz => ?_⟩
      by_cases hzn : z < n
      · rw [← e hzn hz]
        simp only [Run.zone, List.getD_eq_getElem?_getD, k.zones z (by omega)]
      · obtain rfl : z = n := by omega
        rw [arbitrateZone_onAir t z _ (by rw [l]; exact hz), airFor_congr a b c z]
  obtain ⟨l, a, b, c, e⟩ := key 16 (Nat.le_refl 16)
  have hr : z < r.page.zones.length := l ▸ hl
  exact (e hz hr).trans (airFor_congr a b c z).symm

end Sys2Proof.Machine
end

