-- ==== Sys2Proof/Laws/Refills.lean ====
section
/-! SUPPORT. What a refill, the waiting line, the arbiter, a fetch's completion and the sync group do (R88, R90 to R95,
R98, R115 to R118). -/

namespace Sys2Proof.Machine

open Sys2Proof

/-! ### Refills -/

/-- When a voice asks for a refill (R90). -/
theorem wantsRefill_iff (r : Run) (v : Nat) : wantsRefill r v = true ↔
    (r.voice v).state ≠ .idle ∧ (r.voice v).waiting = false ∧ (r.voice v).cursor ≠ none
    ∧ (∀ f, f ∈ r.flash.queue → f.voice ≠ v) ∧ (r.voice v).buffer.length + (r.voice v).reserved + 512 ≤ 2048 := by
  have h : (512 ≤ 2048 - (r.voice v).buffer.length - (r.voice v).reserved)
      ↔ (r.voice v).buffer.length + (r.voice v).reserved + 512 ≤ 2048 := by omega
  simp [wantsRefill, ← h, Option.isSome_iff_ne_none, and_assoc]

/-- A refill's entry joins the fetch queue (R90). -/
def refillOf (v : Nat) (c : Cursor) (sg : Segment) : Fetch :=
  { voice := v, dev := sg.device, addr := sg.addr + c.off * sampleSize sg.format
    format := sg.format, count := min 512 (sg.len - c.off), src := c }

/-- A refill where the fetch cursor goes on (R88, R90). -/
theorem makeRefill_goesTo {t : Tables} {v : Nat} {c : Cursor} {sg : Segment} {r : Run} {c' : Option Cursor} {rel : Bool}
    (hc : (r.voice v).cursor = some c) (hs : segmentRec t c.seg = some sg)
    (h : advanceCursor t r sg c (min 512 (sg.len - c.off)) (r.voice v).release = .to c' rel) :
    makeRefill t v r = { r with flash := { r.flash with queue := r.flash.queue ++ [refillOf v c sg] } }.onVoice v
      (fun x => { x with reserved := x.reserved + min 512 (sg.len - c.off), cursor := c', release := rel }) := by
  simp only [makeRefill, hc, hs, h, refillOf]

/-- A refill that would enter a segment on a FAULTED device (R88, R105). -/
theorem makeRefill_faults {t : Tables} {v : Nat} {c : Cursor} {sg : Segment} {r : Run}
    (hc : (r.voice v).cursor = some c) (hs : segmentRec t c.seg = some sg)
    (h : advanceCursor t r sg c (min 512 (sg.len - c.off)) (r.voice v).release = .fault) :
    makeRefill t v r = goIdle t v .deviceFault
      (({ r with flash := { r.flash with queue := r.flash.queue ++ [refillOf v c sg] } } : Run).onVoice v
        (fun x => { x with reserved := x.reserved + min 512 (sg.len - c.off) })) := by
  simp only [makeRefill, hc, hs, h, refillOf]

/-- Where the fetch cursor goes: on through the segment, around again, or out of it by its next (R88, R99). -/
theorem advanceCursor_cases (t : Tables) (r : Run) (sg : Segment) (c : Cursor) (n : Nat) (release : Bool) :
    let again := sg.loops ≠ 255 ∧ c.pass < sg.loops ∨ sg.loops = 255 ∧ release = false
    (c.off + n < sg.len → advanceCursor t r sg c n release = .to (some { c with off := c.off + n }) release)
    ∧ (sg.len ≤ c.off + n → again →
      advanceCursor t r sg c n release = .to (some { c with pass := min 65535 (c.pass + 1), off := 0 }) release)
    ∧ (sg.len ≤ c.off + n → ¬ again →
      advanceCursor t r sg c n release = leaveSegment t r sg (if sg.loops = 255 then false else release)) := by
  refine ⟨fun h => ?_, fun h a => ?_, fun h a => ?_⟩
  · simp [advanceCursor, h]
  · rw [advanceCursor, if_neg (by omega)]
    rcases a with ⟨a, b⟩ | ⟨a, b⟩
    · rw [if_neg a, if_pos b]
    · rw [if_pos a, if_neg (by simp [b])]
  · rw [advanceCursor, if_neg (by omega)]
    by_cases e : sg.loops = 255
    · rw [if_pos e, if_pos e, if_pos (by cases release <;> simp_all)]
    · rw [if_neg e, if_neg e, if_neg (fun h => a (.inl ⟨e, h⟩))]

/-- The next thing that can be done (R90, R116, R117). -/
theorem pumpOnce_cases (t : Tables) (r : Run) :
    (∀ v rest, r.flash.line = v :: rest → r.flash.queue.length < 8 → pumpOnce t r
      = some (makeRefill t v ({ r with flash := { r.flash with line := rest } }.onVoice v (fun x => { x with waiting := false }))))
    ∧ (r.flash.line = [] ∨ 8 ≤ r.flash.queue.length →
      (∀ v, v < 16 → wantsRefill r v = true → (∀ u, u < v → wantsRefill r u = false) →
        pumpOnce t r = some (askRefill t v r))
      ∧ ((∀ v, v < 16 → wantsRefill r v = false) → pumpOnce t r = arbiterStart t r)) := by
  refine ⟨fun v rest h k => by simp [pumpOnce, h, k], fun h => ?_⟩
  have e : pumpOnce t r = match (List.range 16).find? (wantsRefill r) with
      | some v => some (askRefill t v r)
      | none => arbiterStart t r := by
    unfold pumpOnce
    split
    · rename_i h1 h2
      rcases h with h | h
      · simp [h] at h1
      · simp at h2; omega
    · rfl
  refine ⟨fun v hv hw hu => ?_, fun hw => ?_⟩
  · have : (List.range 16).find? (wantsRefill r) = some v := by
      rw [List.find?_range_eq_some]
      exact ⟨hw, by simpa using hv, fun j hj => by simp [hu j hj]⟩
    rw [e, this]
  · have : (List.range 16).find? (wantsRefill r) = none := by
      rw [List.find?_range_eq_none]
      exact fun v hv => by simp [hw v hv]
    rw [e, this]

/-! ### The arbiter -/

/-- The best of a list, once one is found that no later one beats. -/
theorem foldl_fewerBuffered_keeps (r : Run) (f : Fetch) : ∀ l : List Fetch,
    (∀ g, g ∈ l → (r.voice f.voice).buffer.length ≤ (r.voice g.voice).buffer.length) →
    l.foldl (fewerBuffered r) (some f) = some f
  | [], _ => rfl
  | g :: l, h => by
    have := h g List.mem_cons_self
    rw [List.foldl_cons, fewerBuffered, if_neg (by omega)]
    exact foldl_fewerBuffered_keeps r f l (fun x hx => h x (List.mem_cons_of_mem _ hx))

/-- A fetch that beats everything before it is chosen over all of it. -/
theorem foldl_fewerBuffered_reaches (r : Run) (f : Fetch) (rest : List Fetch) : ∀ (l : List Fetch) (b : Option Fetch),
    (∀ g, g ∈ l ++ b.toList → (r.voice f.voice).buffer.length < (r.voice g.voice).buffer.length) →
    (l ++ f :: rest).foldl (fewerBuffered r) b = rest.foldl (fewerBuffered r) (some f)
  | [], none, _ => rfl
  | [], some b, h => by
    rw [List.nil_append, List.foldl_cons, fewerBuffered, if_pos (h b (by simp))]
  | g :: l, none, h => by
    rw [List.cons_append, List.foldl_cons]
    refine foldl_fewerBuffered_reaches r f rest l _ (fun x hx => h x ?_)
    simp only [fewerBuffered, Option.toList_some, List.mem_append, List.mem_singleton] at hx
    simp only [Option.toList_none, List.append_nil, List.mem_cons]
    tauto
  | g :: l, some b, h => by
    rw [List.cons_append, List.foldl_cons]
    refine foldl_fewerBuffered_reaches r f rest l _ (fun x hx => h x ?_)
    simp only [fewerBuffered] at hx
    split at hx
    · simp only [Option.toList_some, List.mem_append, List.mem_singleton] at hx
      simp only [Option.toList_some, List.mem_append, List.mem_cons]
      tauto
    · simp only [Option.toList_some, List.mem_append, List.mem_singleton] at hx
      simp only [Option.toList_some, List.mem_append, List.mem_cons]
      tauto

/-- The fetch the arbiter starts: the voice with the fewest samples, the earliest among equals (R117). -/
theorem nextFetch_first (r : Run) (before rest : List Fetch) (f : Fetch)
    (e : r.flash.queue.filter (fun f => r.dev f.dev = .ready) = before ++ f :: rest)
    (hb : ∀ g, g ∈ before → (r.voice f.voice).buffer.length < (r.voice g.voice).buffer.length)
    (ha : ∀ g, g ∈ rest → (r.voice f.voice).buffer.length ≤ (r.voice g.voice).buffer.length) :
    nextFetch r = some f := by
  rw [nextFetch, e, foldl_fewerBuffered_reaches r f rest before none (by simpa using hb),
    foldl_fewerBuffered_keeps r f rest ha]

/-- The arbiter's choice (R117). -/
theorem arbiterStart_cases (t : Tables) (r : Run) :
    let ready := r.flash.queue.filter (fun f => r.dev f.dev = .ready)
    let held := fun f : Fetch => (r.voice f.voice).buffer.length
    (r.flash.bus ≠ none → arbiterStart t r = none)
    ∧ (∀ o k x, r.flash.bus = none → r.flash.op = some o → o.step = .due k → stepXfer t o k = some x →
        arbiterStart t r = some { r with flash := { r.flash with bus := some x, op := some { o with step := .running } } })
    ∧ (r.flash.bus = none → (∀ o k, r.flash.op = some o → o.step ≠ .due k) →
      (ready = [] → arbiterStart t r = none)
      ∧ ∀ before f rest, ready = before ++ f :: rest → (∀ g, g ∈ before → held f < held g) →
        (∀ g, g ∈ rest → held f ≤ held g) →
        arbiterStart t r = some { r with flash := { r.flash with
          queue := r.flash.queue.filter (fun g => g.voice ≠ f.voice)
          bus := some { kind := .fetch f false
                        seq := readSeq (profileRec t f.dev) f.dev f.addr (f.count * sampleSize f.format) } } }) := by
  refine ⟨fun h => ?_, fun o k x hb ho hs hx => ?_, fun hb ho => ?_⟩
  · unfold arbiterStart
    split
    · rfl
    · exact absurd ‹_› h
  · simp [arbiterStart, hb, dueStep, ho, hs, hx]
  · have hd : dueStep t r = none := by
      unfold dueStep
      split
      · split
        · exact absurd ‹_› (ho _ _ ‹_›)
        · rfl
      · rfl
    refine ⟨fun h => ?_, fun before f rest e h1 h2 => ?_⟩
    · have : nextFetch r = none := by rw [nextFetch, h]; rfl
      simp [arbiterStart, hb, hd, this]
    · simp only [arbiterStart, hb, hd, nextFetch_first r before rest f e h1 h2]

/-! ### The sync group, and the samples of a fetch -/

/-- A voice's record after an update of another, or of its own. -/
theorem Run.voice_onVoice (r : Run) (v u : Nat) (f : Voice → Voice) (h : v < r.voices.length) :
    (r.onVoice v f).voice u = if u = v then f (r.voice u) else r.voice u := by
  simp only [Run.voice, Run.onVoice_voices, List.getD_eq_getElem?_getD, List.getElem?_modify]
  by_cases e : u = v
  · subst e
    simp [h]
  · have : ¬ v = u := fun h => e h.symm
    simp [e, this]

/-- The members of a list of voices become PLAYING without a tag, one after another. -/
theorem foldl_onVoice_voices (f : Voice → Voice) : ∀ (l : List Nat) (r : Run), l.Nodup →
    l.foldl (fun x v => x.onVoice v f) r
      = { r with voices := r.voices.mapIdx (fun i x => if i ∈ l then f x else x) }
  | [], r, _ => by
    have e : r.voices.mapIdx (fun i x => if i ∈ ([] : List Nat) then f x else x) = r.voices := by
      apply List.ext_getElem?
      intro i
      simp
    rw [e]
    rfl
  | v :: l, r, h => by
    obtain ⟨h1, h2⟩ := List.nodup_cons.mp h
    rw [List.foldl_cons, foldl_onVoice_voices f l _ h2]
    simp only [Run.onVoice]
    congr 1
    apply List.ext_getElem?
    intro i
    simp only [List.getElem?_mapIdx, List.getElem?_modify, List.mem_cons]
    by_cases e : v = i
    · subst e
      simp only [if_true, true_or, h1, if_false]
      cases r.voices[v]? <;> rfl
    · have : ¬ i = v := fun h => e h.symm
      simp [e, this]

theorem groupMembers_nodup (r : Run) (g : Nat) : (groupMembers r g).Nodup := List.Nodup.filter _ List.nodup_range

/-- The sync-group check (R95). -/
theorem syncCheck_cases (g : Nat) (r : Run) (hl : r.voices.length ≤ 16) :
    let waits := fun x : Voice => x.tag = some g ∧ x.buffer.length < 1024 ∧ (x.cursor ≠ none ∨ x.reserved ≠ 0)
    (r.cue.building = some g ∨ (∃ x, x ∈ r.voices ∧ waits x) → syncCheck g r = r)
    ∧ (r.cue.building ≠ some g → (∀ x, x ∈ r.voices → ¬ waits x) → syncCheck g r = { r with
        voices := r.voices.map (fun x => if x.tag = some g then { x with state := .playing, tag := none } else x) }) := by
  intro waits
  have hw : ∀ x : Voice, x.tag = some g → (x.ready = true ↔ ¬ waits x) := by
    intro x e
    simp only [Voice.ready, waits, e, true_and, Bool.or_eq_true, decide_eq_true_eq, Bool.and_eq_true, Option.isNone_iff_eq_none,
      not_and, not_or, not_not]
    constructor
    · rintro (h | h) k
      · omega
      · exact h
    · intro h
      by_cases k : 1024 ≤ x.buffer.length
      · exact .inl k
      · exact .inr (h (by omega))
  have hm : ∀ v, v ∈ groupMembers r g ↔ v < r.voices.length ∧ (r.voice v).tag = some g := by
    intro v
    simp only [groupMembers, List.mem_filter, List.mem_range, decide_eq_true_eq]
    constructor
    · rintro ⟨_, h⟩
      refine ⟨?_, h⟩
      by_contra k
      rw [Run.voice, List.getD_eq_default _ _ (by omega)] at h
      cases h
    · rintro ⟨a, b⟩
      exact ⟨by omega, b⟩
  have ha : (groupMembers r g).all (fun v => (r.voice v).ready) = true ↔ ∀ x, x ∈ r.voices → ¬ waits x := by
    simp only [List.all_eq_true]
    constructor
    · intro h x hx w
      obtain ⟨i, hi, rfl⟩ := List.getElem_of_mem hx
      have e : r.voice i = r.voices[i] := by simp [Run.voice, hi]
      have := h i ((hm i).mpr ⟨hi, by rw [e]; exact w.1⟩)
      rw [e] at this
      exact (hw _ w.1).mp this w
    · intro h v hv
      obtain ⟨a, b⟩ := (hm v).mp hv
      have e : r.voice v = r.voices[v] := by simp [Run.voice, a]
      rw [hw _ b, e]
      exact h _ (List.getElem_mem a)
  refine ⟨fun h => ?_, fun hb h => ?_⟩
  · unfold syncCheck
    by_cases hb : r.cue.building = some g
    · rw [if_pos hb]
    · rw [if_neg hb]
      obtain ⟨x, hx, hx'⟩ := h.resolve_left hb
      simp only
      rw [if_neg (fun k => ha.mp k x hx hx')]
  · unfold syncCheck
    rw [if_neg hb]
    simp only
    rw [if_pos (ha.mpr h), foldl_onVoice_voices _ _ _ (groupMembers_nodup r g)]
    congr 1
    apply List.ext_getElem?
    intro i
    simp only [List.getElem?_mapIdx, List.getElem?_map, hm]
    by_cases hi : i < r.voices.length
    · simp [hi, Run.voice]
    · simp [hi]

/-- A group's check changes states and tags only, and no voice that carries another tag. -/
theorem syncCheck_voice (g : Nat) (r : Run) (u : Nat) :
    (syncCheck g r).voice u = r.voice u
    ∨ (r.voice u).tag = some g ∧ (syncCheck g r).voice u = { r.voice u with state := .playing, tag := none } := by
  unfold syncCheck
  split
  · exact .inl rfl
  · simp only
    split
    · rw [foldl_onVoice_voices _ _ _ (groupMembers_nodup r g)]
      simp only [Run.voice, List.getD_eq_getElem?_getD, List.getElem?_mapIdx, groupMembers, List.mem_filter,
        List.mem_range, decide_eq_true_eq]
      by_cases h : u < r.voices.length
      · simp only [List.getElem?_eq_getElem h, Option.map_some, Option.getD_some]
        split
        · rename_i k
          exact .inr ⟨k.2, rfl⟩
        · exact .inl rfl
      · simp [h]
    · exact .inl rfl

/-- A voice that goes IDLE is IDLE, without a tag (R103). -/
theorem leaveGroup_voice_untagged (g : Option Nat) (r : Run) (u : Nat) (h : (r.voice u).tag = none) :
    (leaveGroup g r).voice u = r.voice u := by
  cases g with
  | none => rfl
  | some g =>
    rcases syncCheck_voice g r u with e | ⟨e, _⟩
    · exact e
    · rw [h] at e
      cases e

/-- A voice with something left to play stands (R98). -/
theorem endCheck_stands (t : Tables) (v : Nat) (r : Run)
    (h : ¬ ((r.voice v).cursor = none ∧ (r.voice v).reserved = 0 ∧ (r.voice v).buffer = [])) : endCheck t v r = r := by
  unfold endCheck
  simp only
  rw [if_neg]
  intro k
  simp only [Bool.and_eq_true, decide_eq_true_eq, Option.isNone_iff_eq_none, List.isEmpty_iff] at k
  exact h ⟨k.1.1.2, k.1.2, k.2⟩

/-- A voice that has nothing left to play goes IDLE (R98). -/
theorem endCheck_ends (t : Tables) (v : Nat) (r : Run) (h : (r.voice v).state.reports = true)
    (hc : (r.voice v).cursor = none) (hr : (r.voice v).reserved = 0) (hb : (r.voice v).buffer = []) :
    endCheck t v r = goIdle t v .ended r := by
  simp [endCheck, h, hc, hr, hb]

/-- The record of a voice after the PRIMING condition (R93). -/
theorem readyCheck_voice (v : Nat) (r : Run) (hv : v < r.voices.length) :
    (readyCheck v r).voice v = if (r.voice v).state = .priming ∧ (r.voice v).tag = none ∧ (r.voice v).ready = true then
      { r.voice v with state := .playing } else r.voice v := by
  unfold readyCheck
  simp only
  split
  · rw [Run.voice_onVoice _ _ _ _ hv, if_pos rfl]
  · rfl

/-- A check of a group leaves everything of a voice but its state and tag. -/
theorem leaveGroup_voice (g : Option Nat) (r : Run) (u : Nat) :
    (leaveGroup g r).voice u = r.voice u
    ∨ (leaveGroup g r).voice u = { r.voice u with state := .playing, tag := none } := by
  cases g with
  | none => exact .inl rfl
  | some g =>
    rcases syncCheck_voice g r u with e | ⟨_, e⟩
    · exact .inl e
    · exact .inr e

/-- A voice that goes IDLE is IDLE and holds nothing, whatever group it leaves (R103). -/
theorem goIdle_voice (t : Tables) (v : Nat) (why : VReason) (r : Run) (h : (r.voice v).state ≠ .idle) :
    ((goIdle t v why r).voice v).unbound = (r.voice v).toIdle := by
  have hv : v < r.voices.length := by
    by_contra k
    exact h (by rw [Run.voice, List.getD_eq_default _ _ (by omega)]; rfl)
  have h1 : (((withdrawFetches v r).onVoice v Voice.toIdle).voice v) = (r.voice v).toIdle := by
    have hv1 : v < (withdrawFetches v r).voices.length := by simpa [withdrawFetches] using hv
    rw [Run.voice_onVoice _ _ _ _ hv1, if_pos rfl]
    unfold withdrawFetches
    simp only
    rw [Run.voice_onVoice _ _ _ _ (by exact hv), if_pos rfl]
    rfl
  have h2 : ((pageVoiceIdle t v (r.voice v).bound (leaveGroup (r.voice v).tag
      ((withdrawFetches v r).onVoice v Voice.toIdle))).voice v).unbound = (r.voice v).toIdle := by
    rw [pageVoiceIdle_unbound, leaveGroup_voice_untagged _ _ _ (by rw [h1]; rfl), h1]
    rfl
  unfold goIdle
  simp only [if_neg h]
  split
  · simp only [Run.voice, report_voices]
    exact h2
  · exact h2

/-- The report of a voice that goes IDLE from a heard state is the last one given (R103). -/
theorem goIdle_report (t : Tables) (v : Nat) (why : VReason) (r : Run) (h : (r.voice v).state.reports = true) :
    lastReport t r (goIdle t v why r) (.voice v why (r.voice v).startId) := by
  have hi : (r.voice v).state ≠ .idle := by intro k; rw [k] at h; cases h
  have f : Frame r (pageVoiceIdle t v (r.voice v).bound (leaveGroup (r.voice v).tag
      ((withdrawFetches v r).onVoice v Voice.toIdle))) :=
    (((Frame.withdrawFetches _ _).trans (Frame.onVoice _ _ _)).trans (Frame.leaveGroup _ _)).trans (Frame.pageVoiceIdle _ _ _ _)
  refine ⟨_, f.port, f.ctl.reports, ?_⟩
  unfold goIdle
  simp only [if_neg hi, h, if_true]

theorem lastReport.gives {t : Tables} {r r' : Run} {b : ReportBody} (h : lastReport t r r' b) : givesReport t r r' b := by
  obtain ⟨x, p, c, e⟩ := h
  exact ⟨x, p, c, by rw [e]⟩

/-- A report given stays given. -/
theorem givesReport.mono {t : Tables} {r r1 r2 : Run} {b : ReportBody} (h : givesReport t r r1 b)
    (k : r1.ctl.reports <+: r2.ctl.reports) : givesReport t r r2 b := by
  obtain ⟨x, p, c, e⟩ := h
  exact ⟨x, p, c, e.trans k⟩

/-- The same after the refills that follow. -/
theorem goIdle_gives (t : Tables) (v : Nat) (why : VReason) (r : Run) (h : (r.voice v).state.reports = true) :
    givesReport t r (pump t (goIdle t v why r)) (.voice v why (r.voice v).startId) :=
  (goIdle_report t v why r h).gives.mono (Frame.pump t _).ctl.reports

/-- What the voice bank makes of the samples of a fetch (R91): the group's check of a member (R95), the PRIMING
condition of a voice without a tag (R93), and the end condition (R98). -/
theorem takeSamples_cases (t : Tables) (v : Nat) (s : List BufSample) (r : Run) (hv : v < r.voices.length) :
    let y := (r.voice v).addSamples s
    let ended := y.cursor = none ∧ y.reserved = 0 ∧ y.buffer = []
    (y.state.reports = true → ended → ∃ r1 : Run, takeSamples t v s r = goIdle t v .ended r1
      ∧ (r1.voice v).state.reports = true ∧ (r1.voice v).startId = y.startId ∧ Frame r r1)
    ∧ (¬ ended → ∀ g, y.tag = some g → takeSamples t v s r = syncCheck g (r.onVoice v (fun _ => y)))
    ∧ (¬ (y.state.reports = true ∧ ended) → y.tag = none → takeSamples t v s r = r.onVoice v (fun _ =>
        if y.state = .priming ∧ (1024 ≤ y.buffer.length ∨ y.cursor = none ∧ y.reserved = 0) then { y with state := .playing }
        else y)) := by
  intro y ended
  have h0 : (r.onVoice v (fun x => x.addSamples s)).voice v = y := by
    rw [Run.voice_onVoice _ _ _ _ hv, if_pos rfl]
  have hv0 : v < (r.onVoice v (fun x => x.addSamples s)).voices.length := by simpa using hv
  have hr : ∀ f : Voice → Voice, r.onVoice v f = r.onVoice v (fun _ => f (r.voice v)) := by
    intro f
    simp only [Run.onVoice]
    congr 1
    apply List.ext_getElem?
    intro i
    simp only [List.getElem?_modify]
    by_cases e : v = i
    · subst e
      simp [Run.voice, hv]
    · simp [e]
  have h1 := readyCheck_voice v _ hv0
  rw [h0] at h1
  refine ⟨fun hs he => ?_, fun he g hg => ?_, fun he hg => ?_⟩
  · let r1 := readyCheck v (r.onVoice v (fun x => x.addSamples s))
    have e1 : (r1.voice v).state.reports = true ∧ (r1.voice v).startId = y.startId ∧ (r1.voice v).cursor = none
        ∧ (r1.voice v).reserved = 0 ∧ (r1.voice v).buffer = [] := by
      simp only [r1, h1]
      split
      · exact ⟨rfl, rfl, he⟩
      · exact ⟨hs, rfl, he⟩
    have e2 : ((leaveGroup (r1.voice v).tag r1).voice v).state.reports = true
        ∧ ((leaveGroup (r1.voice v).tag r1).voice v).startId = y.startId
        ∧ ((leaveGroup (r1.voice v).tag r1).voice v).cursor = none
        ∧ ((leaveGroup (r1.voice v).tag r1).voice v).reserved = 0
        ∧ ((leaveGroup (r1.voice v).tag r1).voice v).buffer = [] := by
      rcases leaveGroup_voice (r1.voice v).tag r1 v with e | e
      · rw [e]; exact e1
      · rw [e]; exact ⟨rfl, e1.2⟩
    exact ⟨leaveGroup (r1.voice v).tag r1, endCheck_ends t v _ e2.1 e2.2.2.1 e2.2.2.2.1 e2.2.2.2.2, e2.1, e2.2.1,
      ((Frame.onVoice _ _ _).trans (Frame.readyCheck _ _)).trans (Frame.leaveGroup _ _)⟩
  · have e1 : readyCheck v (r.onVoice v (fun x => x.addSamples s)) = r.onVoice v (fun x => x.addSamples s) := by
      unfold readyCheck
      simp only [h0]
      rw [if_neg (by rintro ⟨_, k, _⟩; rw [hg] at k; cases k)]
    simp only [takeSamples, e1, h0, hg, leaveGroup]
    rw [endCheck_stands, hr]
    rcases leaveGroup_voice (some g) (r.onVoice v (fun x => x.addSamples s)) v with e | e <;>
      (simp only [leaveGroup] at e; rw [e, h0]; exact he)
  · have e1 : takeSamples t v s r = endCheck t v (readyCheck v (r.onVoice v (fun x => x.addSamples s))) := by
      unfold takeSamples
      have : ((readyCheck v (r.onVoice v (fun x => x.addSamples s))).voice v).tag = none := by
        rw [h1]
        split <;> exact hg
      simp only [this, leaveGroup]
    have e2 : readyCheck v (r.onVoice v (fun x => x.addSamples s)) = r.onVoice v (fun _ =>
        if y.state = .priming ∧ (1024 ≤ y.buffer.length ∨ y.cursor = none ∧ y.reserved = 0) then { y with state := .playing }
        else y) := by
      have hy : (y.state = .priming ∧ y.tag = none ∧ y.ready = true)
          ↔ (y.state = .priming ∧ (1024 ≤ y.buffer.length ∨ y.cursor = none ∧ y.reserved = 0)) := by
        simp [Voice.ready, hg]
      unfold readyCheck
      simp only [h0]
      by_cases k : y.state = .priming ∧ (1024 ≤ y.buffer.length ∨ y.cursor = none ∧ y.reserved = 0)
      · rw [if_pos (hy.mpr k), if_pos k, hr]
        simp only [Run.onVoice]
        congr 1
        apply List.ext_getElem?
        intro i
        simp only [List.getElem?_modify]
        by_cases e : v = i
        · subst e
          cases r.voices[v]? <;> simp [y]
        · simp [e]
      · rw [if_neg (fun h => k (hy.mp h)), if_neg k, hr]
    rw [e1, e2]
    by_cases hs : y.state.reports = true
    · refine endCheck_stands t v _ ?_
      rw [Run.voice_onVoice _ _ _ _ hv, if_pos rfl]
      split
      · exact fun h => he ⟨hs, h⟩
      · exact fun h => he ⟨hs, h⟩
    · have hp : ¬ y.state = .priming := fun h => hs (by rw [h]; rfl)
      have hn : ¬ (y.state = .priming ∧ (1024 ≤ y.buffer.length ∨ y.cursor = none ∧ y.reserved = 0)) := fun h => hp h.1
      unfold endCheck
      simp [Run.voice_onVoice _ _ _ _ hv, if_neg hn, hs]

/-! ### Refills while no device is FAULTED -/

/-- A voice's record but for what its refills move. -/
def Voice.steady (x : Voice) : Voice := { x with cursor := none, reserved := 0, waiting := false, release := false }

/-- What refills and transfer starts leave while no device is FAULTED: levels, page engine, reports, and every voice's
state, identities, samples and group. -/
structure Quiet (r r' : Run) : Prop where
  lv     : r'.lv = r.lv
  page   : r'.page = r.page
  ctl    : r'.ctl = r.ctl
  devs   : r'.flash.devs = r.flash.devs
  voices : ∀ u, (r'.voice u).steady = (r.voice u).steady
  size   : r'.voices.length = r.voices.length

theorem Quiet.refl (r : Run) : Quiet r r := ⟨rfl, rfl, rfl, rfl, fun _ => rfl, rfl⟩

theorem Quiet.trans {a b c : Run} (h : Quiet a b) (k : Quiet b c) : Quiet a c :=
  ⟨k.lv.trans h.lv, k.page.trans h.page, k.ctl.trans h.ctl, k.devs.trans h.devs,
   fun u => (k.voices u).trans (h.voices u), k.size.trans h.size⟩

theorem Quiet.onVoice (r : Run) (v : Nat) (f : Voice → Voice) (h : ∀ x : Voice, (f x).steady = x.steady) :
    Quiet r (r.onVoice v f) := by
  refine ⟨rfl, rfl, rfl, rfl, fun u => ?_, by simp⟩
  simp only [Run.voice, Run.onVoice_voices, List.getD_eq_getElem?_getD, List.getElem?_modify]
  cases r.voices[u]? with
  | none => rfl
  | some x =>
    simp only [Option.map_eq_map, Option.map_some, Option.getD_some]
    split
    · exact h x
    · rfl

/-- A refill while no device is FAULTED (R90). -/
theorem Quiet.makeRefill (t : Tables) (v : Nat) (r : Run) (h : noFault r) : Quiet r (makeRefill t v r) := by
  unfold Machine.makeRefill
  split
  · exact .refl r
  · split
    · exact .onVoice r v _ (fun _ => rfl)
    · rename_i c _ _ sg _
      have hl : ∀ rel, leaveSegment t r sg rel ≠ .fault := by
        intro rel
        unfold leaveSegment
        split
        · exact nofun
        · split
          · exact nofun
          · rw [if_neg (h _)]
            exact nofun
      have ha : advanceCursor t r sg c (min 512 (sg.len - c.off)) (r.voice v).release ≠ .fault := by
        unfold advanceCursor
        split
        · exact nofun
        · split
          · split
            · exact hl _
            · exact nofun
          · split
            · exact nofun
            · exact hl _
      simp only
      split
      · refine Quiet.trans ?_ (.onVoice _ v _ (fun _ => rfl))
        exact ⟨rfl, rfl, rfl, rfl, fun _ => rfl, rfl⟩
      · exact absurd ‹_› ha

/-- The next thing that can be done, while no device is FAULTED. -/
theorem Quiet.pumpOnce {t : Tables} {r r' : Run} (h : noFault r) (e : pumpOnce t r = some r') : Quiet r r' := by
  unfold Machine.pumpOnce at e
  split at e
  · rename_i v rest _ _
    cases e
    have k : Quiet r ({ r with flash := { r.flash with line := rest } }.onVoice v (fun x => { x with waiting := false })) :=
      Quiet.trans (⟨rfl, rfl, rfl, rfl, fun _ => rfl, rfl⟩ : Quiet r { r with flash := { r.flash with line := rest } })
        (.onVoice _ v _ (fun _ => rfl))
    exact k.trans (.makeRefill t v _ h)
  · split at e
    · rename_i v _
      cases e
      unfold askRefill
      split
      · exact .makeRefill t v r h
      · exact Quiet.trans (⟨rfl, rfl, rfl, rfl, fun _ => rfl, rfl⟩ :
          Quiet r { r with flash := { r.flash with line := r.flash.line ++ [v] } }) (.onVoice _ v _ (fun _ => rfl))
    · unfold arbiterStart at e
      split at e
      · cases e
      · split at e
        · cases e; exact ⟨rfl, rfl, rfl, rfl, fun _ => rfl, rfl⟩
        · split at e
          · cases e; exact ⟨rfl, rfl, rfl, rfl, fun _ => rfl, rfl⟩
          · cases e

/-- Every refill and transfer start that has become possible, while no device is FAULTED (R90, R116, R117). -/
theorem Quiet.pump (t : Tables) (r : Run) (h : noFault r) : Quiet r (pump t r) := by
  have key : ∀ n (r : Run), noFault r → Quiet r (pumpLoop t n r) := by
    intro n
    induction n with
    | zero => exact fun r _ => .refl r
    | succ n ih =>
      intro r h
      unfold pumpLoop
      split
      · rename_i r' e
        have k := Quiet.pumpOnce h e
        exact k.trans (ih r' (fun d => by
          rw [show r'.dev d = r.dev d by simp only [Run.dev, k.devs]]
          exact h d))
      · exact .refl r
  exact key 64 r h

end Sys2Proof.Machine
end

