-- ==== Sys2Proof/Laws/Steps.lean ====
section
/-! SUPPORT. What the pump makes of a content operation's due step (R117, R119): it stays due, or becomes its
transfer on a bus that was free. -/

namespace Sys2Proof.Machine

open Sys2Proof

/-! ### The flash side stands -/

theorem report_flash (t : Tables) (b : ReportBody) (r : Run) : (r.report t b).flash = r.flash := by
  unfold Run.report
  rw [Run.reportAt_eq]

theorem duckNotice_flash (z : Nat) (r : Run) : (duckNotice z r).flash = r.flash := by
  unfold duckNotice; split <;> rfl

theorem writeDuck_flash (z code ms : Nat) (r : Run) : (writeDuck z code ms r).flash = r.flash := by
  have h : (r.writeLevel (.duck z) code ms).flash = r.flash := by unfold Run.writeLevel; split <;> rfl
  unfold writeDuck; dsimp only; split
  · exact (duckNotice_flash _ _).trans h
  · exact h

theorem changeAir_flash (t : Tables) (z : Nat) (new : Option Nat) (r : Run) : (changeAir t z new r).flash = r.flash := by
  unfold changeAir; dsimp only
  have h : ∀ b f, ((r.onZone z f).report t b).flash = r.flash := fun b f => report_flash t b _
  cases new <;> dsimp only <;> split
  · exact (writeDuck_flash z _ _ _).trans (h _ _)
  · exact h _ _
  · exact (writeDuck_flash z _ _ _).trans (h _ _)
  · exact h _ _

theorem foldl_flash {α : Type} (f : Run → α → Run) (h : ∀ r a, (f r a).flash = r.flash) (l : List α) :
    ∀ r, (l.foldl f r).flash = r.flash := by
  induction l with
  | nil => exact fun _ => rfl
  | cons a rest ih => exact fun r => (ih _).trans (h r a)

theorem arbitrate_flash (t : Tables) (r : Run) : (arbitrate t r).flash = r.flash :=
  foldl_flash _ (fun r z => by
    unfold arbitrateZone; dsimp only; split
    · rfl
    · exact changeAir_flash t z _ r) _ r

theorem withdraw_flash (k : Nat) (r : Run) : (withdraw k r).flash = r.flash := by
  unfold withdraw; dsimp only; split <;> rfl

theorem pageVoiceIdle_flash (t : Tables) (v : Nat) (b : Option Nat) (r : Run) : (pageVoiceIdle t v b r).flash = r.flash := by
  refine (arbitrate_flash t _).trans (foldl_flash _ (fun r k => ?_) _ r)
  dsimp only
  split
  · exact withdraw_flash k r
  · rfl

theorem leaveGroup_flash (g : Option Nat) (r : Run) : (leaveGroup g r).flash = r.flash := by
  unfold leaveGroup syncCheck
  split
  · split
    · rfl
    · dsimp only; split
      · exact foldl_flash (fun x v => x.onVoice v _) (fun _ _ => rfl) _ r
      · rfl
  · rfl

/-! ### Refills leave the operation and its transfer -/

/-- The operation stands, a free bus stays free, and a transfer that is no fetch stays on it. -/
structure Held (r r' : Run) : Prop where
  op   : r'.flash.op = r.flash.op
  free : r'.flash.bus = none ↔ r.flash.bus = none
  busy : ∀ x, r.flash.bus = some x → (∀ f d, x.kind ≠ .fetch f d) → r'.flash.bus = some x

theorem Held.refl (r : Run) : Held r r := ⟨rfl, Iff.rfl, fun _ h _ => h⟩

theorem Held.trans {a b c : Run} (h : Held a b) (k : Held b c) : Held a c :=
  ⟨k.op.trans h.op, k.free.trans h.free, fun x e n => k.busy x (h.busy x e n) n⟩

theorem Held.of_flash {r r' : Run} (ho : r'.flash.op = r.flash.op) (hb : r'.flash.bus = r.flash.bus) : Held r r' :=
  ⟨ho, by rw [hb], fun x h _ => by rw [hb, h]⟩

theorem Held.after {a b c : Run} (h : Held b c) (ho : b.flash.op = a.flash.op) (hb : b.flash.bus = a.flash.bus) :
    Held a c := (Held.of_flash ho hb).trans h

theorem Held.report (t : Tables) (b : ReportBody) (r : Run) : Held r (r.report t b) :=
  Held.of_flash (by rw [report_flash]) (by rw [report_flash])

theorem Held.withdrawFetches (v : Nat) (r : Run) : Held r (withdrawFetches v r) := by
  refine ⟨rfl, ?_, fun x h n => ?_⟩
  · change discardOnBus v r.flash.bus = none ↔ _
    unfold discardOnBus
    split <;> simp [*]
  · change discardOnBus v r.flash.bus = some x
    rw [h]
    obtain ⟨k, q⟩ := x
    cases k with
    | fetch f d => exact absurd rfl (n f d)
    | _ => rfl

theorem Held.goIdle (t : Tables) (v : Nat) (why : VReason) (r : Run) : Held r (goIdle t v why r) := by
  unfold Machine.goIdle
  dsimp only
  split
  · exact Held.refl r
  · have h : ∀ b g r', r'.flash = (Machine.withdrawFetches v r).flash →
        Held r (pageVoiceIdle t v b (leaveGroup g r')) := fun b g r' e => by
      have := (pageVoiceIdle_flash t v b (leaveGroup g r')).trans ((leaveGroup_flash g r').trans e)
      exact (Held.withdrawFetches v r).trans (Held.of_flash (by rw [this]) (by rw [this]))
    have k := h (r.voice v).bound (r.voice v).tag ((Machine.withdrawFetches v r).onVoice v Voice.toIdle)
      (Run.onVoice_flash _ _ _)
    split
    · exact k.trans (Held.report t _ _)
    · exact k

theorem Held.makeRefill (t : Tables) (v : Nat) (r : Run) : Held r (makeRefill t v r) := by
  unfold Machine.makeRefill
  split
  · exact Held.refl r
  · split
    · exact Held.of_flash rfl rfl
    · dsimp only
      split
      · exact Held.of_flash rfl rfl
      · exact (Held.goIdle t v _ _).after rfl rfl

theorem Held.askRefill (t : Tables) (v : Nat) (r : Run) : Held r (askRefill t v r) := by
  unfold Machine.askRefill
  split
  · exact Held.makeRefill t v r
  · exact Held.of_flash rfl rfl

/-- A round of the pump leaves the operation and its transfer, or the arbiter starts a transfer. -/
theorem pumpOnce_held {t : Tables} {r r' : Run} (h : pumpOnce t r = some r') :
    Held r r' ∨ arbiterStart t r = some r' := by
  unfold pumpOnce at h
  split at h
  · cases h
    exact .inl ((Held.makeRefill t _ _).after rfl rfl)
  · split at h
    · cases h
      exact .inl (Held.askRefill t _ r)
    · exact .inr h

/-! ### A due step -/

theorem stepXfer_no_fetch {t : Tables} {o : Op} {k : StepKind} {x : Xfer} (h : stepXfer t o k = some x) :
    ∀ f d, x.kind ≠ .fetch f d := by
  unfold stepXfer at h
  split at h
  · split at h <;> cases h; intro f d e; cases e
  all_goals cases h; intro f d e; cases e

theorem arbiterStart_busy {t : Tables} {r : Run} {x : Xfer} (h : r.flash.bus = some x) : arbiterStart t r = none := by
  simp only [arbiterStart, h]

/-- The pump leaves a transfer that is no fetch on the bus, and the operation as it stands. -/
theorem pumpLoop_busy (t : Tables) (x : Xfer) (hx : ∀ f d, x.kind ≠ .fetch f d) : ∀ (n : Nat) (r : Run),
    r.flash.bus = some x → (pumpLoop t n r).flash.bus = some x ∧ (pumpLoop t n r).flash.op = r.flash.op := by
  intro n
  induction n with
  | zero => exact fun r h => ⟨h, rfl⟩
  | succ n ih =>
    intro r h
    unfold pumpLoop
    split
    · rcases pumpOnce_held ‹_› with k | k
      · have := ih _ (k.busy x h hx)
        exact ⟨this.1, this.2.trans k.op⟩
      · rw [arbiterStart_busy h] at k; cases k
    · exact ⟨h, rfl⟩

/-- A due step stays due, or the arbiter started its transfer on the free bus (R117, R119). -/
theorem pumpLoop_due (t : Tables) (o : Op) (k : StepKind) : ∀ (n : Nat) (r : Run),
    r.flash.op = some { o with step := .due k } →
    (pumpLoop t n r).flash.op = some { o with step := .due k }
    ∨ r.flash.bus = none ∧ (pumpLoop t n r).flash.op = some { o with step := .running }
      ∧ (pumpLoop t n r).flash.bus = stepXfer t o k := by
  intro n
  induction n with
  | zero => exact fun r h => .inl h
  | succ n ih =>
    intro r h
    unfold pumpLoop
    split
    · rename_i r' hr
      rcases pumpOnce_held hr with hk | hk
      · rcases ih r' (hk.op.trans h) with e | ⟨e, f⟩
        · exact .inl e
        · exact .inr ⟨hk.free.1 e, f⟩
      · unfold arbiterStart at hk
        split at hk
        · cases hk
        · rename_i hb
          have hx : stepXfer t { o with step := .due k } k = stepXfer t o k := by cases k <;> rfl
          have hd : dueStep t r = (stepXfer t o k).map (fun x => ({ o with step := .due k }, x)) := by
            simp only [dueStep, h, hx]
          split at hk
          · rename_i o' x hs
            rw [hd, Option.map_eq_some_iff] at hs
            obtain ⟨x', hx', e⟩ := hs
            cases e
            cases hk
            have := pumpLoop_busy t x (stepXfer_no_fetch hx') n
              { r with flash := { r.flash with bus := some x, op := some { o with step := .running } } } rfl
            exact .inr ⟨hb, this.2, this.1.trans hx'.symm⟩
          · split at hk
            · have e1 : r'.flash.op = some { o with step := .due k } := by cases hk; exact h
              have e2 : r'.flash.bus ≠ none := by cases hk; nofun
              exact (ih r' e1).imp_right (fun e => absurd e.1 e2)
            · cases hk
    · exact .inl h

/-- What the pump makes of a due step (R117, R119). -/
theorem pump_due (t : Tables) (o : Op) (k : StepKind) (r : Run) (h : r.flash.op = some { o with step := .due k }) :
    (pump t r).flash.op = some { o with step := .due k }
    ∨ r.flash.bus = none ∧ (pump t r).flash.op = some { o with step := .running }
      ∧ (pump t r).flash.bus = stepXfer t o k := pumpLoop_due t o k 64 r h

end Sys2Proof.Machine
end

