-- ==== Sys2Proof/Tests/Slice0.lean ====
section
/-! SUPPORT. The model's own tests: the check of well-formedness, worked cases of the spec, steps on small
states, and for every statement with hypotheses a state and operands that meet them (`meets_…`). -/

namespace Sys2Proof.Tests

open Sys2Proof Sys2Proof.Machine

-- One theorem at a time: these are evaluated by the kernel, and many at once exhaust the memory.
set_option Elab.async false

/-! ### Small states -/

/-- The state a command leaves. -/
def after (i : Instr) (s : State) : State :=
  match exec i s with
  | .next t => t
  | _ => s

/-- A part whose image load has ended and whose ring is ACTIVE; frame 1,000 was the last taken. -/
def ready : State :=
  { State.reset with
    flash := { State.reset.flash with bus := none, op := none }
    port := { State.reset.port with active := true, now := 1000, counter := 1000 }
    ctl := { State.reset.ctl with taking := true } }

/-- A message from node 3 with tag 7. -/
def req (p : List Byte) : Msg := { src := 3, tag := 7, payload := p }

/-- A cue with a number and actions. -/
def cue (n : Nat) (a : List Action) : Cue :=
  { num := n, label := [], enabled := true, prewait := 0, follow := none, actions := a }

/-- A segment of 600 samples on device 1 that is followed by nothing. -/
def seg : Segment := { device := 1, addr := 0, len := 600, format := .s16, loops := 0, next := none }

def withCues (l : List Cue) (s : State) : State := { s with tables := { s.tables with cues := l } }
def withSeg (s : State) : State := { s with tables := { s.tables with segments := s.tables.segments.set 0 (some seg) } }
def withVoice (v : Nat) (x : Voice) (s : State) : State := { s with voices := s.voices.set v x }
def withDev (x : DevState) (s : State) : State := { s with flash := { s.flash with devs := [.ready, x] } }
def withOp (o : Op) (s : State) : State := { s with flash := { s.flash with op := some o } }
def withBus (k : XferKind) (s : State) : State :=
  { s with flash := { s.flash with bus := some { kind := k, seq := commandSeq 1 0 [] [] } } }
def withShow (x : ShowRt) (s : State) : State := { s with shw := x }
def held (s : State) : State := { s with cue := { s.cue with held := true } }
def guarded (f : Nat) (s : State) : State := { s with cue := { s.cue with guardEnd := some f } }
def withWaits (l : List Wait) (s : State) : State := { s with waits := l }
def paging (s : State) : State := { s with page := { s.page with enabled := true } }
/-- Voice 15 playing, with samples missed. -/
def playing (missed : Nat) : State := withVoice 15 { Voice.idle with state := .playing, missed := missed } ready
/-- Voice 15 STOPPING, with its fader at rest at a code. -/
def stopping (code : Nat) : State :=
  { withVoice 15 { Voice.idle with state := .stopping, stopWhy := some .showStop } ready with
    lv := { ready.lv with faders := List.replicate 16 (Level.rest code) } }
def eraseOp : Op := newOp Tables.default .erase 1 [.erase 65536 65536] .running [1, 1, 0, 0, 0]

/-! ### Well-formedness: each check refuses an ill-formed command -/

theorem test_wf_refuses_events :
    wellFormed (.frameArrival { bytes := [], keys := 0, acks := 0, hold := false }) = false
    ∧ wellFormed (.voiceStarved 16) = false ∧ wellFormed (.reassemblyTimeout 256) = false
    ∧ wellFormed (.holdExpiry 16) = false ∧ wellFormed (.goHoldEnd 8) = false ∧ wellFormed (.pageKeyPress 4) = false
    ∧ wellFormed (.pageKeyRelease 4) = false ∧ wellFormed (.acknowledge 8) = false := by decide +kernel

theorem test_wf_refuses_levels :
    wellFormed (.fadeComplete (.crosspoint 40 0)) = false ∧ wellFormed (.fadeComplete (.crosspoint 0 24)) = false
    ∧ wellFormed (.fadeComplete (.master 24)) = false ∧ wellFormed (.fadeComplete (.trim 40)) = false
    ∧ wellFormed (.fadeComplete (.fader 16)) = false ∧ wellFormed (.fadeComplete (.zoneProgramme 16)) = false
    ∧ wellFormed (.fadeComplete (.duck 16)) = false ∧ wellFormed (.fadeComplete (.crosspoint 39 23)) = true := by decide

theorem test_wf_refuses_kinds :
    wellFormed (.messageNotRequest 0x7F (req [])) = false ∧ wellFormed (.unknownKind 0x80 (req [])) = false
    ∧ wellFormed (.unknownKind 0x01 (req [])) = false ∧ wellFormed (.unknownKind 0x2B (req [])) = false
    ∧ wellFormed (.voiceStart (req [0, 1, 0, 0, 0])) = false ∧ wellFormed (.voiceStop (req [0, 2, 0, 0, 0])) = false
    ∧ wellFormed (.voiceRelease (req [0, 0, 0, 0, 0])) = false ∧ wellFormed (.pageOn (req [0, 0])) = false
    ∧ wellFormed (.pageOff (req [0, 1])) = false ∧ wellFormed (.pageOff (req [0])) = false := by decide

/-- A message of 1,025 bytes of payload, which no lane can carry. -/
def tooLong : Msg := req (List.replicate 1025 0)

theorem test_wf_refuses_long_payloads :
    [Instr.setLevel tooLong, .fadeLevel tooLong, .loadLaw tooLong, .loadInput tooLong, .loadMix tooLong, .talkSet tooLong
     , .readMeters tooLong, .loadScene tooLong, .recall tooLong, .restore tooLong, .loadCue tooLong, .deleteCue tooLong
     , .clearCues tooLong, .go tooLong, .goTo tooLong, .setStandby tooLong, .readCue tooLong, .readWaits tooLong
     , .loadSegment tooLong, .voiceStart tooLong, .readVoice tooLong, .loadProfile tooLong, .flashErase tooLong
     , .flashWrite tooLong, .flashRead tooLong, .flashReset tooLong, .saveShow tooLong, .loadZone tooLong
     , .loadPageSource tooLong, .loadPageOrder tooLong, .pagingSet tooLong, .pageOff tooLong, .readZone tooLong
     , .setShowState tooLong, .setLocks tooLong, .showStop tooLong, .showResume tooLong, .loadLight tooLong
     , .lightSet tooLong, .loadSettings tooLong, .readStatus tooLong, .restart tooLong, .messageNotRequest 0x80 tooLong
     , .unknownKind 0 tooLong].all (fun i => wellFormed i = false) = true := by decide +kernel

/-! ### Arithmetic: the spec's worked cases -/

theorem test_crc_check_values :
    crc16 [0x31, 0x32, 0x33, 0x34, 0x35, 0x36, 0x37, 0x38, 0x39] = 0x29B1
    ∧ crc32 [0x31, 0x32, 0x33, 0x34, 0x35, 0x36, 0x37, 0x38, 0x39] = 0xCBF43926 := by decide +kernel

theorem test_gain_mid_fade :
    gain factoryLaw 53184 = 275095 ∧ gain factoryLaw 200 = 1 ∧ gain factoryLaw 100 = 0 ∧ gain factoryLaw 65280 = 4174456 := by
  decide +kernel

theorem test_rnd20_and_sat :
    rnd20 3670016 = 4 ∧ rnd20 (-3670016) = -3 ∧ rnd20 (-3670017) = -4 ∧ sat (-8388608) = -8388607 := by decide

/-- The fade of Table 1-2 at frame `k`. -/
def fade12 (k : Nat) : Fade := { start := 51200, target := 59136, dur := 4800, k := k }

theorem test_fade_table :
    (fade12 1).value = 51201 ∧ (fade12 1200).value = 53184 ∧ (fade12 2400).value = 55168 ∧ (fade12 4799).value = 59134
    ∧ (fade12 4800).value = 59136 := by decide

theorem test_dim_and_duck :
    dimmed 59136 20 = 54016 ∧ dimmed 60160 80 = 39680 ∧ dimmed 3000 20 = 256 ∧ dimmed 0 20 = 0
    ∧ ducked 59136 10240 = 48896 ∧ gain factoryLaw 48896 = 104858 := by decide +kernel

theorem test_channels_at_the_limits :
    channelValue factoryLaw { source := .slot 30, invert := true, mute := false } (-8388608) (Level.rest 231) = 8388607
    ∧ channelValue factoryLaw { source := .slot 30, invert := false, mute := false } 3000000 (Level.rest 255) = 8388607 := by
  decide +kernel

theorem test_mix_under_dim :
    scaled 1000000 275095 = 262351 ∧ scaled 262351 (gain factoryLaw (dimmed 59136 20)) = 82963
    ∧ mixLimit { role := .foldback, slot := none, dim := true, ceiling := 2000000 } 5500000 = 2000000
    ∧ mixLimit MixRec.default 11000000 = 8388607 := by decide +kernel

theorem test_zone_output :
    scaled 2000000 (gain factoryLaw (ducked 59136 10240)) = 200001 ∧ sat (200001 + 3000000) = 3200001 := by
  decide +kernel

theorem test_factory_law_is_the_rounded_power_law :
    (List.range 255).all (fun i =>
      let x := factoryLaw.getD (i + 1) 0
      decide ((2 * x - 1) ^ 40 * 10 ^ 231 ≤ (2 ^ 21) ^ 40 * 10 ^ (i + 1))
        && decide ((2 ^ 21) ^ 40 * 10 ^ (i + 1) < (2 * x + 1) ^ 40 * 10 ^ 231)) = true := by decide +kernel

theorem test_trim_recall :
    recallCode .trim 200 237 = 206 ∧ recallCode .trim 200 0 = 1 ∧ recallCode .trim 0 255 = 0
    ∧ recallCode .trim 255 255 = 255 ∧ recallCode .keepHigher 10 20 = 20 ∧ recallCode .keepLower 10 20 = 10 := by decide

theorem test_debounce :
    (Nat.repeat (fun d => (Debounce.sample d true).1) 239 { pressed := false, count := 0 }) = { pressed := false, count := 239 }
    ∧ Debounce.sample { pressed := false, count := 239 } true = ({ pressed := true, count := 0 }, some true)
    ∧ Debounce.sample { pressed := false, count := 239 } false = ({ pressed := false, count := 0 }, none) := by
  decide +kernel

theorem test_page_ranks :
    (List.range 8).map (sourceRank Tables.default.order) = [0, 1, 2, 3, 4, 5, 6, 7] := by decide

theorem test_save_order :
    (saveCmds 65536 (List.replicate 600 0)).map (fun c => match c with
      | .erase a n => (a, n)
      | .program a d => (a, d.length)) = [(0, 65536), (256, 256), (512, 88), (0, 256)] := by decide +kernel

/-! ### Steps -/

theorem test_set_level_writes :
    (after (.setLevel (req [0, 23, 39, 255])) ready).lv.get (.crosspoint 39 23) = Level.rest 255
    ∧ (after (.setLevel (req [0, 23, 39, 255])) ready).ctl.places = [answered .setLevel (req []) .ok []] := by
  decide +kernel

theorem test_fade_level_begins :
    (after (.fadeLevel (req [1, 0, 0, 0, 100, 0])) ready).lv.get (.master 0)
      = { fine := 59136, fade := some { start := 59136, target := 0, dur := 4800, k := 0 } } := by decide +kernel

theorem test_voice_start_fetches :
    let s := after (.voiceStart (req [3, 0, 0, 0, 200])) (withSeg ready)
    (s.toRun.voice 3).state = .priming ∧ (s.toRun.voice 3).reserved = 600 ∧ s.lv.get (.fader 3) = Level.rest 200
    ∧ s.flash.bus.map Xfer.kind = some (.fetch { voice := 3, dev := 1, addr := 0, format := .s16, count := 512
                                                 src := { seg := 0, pass := 0, off := 0 } } false)
    ∧ s.flash.queue.length = 1 := by decide +kernel

theorem test_fetches_make_it_play :
    let s := after .fetchComplete (after .fetchComplete (after (.voiceStart (req [3, 0, 0, 0, 200])) (withSeg ready)))
    (s.toRun.voice 3).state = .playing ∧ (s.toRun.voice 3).buffer.length = 600 ∧ (s.toRun.voice 3).reserved = 0 := by
  decide +kernel

theorem test_write_then_poll :
    let s := after (.flashWrite (req [1, 0x40, 0x0D, 3, 0, 0x12, 0x34])) ready
    let t := after (.pollComplete 0) (after .pollDue
      (let w := after .flashCommandComplete (after .writeEnableComplete s)
       { w with port := { w.port with now := 1048 } }))
    s.flash.bus.map Xfer.kind = some (.writeEnable 1 (.program 200000 [0x12, 0x34]) true)
    ∧ Memory.readRange t.flash1 199999 4 = [0xFF, 0x12, 0x34, 0xFF] ∧ t.flash.op = none
    ∧ t.ctl.places.map Place.answer = [some (.ok, [1, 0x40, 0x0D, 3, 0, 2, 0])] := by decide +kernel

theorem test_go_fires_and_guards :
    let s := after (.go (req [])) (withCues [cue 5 [.light 2 .go]] ready)
    s.cue.pos = 5 ∧ s.cue.guardEnd = some 25000 ∧ (s.toRun.light 2).state = .go
    ∧ s.ctl.places.map Place.answer = [some (.ok, [5, 0, 0, 0])]
    ∧ s.ctl.reports.map Report.body = [.cueFired 5 .goRequest, .standby 5 none] := by decide +kernel

theorem test_page_ducks_its_zones :
    let s := after (.pageOn (req [1, 1])) { paging ready with
      tables := { ready.tables with pages := ready.tables.pages.set 1 { origin := .slot 48, gain := 231, zones := 0x0003 } } }
    (s.toRun.zone 0) = { state := .ducked, holdEnd := none, onAir := some 1 }
    ∧ s.lv.get (.duck 1) = { fine := 0, fade := some { start := 0, target := 10240, dur := 2400, k := 0 } }
    ∧ (s.toRun.zone 2).onAir = none := by decide +kernel

theorem test_a_cut_that_ends_idle_withdraws :
    let s := withVoice 3 { Voice.idle with state := .playing } { paging ready with
      tables := { ready.tables with pages := ready.tables.pages.set 1 { origin := .voice 3, gain := 231, zones := 1 } } }
    let t := startVoice s.tables 3 9 0 .none none (raiseSource s.tables .action 1 s.toRun)
    t.src 1 = { requested := false, bound := none } ∧ (t.voice 3).state = .idle
    ∧ t.ctl.reports.map Report.body = [.zone 0 none (some 1) .ducked, .voice 3 .stolen .none
      , .zone 0 (some 1) none .hold, .voice 3 .noSegment .none] := by decide +kernel

set_option maxRecDepth 100000 in
theorem test_first_good_frame :
    let f : RingFrame := { counter := 7, slots := List.replicate 64 0, lane := idleLane }
    let s := after (.frameArrival { bytes := frameBytes f, keys := 1, acks := 0, hold := false }) (after (.imageLoadEnd ()) State.reset)
    s.port.active = true ∧ s.port.counter = 7 ∧ s.port.now = 1 ∧ (s.stage.keys.map Debounce.count) = [1, 0, 0, 0, 0, 0, 0]
    ∧ s.ctl.reports.map Report.body = [.standby 0 none, .image (some .noImage)] := by decide +kernel

theorem test_single_and_train_lanes :
    fragments { kind := 0x8E, tag := 7, payload := [0, 1], dst := 3 } = [(4, [0x8E, 7, 0, 1])]
    ∧ (fragments { kind := 0x8E, tag := 7, payload := [0, 1, 2, 3], dst := 3 }).map Prod.fst = [1, 3]
    ∧ laneBytes 4 254 3 [0x8E, 7, 0, 1] = [0x44, 254, 3, 0x8E, 7, 0, 1, 0] := by decide +kernel

/-- Zone 0, ducked by the page of voice 15, with no hold and no release, and mix 0 of slot 0 for its programme. -/
def duckedZone : State :=
  let b : BufSample := { value := 0, dev := 1, src := { seg := 0, pass := 0, off := 0 } }
  let s := withVoice 15 { Voice.idle with state := .playing, buffer := [b] } ready
  { s with
    tables := { s.tables with
      inputs := s.tables.inputs.set 0 { source := .slot 0, invert := false, mute := false }
      zones := s.tables.zones.set 0 { ZoneRec.default with prog := some 0, hold := 0, release := 0 }
      pages := s.tables.pages.set 0 { origin := .voice 15, gain := 231, zones := 1 } }
    lv := { (s.lv.put (Level.rest 231) (.crosspoint 0 0)) with ducks := List.replicate 16 (Level.rest 40) }
    page := { s.page with
      zones := s.page.zones.set 0 { state := .ducked, holdEnd := none, onAir := some 0 }
      srcs := s.page.srcs.set 0 { requested := true, bound := none } }
    port := { s.port with capture := some (List.replicate 64 2000000) } }

set_option maxRecDepth 100000 in
theorem test_a_duck_write_shows_from_the_next_frame :
    let x : FrameIn := { bytes := [], keys := 0, acks := 0, hold := true }
    let r := blocksTake duckedZone.tables x duckedZone.toRun
    (r.voice 15).state = .idle ∧ r.lv.get (.duck 0) = Level.rest 0 ∧ (r.zone 0).state = .programme
    ∧ zoneOut r 0 = 200001 ∧ zoneOut (blocksTake duckedZone.tables x r) 0 = 2000000 := by decide +kernel

/-! ### States and operands that meet the statements' hypotheses -/

theorem meets_StepTakesTheFrontCommand :
    { ready with pending := [.ringLoss, .pollDue] }.pending = Instr.ringLoss :: [.pollDue] ∧ ready.pending = [] := ⟨rfl, rfl⟩

theorem meets_step_statements : exec .ringLoss State.reset = .next State.reset ∧ step State.reset = .next State.reset
    ∧ mayLoad .ringLoss = false ∧ (∀ x, Instr.ringLoss ≠ .powerOn x) ∧ (∀ x, Instr.ringLoss ≠ .pollComplete x) :=
  ⟨rfl, rfl, rfl, fun _ => nofun, fun _ => nofun⟩

theorem meets_invariants : lawHolds State.reset = true ∧ slotsHold State.reset = true ∧ cuesHold State.reset = true
    ∧ memoryOk State.reset = true ∧ placesHold State.reset = true ∧ reportsHold State.reset = true
    ∧ waitsHold State.reset = true := by decide +kernel

/-- An image with every table at its default. -/
def plainImage : Image := { tables := Tables.default, codes := Levels.default.codes }

/-- A part that reads a good image of those tables. -/
def holdingImage : State := { State.reset with flash0 := Memory.program [] 0 (imageBytes plainImage) }

theorem plainImage_valid : imageValid plainImage = true := by decide +kernel

theorem flash0_of (m : List Host.Cell) : ({ State.reset with flash0 := m } : State).flash0 = m := rfl

theorem holdingImage_flash0 : holdingImage.flash0 = Memory.program [] 0 (imageBytes plainImage) := flash0_of _

theorem reader_of_flash0 (m : List Host.Cell) : ({ State.reset with flash0 := m } : State).reader 0 = Memory.readRange m := rfl

theorem holdingImage_reader : holdingImage.reader 0 = Memory.readRange (Memory.program [] 0 (imageBytes plainImage)) :=
  reader_of_flash0 _

theorem meets_GainLawAlwaysHolds :
    readingImage holdingImage.toRun = true ∧ holdingImage.tables.law = factoryLaw
    ∧ checkImage (holdingImage.reader 0) = .ok plainImage
    ∧ checkImage (State.reset.reader 0) = .error .noImage := by
  refine ⟨rfl, rfl, ?_, by decide +kernel⟩
  rw [holdingImage_reader]
  exact checkImage_imageBytes plainImage plainImage_valid

theorem meets_power_on_and_restart :
    (∃ t, exec (.powerOn 9) State.reset = .next t) ∧ ∃ t, exec .restartCarriedOut State.reset = .next t :=
  ⟨⟨_, rfl⟩, ⟨_, rfl⟩⟩

theorem meets_RequestChecksInOrder :
    requestOf (.loadLaw (req [0, 0])) = some (.loadLaw, req [0, 0]) ∧ State.reset.ctl.taking = false
    ∧ 8 ≤ ({ ready with ctl := { ready.ctl with places := List.replicate 8 (deferred .go (req [])) } } : State).ctl.places.length
    ∧ ready.ctl.taking = true ∧ ready.ctl.places.length < 8 ∧ ReqKind.loadLaw.lengthOk 1 = false
    ∧ ReqKind.loadLaw.lengthOk 2 = true
    ∧ requestOf (.saveShow (req [])) = some (.saveShow, req [])
    ∧ (isContent .saveShow && (withShow { inShow := true, stopped := false } ready).shw.inShow) = true
    ∧ (isContent .loadLaw && (withShow { inShow := true, stopped := false } ready).shw.inShow) = false
    ∧ isLocked Tables.default true .loadLaw [0, 0] = true := by decide +kernel

/-- Each lock group with a request it holds, by the kind and by the level named, and requests no flag holds (R157). -/
theorem meets_locked_groups :
    let t := fun l => ({ Tables.default with locks := l, mixes := [{ MixRec.default with role := .foldback }] } : Tables)
    let off : Locks := { cues := false, foldback := false, relay := false, routing := false }
    isLocked (t { off with cues := true }) true .loadLight [] = true
    ∧ isLocked (t { off with foldback := true }) true .restore [] = true
    ∧ isLocked (t { off with foldback := true }) true .setLevel [1, 0, 0] = true
    ∧ isLocked (t { off with foldback := true }) true .fadeLevel [0, 0, 39] = true
    ∧ isLocked (t { off with relay := true }) true .setLevel [4, 15, 0] = true
    ∧ isLocked (t { off with routing := true }) true .setLevel [1, 0, 0] = false
    ∧ isLocked (t { off with routing := true }) true .fadeLevel [2, 39, 0] = true
    ∧ isLocked (t off) true .loadCue [] = false ∧ isLocked (t { off with cues := true }) false .loadCue [] = false := by
  decide +kernel

theorem meets_MessagesThatAreNoRequest :
    128 ≤ (0x80 : Byte).toNat ∧ (0x7F : Byte).toNat < 128 ∧ ReqKind.ofCode (0x7F : Byte).toNat = none
    ∧ ReqKind.ofCode (0x00 : Byte).toNat = none ∧ ReqKind.ofCode (0x2C : Byte).toNat = none := by decide

theorem meets_ReadsChangeNothing :
    accepts (withCues [cue 99999 []] ready) .readCue (req [0x9F, 0x86, 1, 0])
    ∧ isCueNum (u32 (req [0x9F, 0x86, 1, 0]).payload 0) = true
    ∧ findCue (withCues [cue 99999 []] ready).tables (u32 (req [0x9F, 0x86, 1, 0]).payload 0) = some (cue 99999 [])
    ∧ accepts ready .readWaits (req []) ∧ accepts ready .readVoice (req [15]) ∧ u8 (req [15]).payload 0 < 16
    ∧ accepts ready .readZone (req [15]) ∧ accepts ready .readStatus (req []) := by
  unfold accepts; decide +kernel

theorem meets_LevelRequestsWriteOneLevel :
    accepts ready .setLevel (req [0, 23, 39, 255]) ∧ refAt [0, 23, 39, 255] 0 = some (.crosspoint 39 23)
    ∧ ready.lv.get? (.crosspoint 39 23) = some (Level.rest 0)
    ∧ accepts ready .fadeLevel (req [4, 15, 0, 0, 255, 255]) ∧ refAt [4, 15, 0, 0, 255, 255] 0 = some (.zoneProgramme 15)
    ∧ ready.lv.get? (.zoneProgramme 15) = some (Level.rest 231)
    ∧ accepts ready .setLevel (req [6, 0, 0, 0]) ∧ refAt [6, 0, 0, 0] 0 = none
    ∧ accepts ready .setLevel (req [5, 15, 0, 0]) ∧ refAt [5, 15, 0, 0] 0 = some (.duck 15)
    ∧ (Level.rest 231).fine = 256 * 231 ∧ (Level.rest 231).fine ≠ 256 * 232 ∧ 0 < 65535 := by
  unfold accepts; decide +kernel

theorem meets_LevelRequestsWriteAFader :
    accepts ready .setLevel (req [3, 15, 0, 0]) ∧ accepts ready .fadeLevel (req [3, 15, 0, 0, 1, 0])
    ∧ refAt [3, 15, 0, 0] 0 = some (.fader 15) ∧ ready.lv.get? (.fader 15) = some (Level.rest 231)
    ∧ accepts (stopping 0) .setLevel (req [3, 15, 0, 0]) ∧ 15 < (stopping 0).voices.length
    ∧ ((stopping 0).toRun.voice 15).state = .stopping ∧ (stopping 0).lv.get? (.fader 15) = some (Level.rest 0)
    ∧ (Level.rest 0).completionDue = false ∧ ((Level.rest 0).write 231 100).fade ≠ none
    ∧ ((Level.rest 0).write 0 0).fade = none ∧ ((Level.rest 0).write 0 0).fine = 0 ∧ ((Level.rest 0).write 1 0).fine ≠ 0 := by
  unfold accepts; decide +kernel

/-- A level whose fade has reached its end. -/
def done12 : Level := { fine := 59136, fade := some (fade12 4800) }

theorem meets_levels :
    (Level.rest 231).fade = none ∧ done12.fade = some (fade12 4800) ∧ ((Level.rest 200).write 231 100).fade.isSome = true
    ∧ 0 < (fade12 4800).dur ∧ (fade12 4800).k ≤ (fade12 4800).dur
    ∧ ({ ready.lv with masters := [done12] } : Levels).get? (.master 0) = some done12 ∧ done12.completionDue = true
    ∧ ready.lv.get? (.fader 0) = some (Level.rest 231) ∧ (Level.rest 231).completionDue = false := by decide +kernel

/-- A fader whose fade to off has reached its end, and a duck whose fade has. -/
def doneOff : Level := { fine := 0, fade := some { start := 256, target := 0, dur := 48, k := 48 } }

theorem meets_FadeCompletionLeavesItsLevelAtRest :
    let s := { stopping 0 with lv := { ready.lv with faders := List.replicate 16 doneOff, ducks := List.replicate 16 doneOff } }
    s.lv.get? (.fader 15) = some doneOff ∧ doneOff.completionDue = true ∧ doneOff.fine = 0 ∧ done12.fine ≠ 0
    ∧ (s.toRun.voice 15).state = .stopping ∧ ((playing 0).toRun.voice 15).state ≠ .stopping
    ∧ s.lv.get? (.duck 15) = some doneOff
    ∧ ({ ready with page := { ready.page with
        zones := List.replicate 16 { state := .release, holdEnd := none, onAir := none } } }.toRun.zone 15).state = .release := by
  decide +kernel

/-- A scene of mix 0 with inputs 0 and 1 and the master. -/
def scene0 : Scene := { mixes := 1, inputs := 3, masters := 1, codes := [10, 20, 231] }
def withScene (s : State) : State := { s with tables := { s.tables with scenes := s.tables.scenes.set 31 scene0 } }

theorem meets_CodeOfALevel :
    affected ((withScene ready).tables.scenes.getD 31 Scene.empty) 1 ≠ [] ∧ ∃ f : Fade, f.target = 256 * 231 :=
  ⟨by decide +kernel, fade12 0, rfl⟩

theorem meets_LoadLawReplacesARun :
    accepts ready .loadLaw (req [255, 1, 0, 0, 0x40, 0]) ∧ [255, 1, 0, 0, 0x40, (0 : Byte)].length = 2 + 4 * u8 [255, 1, 0, 0, 0x40, 0] 1
    ∧ lawOk (lawWith factoryLaw 255 (lawValues [255, 1, 0, 0, 0x40, 0])) = true ∧ u32 [255, 1, 0, 0, 0x40, 0] 2 = 4194304
    ∧ lawOk (lawWith factoryLaw 255 (lawValues [255, 1, 1, 0, 0x40, 0])) = false
    ∧ accepts ready .loadLaw (req [255, 1, 1, 0, 0x40, 0])
    ∧ accepts ready .loadLaw (req [0, 0]) ∧ u8 [0, (0 : Byte)] 1 = 0
    ∧ accepts ready .loadLaw (req [0, 1]) ∧ [0, (1 : Byte)].length ≠ 2 + 4 * u8 [0, 1] 1 := by
  unfold accepts; decide +kernel

theorem meets_gains_and_mixes :
    lawOk factoryLaw = true ∧ 0 < 65279 ∧ 65279 / 256 ≠ 255 ∧ 65279 ≤ 65280 ∧ (1 : Nat) ≠ 0
    ∧ Levels.default.masters[23]? = some (Level.rest 231) ∧ Tables.default.inputs[39]?.isSome = true
    ∧ Levels.default.trims[39]? = some (Level.rest 231) ∧ ready.mix.peaks[23]? = some 0 ∧ ready.mix.clips[23]? = some false
    ∧ ([.goPress, .talk true, .talk false] : List KeyEvent) = [.goPress] ++ .talk true :: [.talk false]
    ∧ (mixRec { Tables.default with mixes := [{ role := .foldback, slot := none, dim := true, ceiling := 1 }] } 0).role
        = .foldback := by decide +kernel

theorem meets_LoadInput_LoadMix :
    accepts ready .loadInput (req [39, 1, 63, 255, 3]) ∧ sourceOf 1 63 = some (.slot 63) ∧ sourceOf 2 15 = some (.voice 15)
    ∧ sourceOf 0 0 = some .none ∧ ready.lv.trims[39]? = some (Level.rest 231)
    ∧ accepts ready .loadMix (req [23, 0, 63, 1, 255, 255, 255])
    ∧ mixOf [23, 0, 63, 1, 255, 255, 255] = some { role := .foldback, slot := some 63, dim := true, ceiling := 8388607 }
    ∧ slotFree ready.tables (.mix 23) (some 63) = true
    ∧ slotFree { ready.tables with zones := [{ ZoneRec.default with slot := some 63 }] } (.mix 23) (some 63) = false := by
  unfold accepts; decide +kernel

theorem meets_Talk_and_meters :
    accepts ready .talkSet (req [0]) ∧ accepts ready .talkSet (req [1]) ∧ accepts ready .talkSet (req [2])
    ∧ accepts ready .readMeters (req []) ∧ ({ ready.mix with talkKey := true } : MixRt).talkKey = true := by
  unfold accepts; decide +kernel

theorem meets_Scenes :
    accepts ready .loadScene (req [32, 0, 0, 0, 0, 0, 0, 0, 0, 0, 0, 0])
    ∧ accepts ready .loadScene (req [31, 0, 0, 0, 0, 0, 0, 0, 0, 1, 0, 0])
    ∧ (sceneOf [31, 0, 0, 0, 0, 0, 0, 0, 0, 1, 0, 0]).masters &&& ~~~(sceneOf [31, 0, 0, 0, 0, 0, 0, 0, 0, 1, 0, 0]).mixes ≠ 0
    ∧ accepts ready .loadScene (req [31, 1, 0, 0, 3, 0, 0, 0, 0, 1, 0, 0, 10, 20, 231])
    ∧ sceneOf [31, 1, 0, 0, 3, 0, 0, 0, 0, 1, 0, 0, 10, 20, 231] = scene0 ∧ scene0.codes.length = sceneCodeCount scene0
    ∧ accepts ready .loadScene (req [31, 1, 0, 0, 3, 0, 0, 0, 0, 1, 0, 0, 10, 20])
    ∧ (sceneOf [31, 1, 0, 0, 3, 0, 0, 0, 0, 1, 0, 0, 10, 20]).codes.length ≠ sceneCodeCount scene0 := by
  unfold accepts; decide +kernel

theorem meets_RecallLatchesAndWrites :
    accepts (withScene ready) .recall (req [31, 3, 0, 0, 1, 0, 0]) ∧ recallModeOf 3 = some .trim
    ∧ affected scene0 (BitVec.ofNat 24 (u24 [31, 3, 0, 0, 1, 0, 0] 4))
        = [(.crosspoint 0 0, 10), (.crosspoint 1 0, 20), (.master 0, 231)]
    ∧ recallCode .trim ((withScene ready).lv.get (.master 0)).code 231 = ((withScene ready).lv.get (.master 0)).code
    ∧ recallCode .replace ((withScene ready).lv.get (.crosspoint 0 0)).code 10 ≠ ((withScene ready).lv.get (.crosspoint 0 0)).code
    ∧ accepts (withScene ready) .recall (req [31, 0, 255, 255, 1, 0, 0]) ∧ recallModeOf 0 = some .replace
    ∧ accepts ready .recall (req [0, 0, 0, 0, 1, 0, 0]) ∧ affected Scene.empty 1 = [] := by
  unfold accepts; decide +kernel

theorem meets_Restore :
    accepts ready .restore (req [0, 0]) ∧ ready.latch = []
    ∧ accepts { ready with latch := [(.master 0, 100)] } .restore (req [255, 255])
    ∧ ([((LevelRef.master 0), 100)].map Prod.fst).Nodup
    ∧ ready.lv.get? (.master 0) = some (Level.rest 231) ∧ (Level.rest 231).code ≠ 100
    ∧ accepts { ready with latch := [(.master 0, 231), (.fader 15, 0)] } .restore (req [0, 0])
    ∧ ([((LevelRef.master 0), 231), (.fader 15, 0)].map Prod.fst).Nodup ∧ (Level.rest 231).code = 231 := by
  unfold accepts; decide +kernel

theorem meets_CueEditsChangeOneCue :
    accepts ready .loadCue (req [1, 0, 0, 0, 1, 0, 0, 0, 0, 0, 1])
    ∧ [1, 0, 0, 0, 1, 0, 0, 0, 0, 0, (1 : Byte)].length ≠ cueLength [1, 0, 0, 0, 1, 0, 0, 0, 0, 0, 1]
    ∧ accepts ready .loadCue (req [0, 0, 0, 0, 1, 0, 0, 0, 0, 0, 0]) ∧ cueOf [0, 0, 0, 0, 1, 0, 0, 0, 0, 0, 0] = none
    ∧ accepts ready .loadCue (req [1, 0, 0, 0, 1, 0, 0, 0, 0, 0, 0])
    ∧ cueOf [1, 0, 0, 0, 1, 0, 0, 0, 0, 0, 0] = some (cue 1 [])
    ∧ [1, 0, 0, 0, 1, 0, 0, 0, 0, 0, (0 : Byte)].length = cueLength [1, 0, 0, 0, 1, 0, 0, 0, 0, 0, 0]
    ∧ findCue ready.tables 1 = none ∧ ready.tables.cues.length < 512
    ∧ accepts (withCues (List.replicate 512 (cue 2 [])) ready) .loadCue (req [1, 0, 0, 0, 1, 0, 0, 0, 0, 0, 0])
    ∧ findCue (withCues (List.replicate 512 (cue 2 [])) ready).tables 1 = none
    ∧ accepts ready .deleteCue (req [0, 0, 0, 0]) ∧ isCueNum (u32 [0, 0, 0, 0] 0) = false
    ∧ accepts ready .deleteCue (req [1, 0, 0, 0]) ∧ isCueNum (u32 [1, 0, 0, 0] 0) = true
    ∧ accepts (withCues [cue 1 []] ready) .deleteCue (req [1, 0, 0, 0])
    ∧ findCue (withCues [cue 1 []] ready).tables 1 ≠ none := by
  unfold accepts; decide +kernel

/-- Actions of Table 4-1 at the ends of their ranges, and just past one end each. -/
theorem meets_bad_actions :
    [[1, 15, 0xFF, 3, 255, 1, 0, 0], [2, 15, 255, 255, 0, 0, 0, 0], [4, 4, 15, 0, 255, 0, 0, 0], [5, 31, 3, 255, 255, 255, 0, 0],
      [7, 7, 1, 0, 0, 0, 0, 0], [8, 7, 15, 0xFF, 3, 0, 0, 0], [9, 7, 2, 0, 0, 0, 0, 0], [10, 15, 2, 1, 0, 0x9F, 0x86, 1],
      [12, 0, 0, 0, 0, 0, 0, (0 : Byte)]].map (fun a => (actionOf a).isSome) = List.replicate 9 true
    ∧ [[0, 0, 0, 0, 0, 0, 0, 0], [13, 0, 0, 0, 0, 0, 0, 0], [1, 16, 0, 0, 0, 0, 0, 0], [1, 0, 0, 4, 0, 0, 0, 0],
      [1, 0, 0, 0, 0, 2, 0, 0], [3, 0, 0, 0, 0, 0, 0, 1], [4, 5, 0, 0, 0, 0, 0, 0], [4, 0, 40, 0, 0, 0, 0, 0],
      [5, 32, 0, 0, 0, 0, 0, 0], [5, 0, 4, 0, 0, 0, 0, 0], [7, 8, 0, 0, 0, 0, 0, 0], [8, 0, 16, 0, 0, 0, 0, 0],
      [9, 0, 3, 0, 0, 0, 0, 0], [10, 0, 0, 0, 0, 1, 0, 0], [10, 0, 0, 1, 0, 0xA0, 0x86, 1],
      [12, 0, 0, 0, 0, 0, 0, (1 : Byte)]].map (fun a => (actionOf a).isSome) = List.replicate 16 false := by decide +kernel

/-- Cues at the ends of the ranges of R49 and R51, and just past them. -/
theorem meets_bad_cues :
    [[0x9F, 0x86, 1, 0, 3, 0, 255, 255, 1, 0, 0], [1, 0, 0, 0, 0, 2, 0, 0, 0, 0, 1, 0x20, 0x7E, 12, 0, 0, 0, 0, 0, 0, (0 : Byte)]].map
      (fun p => (cueOf p).isSome) = [true, true]
    ∧ [[0, 0, 0, 0, 1, 0, 0, 0, 0, 0, 0], [0xA0, 0x86, 1, 0, 1, 0, 0, 0, 0, 0, 0], [1, 0, 0, 0, 4, 0, 0, 0, 0, 0, 0],
      [1, 0, 0, 0, 2, 0, 0, 0, 0, 0, 0], [1, 0, 0, 0, 1, 0, 0, 0, 1, 0, 0], [1, 0, 0, 0, 1, 1, 0, 0, 0, 0, 0, 0x7F],
      [1, 0, 0, 0, 1, 1, 0, 0, 0, 0, 0, 0x1F], [1, 0, 0, 0, 1, 0, 0, 0, 0, 0, 1, 13, 0, 0, 0, 0, 0, 0, (0 : Byte)],
      [1, 0, 0, 0, 1, 25, 0, 0, 0, 0, 0] ++ List.replicate 25 0x20].map (fun p => (cueOf p).isSome) = List.replicate 9 false := by
  decide +kernel

theorem meets_ClearCuesEmptiesTheList :
    accepts ready .clearCues (req []) ∧ ready.tables.cues = [] ∧ ready.cue.pos = 0 ∧ (cue 1 []).enabled = true := by
  unfold accepts; decide +kernel

/-- A disabled cue. -/
def offCue (n : Nat) : Cue := { cue n [] with enabled := false }

theorem meets_StandbyAndGoToNameTheirCue :
    accepts ready .setStandby (req [0, 0, 0, 0]) ∧ isCueNum (u32 [0xA0, 0x86, 1, 0] 0) = false
    ∧ accepts ready .goTo (req [0xA0, 0x86, 1, 0]) ∧ accepts (held ready) .goTo (req [1, 0, 0, 0])
    ∧ isCueNum (u32 [1, 0, 0, 0] 0) = true ∧ (held ready).cue.held = true ∧ ready.cue.held = false
    ∧ findCue ready.tables 1 = none ∧ accepts ready .goTo (req [1, 0, 0, 0]) ∧ accepts ready .setStandby (req [1, 0, 0, 0])
    ∧ accepts (withCues [offCue 1] ready) .goTo (req [1, 0, 0, 0]) ∧ findCue (withCues [offCue 1] ready).tables 1 = some (offCue 1)
    ∧ accepts (guarded 1001 (withCues [cue 1 []] ready)) .goTo (req [1, 0, 0, 0])
    ∧ (guarded 1001 (withCues [cue 1 []] ready)).toRun.guarded = true
    ∧ accepts (guarded 1000 (withCues [cue 1 []] ready)) .goTo (req [1, 0, 0, 0])
    ∧ (guarded 1000 (withCues [cue 1 []] ready)).toRun.guarded = false
    ∧ accepts (withCues [cue 1 []] ready) .setStandby (req [1, 0, 0, 0])
    ∧ findCue (withCues [cue 1 []] ready).tables 1 = some (cue 1 []) ∧ (cue 1 []).enabled = true
    ∧ cuesHold (withCues [cue 1 []] ready) = true := by
  unfold accepts; decide +kernel

/-- A cue that starts voice 15, as the standby cue of which a recomputation tells. -/
def startCue (n : Nat) : Cue := cue n [.start 15 0 200 true, .start 14 0 200 false]

theorem meets_recompute :
    let r := (withCues [startCue 1] (withSeg ready)).toRun
    let t := (withCues [startCue 1] (withSeg ready)).tables
    standbyCue t r = some (startCue 1)
    ∧ standbyChanged (some (startCue 1)) (some (startCue 1)) false none = false
    ∧ standbyChanged (some (cue 2 [])) (some (startCue 1)) false none = true
    ∧ Voice.primedForCue { Voice.idle with state := .primed, primeId := some (2, 1) } 2 = true
    ∧ (∀ head code sync, Action.start 13 head code sync ∉ (startCue 1).actions)
    ∧ (startCue 1).actions[0]? = some (.start 15 0 200 true) ∧ 15 < r.voices.length ∧ (r.voice 15).state = .idle
    ∧ (r.voice 15).tag = none ∧ segmentRec t 0 = some seg ∧ r.cue.held = false :=
  ⟨rfl, rfl, rfl, rfl, fun _ _ _ => by simp [startCue, cue], rfl, by decide, rfl, rfl, by decide +kernel, rfl⟩

theorem meets_Go :
    accepts (held ready) .go (req []) ∧ accepts (guarded 1001 ready) .go (req []) ∧ accepts ready .go (req [])
    ∧ (held ready).cue.held = true ∧ (guarded 1001 ready).cue.held = false ∧ (guarded 1001 ready).toRun.guarded = true
    ∧ standbyCue ready.tables ready.toRun = none ∧ ready.toRun.guarded = false
    ∧ accepts (withCues [cue 1 []] ready) .go (req [])
    ∧ standbyCue (withCues [cue 1 []] ready).tables (withCues [cue 1 []] ready).toRun = some (cue 1 [])
    ∧ (guarded 1000 ready).cue.guardEnd = some 1000 ∧ 1000 ≤ (guarded 1000 ready).port.now := by
  unfold accepts; decide +kernel

theorem meets_action_lists :
    (∃ a, a ∈ (startCue 1).actions ∧ Machine.Action.isSyncStart a = true)
    ∧ (∀ a, a ∈ (cue 1 [.stopAll]).actions → Machine.Action.isSyncStart a = false) ∧ ready.voices.length ≤ 16
    ∧ (cue 1 []).actions = [] :=
  ⟨⟨_, List.mem_cons_self, rfl⟩, by decide, by decide, rfl⟩

def due (k : WaitKind) (l : List Cue) : State := withWaits [{ what := k, expiry := 1000 }] (withCues l ready)

theorem meets_WaitsExpireInTurn :
    (∀ w, dueWait (due (.follow 1) []).toRun = some w → w.what.code ≠ 0)
    ∧ (∀ w, dueWait (due (.timer 0 .single 1 1) []).toRun = some w → w.what.code ≠ 1)
    ∧ (∀ w, dueWait (due (.prewait 1) []).toRun = some w → w.what.code ≠ 2)
    ∧ dueWait ready.toRun = none ∧ dueWait (withWaits [{ what := .follow 1, expiry := 1001 }] ready).toRun = none
    ∧ dueWait (due (.prewait 1) []).toRun = some { what := .prewait 1, expiry := 1000 }
    ∧ findCue (due (.prewait 1) []).tables 1 = none
    ∧ findCue (due (.prewait 1) [cue 1 []]).tables 1 = some (cue 1 [])
    ∧ dueWait (due (.follow 1) [cue 1 []]).toRun = some { what := .follow 1, expiry := 1000 }
    ∧ firstEnabledAfter (due (.follow 1) [cue 1 []]).tables 1 = none
    ∧ firstEnabledAfter (due (.follow 1) [cue 2 []]).tables 1 = some (cue 2 [])
    ∧ dueWait (due (.timer 15 .continuous 1 1) [offCue 1]).toRun = some { what := .timer 15 .continuous 1 1, expiry := 1000 }
    ∧ findCue (due (.timer 15 .continuous 1 1) [offCue 1]).tables 1 = some (offCue 1)
    ∧ findCue (due (.timer 0 .single 1 1) [cue 1 []]).tables 1 = some (cue 1 []) ∧ (cue 1 []).prewait = 0 := by
  refine ⟨?_, ?_, ?_, ?_⟩
  · intro w h; cases h; decide
  · intro w h; cases h; decide
  · intro w h; cases h; decide
  · decide +kernel

theorem meets_TimerCancelTakesItsTimerOff :
    (runAction ready.tables 0 1 1 (.timerCancel 15) (due (.timer 15 .continuous 1 1) []).toRun).waits.length < 32
    ∧ (∀ w, w ∈ (due (.prewait 15) []).waits → w.what.code = 2 → w.what.key ≠ 15) := by decide +kernel

/-- The fields of a LOAD_SEGMENT of segment `n`. -/
def segFields (n addr : Byte) : List Byte := [n, 0, 0, addr, 0, 16, 0, 1, 0, 0, 0, 255, 255, 255]

/-- A segment in range, at the first address it may have on device 0, and the voices that use it or do not. -/
theorem meets_LoadSegmentTakesTheRecord :
    accepts ready .loadSegment (req (segFields 0 0)) ∧ segmentFieldsOk (segFields 0 0) ∧ u32 (segFields 0 0) 3 = 1048576
    ∧ ready.tables.profiles[0]? = some Profile.default
    ∧ u32 (segFields 0 0) 3 + u24 (segFields 0 0) 7 * 2 ≤ Profile.default.size
    ∧ (∀ x, x ∈ ready.voices → x.state = .idle)
    ∧ ((withVoice 15 { Voice.idle with state := .primed, cursor := some { seg := 0, pass := 0, off := 0 } } ready).toRun.voice 15).cursor
      = some { seg := 0, pass := 0, off := 0 } := by
  unfold accepts segmentFieldsOk; decide +kernel

/-- Each field of a segment just out of range (R86). -/
theorem meets_bad_segments :
    u16 [0, 4, 0, 0, 0, 16, 0, 1, 0, 0, 0, 0, 255, 255] 0 = 1024 ∧ u8 [0, 0, 2, 0, 0, 16, 0, 1, 0, 0, 0, 0, 255, 255] 2 = 2
    ∧ u24 [0, 0, 0, 0, 0, 16, 0, 0, 0, 0, 0, 0, 255, 255] 7 = 0 ∧ u8 [0, 0, 0, 0, 0, 16, 0, 1, 0, 0, 2, 0, 255, 255] 10 = 2
    ∧ u16 [0, 0, 0, 0, 0, 16, 0, 1, 0, 0, 0, 0, 0, 4] 12 = 1024 ∧ u16 [0, 0, 0, 0, 0, 16, 0, 1, 0, 0, 0, 0, 254, 255] 12 = 65534
    ∧ Profile.default.size < u32 [0, 0, 0, 255, 255, 255, 0, 1, 0, 0, 0, 0, 255, 255] 3 + 1 * 2
    ∧ u32 [0, 0, 0, 255, 255, 15, 0, 1, 0, 0, 0, 0, 255, 255] 3 < 1048576
    ∧ accepts ready .loadSegment (req [0, 0, 0, 255, 255, 15, 0, 1, 0, 0, 0, 0, 255, 255]) := by
  unfold accepts; decide +kernel

theorem meets_VoiceStartStartsItsVoice :
    accepts ready .voice (req [16, 0, 0, 0, 0]) ∧ accepts ready .voice (req [15, 0, 0, 4, 0]) ∧ u16 [15, 0, 0, 4, 0] 2 = 1024
    ∧ accepts (withShow { inShow := false, stopped := true } ready) .voice (req [15, 0, 0, 0, 0])
    ∧ accepts ready .voice (req [15, 0, 255, 3, 0]) ∧ segmentRec ready.tables 1023 = none
    ∧ accepts (withDev .faulted (withSeg ready)) .voice (req [15, 0, 0, 0, 0])
    ∧ segmentRec (withSeg ready).tables 0 = some seg ∧ (withDev .faulted (withSeg ready)).toRun.dev 1 = .faulted
    ∧ accepts (withSeg ready) .voice (req [15, 0, 0, 0, 255]) ∧ 15 < (withSeg ready).voices.length
    ∧ 15 < (withSeg ready).lv.faders.length ∧ (withSeg ready).shw.stopped = false
    ∧ seg.next = none ∧ ({ withSeg ready with flash := { ready.flash with devs := [.faulted, .ready] } } : State).toRun.dev seg.device
        ≠ .faulted := by
  unfold accepts; decide +kernel

theorem meets_noFault : noFault ready.toRun ∧ noFault (withSeg ready).toRun ∧ noFault (playing 0).toRun
    ∧ noFault (stopping 0).toRun ∧ noFault (withVoice 15 Voice.idle ready).toRun := by
  have h : ∀ d, ready.toRun.dev d ≠ .faulted := fun d => match d with
    | 0 => nofun
    | 1 => nofun
    | _ + 2 => nofun
  exact ⟨h, h, h, h, h⟩

theorem meets_VoiceStopReleaseAndStarved :
    accepts ready .voice (req [16, 1, 0, 0, 0]) ∧ accepts (playing 0) .voice (req [15, 1, 0, 0, 0])
    ∧ accepts (playing 0) .voice (req [15, 1, 1, 0, 0]) ∧ (playing 0).lv.faders[15]? = some (Level.rest 231)
    ∧ ((playing 0).toRun.voice 15).state = .playing ∧ (Level.rest 231).completionDue = false ∧ (Level.rest 231).fine ≠ 0
    ∧ (Level.rest 0).fine = 0 ∧ accepts (playing 0) .voice (req [15, 2, 0, 0, 0]) ∧ zerosFrom [15, 2, 0, 0, 0] 2 = true
    ∧ ((playing 4096).toRun.voice 15).missed = 4096 ∧ ¬ 4096 ≤ ((playing 4095).toRun.voice 15).missed := by
  unfold accepts; decide +kernel

/-- A voice that a STOP ends at once, one whose fader is off, and one that starves; and the STOP_ALL request. -/
theorem meets_voice_reports :
    ((withVoice 15 { Voice.idle with state := .priming } ready).toRun.voice 15).state = .priming
    ∧ ((playing 4096).toRun.voice 15).state = .playing ∧ (stopping 0).lv.faders[15]? = some (Level.rest 0)
    ∧ (Level.rest 0).completionDue = false ∧ accepts (stopping 0) .voice (req [15, 1, 9, 0, 0])
    ∧ accepts ready .stopAll (req []) ∧ accepts ready .voice (req [15, 3, 0, 0, 0])
    ∧ accepts ready .voice (req [15, 1, 0, 0, 1]) ∧ accepts ready .voice (req [15, 2, 0, 0, 1])
    ∧ zerosFrom [15, 2, 0, 0, 1] 2 = false := by
  unfold accepts; decide +kernel

/-- The STOP_ALL request ends a PLAYING voice, empties the wait list and is answered OK (R82, R102a). -/
theorem test_stop_all_request :
    let t := after (.unknownKind 0x15 (req [])) { playing 0 with waits := [{ what := .follow 9, expiry := 2000 }] }
    (t.toRun.voice 15).state = .idle ∧ t.waits = [] ∧ t.ctl.places = [answered .stopAll (req []) .ok []]
    ∧ t.ctl.reports.map Report.body = [.voice 15 .stopAll .none] := by decide +kernel

/-- Each request with a field out of range that its owner refuses. -/
theorem meets_bad_fields :
    accepts ready .loadInput (req [40, 0, 0, 231, 0]) ∧ accepts ready .loadInput (req [39, 3, 0, 231, 0])
    ∧ accepts ready .loadInput (req [39, 0, 1, 231, 0]) ∧ accepts ready .loadInput (req [39, 1, 64, 231, 0])
    ∧ accepts ready .loadInput (req [39, 2, 16, 231, 0]) ∧ accepts ready .loadInput (req [39, 0, 0, 231, 4])
    ∧ accepts ready .loadMix (req [24, 0, 255, 0, 1, 0, 0]) ∧ accepts ready .loadMix (req [23, 2, 64, 2, 0, 0, 0])
    ∧ accepts ready .recall (req [32, 0, 0, 0, 1, 0, 0]) ∧ accepts ready .recall (req [31, 4, 0, 0, 1, 0, 0]) := by
  unfold accepts; decide +kernel

theorem meets_bad_relay_fields :
    accepts ready .loadZone (req [16, 24, 231, 255, 40, 0, 0, 0, 0, 0, 0, 64])
    ∧ accepts ready .loadPageSource (req [8, 0, 0, 231, 0, 0]) ∧ accepts ready .loadPageSource (req [7, 2, 16, 231, 0, 0])
    ∧ accepts ready .loadPageSource (req [7, 1, 64, 231, 0, 0]) ∧ accepts ready .loadPageSource (req [7, 0, 1, 231, 0, 0])
    ∧ accepts ready .loadPageOrder (req [0, 1, 2, 2, 0, 0, 0, 0]) ∧ accepts ready .loadPageOrder (req [0, 1, 2, 3, 0, 0, 0, 2])
    ∧ isClassOrder [0, 1, 2, 2] = false ∧ accepts ready .pagingSet (req [2, 0]) ∧ accepts ready .page (req [7, 2]) := by
  unfold accepts; decide +kernel

theorem meets_bad_light_and_read_fields :
    accepts ready .loadLight (req [8, 0, 1, 0]) ∧ accepts ready .loadLight (req [7, 2, 1, 0])
    ∧ accepts ready .lightSet (req [8, 0]) ∧ accepts ready .lightSet (req [7, 3])
    ∧ accepts ready .readCue (req [0, 0, 0, 0]) ∧ accepts ready .readCue (req [0x9F, 0x86, 1, 0])
    ∧ isCueNum 0 = false ∧ isCueNum 99999 = true ∧ findCue ready.tables 99999 = none
    ∧ accepts ready .readVoice (req [16]) ∧ accepts ready .readZone (req [16]) := by
  unfold accepts; decide +kernel

/-- The fields of a LOAD_PROFILE of device 1 with 64 KiB and a poll interval. -/
def profileFields (poll : Byte) : List Byte :=
  [1, 0, 0, 1, 0, 3, 3, 0, 0, 0, 1, 1, 1, 6, 2, 0xD8, 1, 5, 0, 1, 0x66, 0x99, poll, 0, 1, 0]

/-- A profile in range, of the smallest size, with and without an operation on its device. -/
theorem meets_LoadProfileTakesTheProfile :
    accepts ready .loadProfile (req (profileFields 1)) ∧ (profileOf (profileFields 1)).map Profile.pollMs = some 1
    ∧ accepts ready .loadProfile (req (profileFields 0)) ∧ (profileOf (profileFields 0)).map Profile.pollMs = some 1
    ∧ segmentsFit ready.tables 1 65536 = true ∧ opOn ready.toRun 1 = false ∧ opOn (withOp eraseOp ready).toRun 1 = true
    ∧ segmentsFit { ready.tables with segments := [some { seg with addr := 65000 }] } 1 65536 = false := by
  unfold accepts; decide +kernel

/-- Each field of a profile just out of range is refused (R111), as is the mode byte of log entry 15. -/
theorem meets_bad_profiles :
    profileOf ((profileFields 1).set 0 2) = none ∧ profileOf ((profileFields 1).set 1 1) = none
    ∧ profileOf ((profileFields 1).set 0 0) = none ∧ profileOf ((profileFields 1).set 6 2) = none
    ∧ profileOf (((profileFields 1).set 3 0).set 4 2) = none ∧ profileOf ((profileFields 1).set 7 2) = none
    ∧ profileOf ((profileFields 1).set 8 1) = none ∧ profileOf ((profileFields 1).set 9 16) = none
    ∧ profileOf ((profileFields 1).set 10 0) = none ∧ profileOf ((profileFields 1).set 12 3) = none
    ∧ profileOf ((profileFields 1).set 16 2) = none ∧ profileOf ((profileFields 1).set 18 8) = none
    ∧ profileOf ((profileFields 1).set 19 2) = none ∧ profileOf ((profileFields 1).set 24 0) = none := by decide +kernel

theorem meets_ContentRequestsAreAccepted :
    accepts ready .flashErase (req [1, 255, 0, 0, 0]) ∧ u32 [1, 255, 0, 0, 0] 1 * 65536 < (profileRec ready.tables 1).size
    ∧ accepts ready .flashErase (req [0, 16, 0, 0, 0]) ∧ 1048576 ≤ u32 [0, 16, 0, 0, 0] 1 * 65536
    ∧ accepts ready .flashWrite (req [1, 255, 0, 0, 0, 9]) ∧ u32 [1, 255, 0, 0, 0, 9] 1 % 256 + 1 ≤ 256
    ∧ accepts ready .flashRead (req [1, 0, 0, 0, 0, 0xE8, 3]) ∧ u16 [1, 0, 0, 0, 0, 0xE8, 3] 5 = 1000
    ∧ accepts ready .flashReset (req [1]) ∧ accepts ready .saveShow (req []) ∧ ready.flash.op = none
    ∧ accepts (withOp eraseOp ready) .saveShow (req []) ∧ (withOp eraseOp ready).flash.op ≠ none
    ∧ accepts (withDev .faulted ready) .flashReset (req [1]) ∧ accepts (withDev .faulted ready) .flashRead (req [1, 0, 0, 0, 0, 1, 0])
    ∧ (withDev .faulted ready).toRun.dev 1 = .faulted := by
  unfold accepts; decide +kernel

/-- Erases, writes and resets with a field just out of range (R122, R123, R125, R206). -/
theorem meets_bad_content_commands :
    accepts ready .flashErase (req [2, 0, 1, 0, 0]) ∧ accepts ready .flashErase (req [1, 0, 1, 0, 0])
    ∧ u32 [1, 0, 1, 0, 0] 1 * (profileRec ready.tables 1).sector = (profileRec ready.tables 1).size
    ∧ accepts ready .flashErase (req [0, 15, 0, 0, 0]) ∧ u32 [0, 15, 0, 0, 0] 1 * (profileRec ready.tables 0).sector < 1048576
    ∧ accepts ready .flashWrite (req [1, 0, 0, 0, 0]) ∧ accepts ready .flashWrite (req (List.replicate 262 0))
    ∧ accepts ready .flashWrite (req [2, 0, 0, 0, 0, 9]) ∧ accepts ready .flashWrite (req [1, 255, 255, 255, 0, 9, 9])
    ∧ (profileRec ready.tables 1).size < u32 [1, 255, 255, 255, 0, 9, 9] 1 + 2
    ∧ accepts ready .flashWrite (req [0, 255, 255, 15, 0, 9]) ∧ u32 [0, 255, 255, 15, 0, 9] 1 = 1048575
    ∧ 256 < u32 [1, 255, 0, 0, 0, 9, 9] 1 % 256 + 2 ∧ accepts ready .flashReset (req [2]) := by
  unfold accepts; decide +kernel

/-- Reads with a field just out of range (R124). -/
theorem meets_bad_reads :
    accepts ready .flashRead (req [2, 0, 0, 0, 0, 1, 0]) ∧ accepts ready .flashRead (req [1, 0, 0, 0, 0, 0, 0])
    ∧ accepts ready .flashRead (req [1, 0, 0, 0, 0, 0xE9, 3]) ∧ u16 [1, 0, 0, 0, 0, 0xE9, 3] 5 = 1001
    ∧ accepts ready .flashRead (req [1, 255, 255, 255, 0, 2, 0])
    ∧ (profileRec ready.tables 1).size < u32 [1, 255, 255, 255, 0, 2, 0] 1 + 2 := by
  unfold accepts; decide +kernel

/-- A read is the whole of its step: on a free bus its transfer, behind a transfer its address and count (R119, R124). -/
theorem test_a_read_names_its_bytes :
    let m := req [1, 5, 0, 0, 0, 9, 0]
    (after (.flashRead m) ready).flash.bus.map Xfer.kind = some (.contentRead 1 5 9 true)
    ∧ (after (.flashRead m) (withBus (.poll 1 false) ready)).flash.op.map Op.step = some (.due (.read 5 9)) := by
  decide +kernel

/-- The second reset command follows the first (R125). -/
theorem test_the_second_reset_follows :
    let s := withOp { eraseOp with kind := .reset, cmds := [] } (withBus (.reset 1 false true) ready)
    (after .resetCommandComplete s).flash.bus.map Xfer.kind = some (.reset 1 true true) := by decide +kernel

def cmd : Cmd := .erase 65536 65536
def onBus (k : XferKind) : State := withOp eraseOp (withDev (.working cmd) (withBus k ready))

theorem meets_FlashCommandSteps :
    (onBus (.writeEnable 1 cmd true)).flash.bus = some { kind := .writeEnable 1 cmd true, seq := commandSeq 1 0 [] [] }
    ∧ (onBus (.writeEnable 1 cmd false)).flash.bus = some { kind := .writeEnable 1 cmd false, seq := commandSeq 1 0 [] [] }
    ∧ (onBus (.command 1 cmd)).flash.bus = some { kind := .command 1 cmd, seq := commandSeq 1 0 [] [] }
    ∧ (onBus (.command 1 cmd)).flash.op = some eraseOp := ⟨rfl, rfl, rfl, rfl⟩

theorem meets_PollDecidesTheCommand :
    memoryOk (onBus (.poll 1 true)) = true
    ∧ (onBus (.poll 1 true)).flash.bus = some { kind := .poll 1 true, seq := commandSeq 1 0 [] [] }
    ∧ (onBus (.poll 1 true)).flash.op = some eraseOp ∧ (onBus (.poll 1 true)).toRun.dev 1 = .working cmd
    ∧ (0 : Byte).getLsbD (profileRec Tables.default 1).busyBit ≠ (profileRec Tables.default 1).busyWhen
    ∧ (1 : Byte).getLsbD (profileRec Tables.default 1).busyBit = (profileRec Tables.default 1).busyWhen
    ∧ eraseOp.cmds.length < 2 ∧ eraseOp.polls + 1 < eraseOp.pollLimit
    ∧ { eraseOp with polls := 4999 }.pollLimit ≤ { eraseOp with polls := 4999 }.polls + 1 := by decide +kernel

/-- Device 0 polled for a save's command at the header: the operation, and the command it works on. -/
def saving (o : Op) (c : Cmd) : State :=
  let s := withOp o (withBus (.poll 0 true) ready)
  { s with flash := { s.flash with devs := [.working c, .ready] }, flash0 := Memory.program [] 0 [0x50, 0x48, 0x31, 0x36] }
/-- A settle of device 0 (`settle`) and a save of it at its poll limit (`save`). -/
def opOf (k : OpKind) (polls : Nat) : Op := { newOp Tables.default k 0 [] .running [] with polls := polls }
def pageZero : Cmd := .program 0 [0x50, 0x48, 0x31, 0x36, 1]

theorem meets_a_lost_image :
    (saving (opOf .settle 0) pageZero).toRun.dev 0 = .working pageZero ∧ pageZero.addr = 0 ∧ (opOf .settle 0).kind = .settle
    ∧ memoryOk (saving (opOf .settle 0) pageZero) = true
    ∧ (opOf .save 4999).pollLimit ≤ (opOf .save 4999).polls + 1 ∧ Memory.read State.reset.flash0 0 = 0xFF
    ∧ (saving (opOf .settle 0) pageZero).flash.op.map Op.kind = some .settle := by decide +kernel

/-- A RESTART during the program of page 0 leaves no image, and a save that ends leaves one (R130). -/
theorem test_a_settle_leaves_no_image :
    let settled := after (.pollComplete 0) (saving (opOf .settle 0) pageZero)
    let saved := after (.pollComplete 0) (saving (opOf .save 0) pageZero)
    Memory.readRange settled.flash0 0 5 = [0xFF, 0xFF, 0xFF, 0xFF, 1] ∧ settled.flash.op = none
    ∧ Memory.readRange saved.flash0 0 5 = [0x50, 0x48, 0x31, 0x36, 1] := by decide +kernel

theorem test_a_save_that_times_out_leaves_no_image :
    noImage (after (.pollComplete 1) (saving (opOf .save 4999) pageZero))
    ∧ noImage (after (.pollComplete 1) (saving (opOf .save 4999) (.erase 0 8))) :=
  ⟨noImage_of_flash0 (s := ((saving (opOf .save 4999) pageZero).spoilWork 0).loseHeader 0 pageZero) rfl
      (loseHeader_noImage _ _ rfl),
    noImage_of_flash0 (s := ((saving (opOf .save 4999) (.erase 0 8)).spoilWork 0).loseHeader 0 (.erase 0 8)) rfl
      (loseHeader_noImage _ _ rfl)⟩

theorem meets_StepsFallDueOnTheirFrames :
    (withOp { eraseOp with step := .pollAt 1000 } ready).flash.op = some { eraseOp with step := .pollAt 1000 }
    ∧ (withOp { eraseOp with step := .stepAt 1000 } ready).flash.op = some { eraseOp with step := .stepAt 1000 }
    ∧ 1000 ≤ ready.port.now ∧ eraseOp.cmds = [.erase 65536 65536]
    ∧ pollIsDue (withOp { eraseOp with step := .pollAt 1001 } ready).toRun = false
    ∧ saveStepIsDue (withOp { eraseOp with step := .stepAt 1001 } ready).toRun = false := by decide +kernel

theorem meets_TransfersDeliverTheirData :
    let f : Fetch := { voice := 15, dev := 1, addr := 0, format := .s16, count := 512, src := { seg := 0, pass := 0, off := 0 } }
    (withBus (.fetch f true) ready).flash.bus = some { kind := .fetch f true, seq := commandSeq 1 0 [] [] }
    ∧ (withBus (.fetch f false) ready).flash.bus = some { kind := .fetch f false, seq := commandSeq 1 0 [] [] }
    ∧ f.voice < ready.voices.length
    ∧ (onBus (.contentRead 1 0 1 true)).flash.bus = some { kind := .contentRead 1 0 1 true, seq := commandSeq 1 0 [] [] }
    ∧ (onBus (.contentRead 1 0 1 false)).flash.bus = some { kind := .contentRead 1 0 1 false, seq := commandSeq 1 0 [] [] }
    ∧ (onBus (.reset 1 true true)).flash.bus = some { kind := .reset 1 true true, seq := commandSeq 1 0 [] [] }
    ∧ (onBus (.reset 1 false true)).flash.bus = some { kind := .reset 1 false true, seq := commandSeq 1 0 [] [] }
    ∧ (onBus (.reset 1 true true)).flash.op = some eraseOp := by decide +kernel

/-- A formed reply before a place that waits, and samples of both formats at the ends of their ranges. -/
theorem meets_replies_and_samples :
    let f : Fetch := { voice := 15, dev := 1, addr := 0, format := .s16, count := 2, src := { seg := 0, pass := 0, off := 0 } }
    (∀ x, x ∈ [answered .go (req []) .ok []] → x.answer ≠ none) ∧ (deferred .flashErase (req [])).answer = none
    ∧ (fetchSamples f [0xFF, 0x7F, 0, 0x80]).map BufSample.value = [8388352, -8388608]
    ∧ (fetchSamples { f with format := .s24 } [0xFF, 0xFF, 0x7F, 0, 0, 0x80]).map BufSample.value = [8388607, -8388608] := by
  decide +kernel

/-- The fields of a LOAD_ZONE of zone 15 that claims slot 63. -/
def zoneFields : List Byte := [15, 23, 231, 255, 121, 0, 0, 0, 0, 0, 0, 63]

theorem meets_RelayLoadsReplaceAndRecompute :
    accepts ready .loadZone (req zoneFields) ∧ (zoneOf zoneFields).map ZoneRec.depth = some 120
    ∧ slotFree ready.tables (.zone 15) (some 63) = true
    ∧ slotFree { ready.tables with mixes := [{ MixRec.default with slot := some 63 }] } (.zone 15) (some 63) = false
    ∧ accepts ready .loadPageSource (req [7, 2, 15, 255, 255, 255]) ∧ (pageOf [7, 2, 15, 255, 255, 255]).isSome = true
    ∧ (pageOf [7, 0, 0, 255, 255, 255]).map PageRec.origin = some (pageRec ready.tables 7).origin
    ∧ accepts ready .loadPageOrder (req [3, 2, 1, 0, 1, 1, 1, 1]) ∧ (Machine.orderOf [3, 2, 1, 0, 1, 1, 1, 1]).isSome = true := by
  unfold accepts; decide +kernel

theorem meets_PagingAndPageRequests :
    accepts ready .pagingSet (req [1, 255]) ∧ flagOf 1 = some true ∧ accepts ready .pagingSet (req [0, 0])
    ∧ flagOf 0 = some false ∧ accepts ready .page (req [8, 1]) ∧ accepts ready .page (req [7, 1]) ∧ ready.page.enabled = false
    ∧ accepts (paging ready) .page (req [7, 1]) ∧ originIdle (paging ready).tables (paging ready).toRun 7 = false
    ∧ originIdle { ready.tables with pages := List.replicate 8 { PageRec.default with origin := .voice 15 } } ready.toRun 7 = true
    ∧ accepts ready .page (req [8, 0]) ∧ accepts ready .page (req [7, 0]) := by
  unfold accepts; decide +kernel

theorem meets_BestSourceHasTheLowestRank :
    isClassOrder [3, 2, 1, 0] = true ∧ [true, true, true, true].length = 4
    ∧ airFor Tables.default { ready.toRun with page := { ready.page with stopPage := some 7 } } 15 = some 7
    ∧ ready.page.stopPage = none ∧ airFor Tables.default ready.toRun 15 = none
    ∧ airFor { Tables.default with pages := List.replicate 8 { PageRec.default with zones := 0xFFFF } }
        { ready.toRun with page := { ready.page with srcs := List.replicate 8 { requested := true, bound := none } } } 15 = some 0 := by
  decide +kernel

def bindKey (s : State) : State :=
  { s with tables := { s.tables with settings := { s.tables.settings with bindings := [none, none, none, some 7] } } }
def holding (f : Nat) : State :=
  { ready with page := { ready.page with zones := List.replicate 16 { state := .hold, holdEnd := some f, onAir := none } } }

theorem meets_HoldExpiryAndPageKeys :
    ((holding 1000).toRun.zone 15).holdEnd = some 1000 ∧ ((holding 1001).toRun.zone 15).holdEnd = some 1001
    ∧ (holding 1000).lv.ducks[15]? = some (Level.rest 0) ∧ (ready.toRun.zone 15).holdEnd = none
    ∧ ready.tables.settings.bindings.getD 3 none = none ∧ (bindKey ready).tables.settings.bindings.getD 3 none = some 7
    ∧ ready.page.enabled = false ∧ (paging (bindKey ready)).page.enabled = true
    ∧ originIdle ready.tables ready.toRun 7 = false
    ∧ originIdle { ready.tables with pages := List.replicate 8 { PageRec.default with origin := .voice 15 } } ready.toRun 7 = true
    ∧ ready.stage.pressedSrc.getD 3 none = none
    ∧ ({ ready.stage with pressedSrc := [none, none, none, some 7] } : StageRt).pressedSrc.getD 3 none = some 7 := by
  decide +kernel

theorem meets_ShowStateAndLocksAreSet :
    accepts ready .setShowState (req [1]) ∧ accepts ready .setShowState (req [0]) ∧ accepts ready .setShowState (req [2])
    ∧ accepts (withOp eraseOp ready) .setShowState (req [1]) ∧ (withOp eraseOp ready).flash.op ≠ none
    ∧ ready.shw.inShow = false ∧ accepts ready .setLocks (req [2, 2, 2, 3]) ∧ accepts ready .setLocks (req [2, 0, 1, 2])
    ∧ accepts ready .setLocks (req [1, 1, 1, 1]) ∧ ready.tables.locks.cues = true := by
  unfold accepts; decide +kernel

theorem meets_ShowStopAndResume :
    accepts ready .showStop (req []) ∧ ready.shw.stopped = false
    ∧ accepts (withShow { inShow := true, stopped := true } ready) .showStop (req [])
    ∧ accepts (withShow { inShow := true, stopped := true } ready) .showResume (req []) ∧ accepts ready .showResume (req [])
    ∧ ((withVoice 15 { Voice.idle with state := .primed } ready).toRun.voice 15).tag = none
    ∧ ((withVoice 15 { Voice.idle with state := .priming, tag := some 3 } ready).toRun.voice 15).state = .priming
    ∧ ((playing 0).toRun.voice 15).state = .playing ∧ ((playing 0).toRun.voice 15).tag = none
    ∧ (playing 0).lv.faders[15]? = some (Level.rest 231) ∧ ready.tables.settings.stopFadeMs ≠ 0
    ∧ ((stopping 9).toRun.voice 15).state = .stopping ∧ ((stopping 9).toRun.voice 15).tag = none := by
  unfold accepts; decide +kernel

def withStopSource (k : Nat) (s : State) : State :=
  { s with tables := { s.tables with settings := { s.tables.settings with stopSource := some k } } }

/-- A stop with a show-stop source set, and a resume with its page raised; every zone then has it, or none (R147). -/
theorem meets_a_stop_page :
    (withStopSource 7 ready).page.stopPage = none ∧ accepts (withStopSource 7 ready) .showStop (req [])
    ∧ (let t := after (.showStop (req [])) (withStopSource 7 ready)
      t.page.stopPage ≠ none ∧ accepts t .showResume (req []) ∧ t.page.zones.map ZoneRt.onAir = List.replicate 16 (some 7)
      ∧ (after (.showResume (req [])) t).page.zones.map ZoneRt.onAir = List.replicate 16 none) := by
  unfold accepts; decide +kernel

/-- No PRIMED voice shares the tag of a PRIMING voice of a group. -/
theorem meets_a_priming_group (u : Nat) :
    ((withVoice 15 { Voice.idle with state := .priming, tag := some 3 } ready).toRun.voice u).state ≠ .primed := by
  have h : ∀ u, u < 16 →
      ((withVoice 15 { Voice.idle with state := .priming, tag := some 3 } ready).toRun.voice u).state ≠ .primed := by
    decide +kernel
  by_cases hu : u < 16
  · exact h u hu
  · rw [Run.voice, List.getD_eq_default _ _ (by change 16 ≤ u; omega)]
    decide

def lightOf (x : LightRt) : State := { ready with stage := { ready.stage with lights := List.replicate 8 x } }

theorem meets_CueLightsTakeTheirStates :
    accepts ready .loadLight (req [7, 1, 0, 0]) ∧ accepts ready .loadLight (req [7, 0, 1, 0])
    ∧ accepts ready .lightSet (req [7, 0]) ∧ accepts ready .lightSet (req [7, 1]) ∧ accepts ready .lightSet (req [7, 2])
    ∧ 7 < ready.stage.lights.length ∧ ((lightOf { state := .standby, goEnd := none }).toRun.light 7).state = .standby
    ∧ (ready.toRun.light 7).state = .off ∧ ((lightOf { state := .go, goEnd := some 1000 }).toRun.light 7).goEnd = some 1000
    ∧ ((lightOf { state := .go, goEnd := some 1001 }).toRun.light 7).goEnd = some 1001 := by
  unfold accepts; decide +kernel

def idleFrame : RingFrame := { counter := 65535, slots := List.replicate 64 0, lane := idleLane }
def frameIn (b : List Byte) : FrameIn := { bytes := b, keys := 0x7F, acks := 0, hold := true }

set_option maxRecDepth 100000 in
theorem meets_frames :
    parseFrame (frameBytes idleFrame) = some idleFrame ∧ frameGood (frameBytes idleFrame) = true
    ∧ (parseFrame ((frameBytes idleFrame).set 2 0)).isSome = true ∧ frameGood ((frameBytes idleFrame).set 2 0) = false
    ∧ (frameIn []).hold = true ∧ (fragmentOf idleLane).state = 0 ∧ ready.port.active = true
    ∧ State.reset.port.active = false := by decide +kernel

/-- A frame whose lane carries a whole message, a TALK_SET, to the part. -/
def messageFrame : RingFrame := { idleFrame with lane := laneBytes 4 3 254 [byte ReqKind.talkSet.code, 7, 1] }

set_option maxRecDepth 100000 in
theorem meets_a_completed_message :
    parseFrame (frameBytes messageFrame) = some messageFrame ∧ frameGood (frameBytes messageFrame) = true
    ∧ (dealLane messageFrame.lane (portTake true messageFrame (takeDue ready.tables ready.toRun))).msg
      = some { kind := ReqKind.talkSet.code, msg := req [1] } := by decide +kernel

set_option maxRecDepth 100000 in
/-- A request that the lane carries is taken as its row takes it (R184, R190). -/
theorem test_a_lane_carries_a_request :
    let t := after (.frameArrival { frameIn (frameBytes messageFrame) with keys := 0 }) ready
    t.mix.talkLatch = true ∧ t.ctl.places = [answered .talkSet (req [1]) .ok []] := by decide +kernel

set_option maxRecDepth 100000 in
/-- A GO press and a SHOW STOP press of one frame that takes its own events: the GO comes first (log entry 45). -/
theorem test_changes_of_one_frame :
    let s := withCues [cue 5 []] { ready with stage := { ready.stage with
      keys := List.replicate 7 { pressed := false, count := 239 } } }
    let t := after (.frameArrival { frameIn (frameBytes idleFrame) with keys := 0x05, hold := false }) s
    (t.ctl.reports.map Report.body).head? = some (.cueFired 5 .goKey) ∧ t.shw.stopped = true ∧ t.stage.due = [] := by
  decide +kernel

/-- A frame that a lost ring's part takes none of, and the ring ACTIVE again after frames were taken. -/
theorem meets_ring_states :
    ({ ready.port with active := false } : Port).active = false ∧ ready.port.now ≠ 0
    ∧ (frameIn []).hold = true ∧ ({ frameIn [] with hold := false } : FrameIn).hold = false := by decide +kernel

/-- Lanes for the part, for every part, and for another; and replies and reports to send. -/
theorem meets_lanes :
    (fragmentOf (laneBytes 4 3 254 [0x8E, 7])).dst = 254 ∧ ready.port.node = 254
    ∧ (fragmentOf (laneBytes 4 3 255 [0x8E, 7])).dst = 255 ∧ (fragmentOf (laneBytes 1 3 9 [1, 2, 3, 4, 5])).dst = 9
    ∧ (fragmentOf (laneBytes 5 3 9 [])).state = 5
    ∧ ready.port.sending = none ∧ (∀ p, p ∈ ready.ctl.places → p.answer = none) ∧ ready.ctl.reports = []
    ∧ (placeMessage (answered .go (req []) .ok [])).isSome = true
    ∧ (fragments { kind := 0x8E, tag := 7, payload := [0], dst := 3 })[0]? = some (4, [0x8E, 7, 0])
    ∧ ((fragments (reportMessage { body := .ring true, counter := 7, dst := 255, lost := some true }))[0]?).isSome = true := by
  decide +kernel

/-- A voice that plays its last sample, one that plays on, and one that has none. -/
theorem meets_playVoice :
    let y : BufSample := { value := 5, dev := 1, src := { seg := 0, pass := 0, off := 0 } }
    ((withVoice 15 { Voice.idle with state := .playing, buffer := [y] } ready).toRun.voice 15).buffer = [y]
    ∧ ((playing 0).toRun.voice 15).buffer = [] ∧ ((playing 0).toRun.voice 15).cursor = none
    ∧ ((playing 0).toRun.voice 15).reserved = 0
    ∧ ((withVoice 15 { Voice.idle with state := .playing, reserved := 1 } ready).toRun.voice 15).reserved ≠ 0 := by
  decide +kernel

/-- A part that sends the reply of a RESTART. -/
def restarting : State := { ready with ctl := { ready.ctl with taking := false, places := [answered .restart (req []) .ok []] } }

/-- A formed reply behind a place that still waits, and a report, in progress; and the image load's report. -/
theorem meets_sending :
    (∀ q, q ∈ [deferred .flashErase (req [])] → q.answer = none)
    ∧ placeMessage (answered .restart (req []) .ok []) = some { kind := 0xAA, tag := 7, payload := [0], dst := 3 }
    ∧ (fragments { kind := 0xAA, tag := 7, payload := [0], dst := 3 }).length = 1
    ∧ (answered .restart (req []) .ok []).kind = ReqKind.restart.code
    ∧ ({ ready.port with sending := some { item := .reply 1, sent := 0 } } : Port).sending
      = some { item := .reply [deferred .flashErase (req [])].length, sent := 0 }
    ∧ ({ ready.port with sending := some { item := .report, sent := 2 } } : Port).sending = some { item := .report, sent := 2 }
    ∧ ready.flash.imageReport = none ∧ (after (.imageLoadEnd ()) State.reset).flash.imageReport = some (some .noImage) := by
  decide +kernel

/-- Mix 23 claims slot 63 and zone 15 slot 0, and no output slot 1. -/
def claiming : Tables :=
  { Tables.default with mixes := Tables.default.mixes.set 23 { MixRec.default with slot := some 63 }
                        zones := Tables.default.zones.set 15 { ZoneRec.default with slot := some 0 } }

theorem meets_claims :
    claimsDistinct claiming = true ∧ slotClaims claiming = [(.mix 23, 63), (.zone 15, 0)]
    ∧ 63 < idleFrame.slots.length ∧ (∀ o, (o, 1) ∉ slotClaims claiming) := by
  have h : slotClaims claiming = [(.mix 23, 63), (.zone 15, 0)] := by decide +kernel
  refine ⟨by decide +kernel, h, by decide, fun o => ?_⟩
  rw [h]
  simp

set_option maxRecDepth 100000 in
theorem meets_a_restart_on_a_frame :
    (portFrame restarting.tables true (frameBytes idleFrame) idleFrame (takeDue restarting.tables restarting.toRun)).run.ctl.restartDue
      = true
    ∧ (portFrame ready.tables true (frameBytes idleFrame) idleFrame (takeDue ready.tables ready.toRun)).run.ctl.restartDue
      = false := by decide +kernel

theorem meets_takeDue : takeDue ready.tables ready.toRun = ready.toRun := by decide +kernel

theorem meets_debouncers :
    ({ pressed := true, count := 239 } : Debounce).pressed = true ∧ (238 : Nat) < 239 ∧ 239 ≤ 239 ∧ (240 : Nat) ≤ 240
    ∧ ({ ready with ctl := { ready.ctl with restartDue := true } } : State).ctl.restartDue = true := by decide

/-- The fields of a LOAD_SETTINGS at the ends of their ranges. -/
def settingFields : List Byte := [81, 0x89, 0x13, 0, 0, 7, 0, 255, 255, 7, 99, 0, 0xFF, 0x1F, 255]

theorem meets_SettingsAndRestart :
    accepts ready .loadSettings (req settingFields) ∧ (settingsOf settingFields).map Settings.dimDepth = some 80
    ∧ accepts ready .loadSettings (req (settingFields.set 13 0x20)) ∧ settingsOf (settingFields.set 13 0x20) = none
    ∧ accepts ready .restart (req []) ∧ ready.ctl.restartDue = false := by
  unfold accepts; decide +kernel

/-- Settings in range without a clamped one, and each setting just out of range (R146, R169, R195). -/
theorem meets_settings :
    settingsFieldsOk settingFields ∧ 80 < u8 settingFields 0 ∧ u16 settingFields 10 = 99
    ∧ settingsFieldsOk [80, 0x88, 0x13, 0, 0, 255, 0, 255, 255, 7, 100, 0, 0xFF, 0x1F, 255]
    ∧ u16 [80, 0x88, 0x13, 0, 0, 255, 0, 255, 255, 7, 100, 0, 0xFF, 0x1F, 255] 1 = 5000
    ∧ settingsOf (settingFields.set 5 8) = none ∧ settingsOf (settingFields.set 6 254) = none
    ∧ settingsOf (settingFields.set 9 8) = none ∧ u16 (settingFields.set 13 0x20) 12 = 8192 + 255 := by
  have h : ∀ p : List Byte, (∀ i, i < 10 → 5 ≤ i → u8 p i < 8 ∨ u8 p i = 255) → u16 p 12 < 8192 → settingsFieldsOk p :=
    fun p h k => ⟨fun i h1 h2 => h i (by omega) h1, k⟩
  exact ⟨h _ (by decide +kernel) (by decide +kernel), by decide +kernel, by decide +kernel,
    h _ (by decide +kernel) (by decide +kernel), by decide +kernel⟩

/-- An operation whose command is on the bus, one that left its device at work, and one that did not (R126). -/
theorem meets_settles :
    (settleOp Tables.default (onBus (.command 1 cmd)).toRun).map Op.step = some .settleWait
    ∧ (onBus (.command 1 cmd)).flash.bus = some { kind := .command 1 cmd, seq := commandSeq 1 0 [] [] }
    ∧ (onBus (.poll 1 true)).toRun.dev eraseOp.dev = .working cmd
    ∧ (withOp eraseOp ready).toRun.dev eraseOp.dev = .ready ∧ (withOp eraseOp ready).flash.op = some eraseOp
    ∧ settleOp Tables.default (withOp eraseOp ready).toRun = none ∧ ready.flash.op = none := by decide +kernel

theorem meets_PowerOnAndImageLoad :
    (∀ d c, ready.toRun.dev d ≠ .working c) ∧ (∀ d c q, ready.flash.bus ≠ some { kind := .command d c, seq := q })
    ∧ readingImage ready.toRun = false ∧ readingImage State.reset.toRun = true
    ∧ State.reset.flash.bus = some { kind := .imageHeader, seq := readSeq Profile.default 0 0 16 }
    ∧ imageValid plainImage = true :=
  ⟨fun d _ => match d with
    | 0 => nofun
    | 1 => nofun
    | _ + 2 => nofun, fun _ _ _ => nofun, rfl, rfl, rfl, plainImage_valid⟩

/-- What a flash that holds a stored image gives to the two reads of the load. -/
theorem meets_stored_image :
    Memory.readRange holdingImage.flash0 0 16 = imageHeader (imageBody plainImage)
    ∧ Memory.readRange holdingImage.flash0 16 (imageBody plainImage).length = imageBody plainImage := by
  rw [holdingImage_flash0]
  exact readRange_imageBytes plainImage

theorem meets_a_good_header :
    headerCheck (Memory.readRange holdingImage.flash0 0 16) = .ok (imageBody plainImage).length := by
  rw [meets_stored_image.1]
  exact headerCheck_imageHeader plainImage_valid

theorem meets_a_bad_header : headerCheck (Memory.readRange State.reset.flash0 0 16) = .error .noImage := by decide +kernel

theorem meets_image_checks :
    checkImage (fun _ _ => []) = .error .noImage
    ∧ checkImage (fun _ _ => [0x50, 0x48, 0x31, 0x36, 2]) = .error .version
    ∧ checkImage (fun _ _ => [0x50, 0x48, 0x31, 0x36, 1]) = .error .length
    ∧ checkImage (fun _ _ => [0x50, 0x48, 0x31, 0x36, 1, 0, 0, 0, 1]) = .error .crc := by decide +kernel

/-- The tables of `plainImage` without any level code, which no save stores. -/
def codelessImage : Image := { plainImage with codes := [] }

theorem meets_image_content :
    1 ≤ (imageBody codelessImage).length ∧ (imageBody codelessImage).length ≤ 1048560
    ∧ ∀ i, imageOf (imageBody codelessImage) = some i → imageValid i = false := by
  have h : 1 ≤ (imageCode.put codelessImage).length ∧ (imageCode.put codelessImage).length ≤ 1048560 := by decide +kernel
  refine ⟨?_, ?_, fun i e => ?_⟩
  · simp only [imageBody, maskBytes, List.length_mapIdx, List.length_append]; omega
  · simp only [imageBody, maskBytes, List.length_mapIdx, List.length_append, List.length_take]; omega
  · rw [imageOf_imageBody] at e
    cases e
    decide +kernel

theorem meets_ring_loss :
    takeDue ready.tables ready.toRun = ready.toRun ∧ ready.port.active = true ∧ State.reset.port.active = false :=
  ⟨meets_takeDue, rfl, rfl⟩

theorem meets_layouts :
    cueOk (cue 99999 [.stopAll, .timer 15 .retrigger 65535 99999, .recall 31 .trim 0xFFFFFF 65535]) = true
    ∧ profileOk 0 Profile.default = true ∧ profileOk 1 Profile.default = true ∧ mixOk MixRec.default = true
    ∧ zoneOk ZoneRec.default = true ∧ settingsOk Settings.default = true
    ∧ idleFrame.slots.length = 64 ∧ idleFrame.lane.length = 8 ∧ idleFrame.counter < 65536
    ∧ (List.replicate 1024 (0 : Byte)).length ≤ 1024 := by decide +kernel

/-! ### States and operands that meet the clauses on actions, lights, starts, fetches and zones -/

/-- A part with its page of source 7 from voice 15. -/
def pagesVoice (s : State) : State :=
  { s with tables := { s.tables with pages := s.tables.pages.set 7 { PageRec.default with origin := .voice 15 } } }
/-- A sample that came from device 1. -/
def sample1 : BufSample := { value := 5, dev := 1, src := { seg := 0, pass := 0, off := 0 } }
/-- Voice 15 PRIMED for action 1 of cue 1. -/
def primed : State := withVoice 15 { Voice.idle with state := .primed, primeId := some (1, 1), buffer := [sample1] } (withSeg ready)

theorem meets_actions :
    (ready.toRun.voice 15).state = .idle ∧ (primed.toRun.voice 15).state = .primed
    ∧ ((playing 0).toRun.voice 15).state = .playing ∧ (playing 0).lv.faders[15]? = some (Level.rest 231)
    ∧ (Level.rest 231).completionDue = false ∧ (Level.rest 231).fine ≠ 0 ∧ (stopping 0).lv.faders[15]? = some (Level.rest 0)
    ∧ ((stopping 0).toRun.voice 15).state = .stopping
    ∧ ready.lv.get? (.crosspoint 39 23) = some (Level.rest 0) ∧ ready.lv.get? (.fader 15) = some (Level.rest 231)
    ∧ affected ((withScene ready).tables.scenes.getD 31 Scene.empty) 1 ≠ []
    ∧ affected ((withScene ready).tables.scenes.getD 31 Scene.empty) 2 = []
    ∧ (ready.latch.map Prod.fst).Nodup ∧ ready.page.enabled = false ∧ (paging ready).page.enabled = true
    ∧ originIdle ready.tables ready.toRun 7 = false ∧ originIdle (pagesVoice ready).tables (pagesVoice ready).toRun 7 = true
    ∧ 15 < ready.page.zones.length := by decide +kernel

theorem meets_page_play :
    let r1 := fun head => startVoice (pagesVoice (withSeg ready)).tables 15 head 231 (.play 1 1) none (paging (withSeg ready)).toRun
    (pageRec (pagesVoice ready).tables 7).origin = .voice 15 ∧ (pageRec ready.tables 7).origin ≠ .voice 15
    ∧ ((r1 9).voice 15).state = .idle ∧ ((r1 0).voice 15).state = .priming ∧ 7 < (paging ready).page.srcs.length
    ∧ ((withVoice 15 { Voice.idle with state := .primed, bound := some 6 } ready).toRun.voice 15).bound = some 6 := by
  decide +kernel

/-- The result of a PAGE_PLAY that another source's binding moves from (R143). -/
theorem test_page_play_moves_the_binding :
    let s := pagesVoice (withVoice 15 { Voice.idle with state := .primed, primeId := some (1, 1), bound := some 6 } (paging (withSeg ready)))
    let s6 := { s with page := { s.page with srcs := s.page.srcs.set 6 { requested := true, bound := some 15 } } }
    let r := raiseBound s6.tables 7 15 s6.toRun
    r.src 6 = { requested := true, bound := none } ∧ r.src 7 = { requested := true, bound := some 15 }
    ∧ (r.voice 15).bound = some 7 := by decide +kernel

theorem meets_timer_actions :
    let w : Wait := { what := .timer 15 .continuous 9 7, expiry := 1000 }
    (withWaits [w] ready).waits.find? (fun w => w.what.code = 2 && w.what.key = 15) = some w
    ∧ (withWaits [] ready).waits.filter (fun w => !(w.what.code = 2 && w.what.key = 15)) = []
    ∧ (withWaits (List.replicate 32 { what := .follow 15, expiry := 1000 }) ready).waits.filter
        (fun w => !(w.what.code = 2 && w.what.key = 15)) = List.replicate 32 { what := .follow 15, expiry := 1000 } := by
  decide +kernel

theorem meets_stop_all :
    ((ready.toRun.voice 15).state = .idle → (ready.toRun.voice 15).tag = none)
    ∧ ((withVoice 15 { Voice.idle with state := .priming, tag := some 3 } ready).toRun.voice 15).state = .priming :=
  ⟨fun _ => rfl, rfl⟩

/-- Every START: of its own prime, of another's, of a voice that plays, of an unused segment, and of a FAULTED device. -/
theorem meets_starts :
    15 < primed.voices.length ∧ 15 < primed.lv.faders.length ∧ (primed.toRun.voice 15).state = .primed
    ∧ (primed.toRun.voice 15).primeId = some (1, 1) ∧ Ident.start 1 1 ≠ Ident.start 1 2
    ∧ segmentRec primed.tables 0 = some seg ∧ segmentRec primed.tables 1 = none
    ∧ ((playing 0).toRun.voice 15).state = .playing
    ∧ ((withVoice 15 { Voice.idle with state := .playing, bound := some 7 } ready).toRun.voice 15).bound = some 7
    ∧ (withDev .faulted (withSeg ready)).toRun.dev seg.device = .faulted
    ∧ ((withSeg ready).toRun.voice 15).tag = none := by decide +kernel

theorem test_own_prime_plays :
    let r := startVoice primed.tables 15 0 200 (.start 1 1) none primed.toRun
    let q := startVoice primed.tables 15 0 200 (.start 1 1) (some 9) primed.toRun
    let c := startVoice primed.tables 15 0 200 (.start 1 2) none primed.toRun
    (r.voice 15).state = .playing ∧ (r.voice 15).buffer = [sample1] ∧ (q.voice 15).state = .priming
    ∧ (q.voice 15).tag = some 9 ∧ (c.voice 15).state = .priming ∧ (c.voice 15).buffer = [] := by decide +kernel

/-- Lights that follow the standby: AUTO and not, warned and not, stopped and not. -/
theorem meets_standby_lights :
    let auto : Tables := { ready.tables with lights := ready.tables.lights.set 7 { auto := true, goHold := 1 } }
    (lightRec auto 7).auto = true ∧ (lightRec auto 0).auto ≠ (lightRec auto 7).auto ∧ 7 < ready.stage.lights.length
    ∧ ready.shw.stopped = false ∧ (withShow { inShow := false, stopped := true } ready).shw.stopped = true
    ∧ 7 ∈ warnedBy (cue 1 [.light 7 .go]) ∧ 7 ∉ warnedBy (cue 1 [.light 7 .standby])
    ∧ ((lightOf { state := .acked, goEnd := none }).toRun.light 7).state = .acked
    ∧ ((lightOf { state := .standby, goEnd := none }).toRun.light 7).state = .standby := by decide +kernel

/-- A stopped part whose standby cue starts voice 15 and warns light 7, and whose recomputation changes nothing. -/
theorem meets_resume :
    let s := withShow { inShow := false, stopped := true } (withCues [startCue 1] (withSeg ready))
    let kept := { s with cue := { s.cue with kept := some (startCue 1), fresh := false } }
    accepts s .showResume (req []) ∧ standbyCue s.tables s.toRun = some (startCue 1)
    ∧ (startCue 1).actions[0]? = some (.start 15 0 200 true) ∧ 15 < s.voices.length ∧ (s.toRun.voice 15).state = .idle
    ∧ segmentRec s.tables 0 = some seg ∧ accepts kept .showResume (req []) ∧ kept.page.stopPage = none
    ∧ standbyChanged kept.cue.kept (standbyCue kept.tables kept.toRun) kept.cue.fresh none = false := by
  unfold accepts; decide +kernel

/-- Voices tied to a device by their cursor, a sample or a fetch, and one that is not. -/
theorem meets_tied_voices :
    let f : Fetch := { voice := 15, dev := 1, addr := 0, format := .s16, count := 512, src := { seg := 0, pass := 0, off := 0 } }
    let s := onBus (.poll 1 true)
    ((withVoice 15 { Voice.idle with state := .priming, cursor := some { seg := 0, pass := 0, off := 0 } } (withSeg s)).toRun.voice 15).cursor
      = some { seg := 0, pass := 0, off := 0 } ∧ segmentRec (withSeg s).tables 0 = some seg ∧ seg.device = 1
    ∧ sample1 ∈ ((withVoice 15 { Voice.idle with state := .playing, buffer := [sample1] } s).toRun.voice 15).buffer
    ∧ f ∈ ({ s.flash with queue := [f] } : FlashRt).queue
    ∧ ((withVoice 15 { Voice.idle with state := .playing, buffer := [{ sample1 with dev := 0 }] } s).toRun.voice 15).cursor = none := by
  decide +kernel

/-- A due step, two fetches of READY devices, and a bus that is held. -/
theorem meets_arbiter :
    let f : Fetch := { voice := 15, dev := 1, addr := 0, format := .s16, count := 512, src := { seg := 0, pass := 0, off := 0 } }
    let r := (withVoice 14 { Voice.idle with state := .playing, buffer := [sample1] } ready).toRun
    let r2 : Run := { r with flash := { r.flash with queue := [{ f with voice := 14 }, f, { f with voice := 0 }] } }
    (stepXfer Tables.default { eraseOp with step := .due .command } .command).isSome = true ∧ ready.flash.bus = none
    ∧ ready.flash.op = none ∧ (withBus (.poll 1 true) ready).flash.bus ≠ none
    ∧ r2.flash.queue.filter (fun f => r2.dev f.dev = .ready) = [{ f with voice := 14 }] ++ f :: [{ f with voice := 0 }]
    ∧ (r2.voice 15).buffer.length < (r2.voice 14).buffer.length ∧ (r2.voice 15).buffer.length ≤ (r2.voice 0).buffer.length
    ∧ ready.flash.queue.filter (fun f => ready.toRun.dev f.dev = .ready) = [] := by decide +kernel

/-- A voice that ends with its last fetch, one that goes on, one of a group, and one that becomes PLAYING. -/
theorem meets_samples :
    let x : Voice := { Voice.idle with state := .priming, reserved := 1 }
    (x.addSamples [sample1]).reserved = 0 ∧ (x.addSamples [sample1]).cursor = none ∧ (x.addSamples [sample1]).buffer ≠ []
    ∧ ({ x with missed := 1 }.addSamples [sample1]).buffer = []
    ∧ ({ x with tag := some 3 }.addSamples [sample1]).tag = some 3 ∧ x.tag = none ∧ 15 < ready.voices.length
    ∧ ({ x with state := .primed, missed := 1 }.addSamples [sample1]).state = .primed := by decide

/-- A group with a member that is not ready, a group whose list is running, and one that is complete. -/
theorem meets_groups :
    let x : Voice := { Voice.idle with state := .priming, tag := some 3 }
    let r := (withVoice 15 { x with reserved := 1 } ready).toRun
    (∃ y, y ∈ r.voices ∧ y.tag = some 3 ∧ y.buffer.length < 1024 ∧ (y.cursor ≠ none ∨ y.reserved ≠ 0))
    ∧ (∀ y, y ∈ (withVoice 15 x ready).toRun.voices →
        ¬ (y.tag = some 3 ∧ y.buffer.length < 1024 ∧ (y.cursor ≠ none ∨ y.reserved ≠ 0)))
    ∧ ready.cue.building ≠ some 3 ∧ (setBuilding (some 3) ready.toRun).cue.building = some 3 ∧ ready.voices.length ≤ 16 := by
  decide +kernel

/-- A refill inside a segment, at its end with a pass left, at its last end, into an unused next, and into one on a
FAULTED device. -/
theorem meets_refills :
    let c : Cursor := { seg := 0, pass := 0, off := 0 }
    let s := withVoice 15 { Voice.idle with state := .playing, cursor := some { c with off := 512 } } (withSeg ready)
    c.off + min 512 (seg.len - c.off) < seg.len ∧ segmentRec s.tables 0 = some seg
    ∧ (s.toRun.voice 15).cursor = some { c with off := 512 } ∧ seg.len ≤ 512 + min 512 (seg.len - 512)
    ∧ ¬ (seg.loops ≠ 255 ∧ c.pass < seg.loops ∨ seg.loops = 255 ∧ (s.toRun.voice 15).release = false)
    ∧ { seg with loops := 1 }.loops ≠ 255 ∧ c.pass < { seg with loops := 1 }.loops ∧ { seg with loops := 255 }.loops = 255
    ∧ seg.next = none ∧ { seg with next := some 1023 }.next = some 1023 ∧ segmentRec s.tables 1023 = none
    ∧ s.toRun.dev seg.device ≠ .faulted ∧ (withDev .faulted s).toRun.dev seg.device = .faulted := by decide +kernel

/-- A line with room in the queue, a voice that asks, a full queue, and nothing to do. -/
theorem meets_pump :
    let s := withVoice 15 { Voice.idle with state := .playing, cursor := some { seg := 0, pass := 0, off := 0 } } (withSeg ready)
    wantsRefill s.toRun 15 = true ∧ (∀ u, u < 15 → wantsRefill s.toRun u = false) ∧ s.flash.line = []
    ∧ s.flash.queue.length < 8 ∧ (∀ v, v < 16 → wantsRefill ready.toRun v = false)
    ∧ ({ s.flash with line := [15] } : FlashRt).line = 15 :: [] ∧ pumpOnce ready.tables ready.toRun = none
    ∧ (pumpOnce s.tables s.toRun).isSome = true := by decide +kernel

/-- A zone that gains a source, keeps one, and loses one, with and without a hold. -/
theorem meets_zones :
    let t : Tables := { ready.tables with pages := List.replicate 8 { PageRec.default with zones := 0xFFFF } }
    let on : Run := { ready.toRun with page := { ready.page with srcs := List.replicate 8 { requested := true, bound := none } } }
    let aired := fun st : ZState => ({ ready.toRun with page := { ready.page with
      zones := List.replicate 16 { state := st, holdEnd := none, onAir := some 1 } } } : Run)
    airFor t on 15 = some 0 ∧ (on.zone 15).onAir = none ∧ (on.zone 15).state = .programme ∧ 15 < on.page.zones.length
    ∧ on.lv.ducks[15]? = some (Level.rest 0) ∧ airFor t (aired .ducked) 15 = none ∧ ((aired .ducked).zone 15).onAir = some 1
    ∧ ((aired .release).zone 15).state = .release ∧ 0 < (zoneRec ready.tables 15).hold
    ∧ (zoneRec { ready.tables with zones := [{ ZoneRec.default with hold := 0 }] } 0).hold = 0
    ∧ eligible t on 15 7 = true ∧ airFor t ready.toRun 15 = (ready.toRun.zone 15).onAir := by decide +kernel

/-- Fragments that open, restart, fill and overflow a slot, and ones that are malformed or find no slot. -/
theorem meets_fragments :
    let f := fun (st n : Nat) => ({ state := st, count := n, src := 255, dst := 254, data := List.replicate n 0 } : Fragment)
    let x := fun n => ({ src := 255, bytes := List.replicate n 0, counter := 7, last := 9 } : Reasm)
    fragmentOk (f 1 5) = true ∧ fragmentOk (f 2 5) = true ∧ fragmentOk (f 3 1) = true ∧ fragmentOk (f 2 4) = false
    ∧ (f 4 2).state = 4 ∧ slotOf [] 255 = none ∧ slotOf [x 5] 255 = some (x 5)
    ∧ (x 1025).bytes.length + (f 2 5).data.length ≤ 1030 ∧ 1030 < (x 1030).bytes.length + (f 3 1).data.length
    ∧ slotOf ([0, 1, 2, 3].map (fun n => { x 5 with src := n })) 255 = none := by decide +kernel

/-- A slot holds the frame counter of its last fragment (R186). -/
theorem test_a_slot_holds_its_counter :
    let f : Fragment := { state := 1, count := 5, src := 9, dst := 254, data := [1, 2, 3, 4, 5] }
    let k := takeFragment 1000 65535 f []
    let k2 := takeFragment 1001 0 { f with state := 2 } k.reasm
    k.reasm = [{ src := 9, bytes := [1, 2, 3, 4, 5], counter := 65535, last := 1000 }]
    ∧ k2.reasm = [{ src := 9, bytes := [1, 2, 3, 4, 5, 1, 2, 3, 4, 5], counter := 0, last := 1001 }] := by decide

end Sys2Proof.Tests
end

/-! PROOF. The claims of the slot map (R34, R180): each output claims at most one slot, and a record put in place
of another under the check of R34 keeps the claims distinct. -/

namespace Sys2Proof.Machine

open Sys2Proof

/-- Two claims of one list of records come from two records, so they have two owners. -/
theorem zipIdx_claims_pairwise {α : Type} (slot : α → Option Nat) (owner : Nat → SlotOwner)
    (inj : ∀ i j, owner i = owner j → i = j) (l : List α) :
    (l.zipIdx.filterMap (fun (r, i) => (slot r).map (fun n => (owner i, n)))).Pairwise (fun a b => a.1 ≠ b.1) := by
  have hidx : l.zipIdx.Pairwise (fun a b => a.2 ≠ b.2) := by
    rw [← List.pairwise_map (f := Prod.snd) (R := (· ≠ ·)), List.zipIdx_map_snd]
    exact List.nodup_range'
  refine hidx.filterMap _ (fun a a' hne b hb b' hb' heq => ?_)
  obtain ⟨n, -, rfl⟩ := Option.map_eq_some_iff.1 hb
  obtain ⟨n', -, rfl⟩ := Option.map_eq_some_iff.1 hb'
  exact hne (inj _ _ heq)

/-- Each output claims at most one slot (R180). -/
theorem slotClaims_owners_pairwise (t : Tables) : (slotClaims t).Pairwise (fun a b => a.1 ≠ b.1) := by
  refine List.pairwise_append.2 ⟨zipIdx_claims_pairwise MixRec.slot .mix (fun _ _ h => SlotOwner.mix.inj h) _,
    zipIdx_claims_pairwise ZoneRec.slot .zone (fun _ _ h => SlotOwner.zone.inj h) _, fun a ha b hb => ?_⟩
  obtain ⟨_, -, ea⟩ := List.mem_filterMap.1 ha
  obtain ⟨_, -, eb⟩ := List.mem_filterMap.1 hb
  obtain ⟨_, -, rfl⟩ := Option.map_eq_some_iff.1 ea
  obtain ⟨_, -, rfl⟩ := Option.map_eq_some_iff.1 eb
  exact SlotOwner.noConfusion

/-- The claims are distinct where a slot has one owner (R180). -/
theorem claimsDistinct_iff (t : Tables) : claimsDistinct t = true ↔
    ∀ o o' n, (o, n) ∈ slotClaims t → (o', n) ∈ slotClaims t → o = o' := by
  have hnodup : (slotClaims t).Nodup :=
    (slotClaims_owners_pairwise t).imp (fun hne heq => hne (congrArg Prod.fst heq))
  rw [claimsDistinct, decide_eq_true_iff, List.nodup_map_iff_inj_on hnodup]
  constructor
  · exact fun h o o' n ho ho' => congrArg Prod.fst (h _ ho _ ho' rfl)
  · rintro h ⟨o, n⟩ ho ⟨o', n'⟩ ho' rfl
    rw [h o o' n ho ho']

/-- No slot is always free (R34). -/
theorem slotFree_none (t : Tables) (o : SlotOwner) : slotFree t o none = true := rfl

/-- A slot is free for an output where no other output claims it (R34). -/
theorem slotFree_some_iff (t : Tables) (o : SlotOwner) (n : Nat) :
    slotFree t o (some n) = true ↔ ∀ o', (o', n) ∈ slotClaims t → o' = o := by
  simp only [slotFree, List.all_eq_true, Bool.or_eq_true, decide_eq_true_eq]
  constructor
  · exact fun h o' ho' => (h _ ho').resolve_left (fun hne => hne rfl)
  · rintro h ⟨o', n'⟩ ho'
    by_cases e : n' = n
    · exact .inr (h o' (e ▸ ho'))
    · exact .inl e

/-- Where one output takes a slot that was free for it and every other claim stood before, the claims stay distinct. -/
theorem claimsDistinct_of_free {t t' : Tables} {o : SlotOwner} {slot : Option Nat} (h : claimsDistinct t = true)
    (hfree : slotFree t o slot = true)
    (hclaims : ∀ o' n, (o', n) ∈ slotClaims t' → (o', n) ∈ slotClaims t ∨ o' = o ∧ slot = some n) :
    claimsDistinct t' = true := by
  rw [claimsDistinct_iff] at h ⊢
  intro o1 o2 n h1 h2
  rcases hclaims o1 n h1 with k1 | ⟨rfl, rfl⟩ <;> rcases hclaims o2 n h2 with k2 | ⟨rfl, hs⟩
  · exact h o1 o2 n k1 k2
  · exact (slotFree_some_iff t o2 n).1 (hs ▸ hfree) o1 k1
  · exact ((slotFree_some_iff t o1 n).1 hfree o2 k2).symm
  · rfl

/-- A claim after one mix record was replaced: it stood before, or is that record's. -/
theorem slotClaims_setMix {t : Tables} {m : Nat} {r : MixRec} {o : SlotOwner} {n : Nat}
    (h : (o, n) ∈ slotClaims { t with mixes := t.mixes.set m r }) :
    (o, n) ∈ slotClaims t ∨ o = .mix m ∧ r.slot = some n := by
  cases o with
  | zone z =>
    rw [mem_slotClaims_zone] at h ⊢
    exact .inl h
  | mix i =>
    rw [mem_slotClaims_mix] at h ⊢
    by_cases e : m = i
    · subst e
      rw [List.getElem?_set_self'] at h
      cases hm : t.mixes[m]? with
      | none => simp [hm] at h
      | some x => exact .inr ⟨rfl, by simpa [hm] using h⟩
    · exact .inl (by rwa [List.getElem?_set_ne e] at h)

/-- A claim after one zone record was replaced: it stood before, or is that record's. -/
theorem slotClaims_setZone {t : Tables} {z : Nat} {r : ZoneRec} {o : SlotOwner} {n : Nat}
    (h : (o, n) ∈ slotClaims { t with zones := t.zones.set z r }) :
    (o, n) ∈ slotClaims t ∨ o = .zone z ∧ r.slot = some n := by
  cases o with
  | mix m =>
    rw [mem_slotClaims_mix] at h ⊢
    exact .inl h
  | zone i =>
    rw [mem_slotClaims_zone] at h ⊢
    by_cases e : z = i
    · subst e
      rw [List.getElem?_set_self'] at h
      cases hz : t.zones[z]? with
      | none => simp [hz] at h
      | some x => exact .inr ⟨rfl, by simpa [hz] using h⟩
    · exact .inl (by rwa [List.getElem?_set_ne e] at h)

/-- The claims are read from the mix and zone records alone (R180). -/
theorem claimsDistinct_congr {t t' : Tables} (hm : t'.mixes = t.mixes) (hz : t'.zones = t.zones) :
    claimsDistinct t' = claimsDistinct t := by simp only [claimsDistinct, slotClaims, hm, hz]

/-- The default tables claim no slot (R131). -/
theorem claimsDistinct_default : claimsDistinct Tables.default = true := by decide

/-- Tables that pass the checks of an image claim no slot twice (Table 7-5). -/
theorem claimsDistinct_of_tablesValid {t : Tables} (h : tablesValid t = true) : claimsDistinct t = true := by
  by_contra hc
  simp [tablesValid, hc] at h

end Sys2Proof.Machine

/-! PROOF. What each owner of a request kind leaves of the tables (Table 12-1): an owner that loads nothing leaves
them all, a load of any record but a mix or a zone leaves the mix and zone records, and LOAD_MIX and LOAD_ZONE
replace one record under the check of R34. -/

namespace Sys2Proof.Machine

open Sys2Proof

/-! ### Owners that load no table -/

@[simp] theorem refuse_part (st : Status) (p : Part) : (refuse st p).part = p := rfl
@[simp] theorem okWith_part (data : List Byte) (p : Part) : (okWith data p).part = p := rfl

@[simp] theorem answered_ite_tables {c : Prop} [Decidable c] (a b : Answered) :
    (if c then a else b).part.tables = if c then a.part.tables else b.part.tables := by split <;> rfl

@[simp] theorem ownLevel_tables (b : List Byte) (ms : Nat) (p : Part) : (ownLevel b ms p).part.tables = p.tables := by
  unfold ownLevel
  split <;> rfl

@[simp] theorem ownTalkSet_tables (b : List Byte) (p : Part) : (ownTalkSet b p).part.tables = p.tables := by
  unfold ownTalkSet
  split <;> rfl

@[simp] theorem ownRecall_tables (b : List Byte) (p : Part) : (ownRecall b p).part.tables = p.tables := by
  unfold ownRecall
  split
  · simp
  · rfl

@[simp] theorem ownRestore_tables (b : List Byte) (p : Part) : (ownRestore b p).part.tables = p.tables := by
  simp [ownRestore]

@[simp] theorem ownGo_tables (b : List Byte) (p : Part) : (ownGo b p).part.tables = p.tables := by
  unfold ownGo
  dsimp only
  split <;> rfl

@[simp] theorem ownGoTo_tables (b : List Byte) (p : Part) : (ownGoTo b p).part.tables = p.tables := by
  cases h : findCue p.tables (u32 b 0) <;> simp [ownGoTo, h]

@[simp] theorem ownSetStandby_tables (b : List Byte) (p : Part) : (ownSetStandby b p).part.tables = p.tables := by
  cases h : findCue p.tables (u32 b 0) <;> simp [ownSetStandby, h]

@[simp] theorem ownReadCue_tables (b : List Byte) (p : Part) : (ownReadCue b p).part.tables = p.tables := by
  cases h : findCue p.tables (u32 b 0) <;> simp [ownReadCue, h]

@[simp] theorem voiceStart_tables (v head code : Nat) (p : Part) :
    (voiceStart v head code p).part.tables = p.tables := by
  unfold voiceStart voiceReply
  cases segmentRec p.tables head <;> simp

@[simp] theorem ownVoice_tables (b : List Byte) (p : Part) : (ownVoice b p).part.tables = p.tables := by
  simp [ownVoice, voiceReply]

@[simp] theorem ownReadVoice_tables (b : List Byte) (p : Part) : (ownReadVoice b p).part.tables = p.tables := by
  simp [ownReadVoice]

@[simp] theorem acceptOp_tables (o : Op) (p : Part) : (acceptOp o p).part.tables = p.tables := by
  simp [acceptOp]

@[simp] theorem ownFlashErase_tables (b : List Byte) (p : Part) : (ownFlashErase b p).part.tables = p.tables := by
  simp [ownFlashErase]

@[simp] theorem ownFlashWrite_tables (b : List Byte) (p : Part) : (ownFlashWrite b p).part.tables = p.tables := by
  simp [ownFlashWrite]

@[simp] theorem ownFlashRead_tables (b : List Byte) (p : Part) : (ownFlashRead b p).part.tables = p.tables := by
  simp [ownFlashRead]

@[simp] theorem ownFlashReset_tables (b : List Byte) (p : Part) : (ownFlashReset b p).part.tables = p.tables := by
  simp [ownFlashReset]

@[simp] theorem ownSaveShow_tables (b : List Byte) (p : Part) : (ownSaveShow b p).part.tables = p.tables := by
  unfold ownSaveShow
  rw [acceptOp_tables]

@[simp] theorem ownPagingSet_tables (b : List Byte) (p : Part) : (ownPagingSet b p).part.tables = p.tables := by
  unfold ownPagingSet
  split <;> rfl

@[simp] theorem ownPage_tables (b : List Byte) (p : Part) : (ownPage b p).part.tables = p.tables := by
  unfold ownPage
  cases flagOf (u8 b 1) <;> simp

@[simp] theorem ownReadZone_tables (b : List Byte) (p : Part) : (ownReadZone b p).part.tables = p.tables := by
  simp [ownReadZone]

@[simp] theorem ownSetShowState_tables (b : List Byte) (p : Part) : (ownSetShowState b p).part.tables = p.tables := by
  unfold ownSetShowState
  cases flagOf (u8 b 0) <;> simp

@[simp] theorem ownShowResume_tables (b : List Byte) (p : Part) : (ownShowResume b p).part.tables = p.tables := by
  simp [ownShowResume]

@[simp] theorem ownLightSet_tables (b : List Byte) (p : Part) : (ownLightSet b p).part.tables = p.tables := by
  unfold ownLightSet
  cases lightCmdOf (u8 b 1) <;> simp

/-- The kinds whose owner may replace a table (Table 13-7). -/
def ReqKind.loads : ReqKind → Bool
  | .loadLaw | .loadInput | .loadMix | .loadScene | .loadCue | .deleteCue | .clearCues | .loadSegment | .loadProfile
  | .loadZone | .loadPageSource | .loadPageOrder | .setLocks | .loadLight | .loadSettings => true
  | _ => false

/-- The owner of any other kind leaves every table. -/
theorem ownerOf_tables {k : ReqKind} (h : k.loads = false) (b : List Byte) (p : Part) :
    (ownerOf k b p).part.tables = p.tables := by
  cases k with
  | loadLaw | loadInput | loadMix | loadScene | loadCue | deleteCue | clearCues | loadSegment | loadProfile | loadZone
  | loadPageSource | loadPageOrder | setLocks | loadLight | loadSettings => cases h
  | setLevel => exact ownLevel_tables b 0 p
  | fadeLevel => exact ownLevel_tables b _ p
  | readMeters | readWaits | stopAll | showStop | readStatus | restart =>
    simp [ownerOf, ownReadMeters, ownReadWaits, ownStopAll, ownShowStop, ownReadStatus, ownRestart]
  | _ => simp [ownerOf]

/-! ### Owners that load a record -/

/-- The mix and zone records of two parts are the same: so are their claims of slots (R180). -/
def OutputsStand (p q : Part) : Prop := q.tables.mixes = p.tables.mixes ∧ q.tables.zones = p.tables.zones

theorem OutputsStand.refl (p : Part) : OutputsStand p p := ⟨rfl, rfl⟩

theorem OutputsStand.ite {p : Part} {c : Prop} [Decidable c] {a b : Answered} (ha : OutputsStand p a.part)
    (hb : OutputsStand p b.part) : OutputsStand p (if c then a else b).part := by
  split
  · exact ha
  · exact hb

theorem ownLoadLaw_outputs (b : List Byte) (p : Part) : OutputsStand p (ownLoadLaw b p).part :=
  .ite (.refl p) (.ite ⟨rfl, rfl⟩ (.refl p))

theorem ownLoadInput_outputs (b : List Byte) (p : Part) : OutputsStand p (ownLoadInput b p).part := by
  unfold ownLoadInput
  cases sourceOf (u8 b 1) (u8 b 2) with
  | none => exact .refl p
  | some src => exact .ite ⟨rfl, rfl⟩ (.refl p)

theorem ownLoadScene_outputs (b : List Byte) (p : Part) : OutputsStand p (ownLoadScene b p).part :=
  .ite (.refl p) (.ite (.refl p) ⟨rfl, rfl⟩)

theorem ownLoadCue_outputs (b : List Byte) (p : Part) : OutputsStand p (ownLoadCue b p).part := by
  unfold ownLoadCue
  cases cueOf b with
  | none => exact .ite (.refl p) (.refl p)
  | some c => exact .ite (.refl p) (.ite (.refl p) ⟨rfl, rfl⟩)

theorem ownDeleteCue_outputs (b : List Byte) (p : Part) : OutputsStand p (ownDeleteCue b p).part :=
  .ite (.refl p) (.ite (.refl p) ⟨rfl, rfl⟩)

theorem ownLoadSegment_outputs (b : List Byte) (p : Part) : OutputsStand p (ownLoadSegment b p).part := by
  unfold ownLoadSegment
  cases segmentOf b with
  | none => exact .refl p
  | some sg => exact .ite (.refl p) (.ite (.refl p) ⟨rfl, rfl⟩)

theorem ownLoadProfile_outputs (b : List Byte) (p : Part) : OutputsStand p (ownLoadProfile b p).part := by
  unfold ownLoadProfile
  cases profileOf b with
  | none => exact .refl p
  | some pr => exact .ite (.refl p) (.ite (.refl p) ⟨rfl, rfl⟩)

theorem ownLoadPageSource_outputs (b : List Byte) (p : Part) : OutputsStand p (ownLoadPageSource b p).part := by
  unfold ownLoadPageSource
  cases pageOf b <;> exact ⟨rfl, rfl⟩

theorem ownLoadPageOrder_outputs (b : List Byte) (p : Part) : OutputsStand p (ownLoadPageOrder b p).part := by
  unfold ownLoadPageOrder
  cases orderOf b <;> exact ⟨rfl, rfl⟩

theorem ownSetLocks_outputs (b : List Byte) (p : Part) : OutputsStand p (ownSetLocks b p).part := by
  unfold ownSetLocks
  cases locksAfter b p.tables.locks <;> exact ⟨rfl, rfl⟩

theorem ownLoadLight_outputs (b : List Byte) (p : Part) : OutputsStand p (ownLoadLight b p).part := by
  unfold ownLoadLight
  cases flagOf (u8 b 1) with
  | none => exact .refl p
  | some auto => exact .ite ⟨rfl, rfl⟩ (.refl p)

theorem ownLoadSettings_outputs (b : List Byte) (p : Part) : OutputsStand p (ownLoadSettings b p).part := by
  unfold ownLoadSettings
  cases settingsOf b <;> exact ⟨rfl, rfl⟩

/-- Every owner but those of LOAD_MIX and LOAD_ZONE leaves the mix and zone records. -/
theorem ownerOf_outputs {k : ReqKind} (hm : k ≠ .loadMix) (hz : k ≠ .loadZone) (b : List Byte) (p : Part) :
    OutputsStand p (ownerOf k b p).part := by
  by_cases h : k.loads = false
  · exact ⟨by rw [ownerOf_tables h], by rw [ownerOf_tables h]⟩
  · cases k with
    | loadMix => exact absurd rfl hm
    | loadZone => exact absurd rfl hz
    | loadLaw => exact ownLoadLaw_outputs b p
    | loadInput => exact ownLoadInput_outputs b p
    | loadScene => exact ownLoadScene_outputs b p
    | loadCue => exact ownLoadCue_outputs b p
    | deleteCue => exact ownDeleteCue_outputs b p
    | clearCues => exact ⟨rfl, rfl⟩
    | loadSegment => exact ownLoadSegment_outputs b p
    | loadProfile => exact ownLoadProfile_outputs b p
    | loadPageSource => exact ownLoadPageSource_outputs b p
    | loadPageOrder => exact ownLoadPageOrder_outputs b p
    | setLocks => exact ownSetLocks_outputs b p
    | loadLight => exact ownLoadLight_outputs b p
    | loadSettings => exact ownLoadSettings_outputs b p
    | _ => exact absurd rfl h

/-- LOAD_MIX keeps the claims distinct: its slot was free (R34). -/
theorem ownLoadMix_claimsDistinct (b : List Byte) {p : Part} (h : claimsDistinct p.tables = true) :
    claimsDistinct (ownLoadMix b p).part.tables = true := by
  unfold ownLoadMix
  cases mixOf b with
  | none => exact h
  | some r =>
    dsimp only
    split
    · rename_i hfree
      exact claimsDistinct_of_free h hfree (fun _ _ => slotClaims_setMix)
    · exact h

/-- LOAD_ZONE keeps the claims distinct: its slot was free (R34, R151). -/
theorem ownLoadZone_claimsDistinct (b : List Byte) {p : Part} (h : claimsDistinct p.tables = true) :
    claimsDistinct (ownLoadZone b p).part.tables = true := by
  unfold ownLoadZone
  cases zoneOf b with
  | none => exact h
  | some r =>
    dsimp only
    split
    · rename_i hfree
      exact claimsDistinct_of_free h hfree (fun _ _ => slotClaims_setZone)
    · exact h

/-- Every owner keeps the claims distinct (R180). -/
theorem ownerOf_claimsDistinct (k : ReqKind) (b : List Byte) {p : Part} (h : claimsDistinct p.tables = true) :
    claimsDistinct (ownerOf k b p).part.tables = true := by
  by_cases hm : k = .loadMix
  · exact hm ▸ ownLoadMix_claimsDistinct b h
  by_cases hz : k = .loadZone
  · exact hz ▸ ownLoadZone_claimsDistinct b h
  obtain ⟨mixes, zones⟩ := ownerOf_outputs hm hz b p
  rwa [claimsDistinct_congr mixes zones]

end Sys2Proof.Machine

/-! PROOF. No two outputs claim one ring slot, whatever step is taken (R34, R151, R180): a step changes the tables
by a request's owner, by the default tables, or by tables that passed the checks of an image. -/

namespace Sys2Proof.Machine

open Sys2Proof

@[simp] theorem answerPlace_tables (a : Answered) : (answerPlace a).tables = a.part.tables := by
  unfold answerPlace
  split <;> rfl

/-- A request leaves the tables, or they are what its owner made of them. -/
theorem takeRequest_tables (k : ReqKind) (own : Owner) (m : Msg) (p : Part) :
    (takeRequest k own m p).tables = p.tables
    ∨ (takeRequest k own m p).tables = (own m.payload (holdPlace k.code m p)).part.tables := by
  unfold takeRequest judge
  split
  · rw [answerPlace_tables]
    split
    · exact .inl rfl
    split
    · exact .inl rfl
    split
    · exact .inl rfl
    · exact .inr rfl
  · exact .inl rfl

theorem takeRequest_claimsDistinct (k : ReqKind) (m : Msg) {p : Part} (h : claimsDistinct p.tables = true) :
    claimsDistinct (takeRequest k (ownerOf k) m p).tables = true := by
  rcases takeRequest_tables k (ownerOf k) m p with e | e <;> rw [e]
  · exact h
  · exact ownerOf_claimsDistinct k m.payload (p := holdPlace k.code m p) h

theorem takeUnknown_tables (kind : Nat) (m : Msg) (p : Part) : (takeUnknown kind m p).tables = p.tables := by
  unfold takeUnknown
  split
  · exact answerPlace_tables _
  · rfl

theorem takeMessage_claimsDistinct (kind : Nat) (m : Msg) {p : Part} (h : claimsDistinct p.tables = true) :
    claimsDistinct (takeMessage kind m p).tables = true := by
  unfold takeMessage
  split
  · exact h
  · split
    · exact takeRequest_claimsDistinct _ m h
    · rwa [takeUnknown_tables]

theorem handMessage_claimsDistinct (c : Option Complete) {p : Part} (h : claimsDistinct p.tables = true) :
    claimsDistinct (handMessage c p).tables = true := by
  cases c with
  | none => exact h
  | some c => exact takeMessage_claimsDistinct c.kind c.msg h

/-- A frame changes the tables by the message it completes alone (R184). -/
theorem frameArrives_claimsDistinct (x : FrameIn) {p : Part} (h : claimsDistinct p.tables = true) :
    claimsDistinct (frameArrives x p).tables = true := by
  unfold frameArrives
  cases parseFrame x.bytes with
  | none => exact h
  | some f =>
    dsimp only
    split
    · exact handMessage_claimsDistinct _ (by rwa [Part.onRun_tables])
    · rwa [Part.onRun_tables]

theorem frameArrival_claimsDistinct (x : FrameIn) {p : Part} (h : claimsDistinct p.tables = true) :
    claimsDistinct (frameArrival x p).tables = true :=
  frameArrives_claimsDistinct x (by rwa [Part.onRun_tables])

theorem checkImage_valid {read : Nat → Nat → List Byte} {i : Image} (h : checkImage read = .ok i) :
    imageValid i = true := by
  unfold checkImage at h
  split at h
  · cases h
  · split at h
    · cases h
    · split at h
      · split at h
        · cases h
          assumption
        · cases h
      · cases h

/-- The image load takes tables that passed every check, or the default ones (R131). -/
theorem imageLoadEnd_claimsDistinct {s : State} (h : claimsDistinct s.tables = true) :
    claimsDistinct (imageLoadEnd s).tables = true := by
  unfold imageLoadEnd
  split
  · split
    · rename_i i hi
      have hvalid := checkImage_valid hi
      simp only [imageValid, Bool.and_eq_true] at hvalid
      obtain ⟨⟨htables, -⟩, -⟩ := hvalid
      simpa [takeImage] using claimsDistinct_of_tablesValid htables
    · simpa [takeImage, defaultImage] using claimsDistinct_default
  · exact h

/-- The row of a request is that request, taken by its owner (Table 12-1). -/
theorem exec_request {i : Instr} {k : ReqKind} {m : Msg} (h : requestOf i = some (k, m)) (s : State) :
    exec i s = .next (s.request k (ownerOf k) m) := by
  cases i <;> cases h <;> rfl

/-! ### Commands that are no request -/

@[simp] theorem finishWork_toPart (d : Nat) (s : State) : (s.finishWork d).toPart = s.toPart := by
  unfold State.finishWork
  split
  · exact State.onMem_toPart s d _
  · rfl

@[simp] theorem spoilWork_toPart (d : Nat) (s : State) : (s.spoilWork d).toPart = s.toPart := by
  unfold State.spoilWork
  split
  · exact State.onMem_toPart s d _
  · rfl

@[simp] theorem settleWork_toPart (o : Op) (d : Nat) (s : State) : (s.settleWork o d).toPart = s.toPart := by
  unfold State.settleWork
  split <;> simp

theorem livePoll_tables (o : Op) (d : Nat) (status : Byte) (s : State) : (livePoll o d status s).tables = s.tables := by
  unfold livePoll
  split
  · simp
  · split <;> simp

/-- A poll's end leaves the tables (R120, R121). -/
theorem pollDone_tables (status : Byte) (s : State) : (pollDone status s).tables = s.tables := by
  unfold pollDone
  split
  · split
    · exact livePoll_tables _ _ status s
    · rfl
  · rfl

/-- Every command keeps the claims distinct (R180). -/
theorem exec_claimsDistinct {i : Instr} {s t : State} (hs : claimsDistinct s.tables = true)
    (h : exec i s = .next t) : claimsDistinct t.tables = true := by
  cases hreq : requestOf i with
  | some e =>
    rw [exec_request hreq] at h
    cases h
    exact takeRequest_claimsDistinct _ _ hs
  | none =>
    cases i with
    | powerOn straps => cases h; exact claimsDistinct_default
    | imageLoadEnd x => cases h; exact imageLoadEnd_claimsDistinct hs
    | frameArrival x => cases h; exact frameArrival_claimsDistinct x hs
    | messageNotRequest kind m => cases h; exact takeMessage_claimsDistinct _ m hs
    | unknownKind kind m => cases h; exact takeMessage_claimsDistinct _ m hs
    | pollComplete status => cases h; rwa [pollDone_tables]
    | voiceStarved _ | reassemblyTimeout _ | ringLoss | fadeComplete _ | guardWindowClose | prewaitExpiry | followExpiry
    | timerExpiry | holdExpiry _ | goHoldEnd _ | goKeyPress | talkKeyChange _ | showStopKeyPress | pageKeyPress _
    | pageKeyRelease _ | acknowledge _ | fetchComplete | flashCommandComplete | pollDue | saveStepDue
    | contentReadComplete | resetCommandComplete | restartCarriedOut | writeEnableComplete => cases h; exact hs
    | _ => cases hreq

/-- Settles O8: every command keeps the claims of the slot map distinct. -/
theorem outputSlotsStayDistinct : Obligations.OutputSlotsStayDistinct := by
  unfold Obligations.OutputSlotsStayDistinct
  intro s t hs h
  unfold step at h
  split at h
  · cases h
    exact hs
  · rename_i c rest _
    exact exec_claimsDistinct (s := { s with pending := rest }) hs h

end Sys2Proof.Machine

/-! PROOF. The requests of the mix engine (chapter 2): LOAD_INPUT, LOAD_MIX, TALK_SET, READ_METERS, and the TALK
key. Each is what its owner makes of its fields; a field out of range leaves the owner nothing to take. -/

namespace Sys2Proof.Machine

open Sys2Proof

/-! ### Levels and fields -/

/-- A write of a level the store holds replaces its record (R4). -/
theorem Run.writeLevel_of_get? {r : Run} {ref : LevelRef} {l : Level} (h : r.lv.get? ref = some l) (code ms : Nat) :
    r.writeLevel ref code ms = { r with lv := r.lv.put (l.write code ms) ref } := by
  simp only [Run.writeLevel, h]

/-- A source or origin field pair is out of range (R32, R152; log entry 15). -/
theorem sourceOf_eq_none {kind index : Nat}
    (h : 3 ≤ kind ∨ (kind = 0 ∧ index ≠ 0) ∨ (kind = 1 ∧ 64 ≤ index) ∨ (kind = 2 ∧ 16 ≤ index)) :
    sourceOf kind index = none := by
  unfold sourceOf
  rcases h with h | ⟨rfl, h⟩ | ⟨rfl, h⟩ | ⟨rfl, h⟩
  · rw [if_neg (by omega), if_neg (by omega), if_neg (by omega)]
  · rw [if_pos rfl, if_neg h]
  · rw [if_neg (by omega), if_pos rfl, if_neg (by omega)]
  · rw [if_neg (by omega), if_neg (by omega), if_pos rfl, if_neg (by omega)]

theorem roleOf_eq_none {n : Nat} (h : 2 ≤ n) : roleOf n = none := by
  unfold roleOf
  rw [if_neg (by omega), if_neg (by omega)]

theorem indexOrNone_eq_none {bound n : Nat} (h : bound ≤ n) (h' : n ≠ 255) : indexOrNone bound n = none := by
  unfold indexOrNone
  rw [if_neg (by omega), if_neg h']

/-! ### LOAD_INPUT (R32) -/

theorem ownLoadInput_taken {b : List Byte} {p : Part} {src : Source} {l : Level}
    (hsrc : sourceOf (u8 b 1) (u8 b 2) = some src) (hi : u8 b 0 < 40) (hf : u8 b 4 < 4)
    (hl : p.lv.trims[u8 b 0]? = some l) :
    ownLoadInput b p = okWith [] { p with
      tables := { p.tables with
        inputs := p.tables.inputs.set (u8 b 0)
          { source := src, invert := u8 b 4 % 2 = 1, mute := u8 b 4 / 2 = 1 } }
      lv := { p.lv with trims := p.lv.trims.set (u8 b 0) (Level.rest (u8 b 3)) } } := by
  have hw : p.toRun.writeLevel (.trim (u8 b 0)) (u8 b 3) 0
      = { p.toRun with lv := { p.lv with trims := p.lv.trims.set (u8 b 0) (Level.rest (u8 b 3)) } } :=
    Run.writeLevel_of_get? (r := p.toRun) (ref := .trim (u8 b 0)) hl (u8 b 3) 0
  simp only [ownLoadInput, hsrc, if_pos (And.intro hi hf), Part.onRun, Part.withTables, hw]

theorem ownLoadInput_refused {b : List Byte} (p : Part)
    (h : 40 ≤ u8 b 0 ∨ 4 ≤ u8 b 4 ∨ sourceOf (u8 b 1) (u8 b 2) = none) : ownLoadInput b p = refuse .badField p := by
  unfold ownLoadInput
  cases hsrc : sourceOf (u8 b 1) (u8 b 2) with
  | none => rfl
  | some src => exact if_neg (by rw [hsrc] at h; simp only [reduceCtorEq, or_false] at h; omega)

/-- Settles O24: with its fields in range the owner takes the channel and its trim, else it refuses. -/
theorem loadInputTakesTheChannelWhole : Obligations.LoadInputTakesTheChannelWhole := by
  unfold Obligations.LoadInputTakesTheChannelWhole
  refine ⟨fun m s src l ha hsrc hi hf hl => ?_, fun m s ha h => ?_⟩
  · exact congrArg Host.Outcome.next (request_now ha (ownLoadInput_taken hsrc hi hf hl) rfl)
  · refine congrArg Host.Outcome.next (request_refused ha (ownLoadInput_refused _ ?_))
    rcases h with h | h | h
    · exact .inl h
    · exact .inr (.inl h)
    · exact .inr (.inr (sourceOf_eq_none h))

/-! ### LOAD_MIX (R33, R34) -/

theorem ownLoadMix_taken {b : List Byte} {p : Part} {r : MixRec} (hr : mixOf b = some r)
    (hfree : slotFree p.tables (.mix (u8 b 0)) r.slot = true) :
    ownLoadMix b p = {
      part := p.withTables { p.tables with mixes := p.tables.mixes.set (u8 b 0) r }
      answer := .now (if 8388607 < u24 b 4 then .adjusted else .ok) (mixBytes (u8 b 0) r) } := by
  simp [ownLoadMix, hr, hfree, adjusted]

theorem ownLoadMix_claimed {b : List Byte} {p : Part} {r : MixRec} (hr : mixOf b = some r)
    (hfree : slotFree p.tables (.mix (u8 b 0)) r.slot = false) : ownLoadMix b p = refuse .badField p := by
  simp [ownLoadMix, hr, hfree]

theorem ownLoadMix_unread {b : List Byte} (p : Part) (h : mixOf b = none) : ownLoadMix b p = refuse .badField p := by
  simp [ownLoadMix, h]

/-- A field of a mix record is out of range (R33). -/
theorem mixOf_eq_none {b : List Byte} (h : 24 ≤ u8 b 0 ∨ 2 ≤ u8 b 1 ∨ (64 ≤ u8 b 2 ∧ u8 b 2 ≠ 255) ∨ 2 ≤ u8 b 3
    ∨ u24 b 4 = 0) : mixOf b = none := by
  unfold mixOf
  split
  · rename_i role slot dim hrole hslot hdim
    rw [if_neg]
    rintro ⟨hm, hc⟩
    rcases h with h | h | ⟨h, h'⟩ | h | h
    · omega
    · rw [roleOf_eq_none h] at hrole; cases hrole
    · rw [indexOrNone_eq_none h h'] at hslot; cases hslot
    · rw [(flagOf_none_iff _).2 h] at hdim; cases hdim
    · omega
  · rfl

/-- Settles O25: the owner replaces the record where its slot is free, and refuses a claimed slot or a field out of
range. -/
theorem loadMixTakesTheRecord : Obligations.LoadMixTakesTheRecord := by
  unfold Obligations.LoadMixTakesTheRecord
  refine ⟨fun m s r ha hr => ⟨fun hfree => ?_, fun hfree => ?_⟩, fun m s ha h => ?_,
    fun t o => ⟨slotFree_none t o, slotFree_some_iff t o⟩⟩
  · exact congrArg Host.Outcome.next (request_now ha (ownLoadMix_taken hr hfree) rfl)
  · exact congrArg Host.Outcome.next (request_refused ha (ownLoadMix_claimed hr hfree))
  · exact congrArg Host.Outcome.next (request_refused ha (ownLoadMix_unread _ (mixOf_eq_none h)))

/-! ### TALK_SET, READ_METERS and the TALK key (R29, R30, R36) -/

theorem ownTalkSet_taken {b : List Byte} {on : Bool} (h : flagOf (u8 b 0) = some on) (p : Part) :
    ownTalkSet b p = okWith [] { p with mix := { p.mix with talkLatch := on } } := by
  simp only [ownTalkSet, h, Part.onRun, setLatch]

theorem ownTalkSet_refused {b : List Byte} (h : 1 < u8 b 0) (p : Part) : ownTalkSet b p = refuse .badField p := by
  simp only [ownTalkSet, (flagOf_none_iff _).2 h]

/-- Talk is active exactly where the key record is held or the latch is on (R29). -/
theorem MixRt.talk_eq (x : MixRt) : x.talk = (x.talkKey || x.talkLatch) := rfl

/-- Settles O26: the owner takes the latch or refuses; TALK_SET has no lock group, and talk is key or latch. -/
theorem talkSetTakesTheLatch : Obligations.TalkSetTakesTheLatch := by
  unfold Obligations.TalkSetTakesTheLatch
  refine ⟨fun m s ha => ⟨fun h => ?_, fun h => ?_, fun h => ?_⟩, fun _ _ _ => rfl, fun x hkey => ?_⟩
  · exact congrArg Host.Outcome.next (request_now ha (ownTalkSet_taken (by rw [h]; rfl) _) rfl)
  · exact congrArg Host.Outcome.next (request_now ha (ownTalkSet_taken (by rw [h]; rfl) _) rfl)
  · exact congrArg Host.Outcome.next (request_refused ha (ownTalkSet_refused h _))
  · simp [MixRt.talk_eq, hkey]

/-- Settles O27: READ_METERS clears what it answers with, and the TALK key changes nothing an arrival shows. -/
theorem metersAreClearedAndTheTalkKeyIsSet : Obligations.MetersAreClearedAndTheTalkKeyIsSet := by
  unfold Obligations.MetersAreClearedAndTheTalkKeyIsSet
  refine ⟨fun m s ha => ?_, fun down s => ?_⟩
  · exact congrArg Host.Outcome.next (request_now (own := ownReadMeters) ha rfl rfl)
  · have hquiet : onArrival (fun r => setTalkKey down (clearMark (.talk down) r)) s.toRun
        = setTalkKey down (clearMark (.talk down) s.toRun) := onArrival_of_eq _ _ rfl rfl
    exact congrArg (fun r => Host.Outcome.next { s with toRun := r }) hquiet

end Sys2Proof.Machine

/-! PROOF. The loads of the relay and page engine (R151 to R153): each replaces its record, makes one change of the
runtime state and recomputes every zone. What such a request leaves is said once, of any owner of that shape. -/

namespace Sys2Proof.Machine

open Sys2Proof

/-! ### The page engine's state after a change and a recomputation -/

/-- A recomputation leaves what the sources hold (R145). -/
theorem arbitrate_srcs (t : Tables) (r : Run) : (arbitrate t r).page.srcs = r.page.srcs := by
  unfold arbitrate forEach
  generalize List.range 16 = l
  induction l generalizing r with
  | nil => rfl
  | cons z l ih => rw [List.foldl_cons, ih, (ZoneFrame.arbitrateZone t z r).srcs]

/-- A set of a programme level, whether or not the store holds it (R4). -/
theorem writeLevel_zoneProgramme (z code : Nat) (r : Run) : r.writeLevel (.zoneProgramme z) code 0
    = { r with lv := { r.lv with programmes := r.lv.programmes.set z (Level.rest code) } } := by
  cases h : r.lv.programmes[z]? with
  | some l => exact Run.writeLevel_of_get? (ref := .zoneProgramme z) h code 0
  | none =>
    have hget : r.lv.get? (.zoneProgramme z) = none := h
    rw [List.set_eq_of_length_le (List.getElem?_eq_none_iff.1 h)]
    simp only [Run.writeLevel, hget]

theorem withdraw_unbound_source {k : Nat} {r : Run} (h : (r.src k).bound = none) :
    withdraw k r = r.onSrc k (fun _ => { requested := false, bound := none }) := by
  simp only [withdraw, h]

theorem withdraw_bound_source {k v : Nat} {r : Run} (h : (r.src k).bound = some v) :
    withdraw k r = (r.onVoice v (fun x => if x.bound = some k then { x with bound := none } else x)).onSrc k
      (fun _ => { requested := false, bound := none }) := by
  simp only [withdraw, h]

/-- A withdrawal clears the source's record and no other source's (R140). -/
theorem withdraw_srcs (k : Nat) (r : Run) :
    (withdraw k r).page.srcs = r.page.srcs.modify k (fun _ => { requested := false, bound := none }) := by
  cases h : (r.src k).bound with
  | none => rw [withdraw_unbound_source h]; rfl
  | some v => rw [withdraw_bound_source h]; rfl

/-- A withdrawn source is neither requested nor bound (R140). -/
theorem withdraw_src (k : Nat) (r : Run) : (withdraw k r).src k = { requested := false, bound := none } := by
  rw [Run.src, withdraw_srcs, List.getD_eq_getElem?_getD, List.getElem?_modify_eq]
  cases r.page.srcs[k]? <;> rfl

/-! ### A request that makes one change and recomputes the zones -/

/-- An owner that replaces the tables, changes the runtime state, and recomputes every zone (R145). -/
def recomputes (tables : Tables) (change : Run → Run) (st : Status) (data : List Byte) (p : Part) : Answered :=
  { part := (p.withTables tables).onRun (fun t r => arbitrate t (change r)), answer := .now st data }

/-- The state such a request leaves, where its change leaves the reply queue. -/
theorem request_recomputes {s : State} {k : ReqKind} {m : Msg} {own : Owner} {tables : Tables} {change : Run → Run}
    {st : Status} {data : List Byte} (ha : accepts s k m)
    (he : own m.payload (holdPlace k.code m s.toPart) = recomputes tables change st data (holdPlace k.code m s.toPart))
    (hc : ∀ r, (change r).ctl.places = r.ctl.places) :
    (s.request k own m).tables = tables ∧ repliedWith s (s.request k own m) k m st data
      ∧ storesKept s (s.request k own m) ∧ rezoned s (s.request k own m) k m change := by
  have hplaces : (arbitrate tables (change (holdPlace k.code m s.toPart).toRun)).ctl.places
      = (holdPlace k.code m s.toPart).ctl.places :=
    (Frame.arbitrate tables _).ctl.places.trans (hc _)
  have hnow := request_now ha he hplaces
  have htables : (s.request k own m).tables = tables := by rw [hnow]; rfl
  refine ⟨htables, by rw [hnow]; rfl, ⟨rfl, rfl, rfl, rfl⟩, ?_⟩
  unfold rezoned runsAs
  rw [htables, hnow]
  rfl

/-- After a recomputation every zone has the source that belongs to it (R145, R147). -/
theorem airIsBest_of_rezoned {s t : State} {k : ReqKind} {m : Msg} {change : Run → Run}
    (h : rezoned s t k m change) : airIsBest t := by
  intro z hz hlen
  have hpage : t.page = (arbitrate t.tables (change (holdPlace k.code m s.toPart).toRun)).page :=
    (congrArg Run.page h).trans rfl
  have hbest := arbitrate_best t.tables (change (holdPlace k.code m s.toPart).toRun) z hz (hpage ▸ hlen)
  rw [← airFor_congr (r' := t.toRun) (by rw [hpage]) (by rw [hpage]) (by rw [hpage]) z] at hbest
  rwa [Run.zone, hpage]

/-- The sources after a recomputation are as the change left them. -/
theorem srcs_of_rezoned {s t : State} {k : ReqKind} {m : Msg} {change : Run → Run} (h : rezoned s t k m change) :
    t.page.srcs = (change (holdPlace k.code m s.toPart).toRun).page.srcs :=
  (congrArg (fun r => r.page.srcs) h).trans (arbitrate_srcs _ _)

/-- A change that leaves what every sound operation leaves keeps it through the recomputation. -/
theorem soundKept_of_rezoned {s t : State} {k : ReqKind} {m : Msg} {change : Run → Run}
    (h : rezoned s t k m change) (hs : storesKept s t) (hc : ∀ r, Frame r (change r)) : soundKept s t := by
  have f := (hc (holdPlace k.code m s.toPart).toRun).trans (Frame.arbitrate t.tables _)
  have hrun {α : Type} (field : Run → α) : field t.toRun
    = field { arbitrate t.tables (change (holdPlace k.code m s.toPart).toRun) with
        ctl := { (arbitrate t.tables (change (holdPlace k.code m s.toPart).toRun)).ctl with places := t.ctl.places } } :=
    congrArg field h
  have hstage : t.stage = s.stage := (hrun Run.stage).trans f.stage
  exact ⟨(hrun fun r => r.lv.crosspoints).trans f.crosspoints, (hrun fun r => r.lv.masters).trans f.masters,
    (hrun fun r => r.lv.trims).trans f.trims, (hrun fun r => r.lv.programmes).trans f.programmes,
    (hrun Run.mix).trans f.mix, (hrun Run.latch).trans f.latch, (hrun Run.cue).trans f.cue,
    (hrun Run.waits).trans f.waits, (hrun Run.shw).trans f.shw, by rw [hstage], (hrun Run.port).trans f.port,
    (hrun fun r => r.ctl.taking).trans f.ctl.taking, (hrun fun r => r.ctl.restartDue).trans f.ctl.restartDue,
    (hrun fun r => r.ctl.reports) ▸ f.ctl.reports, hs⟩

/-! ### The owners (R151 to R153) -/

/-- The change LOAD_ZONE makes: the programme level is set (R151). -/
def setProgramme (z code : Nat) (r : Run) : Run :=
  { r with lv := { r.lv with programmes := r.lv.programmes.set z (Level.rest code) } }

theorem ownLoadZone_taken {b : List Byte} {p : Part} {zr : ZoneRec} (hz : zoneOf b = some zr)
    (hfree : slotFree p.tables (.zone (u8 b 0)) zr.slot = true) :
    ownLoadZone b p = recomputes { p.tables with zones := p.tables.zones.set (u8 b 0) zr }
      (setProgramme (u8 b 0) (u8 b 2)) (if 120 < u8 b 4 then .adjusted else .ok) (zoneBytes (u8 b 0) zr (u8 b 2)) p := by
  simp [ownLoadZone, hz, hfree, recomputes, writeLevel_zoneProgramme, setProgramme, adjusted]

theorem ownLoadZone_claimed {b : List Byte} {p : Part} {zr : ZoneRec} (hz : zoneOf b = some zr)
    (hfree : slotFree p.tables (.zone (u8 b 0)) zr.slot = false) : ownLoadZone b p = refuse .badField p := by
  simp [ownLoadZone, hz, hfree]

theorem ownLoadZone_unread {b : List Byte} (h : zoneOf b = none) (p : Part) : ownLoadZone b p = refuse .badField p := by
  simp [ownLoadZone, h]

/-- The change LOAD_PAGE_SOURCE makes: a changed origin withdraws the source (R152). -/
def moveOrigin (t : Tables) (k : Nat) (pg : PageRec) (r : Run) : Run :=
  if pg.origin = (pageRec t k).origin then r else withdraw k r

theorem Frame.moveOrigin (t : Tables) (k : Nat) (pg : PageRec) (r : Run) : Frame r (moveOrigin t k pg r) :=
  .ite (fun _ => .refl r) (fun _ => .withdraw k r)

theorem ownLoadPageSource_taken {b : List Byte} {pg : PageRec} (h : pageOf b = some pg) (p : Part) :
    ownLoadPageSource b p = recomputes { p.tables with pages := p.tables.pages.set (u8 b 0) pg }
      (moveOrigin p.tables (u8 b 0) pg) .ok [] p := by
  simp [ownLoadPageSource, h, recomputes, okWith, moveOrigin]

theorem ownLoadPageSource_unread {b : List Byte} (h : pageOf b = none) (p : Part) :
    ownLoadPageSource b p = refuse .badField p := by
  simp [ownLoadPageSource, h]

theorem ownLoadPageOrder_taken {b : List Byte} {o : PageOrder} (h : orderOf b = some o) (p : Part) :
    ownLoadPageOrder b p = recomputes { p.tables with order := o } id .ok [] p := by
  simp [ownLoadPageOrder, h, recomputes, okWith]

theorem ownLoadPageOrder_unread {b : List Byte} (h : orderOf b = none) (p : Part) :
    ownLoadPageOrder b p = refuse .badField p := by
  simp [ownLoadPageOrder, h]

/-! ### The payloads (Table 13-7) -/

/-- A field of a zone configuration is out of range (R151). -/
theorem zoneOf_eq_none {b : List Byte} (h : 16 ≤ u8 b 0 ∨ (24 ≤ u8 b 1 ∧ u8 b 1 ≠ 255) ∨ (64 ≤ u8 b 11 ∧ u8 b 11 ≠ 255)) :
    zoneOf b = none := by
  unfold zoneOf
  split
  · rename_i prog slot hprog hslot
    rcases h with h | ⟨h, h'⟩ | ⟨h, h'⟩
    · exact if_neg (by omega)
    · rw [indexOrNone_eq_none h h'] at hprog; cases hprog
    · rw [indexOrNone_eq_none h h'] at hslot; cases hslot
  · rfl

/-- The source, or the kind and index of its origin, is out of range (R152; log entry 15). -/
theorem pageOf_eq_none {b : List Byte} (h : 8 ≤ u8 b 0 ∨ sourceOf (u8 b 1) (u8 b 2) = none) : pageOf b = none := by
  unfold pageOf
  split
  · rename_i o ho
    rcases h with h | h
    · exact if_neg (by omega)
    · rw [h] at ho; cases ho
  · rfl

/-- The classes are not each once, or a lead is neither member (R153). -/
theorem orderOf_eq_none {b : List Byte} (h : isClassOrder ((b.take 4).map BitVec.toNat) = false
    ∨ ∃ i, i < 4 ∧ 2 ≤ u8 b (4 + i)) : orderOf b = none := by
  unfold orderOf
  dsimp only
  split
  · rename_i leads hleads
    rcases h with h | ⟨i, hi, h⟩
    · exact if_neg (by rw [h]; decide)
    · have hmem : none ∈ (List.range 4).map (fun i => flagOf (u8 b (4 + i))) :=
        List.mem_map.2 ⟨i, List.mem_range.2 hi, (flagOf_none_iff _).2 h⟩
      rw [allSome_none hmem] at hleads; cases hleads
  · rfl

/-- A source or origin in range, by its kind (Table 13-3). -/
theorem sourceOf_eq_some {kind index : Nat} {o : Source} (h : sourceOf kind index = some o) :
    o = if kind = 0 then .none else if kind = 1 then .slot index else .voice index := by
  unfold sourceOf at h
  split_ifs at h ⊢ <;> cases h <;> rfl

/-- A page source's record is the payload's (R152). -/
theorem pageOf_eq_some {b : List Byte} {pg : PageRec} (h : pageOf b = some pg) :
    pg.gain = u8 b 3 ∧ pg.zones = BitVec.ofNat 16 (u16 b 4)
      ∧ pg.origin = if u8 b 1 = 0 then .none else if u8 b 1 = 1 then .slot (u8 b 2) else .voice (u8 b 2) := by
  unfold pageOf at h
  split at h
  · rename_i o ho
    split at h
    · cases h
      exact ⟨rfl, rfl, sourceOf_eq_some ho⟩
    · cases h
  · cases h

/-- Flags each 0 or 1 are read as their values. -/
theorem allSome_flagOf (f : Nat → Nat) (l : List Nat) {flags : List Bool}
    (h : allSome (l.map (fun i => flagOf (f i))) = some flags) : flags = l.map (fun i => decide (f i = 1)) := by
  induction l generalizing flags with
  | nil => cases h; rfl
  | cons i l ih =>
    by_cases hf : f i < 2
    · rw [List.map_cons, flagOf_lt hf, allSome] at h
      split at h
      · cases h
      · rename_i rest hrest
        cases h
        rw [List.map_cons, ih hrest]
    · rw [List.map_cons, flagOf_ge hf] at h
      cases h

/-- A page order's classes and leads are the payload's (R153). -/
theorem orderOf_eq_some {b : List Byte} {o : PageOrder} (h : orderOf b = some o) :
    o.order = (b.take 4).map BitVec.toNat ∧ o.oddLeads = [4, 5, 6, 7].map (fun i => decide (u8 b i = 1)) := by
  unfold orderOf at h
  dsimp only at h
  split at h
  · rename_i leads hleads
    split at h
    · cases h
      exact ⟨rfl, allSome_flagOf (fun i => u8 b (4 + i)) _ hleads⟩
    · cases h
  · cases h

/-! ### The statement -/

/-- LOAD_ZONE with its slot free (R151, R34). -/
theorem loadZone_taken {m : Msg} {s : State} {zr : ZoneRec} (ha : accepts s .loadZone m) (hz : zoneOf m.payload = some zr)
    (hfree : slotFree s.tables (.zone (u8 m.payload 0)) zr.slot = true) :
    let z := u8 m.payload 0
    let t := s.request .loadZone ownLoadZone m
    t.tables = { s.tables with zones := s.tables.zones.set z zr }
    ∧ t.lv.programmes = s.lv.programmes.set z (Level.rest (u8 m.payload 2))
    ∧ t.lv.crosspoints = s.lv.crosspoints ∧ t.lv.masters = s.lv.masters ∧ t.lv.trims = s.lv.trims
    ∧ t.mix = s.mix ∧ t.cue = s.cue ∧ t.waits = s.waits ∧ t.voices = s.voices ∧ airIsBest t
    ∧ repliedWith s t .loadZone m (if 120 < u8 m.payload 4 then .adjusted else .ok) (zoneBytes z zr (u8 m.payload 2))
    ∧ storesKept s t ∧ rezoned s t .loadZone m (setProgramme z (u8 m.payload 2)) := by
  intro z t
  obtain ⟨htables, hreply, hstores, hrez⟩ :=
    request_recomputes ha (ownLoadZone_taken (p := holdPlace _ m s.toPart) hz hfree) (fun _ => rfl)
  have f := Frame.arbitrate t.tables (setProgramme z (u8 m.payload 2) (holdPlace ReqKind.loadZone.code m s.toPart).toRun)
  refine ⟨htables, ?_, ?_, ?_, ?_, ?_, ?_, ?_, ?_, airIsBest_of_rezoned hrez, hreply, hstores, hrez⟩
  · exact (congrArg (fun r => r.lv.programmes) hrez).trans f.programmes
  · exact (congrArg (fun r => r.lv.crosspoints) hrez).trans f.crosspoints
  · exact (congrArg (fun r => r.lv.masters) hrez).trans f.masters
  · exact (congrArg (fun r => r.lv.trims) hrez).trans f.trims
  · exact (congrArg Run.mix hrez).trans f.mix
  · exact (congrArg Run.cue hrez).trans f.cue
  · exact (congrArg Run.waits hrez).trans f.waits
  · exact (congrArg Run.voices hrez).trans (arbitrate_voices _ _)

/-- LOAD_PAGE_SOURCE with its fields in range (R152). -/
theorem loadPageSource_taken {m : Msg} {s : State} {pg : PageRec} (ha : accepts s .loadPageSource m)
    (hp : pageOf m.payload = some pg) :
    let k := u8 m.payload 0
    let t := s.request .loadPageSource ownLoadPageSource m
    t.tables = { s.tables with pages := s.tables.pages.set k pg }
    ∧ (pg.origin ≠ (pageRec s.tables k).origin → (t.toRun.src k).requested = false ∧ (t.toRun.src k).bound = none)
    ∧ (pg.origin = (pageRec s.tables k).origin → t.page.srcs = s.page.srcs)
    ∧ airIsBest t ∧ repliedWith s t .loadPageSource m .ok [] ∧ soundKept s t
    ∧ rezoned s t .loadPageSource m (moveOrigin s.tables k pg) := by
  intro k t
  obtain ⟨htables, hreply, hstores, hrez⟩ :=
    request_recomputes ha (ownLoadPageSource_taken hp _) (fun r => (Frame.moveOrigin s.tables k pg r).ctl.places)
  have hsrcs : t.page.srcs = _ := srcs_of_rezoned hrez
  refine ⟨htables, fun hne => ?_, fun heq => ?_, airIsBest_of_rezoned hrez, hreply,
    soundKept_of_rezoned hrez hstores (Frame.moveOrigin s.tables k pg), hrez⟩
  · have hsrc : t.toRun.src k = { requested := false, bound := none } := by
      rw [Run.src, hsrcs, holdPlace_tables, moveOrigin, if_neg hne]
      exact withdraw_src k _
    rw [hsrc]
    exact ⟨rfl, rfl⟩
  · rw [hsrcs, holdPlace_tables, moveOrigin, if_pos heq, holdPlace_page]

/-- LOAD_PAGE_ORDER with its fields in range (R153). -/
theorem loadPageOrder_taken {m : Msg} {s : State} {o : PageOrder} (ha : accepts s .loadPageOrder m)
    (ho : orderOf m.payload = some o) :
    let t := s.request .loadPageOrder ownLoadPageOrder m
    t.tables = { s.tables with order := o } ∧ t.page.srcs = s.page.srcs ∧ airIsBest t
    ∧ repliedWith s t .loadPageOrder m .ok [] ∧ soundKept s t ∧ rezoned s t .loadPageOrder m id := by
  intro t
  obtain ⟨htables, hreply, hstores, hrez⟩ :=
    request_recomputes ha (ownLoadPageOrder_taken ho _) (fun _ => rfl)
  exact ⟨htables, srcs_of_rezoned hrez, airIsBest_of_rezoned hrez, hreply,
    soundKept_of_rezoned hrez hstores Frame.refl, hrez⟩

/-- Settles O48: each load is its owner's one change and a recomputation; else the owner refuses. -/
theorem relayLoadsReplaceAndRecompute : Obligations.RelayLoadsReplaceAndRecompute := by
  unfold Obligations.RelayLoadsReplaceAndRecompute
  refine ⟨fun m s zr ha hz => ⟨fun hfree => ?_, fun hfree => ⟨_, rfl, loadZone_taken ha hz hfree⟩⟩,
    fun m s pg ha hp => ⟨_, rfl, loadPageSource_taken ha hp⟩, fun m s o ha ho => ⟨_, rfl, loadPageOrder_taken ha ho⟩,
    fun b pg h => pageOf_eq_some h, fun b o h => orderOf_eq_some h, fun k r => ?_,
    fun m s => ⟨fun ha h => ?_, fun ha h => ?_, fun ha h => ?_⟩⟩
  · exact congrArg Host.Outcome.next (request_refused ha (ownLoadZone_claimed hz hfree))
  · cases h : (r.src k).bound with
    | none => rw [withdraw_unbound_source h]; rfl
    | some v => rw [withdraw_bound_source h]; rfl
  · exact congrArg Host.Outcome.next (request_refused ha (ownLoadZone_unread (zoneOf_eq_none h) _))
  · refine congrArg Host.Outcome.next (request_refused ha (ownLoadPageSource_unread (pageOf_eq_none ?_) _))
    exact h.imp_right sourceOf_eq_none
  · exact congrArg Host.Outcome.next (request_refused ha (ownLoadPageOrder_unread (orderOf_eq_none h) _))

end Sys2Proof.Machine

/-! PROOF. The level store under writes (chapter 1): what a reference reads after a record is replaced, after one
write, and after a run of writes, which is what a recall and a restore hand it (R43, R45). -/

namespace Sys2Proof.Machine

open Sys2Proof

/-! ### Levels by reference (R1) -/

/-- A replaced record is read back, where the reference names one. -/
theorem Levels.get?_put_same (lv : Levels) (x : Level) (ref : LevelRef) :
    (lv.put x ref).get? ref = (lv.get? ref).map (Function.const Level x) := by
  cases ref with
  | crosspoint i m =>
    by_cases hi : i < 40
    · simp [Levels.get?, Levels.put, hi, List.getElem?_set_self']
    · simp [Levels.get?, hi]
  | _ => simp [Levels.get?, Levels.put, List.getElem?_set_self']

/-- Inputs are below 40, so two crosspoints are never one entry of the list. -/
theorem Levels.get?_put_crosspoint_ne (lv : Levels) (x : Level) {i m i' m' : Nat}
    (h : LevelRef.crosspoint i' m' ≠ .crosspoint i m) :
    (lv.put x (.crosspoint i m)).get? (.crosspoint i' m') = lv.get? (.crosspoint i' m') := by
  have hne : ¬ (i' = i ∧ m' = m) := fun ⟨hi, hm⟩ => h (hi ▸ hm ▸ rfl)
  by_cases hi : i < 40
  · by_cases hi' : i' < 40
    · have hplace : 40 * m + i ≠ 40 * m' + i' := by omega
      simp [Levels.get?, Levels.put, hi, hi', List.getElem?_set_ne hplace]
    · simp [Levels.get?, hi']
  · simp [Levels.put, hi]

/-- Replacing a record leaves every other record. -/
theorem Levels.get?_put_ne (lv : Levels) (x : Level) {ref other : LevelRef} (h : other ≠ ref) :
    (lv.put x ref).get? other = lv.get? other := by
  cases ref with
  | crosspoint i m =>
    cases other with
    | crosspoint i' m' => exact lv.get?_put_crosspoint_ne x h
    | _ => by_cases hi : i < 40 <;> simp [Levels.get?, Levels.put, hi]
  | master n | trim n | fader n | zoneProgramme n | duck n =>
    cases other <;> simp_all [Levels.get?, Levels.put, List.getElem?_set_ne, Ne.symm]

theorem Levels.get_of_get? {lv : Levels} {ref : LevelRef} {l : Level} (h : lv.get? ref = some l) : lv.get ref = l := by
  rw [Levels.get, h, Option.getD_some]

/-- A written level has the code written, whether it fades or rests (R2, R4, R5). -/
@[simp] theorem Level.write_code (l : Level) (code ms : Nat) : (l.write code ms).code = code := by
  unfold Level.write
  split
  · simp [Level.code]
  split
  · simp [Level.code, *]
  · simp [Level.code]

/-! ### One write, and a run of writes (R43) -/

/-- A write changes nothing but the levels. -/
theorem Run.writeLevel_eq_withLevels (ref : LevelRef) (code ms : Nat) (r : Run) :
    r.writeLevel ref code ms = { r with lv := (r.writeLevel ref code ms).lv } := by
  unfold Run.writeLevel
  split <;> rfl

theorem Run.writeLevel_get?_same (ref : LevelRef) (code ms : Nat) (r : Run) :
    (r.writeLevel ref code ms).lv.get? ref = (r.lv.get? ref).map (fun l => l.write code ms) := by
  cases h : r.lv.get? ref with
  | none => simp only [Run.writeLevel, h, Option.map_none]
  | some l => rw [Run.writeLevel_of_get? h, Levels.get?_put_same, h]; rfl

theorem Run.writeLevel_get?_ne {ref other : LevelRef} (h : other ≠ ref) (code ms : Nat) (r : Run) :
    (r.writeLevel ref code ms).lv.get? other = r.lv.get? other := by
  unfold Run.writeLevel
  split
  · exact Levels.get?_put_ne _ _ h
  · rfl

@[simp] theorem writeAll_nil (ms : Nat) (r : Run) : writeAll ms [] r = r := rfl

@[simp] theorem writeAll_cons (ms : Nat) (e : LevelRef × Nat) (ws : List (LevelRef × Nat)) (r : Run) :
    writeAll ms (e :: ws) r = writeAll ms ws (r.writeLevel e.1 e.2 ms) := rfl

/-- A run of writes changes nothing but the levels. -/
theorem writeAll_eq_withLevels (ms : Nat) (ws : List (LevelRef × Nat)) (r : Run) :
    writeAll ms ws r = { r with lv := (writeAll ms ws r).lv } := by
  induction ws generalizing r with
  | nil => rfl
  | cons e ws ih =>
    have hfirst := Run.writeLevel_eq_withLevels e.1 e.2 ms r
    calc writeAll ms ws (r.writeLevel e.1 e.2 ms)
        = { r.writeLevel e.1 e.2 ms with lv := (writeAll ms ws (r.writeLevel e.1 e.2 ms)).lv } := ih _
      _ = { r with lv := (writeAll ms ws (r.writeLevel e.1 e.2 ms)).lv } :=
        congrArg (fun x : Run => { x with lv := (writeAll ms ws (r.writeLevel e.1 e.2 ms)).lv }) hfirst

theorem Run.writeLevel_withLatch (ref : LevelRef) (code ms : Nat) (latch : List (LevelRef × Nat)) (r : Run) :
    Run.writeLevel ref code ms { r with latch := latch } = { r.writeLevel ref code ms with latch := latch } := by
  unfold Run.writeLevel
  dsimp only
  split <;> rfl

/-- A run of writes reads nothing of the latch. -/
theorem writeAll_withLatch (ms : Nat) (ws : List (LevelRef × Nat)) (latch : List (LevelRef × Nat)) (r : Run) :
    writeAll ms ws { r with latch := latch } = { writeAll ms ws r with latch := latch } := by
  induction ws generalizing r with
  | nil => rfl
  | cons e ws ih => rw [writeAll_cons, Run.writeLevel_withLatch, ih, writeAll_cons]

/-- A level that no write of the run names stands. -/
theorem writeAll_get?_of_notMem {ms : Nat} {ws : List (LevelRef × Nat)} {ref : LevelRef} (r : Run)
    (h : ref ∉ ws.map Prod.fst) : (writeAll ms ws r).lv.get? ref = r.lv.get? ref := by
  induction ws generalizing r with
  | nil => rfl
  | cons e ws ih =>
    obtain ⟨hne, hrest⟩ := not_or.1 (List.mem_cons.not.1 (List.map_cons ▸ h))
    rw [writeAll_cons, ih _ hrest, Run.writeLevel_get?_ne hne]

/-- In a run that names no level twice, a level named has its one write. -/
theorem writeAll_get?_of_mem {ms : Nat} {ws : List (LevelRef × Nat)} {ref : LevelRef} {code : Nat} (r : Run)
    (hd : (ws.map Prod.fst).Nodup) (h : (ref, code) ∈ ws) :
    (writeAll ms ws r).lv.get? ref = (r.lv.get? ref).map (fun l => l.write code ms) := by
  induction ws generalizing r with
  | nil => cases h
  | cons e ws ih =>
    obtain ⟨hfirst, hrest⟩ := List.nodup_cons.1 (List.map_cons ▸ hd)
    rw [writeAll_cons]
    rcases List.mem_cons.1 h with rfl | h
    · rw [writeAll_get?_of_notMem _ hfirst, Run.writeLevel_get?_same]
    · have hne : ref ≠ e.1 := fun he => hfirst (he ▸ List.mem_map_of_mem h)
      rw [ih _ hrest h, Run.writeLevel_get?_ne hne]

/-- A level the store does not hold is not brought into it. -/
theorem writeAll_get?_none {ms : Nat} {ref : LevelRef} (ws : List (LevelRef × Nat)) {r : Run}
    (h : r.lv.get? ref = none) : (writeAll ms ws r).lv.get? ref = none := by
  induction ws generalizing r with
  | nil => exact h
  | cons e ws ih =>
    apply ih
    by_cases he : ref = e.1
    · subst he
      rw [Run.writeLevel_get?_same, h]
      rfl
    · rw [Run.writeLevel_get?_ne he, h]

end Sys2Proof.Machine

/-! PROOF. The scene store (chapter 3): what the writes of a recall leave of the levels is said once, for RECALL and
for RESTORE, which is a recall of the latched codes in REPLACE; then each request is what its owner makes of it. -/

namespace Sys2Proof.Machine

open Sys2Proof

/-! ### The writes of a recall (R42, R43) -/

/-- The affected levels of a recall with their new codes (R42). -/
def newCodes (aff : List (LevelRef × Nat)) (mode : RecallMode) (lv : Levels) : List (LevelRef × Nat) :=
  aff.map (fun e => (e.1, recallCode mode (lv.get e.1).code e.2))

@[simp] theorem map_fst_newCodes (aff : List (LevelRef × Nat)) (mode : RecallMode) (lv : Levels) :
    (newCodes aff mode lv).map Prod.fst = aff.map Prod.fst := by
  simp [newCodes, Function.comp_def]

/-- In REPLACE the new codes are the codes given: a restore is a recall of its latch (R45). -/
@[simp] theorem newCodes_replace (aff : List (LevelRef × Nat)) (lv : Levels) : newCodes aff .replace lv = aff := by
  simp [newCodes, recallCode]

theorem mem_newCodes {aff : List (LevelRef × Nat)} {ref : LevelRef} {code : Nat} (h : (ref, code) ∈ aff)
    (mode : RecallMode) (lv : Levels) : (ref, recallCode mode (lv.get ref).code code) ∈ newCodes aff mode lv :=
  List.mem_map.2 ⟨_, h, rfl⟩

theorem mem_neededWrites {lv : Levels} {new : List (LevelRef × Nat)} {e : LevelRef × Nat} :
    e ∈ neededWrites lv new ↔ e ∈ new ∧ (lv.get e.1).code ≠ e.2 := by
  simp [neededWrites]

/-- The levels written are among those given, in their order. -/
theorem map_fst_neededWrites_sublist (lv : Levels) (new : List (LevelRef × Nat)) :
    ((neededWrites lv new).map Prod.fst).Sublist (new.map Prod.fst) := List.filter_sublist.map Prod.fst

/-- The number of writes is that of the levels whose code changes (R46). -/
theorem length_neededWrites_newCodes (aff : List (LevelRef × Nat)) (mode : RecallMode) (lv : Levels) :
    (neededWrites lv (newCodes aff mode lv)).length = recallWrites aff mode lv := by
  simp [neededWrites, newCodes, recallWrites, List.filter_map, Function.comp_def, eq_comm]

/-- The writes needed for new codes reach each level given, once, where its code changes. -/
theorem writeAll_neededWrites_get? {ms : Nat} {new : List (LevelRef × Nat)} {ref : LevelRef} {code : Nat} {l : Level}
    {r : Run} (hd : (new.map Prod.fst).Nodup) (h : (ref, code) ∈ new) (hl : r.lv.get? ref = some l) :
    (writeAll ms (neededWrites r.lv new) r).lv.get? ref = some (if code = l.code then l else l.write code ms) := by
  have hget : r.lv.get ref = l := Levels.get_of_get? hl
  split
  · rename_i hsame
    have hnone : ref ∉ (neededWrites r.lv new).map Prod.fst := by
      intro hmem
      obtain ⟨⟨ref', code'⟩, hw, rfl⟩ := List.mem_map.1 hmem
      obtain ⟨hnew, hdiff⟩ := mem_neededWrites.1 hw
      have heq : (ref', code') = (ref', code) := List.inj_on_of_nodup_map hd hnew h rfl
      cases heq
      exact hdiff (by rw [hget, hsame])
    rw [writeAll_get?_of_notMem r hnone, hl]
  · rename_i hdiff
    have hw : (ref, code) ∈ neededWrites r.lv new := mem_neededWrites.2 ⟨h, by rw [hget]; exact Ne.symm hdiff⟩
    rw [writeAll_get?_of_mem r (hd.sublist (map_fst_neededWrites_sublist _ _)) hw, hl]
    rfl

/-- The writes needed leave every level not given. -/
theorem writeAll_neededWrites_get?_of_notMem {ms : Nat} {new : List (LevelRef × Nat)} {ref : LevelRef} (r : Run)
    (h : ref ∉ new.map Prod.fst) : (writeAll ms (neededWrites r.lv new) r).lv.get? ref = r.lv.get? ref :=
  writeAll_get?_of_notMem r (fun hw => h ((map_fst_neededWrites_sublist _ _).subset hw))

/-- The levels after the writes a recall of these levels needs (R43). -/
def levelsAfter (aff : List (LevelRef × Nat)) (mode : RecallMode) (ms : Nat) (r : Run) : Levels :=
  (writeAll ms (neededWrites r.lv (newCodes aff mode r.lv)) r).lv

theorem levelsAfter_get?_of_notMem {aff : List (LevelRef × Nat)} {ref : LevelRef} (mode : RecallMode) (ms : Nat)
    (r : Run) (h : ref ∉ aff.map Prod.fst) : (levelsAfter aff mode ms r).get? ref = r.lv.get? ref :=
  writeAll_neededWrites_get?_of_notMem r (by rwa [map_fst_newCodes])

/-- The writes of a recall take the levels where R43 asks. -/
theorem recallsTo_levelsAfter {aff : List (LevelRef × Nat)} (mode : RecallMode) (ms : Nat) (r : Run)
    (hd : (aff.map Prod.fst).Nodup) : recallsTo aff mode ms r.lv (levelsAfter aff mode ms r) := by
  refine ⟨fun ref h => levelsAfter_get?_of_notMem mode ms r h, fun ref code h => ?_⟩
  cases hl : r.lv.get? ref with
  | none => exact writeAll_get?_none _ hl
  | some l =>
    have hmem := mem_newCodes h mode r.lv
    rw [Levels.get_of_get? hl] at hmem
    exact writeAll_neededWrites_get? (by rwa [map_fst_newCodes]) hmem hl

/-- After a recall in REPLACE each level the store holds has the code given (R42). -/
theorem code_of_recallsTo_replace {aff : List (LevelRef × Nat)} {ms : Nat} {lv lv' : Levels} {ref : LevelRef}
    {code : Nat} (h : recallsTo aff .replace ms lv lv') (hmem : (ref, code) ∈ aff) (hl : lv.get? ref ≠ none) :
    (lv'.get ref).code = code := by
  obtain ⟨l, hl⟩ := Option.ne_none_iff_exists'.1 hl
  obtain ⟨-, hgiven⟩ := h
  have hget := hgiven ref code hmem
  rw [hl, Option.map_some] at hget
  rw [Levels.get_of_get? hget]
  split
  · rename_i hsame
    exact hsame.symm
  · exact Level.write_code l code ms

/-! ### The affected levels (R39, R40) -/

theorem members_nodup {w : Nat} (n : Nat) (s : BitVec w) : (members n s).Nodup := List.nodup_range.filter _

theorem map_fst_zip_sublist {α β : Type} (l : List α) (l' : List β) : ((l.zip l').map Prod.fst).Sublist l := by
  rw [List.zip_eq_zip_take_min, List.map_fst_zip (by simp)]
  exact List.take_sublist _ _

/-- The crosspoints of a scene are apart: by their mixes, and within a mix by their inputs. -/
theorem crosspoints_nodup {mixes inputs : List Nat} (hm : mixes.Nodup) (hi : inputs.Nodup) :
    (mixes.flatMap (fun m => inputs.map (fun i => LevelRef.crosspoint i m))).Nodup := by
  refine List.nodup_flatMap.2 ⟨fun m _ => hi.map (fun i i' h => (LevelRef.crosspoint.inj h).1), ?_⟩
  refine hm.imp (fun {m m'} hne ref h h' => ?_)
  obtain ⟨i, -, rfl⟩ := List.mem_map.1 h
  obtain ⟨i', -, he⟩ := List.mem_map.1 h'
  exact hne (LevelRef.crosspoint.inj he).2.symm

/-- A scene names no level twice. -/
theorem sceneLevels_nodup (sc : Scene) : ((sceneLevels sc).map Prod.fst).Nodup := by
  refine List.Nodup.sublist (map_fst_zip_sublist _ _) (List.Nodup.append
    (crosspoints_nodup (members_nodup 24 sc.mixes) (members_nodup 40 sc.inputs))
    ((members_nodup 24 sc.masters).map (fun m m' h => LevelRef.master.inj h)) (fun ref hcross hmaster => ?_))
  obtain ⟨m, -, rfl⟩ := List.mem_map.1 hmaster
  simp at hcross

/-- A recall affects no level twice. -/
theorem affected_nodup (sc : Scene) (mask : BitVec 24) : ((affected sc mask).map Prod.fst).Nodup :=
  (sceneLevels_nodup sc).sublist (List.filter_sublist.map Prod.fst)

/-! ### What a recall and a restore do to the run (R41, R43, R45) -/

/-- The codes a recall latches: those its levels have (R41). -/
def latchOf (aff : List (LevelRef × Nat)) (lv : Levels) : List (LevelRef × Nat) :=
  aff.map (fun e => (e.1, (lv.get e.1).code))

theorem recallScene_of_unaffected {t : Tables} {n : Nat} {mask : BitVec 24}
    (h : affected (t.scenes.getD n Scene.empty) mask = []) (mode : RecallMode) (ms : Nat) (r : Run) :
    recallScene t n mode mask ms r = { run := r, entries := 0, writes := 0 } := by
  simp only [recallScene, h, List.isEmpty_nil, if_true]

theorem recallScene_of_affected {t : Tables} {n : Nat} {mask : BitVec 24} {aff : List (LevelRef × Nat)}
    (ha : affected (t.scenes.getD n Scene.empty) mask = aff) (h : aff ≠ []) (mode : RecallMode) (ms : Nat) (r : Run) :
    recallScene t n mode mask ms r = {
      run := { r with latch := latchOf aff r.lv, lv := levelsAfter aff mode ms r }
      entries := aff.length
      writes := recallWrites aff mode r.lv } := by
  simp only [recallScene, ha, List.isEmpty_eq_false_iff.2 h, Bool.false_eq_true, if_false, writeAll_withLatch]
  rw [writeAll_eq_withLevels, ← length_neededWrites_newCodes]
  rfl

/-- A restore writes as a recall of the latch in REPLACE does (R45). -/
theorem restoreLatch_eq (ms : Nat) (r : Run) : restoreLatch ms r = {
      run := { r with latch := [], lv := levelsAfter r.latch .replace ms r }
      entries := r.latch.length
      writes := recallWrites r.latch .replace r.lv } := by
  rw [restoreLatch, writeAll_withLatch, writeAll_eq_withLevels, ← length_neededWrites_newCodes, levelsAfter,
    newCodes_replace]

/-! ### The owners -/

/-- The reply of a recall with no affected level: two zeros (R40, R46). -/
theorem recalledBytes_unaffected (r : Run) : recalledBytes { run := r, entries := 0, writes := 0 } = [0, 0, 0, 0] := by
  simp [recalledBytes, le16, byte]

theorem ownRecall_taken {b : List Byte} {mode : RecallMode} (hn : u8 b 0 < 32)
    (hm : recallModeOf (u8 b 1) = some mode) (p : Part) {x : Recalled}
    (hx : recallScene p.tables (u8 b 0) mode (BitVec.ofNat 24 (u24 b 4)) (u16 b 2) p.toRun = x) :
    ownRecall b p = okWith (recalledBytes x) { p with toRun := x.run } := by
  subst hx
  simp only [ownRecall, hm, if_pos hn]
  rfl

theorem ownRecall_refused {b : List Byte} (h : 32 ≤ u8 b 0 ∨ 4 ≤ u8 b 1) (p : Part) :
    ownRecall b p = refuse .badField p := by
  unfold ownRecall
  split
  · rename_i mode hmode
    have hvalid : ¬ 4 ≤ u8 b 1 := fun h4 => by rw [(recallModeOf_none_iff _).2 h4] at hmode; cases hmode
    exact if_neg (by omega)
  · rfl

theorem ownRestore_refused {p : Part} (h : p.latch = []) (b : List Byte) : ownRestore b p = refuse .notFound p := by
  simp [ownRestore, h]

theorem ownRestore_taken {p : Part} (h : p.latch ≠ []) (b : List Byte) :
    ownRestore b p = okWith (recalledBytes (restoreLatch (u16 b 0) p.toRun))
      { p with toRun := (restoreLatch (u16 b 0) p.toRun).run } := by
  simp only [ownRestore, List.isEmpty_eq_false_iff.2 h, Bool.false_eq_true, if_false]
  rfl

theorem ownLoadScene_badField {b : List Byte} (h : 32 ≤ u8 b 0 ∨ (sceneOf b).masters &&& ~~~(sceneOf b).mixes ≠ 0)
    (p : Part) : ownLoadScene b p = refuse .badField p := if_pos h

theorem ownLoadScene_checked {b : List Byte} (hn : u8 b 0 < 32)
    (hs : (sceneOf b).masters &&& ~~~(sceneOf b).mixes = 0) (p : Part) :
    ownLoadScene b p = if (sceneOf b).codes.length ≠ sceneCodeCount (sceneOf b) then refuse .badLength p
      else okWith [] (p.withTables { p.tables with scenes := p.tables.scenes.set (u8 b 0) (sceneOf b) }) :=
  if_neg (fun h => h.elim (fun hge => by omega) (fun hne => hne hs))

/-! ### The statements -/

/-- Settles O28: each mode by its row of Table 3-1; only TRIM computes. -/
theorem recallModesGiveTheNewCode : Obligations.RecallModesGiveTheNewCode := by
  unfold Obligations.RecallModesGiveTheNewCode
  intro c s hc hs
  have htrim (s : Nat) (h : c ≠ 0) : recallCode .trim c s = max 1 (min 255 (c + s - 231)) := if_neg h
  refine ⟨rfl, rfl, rfl, rfl, fun h => ?_, ?_, fun h => ?_⟩
  · rw [htrim s h]
    split_ifs <;> omega
  · by_cases h : c = 0
    · subst h
      rfl
    · rw [htrim 231 h]
      omega
  · rw [htrim 0 h]
    omega

/-- Settles O29: the owner's two checks in order, then its one change; the sets count their members. -/
theorem loadSceneReplacesTheScene : Obligations.LoadSceneReplacesTheScene := by
  unfold Obligations.LoadSceneReplacesTheScene
  refine ⟨fun m s ha => ⟨fun h => ?_, fun hn hs => ⟨fun hlen => ?_, fun hlen => ?_⟩⟩, fun _ => rfl, fun sc => ?_⟩
  · exact congrArg Host.Outcome.next (request_refused ha (ownLoadScene_badField h _))
  · exact congrArg Host.Outcome.next (request_refused ha ((ownLoadScene_checked hn hs _).trans (if_pos hlen)))
  · exact congrArg Host.Outcome.next
      (request_now ha ((ownLoadScene_checked hn hs _).trans (if_neg (not_not_intro hlen))) rfl)
  · simp only [sceneCodeCount, members, List.countP_eq_length_filter]

/-- RECALL with a scene and a mode of the part, and no affected level (R40). -/
theorem request_recall_of_unaffected {m : Msg} {s : State} {mode : RecallMode} (ha : accepts s .recall m)
    (hn : u8 m.payload 0 < 32) (hm : recallModeOf (u8 m.payload 1) = some mode)
    (h : affected (s.tables.scenes.getD (u8 m.payload 0) Scene.empty) (BitVec.ofNat 24 (u24 m.payload 4)) = []) :
    s.request .recall ownRecall m = s.reply .recall m .ok [0, 0, 0, 0] := by
  have htaken := ownRecall_taken hn hm (holdPlace ReqKind.recall.code m s.toPart)
    (recallScene_of_unaffected h mode _ _)
  rw [recalledBytes_unaffected] at htaken
  exact (request_now ha htaken rfl).trans rfl

/-- RECALL with a scene and a mode of the part, and affected levels (R41, R43, R46). -/
theorem request_recall_of_affected {m : Msg} {s : State} {mode : RecallMode} {aff : List (LevelRef × Nat)}
    (ha : accepts s .recall m) (hn : u8 m.payload 0 < 32) (hm : recallModeOf (u8 m.payload 1) = some mode)
    (h : affected (s.tables.scenes.getD (u8 m.payload 0) Scene.empty) (BitVec.ofNat 24 (u24 m.payload 4)) = aff)
    (hne : aff ≠ []) :
    s.request .recall ownRecall m
      = { s.reply .recall m .ok (le16 aff.length ++ le16 (recallWrites aff mode s.lv)) with
          latch := latchOf aff s.lv
          lv := levelsAfter aff mode (u16 m.payload 2) (holdPlace ReqKind.recall.code m s.toPart).toRun } :=
  request_now ha (ownRecall_taken hn hm _ (recallScene_of_affected h hne mode _ _)) rfl

/-- Settles O30: the owner writes what R43 asks of the affected levels, none of them twice. -/
theorem recallLatchesAndWrites : Obligations.RecallLatchesAndWrites := by
  unfold Obligations.RecallLatchesAndWrites
  refine ⟨fun m s mode ha hn hm => ⟨fun h => ?_, fun h => ⟨_, ?_, recallsTo_levelsAfter mode _
    (holdPlace ReqKind.recall.code m s.toPart).toRun (affected_nodup _ _), affected_nodup _ _⟩⟩,
    fun m s ha h => ?_, fun sc mask => ?_⟩
  · exact congrArg Host.Outcome.next (request_recall_of_unaffected ha hn hm h)
  · exact congrArg Host.Outcome.next (request_recall_of_affected ha hn hm rfl h)
  · exact congrArg Host.Outcome.next (request_refused ha (ownRecall_refused h _))
  · refine congrArg (fun keep => (sceneLevels sc).filter keep) (funext fun e => ?_)
    cases e.1 <;> rfl

/-- Settles O31: RESTORE is a recall of the latch in REPLACE, and empties it. -/
theorem restoreBringsBackTheLatchedCodes : Obligations.RestoreBringsBackTheLatchedCodes := by
  unfold Obligations.RestoreBringsBackTheLatchedCodes
  intro m s ha
  refine ⟨fun h => ?_, fun h => ⟨levelsAfter s.latch .replace (u16 m.payload 0)
    (holdPlace ReqKind.restore.code m s.toPart).toRun, ?_, fun ref href => ?_, fun hd => ?_⟩⟩
  · exact congrArg Host.Outcome.next (request_refused ha (ownRestore_refused (p := holdPlace _ m s.toPart) h _))
  · have htaken := ownRestore_taken (p := holdPlace ReqKind.restore.code m s.toPart) h m.payload
    rw [restoreLatch_eq] at htaken
    exact congrArg Host.Outcome.next (request_now ha htaken rfl)
  · exact levelsAfter_get?_of_notMem _ _ _ href
  · have hto := recallsTo_levelsAfter .replace (u16 m.payload 0)
      (holdPlace ReqKind.restore.code m s.toPart).toRun hd
    exact ⟨hto, fun ref code hmem hl => code_of_recallsTo_replace hto hmem hl⟩

end Sys2Proof.Machine

/-! PROOF. LOAD_SEGMENT (R86): its owner reads the record of the payload, refuses it where a field or its place on the
device is out of range or a voice uses the segment, and else takes it. -/

namespace Sys2Proof.Machine

open Sys2Proof

/-- The record that the payload of a LOAD_SEGMENT gives (R86, Table 13-7). -/
def segmentPayload (p : List Byte) : Segment :=
  { device := u8 p 2, addr := u32 p 3, len := u24 p 7, format := if u8 p 10 = 0 then .s16 else .s24
    loops := u8 p 11, next := if u16 p 12 = 65535 then none else some (u16 p 12) }

theorem segmentOf_payload {p : List Byte} (h : segmentFieldsOk p) : segmentOf p = some (segmentPayload p) :=
  segmentOf_taken h

/-- The payload's record lies inside its device, outside the image area (R86). -/
theorem segmentFits_payload_iff (profiles : List Profile) (p : List Byte) :
    segmentFits profiles (segmentPayload p) = true ↔
      (∃ pr, profiles[u8 p 2]? = some pr ∧ u32 p 3 + u24 p 7 * (if u8 p 10 = 0 then 2 else 3) ≤ pr.size)
      ∧ (u8 p 2 = 0 → 1048576 ≤ u32 p 3) := by
  have hsize : (if (segmentPayload p).format = .s16 then 2 else 3) = if u8 p 10 = 0 then 2 else 3 := by
    by_cases h : u8 p 10 = 0 <;> simp [segmentPayload, h]
  rw [segmentFits_iff, hsize]
  rfl

theorem ownLoadSegment_unread {b : List Byte} (h : segmentOf b = none) (p : Part) :
    ownLoadSegment b p = refuse .badField p := by
  simp [ownLoadSegment, h]

theorem ownLoadSegment_misplaced {b : List Byte} {p : Part} {sg : Segment} (hsg : segmentOf b = some sg)
    (h : ¬ (u16 b 0 < 1024 ∧ segmentFits p.tables.profiles sg = true)) : ownLoadSegment b p = refuse .badField p := by
  have hbad : 1024 ≤ u16 b 0 ∨ segmentFits p.tables.profiles sg = false := by
    rw [not_and_or, Nat.not_lt, Bool.not_eq_true] at h
    exact h
  simp only [ownLoadSegment, hsg, if_pos hbad]

theorem ownLoadSegment_placed {b : List Byte} {p : Part} {sg : Segment} (hsg : segmentOf b = some sg)
    (hn : u16 b 0 < 1024) (hfit : segmentFits p.tables.profiles sg = true) :
    ownLoadSegment b p = if segmentInUse p.toRun (u16 b 0) then refuse .busy p
      else okWith [] (p.withTables { p.tables with segments := p.tables.segments.set (u16 b 0) (some sg) }) := by
  have hgood : ¬ (1024 ≤ u16 b 0 ∨ segmentFits p.tables.profiles sg = false) := by simp [hfit, hn]
  simp only [ownLoadSegment, hsg, if_neg hgood]

/-- Settles O39: the owner's checks in order, each exactly as R86 words it. -/
theorem loadSegmentTakesTheRecord : Obligations.LoadSegmentTakesTheRecord := by
  unfold Obligations.LoadSegmentTakesTheRecord
  intro m s ha b n addr len next ok inUse
  have hok : ok ↔ segmentFieldsOk m.payload ∧ n < 1024
      ∧ segmentFits s.tables.profiles (segmentPayload m.payload) = true := by
    rw [segmentFits_payload_iff]
    unfold segmentFieldsOk
    tauto
  have hplaced : ok → ownLoadSegment m.payload (holdPlace ReqKind.loadSegment.code m s.toPart) = _ := fun hgood =>
    have ⟨hf, hn, hfit⟩ := hok.1 hgood
    ownLoadSegment_placed (segmentOf_payload hf) hn hfit
  refine ⟨fun hbad => ?_, fun hgood huse => ?_, fun hgood huse => ?_⟩
  · refine congrArg Host.Outcome.next (request_refused ha ?_)
    by_cases hf : segmentFieldsOk m.payload
    · exact ownLoadSegment_misplaced (segmentOf_payload hf) (fun h => hbad (hok.2 ⟨hf, h⟩))
    · exact ownLoadSegment_unread (segmentOf_refused hf) _
  · have hbusy := (hplaced hgood).trans (if_pos ((segmentInUse_iff _ _).2 huse))
    exact congrArg Host.Outcome.next (request_refused ha hbusy)
  · have htaken := (hplaced hgood).trans (if_neg (fun h => huse ((segmentInUse_iff _ _).1 h)))
    exact congrArg Host.Outcome.next (request_now ha htaken rfl)

end Sys2Proof.Machine

/-! PROOF. What the end of a flash transfer leaves (chapter 7.3): the sound side of the part, an operation whose step
is not due, and the record of a voice that another one leaves behind as it goes IDLE. -/

namespace Sys2Proof.Machine

open Sys2Proof

/-! ### The sound side stands -/

/-- What the flash controller leaves as it stands, whatever becomes of its devices, its operation and the replies. -/
structure SoundFrame (r r' : Run) : Prop where
  crosspoints : r'.lv.crosspoints = r.lv.crosspoints
  masters     : r'.lv.masters = r.lv.masters
  trims       : r'.lv.trims = r.lv.trims
  programmes  : r'.lv.programmes = r.lv.programmes
  mix         : r'.mix = r.mix
  latch       : r'.latch = r.latch
  cue         : r'.cue = r.cue
  waits       : r'.waits = r.waits
  shw         : r'.shw = r.shw
  stage       : r'.stage = r.stage
  port        : r'.port = r.port
  taking      : r'.ctl.taking = r.ctl.taking
  restartDue  : r'.ctl.restartDue = r.ctl.restartDue
  reports     : r.ctl.reports <+: r'.ctl.reports

theorem SoundFrame.trans {a b c : Run} (h : SoundFrame a b) (k : SoundFrame b c) : SoundFrame a c :=
  ⟨k.crosspoints.trans h.crosspoints, k.masters.trans h.masters, k.trims.trans h.trims,
   k.programmes.trans h.programmes, k.mix.trans h.mix, k.latch.trans h.latch, k.cue.trans h.cue,
   k.waits.trans h.waits, k.shw.trans h.shw, k.stage.trans h.stage, k.port.trans h.port, k.taking.trans h.taking,
   k.restartDue.trans h.restartDue, h.reports.trans k.reports⟩

/-- What leaves everything but the fetch side leaves the sound side. -/
theorem Frame.sound {r r' : Run} (h : Frame r r') : SoundFrame r r' :=
  ⟨h.crosspoints, h.masters, h.trims, h.programmes, h.mix, h.latch, h.cue, h.waits, h.shw, h.stage, h.port,
   h.ctl.taking, h.ctl.restartDue, h.ctl.reports⟩

theorem SoundFrame.withFlash (r : Run) (fl : FlashRt) : SoundFrame r { r with flash := fl } :=
  ⟨rfl, rfl, rfl, rfl, rfl, rfl, rfl, rfl, rfl, rfl, rfl, rfl, rfl, List.prefix_refl _⟩

theorem soundKept_of_soundFrame {s t : State} (h : SoundFrame s.toRun t.toRun) (k : storesKept s t) : soundKept s t :=
  ⟨h.crosspoints, h.masters, h.trims, h.programmes, h.mix, h.latch, h.cue, h.waits, h.shw, by rw [h.stage], h.port,
   h.taking, h.restartDue, h.reports, k⟩

/-! ### The answer of an operation that ends (R119, R191) -/

theorem deliver_answered {o : Op} (hs : o.kind ≠ .settle) (hi : o.kind ≠ .imageLoad) (st : Status) (data : List Byte)
    (r : Run) : deliver o st data r = { r with ctl := { r.ctl with places := fillPlace (st, data) r.ctl.places } } :=
  if_neg (fun h => h.elim hs hi)

/-- An answer is formed in its place, and nothing else changes. -/
theorem deliver_eq (o : Op) (st : Status) (data : List Byte) (r : Run) :
    deliver o st data r = { r with ctl := { r.ctl with places := (deliver o st data r).ctl.places } } := by
  unfold deliver
  split <;> rfl

@[simp] theorem deliver_flash (o : Op) (st : Status) (data : List Byte) (r : Run) :
    (deliver o st data r).flash = r.flash := by rw [deliver_eq]
@[simp] theorem deliver_voices (o : Op) (st : Status) (data : List Byte) (r : Run) :
    (deliver o st data r).voices = r.voices := by rw [deliver_eq]
@[simp] theorem deliver_port (o : Op) (st : Status) (data : List Byte) (r : Run) :
    (deliver o st data r).port = r.port := by rw [deliver_eq]
@[simp] theorem deliver_reports (o : Op) (st : Status) (data : List Byte) (r : Run) :
    (deliver o st data r).ctl.reports = r.ctl.reports := by rw [deliver_eq]

theorem SoundFrame.deliver (o : Op) (st : Status) (data : List Byte) (r : Run) :
    SoundFrame r (deliver o st data r) := by
  rw [deliver_eq]
  exact ⟨rfl, rfl, rfl, rfl, rfl, rfl, rfl, rfl, rfl, rfl, rfl, rfl, rfl, List.prefix_refl _⟩

/-- The first place that waits is filled, and no place before it (R191). -/
theorem fillPlace_formed (a : Status × List Byte) {before : List Place} (h : ∀ x, x ∈ before → x.answer ≠ none) :
    fillPlace a before = before := by
  induction before with
  | nil => rfl
  | cons x l ih =>
    have hx : x.answer.isNone = false := by simpa [Option.isSome_iff_ne_none] using h x List.mem_cons_self
    simp [fillPlace, hx, ih (fun y hy => h y (List.mem_cons_of_mem _ hy))]

theorem fillPlace_waiting (a : Status × List Byte) {before : List Place} (rest : List Place) {p : Place}
    (h : ∀ x, x ∈ before → x.answer ≠ none) (hp : p.answer = none) :
    fillPlace a (before ++ p :: rest) = before ++ { p with answer := some a } :: rest := by
  induction before with
  | nil => simp [fillPlace, hp]
  | cons x l ih =>
    have hx : x.answer.isNone = false := by simpa [Option.isSome_iff_ne_none] using h x List.mem_cons_self
    simp [fillPlace, hx, ih (fun y hy => h y (List.mem_cons_of_mem _ hy))]

/-! ### The pump leaves an operation whose step is not due -/

/-- The arbiter leaves an operation whose step is not due (R117). -/
theorem arbiterStart_op_of_not_due {t : Tables} {r r' : Run} (e : arbiterStart t r = some r')
    (h : ∀ o k, r.flash.op = some o → o.step ≠ .due k) : r'.flash.op = r.flash.op := by
  unfold arbiterStart at e
  split at e
  · cases e
  · split at e
    · rename_i o x hd
      have ho := dueStep_op hd
      unfold dueStep at hd
      rw [ho] at hd
      split at hd
      · rename_i o' k hk
        split at hd
        · exact absurd ‹_› (h _ _ (ho.trans hk))
        · cases hd
      · cases hd
    · split at e
      · cases e; rfl
      · cases e

theorem pumpLoop_op_of_not_due (t : Tables) (n : Nat) : ∀ r : Run, (∀ o k, r.flash.op = some o → o.step ≠ .due k) →
    (pumpLoop t n r).flash.op = r.flash.op := by
  induction n with
  | zero => exact fun r _ => rfl
  | succ n ih =>
    intro r h
    unfold pumpLoop
    split
    · rename_i r' e
      have hop : r'.flash.op = r.flash.op :=
        (pumpOnce_held e).elim (fun k => k.op) (fun k => arbiterStart_op_of_not_due k h)
      exact (ih r' (fun o k ho => h o k (hop ▸ ho))).trans hop
    · rfl

/-- The pump leaves an operation whose step is not due (R117). -/
theorem pump_op_of_not_due {t : Tables} {r : Run} (h : ∀ o k, r.flash.op = some o → o.step ≠ .due k) :
    (pump t r).flash.op = r.flash.op := pumpLoop_op_of_not_due t 64 r h

theorem pump_op_none {t : Tables} {r : Run} (h : r.flash.op = none) : (pump t r).flash.op = none :=
  (pump_op_of_not_due (fun o k ho => by rw [h] at ho; cases ho)).trans h

/-- An operation that ends with OK, and the refills that follow (R119): its reply is formed, and only the operation
and the fetch side change. -/
theorem pump_deliver (t : Tables) (o : Op) (data : List Byte) (r : Run) :
    let r' := pump t (deliver o .ok data (endOp r))
    r'.flash.op = none ∧ r'.flash.devs = r.flash.devs ∧ SoundFrame r r'
    ∧ (o.kind ≠ .settle → o.kind ≠ .imageLoad → r'.ctl.places = fillPlace (.ok, data) r.ctl.places) := by
  intro r'
  have hpump : Frame (deliver o .ok data (endOp r)) r' := Frame.pump t _
  refine ⟨pump_op_none (by rw [deliver_flash]; rfl), ?_, ?_, fun hs hi => ?_⟩
  · rw [hpump.devs, deliver_flash]
    rfl
  · exact ((SoundFrame.withFlash r _).trans (SoundFrame.deliver o .ok data (endOp r))).trans hpump.sound
  · rw [hpump.ctl.places, deliver_answered hs hi]
    rfl

/-! ### What a voice that goes IDLE leaves of the others -/

theorem Run.voice_onVoice_of_ne (r : Run) {u v : Nat} (h : u ≠ v) (f : Voice → Voice) :
    (r.onVoice v f).voice u = r.voice u := by
  simp [Run.voice, List.getD_eq_getElem?_getD, Ne.symm h]

/-- A voice that is not IDLE is one the bank has. -/
theorem Run.voice_lt {r : Run} {v : Nat} (h : (r.voice v).state ≠ .idle) : v < r.voices.length := by
  by_contra k
  exact h (by rw [Run.voice, List.getD_eq_default _ _ (by omega)]; rfl)

theorem report_voice (t : Tables) (b : ReportBody) (r : Run) (u : Nat) : (r.report t b).voice u = r.voice u := by
  rw [Run.voice, report_voices, Run.voice]

/-- A voice's record but for its binding to a page source, and for what the check of its group may make of it
(R95, R140). -/
def Voice.Regrouped (x y : Voice) : Prop :=
  y.unbound = x.unbound ∨ x.tag ≠ none ∧ y.unbound = { x.unbound with state := .playing, tag := none }

theorem Voice.Regrouped.refl (x : Voice) : x.Regrouped x := .inl rfl

theorem Voice.Regrouped.of_eq {x y : Voice} (h : y = x) : x.Regrouped y := .inl (by rw [h])

theorem Voice.unbound_tag (x : Voice) : x.unbound.tag = x.tag := rfl

theorem Voice.Regrouped.trans {x y z : Voice} (h : x.Regrouped y) (k : y.Regrouped z) : x.Regrouped z := by
  rcases h with h | ⟨hx, h⟩ <;> rcases k with k | ⟨hy, k⟩
  · exact .inl (k.trans h)
  · exact .inr ⟨by rwa [← x.unbound_tag, ← h], by rw [k, h]⟩
  · exact .inr ⟨hx, k.trans h⟩
  · exact absurd (by rw [← y.unbound_tag, h]) hy

/-- What a voice holds, and who started it, stand. -/
theorem Voice.Regrouped.holds {x y : Voice} (h : x.Regrouped y) :
    y.buffer = x.buffer ∧ y.cursor = x.cursor ∧ y.startId = x.startId := by
  rcases h with h | ⟨-, h⟩ <;> exact ⟨(congrArg Voice.buffer h :), (congrArg Voice.cursor h :), (congrArg Voice.startId h :)⟩

/-- A voice's state stands, or its group made it PLAYING. -/
theorem Voice.Regrouped.state {x y : Voice} (h : x.Regrouped y) : y.state = x.state ∨ y.state = .playing := by
  rcases h with h | ⟨-, h⟩
  · exact .inl (congrArg Voice.state h :)
  · exact .inr (congrArg Voice.state h :)

/-- A voice in no group keeps its state and stays in none. -/
theorem Voice.Regrouped.untagged {x y : Voice} (h : x.Regrouped y) (hx : x.tag = none) :
    y.state = x.state ∧ y.tag = none := by
  rcases h with h | ⟨k, -⟩
  · exact ⟨(congrArg Voice.state h :), (congrArg Voice.tag h :).trans hx⟩
  · exact absurd hx k

theorem leaveGroup_regroups (g : Option Nat) (r : Run) (u : Nat) :
    (r.voice u).Regrouped ((leaveGroup g r).voice u) := by
  cases g with
  | none => exact .refl _
  | some g =>
    rcases syncCheck_voice g r u with e | ⟨ht, e⟩
    · exact .of_eq e
    · exact .inr ⟨by rw [ht]; simp, congrArg Voice.unbound e⟩

/-- A voice that goes IDLE leaves another's record but for its binding and its group's check (R95, R103, R144). -/
theorem goIdle_regroups (t : Tables) {u v : Nat} (why : VReason) (r : Run) (h : u ≠ v) :
    (r.voice u).Regrouped ((goIdle t v why r).voice u) := by
  have hwithdrawn : ((withdrawFetches v r).onVoice v Voice.toIdle).voice u = r.voice u :=
    (Run.voice_onVoice_of_ne _ h _).trans (Run.voice_onVoice_of_ne _ h _)
  have htold : (r.voice u).Regrouped ((pageVoiceIdle t v (r.voice v).bound (leaveGroup (r.voice v).tag
      ((withdrawFetches v r).onVoice v Voice.toIdle))).voice u) :=
    (Voice.Regrouped.of_eq hwithdrawn).trans
      ((leaveGroup_regroups _ _ u).trans (.inl (pageVoiceIdle_unbound t v u _ _)))
  unfold goIdle
  dsimp only
  split
  · exact .refl _
  · split
    · rwa [report_voice]
    · exact htold

/-- A voice that goes IDLE withdraws its fetches, and the fetch side changes no further (R92, R103). -/
theorem goIdle_flash (t : Tables) {v : Nat} (why : VReason) {r : Run} (h : (r.voice v).state ≠ .idle) :
    (goIdle t v why r).flash = (withdrawFetches v r).flash := by
  have htold : (pageVoiceIdle t v (r.voice v).bound (leaveGroup (r.voice v).tag
      ((withdrawFetches v r).onVoice v Voice.toIdle))).flash = (withdrawFetches v r).flash := by
    rw [pageVoiceIdle_flash, leaveGroup_flash, Run.onVoice_flash]
  unfold goIdle
  simp only [if_neg h]
  split
  · rwa [report_flash]
  · exact htold

/-- A voice that goes IDLE is IDLE and in no group (R103). -/
theorem goIdle_idle (t : Tables) {v : Nat} (why : VReason) {r : Run} (h : (r.voice v).state ≠ .idle) :
    ((goIdle t v why r).voice v).state = .idle ∧ ((goIdle t v why r).voice v).tag = none :=
  have hvoice := goIdle_voice t v why r h
  ⟨congrArg Voice.state hvoice, congrArg Voice.tag hvoice⟩

end Sys2Proof.Machine

/-! PROOF. What completed transfers deliver (R88 to R95, R98, R113 to R118, R124, R125): the data of a fetch and of a
content read, the reset's two commands, and the refills, each said once of the function that carries it out. -/

namespace Sys2Proof.Machine

open Sys2Proof

/-! ### The samples of a fetch reach their voice (R91) -/

/-- The group's check at a fetch's completion moves other voices as a group does, and leaves what they hold (R95). -/
theorem takeSamples_regroups (t : Tables) {u v : Nat} (samples : List BufSample) (r : Run) (h : u ≠ v) :
    (r.voice u).Regrouped ((takeSamples t v samples r).voice u) := by
  have hready (x : Run) : (readyCheck v x).voice u = x.voice u := by
    unfold readyCheck
    dsimp only
    split
    · exact Run.voice_onVoice_of_ne _ h _
    · rfl
  have hend (x : Run) : (x.voice u).Regrouped ((endCheck t v x).voice u) := by
    unfold endCheck
    dsimp only
    split
    · exact goIdle_regroups t .ended x h
    · exact .refl _
  have htaken := (hready _).trans (Run.voice_onVoice_of_ne r h (fun x => x.addSamples samples))
  exact (Voice.Regrouped.of_eq htaken).trans ((leaveGroup_regroups _ _ u).trans (hend _))

/-- The end condition leaves a voice's buffer: one that ends has nothing buffered (R98). -/
theorem endCheck_buffer (t : Tables) (v : Nat) (r : Run) :
    ((endCheck t v r).voice v).buffer = (r.voice v).buffer := by
  unfold endCheck
  dsimp only
  split
  · rename_i h
    simp only [Bool.and_eq_true, List.isEmpty_iff] at h
    obtain ⟨⟨⟨hheard, -⟩, -⟩, hempty⟩ := h
    have hidle : (r.voice v).state ≠ .idle := fun k => by rw [k] at hheard; cases hheard
    rw [hempty]
    exact (congrArg Voice.buffer (goIdle_voice t v .ended r hidle) :)
  · rfl

/-- The voice holds the samples it was given, but for those it had missed (R91). -/
theorem takeSamples_buffer (t : Tables) {v : Nat} (samples : List BufSample) {r : Run} (hv : v < r.voices.length) :
    ((takeSamples t v samples r).voice v).buffer = ((r.voice v).addSamples samples).buffer := by
  have hadded : (r.onVoice v (fun x => x.addSamples samples)).voice v = (r.voice v).addSamples samples := by
    rw [Run.voice_onVoice _ _ _ _ hv, if_pos rfl]
  have hready : ((readyCheck v (r.onVoice v (fun x => x.addSamples samples))).voice v).buffer
      = ((r.voice v).addSamples samples).buffer := by
    rw [readyCheck_voice v _ (by simpa using hv), hadded]
    split <;> rfl
  exact (endCheck_buffer t v _).trans ((leaveGroup_regroups _ _ v).holds.1.trans hready)

/-- Refills and transfer starts leave every buffer while no device is FAULTED. -/
theorem Quiet.buffer {r r' : Run} (h : Quiet r r') (u : Nat) : (r'.voice u).buffer = (r.voice u).buffer :=
  (congrArg Voice.buffer (h.voices u) :)

theorem noFault_of_devs {r r' : Run} (h : r'.flash.devs = r.flash.devs) (k : noFault r) : noFault r' := fun d => by
  rw [Run.dev, h]
  exact k d

/-- FETCH_COMPLETE before the refills that follow it (R92, R118). -/
def fetchTaken (read : Nat → Nat → Nat → List Byte) (t : Tables) (f : Fetch) (discard : Bool) (r : Run) : Run :=
  if discard then freeBus r
  else takeSamples t f.voice (fetchSamples f (read f.dev f.addr (f.count * sampleSize f.format))) (freeBus r)

theorem fetchDone_eq (read : Nat → Nat → Nat → List Byte) (t : Tables) {r : Run} {f : Fetch} {discard : Bool} {q : BusSeq}
    (h : r.flash.bus = some { kind := .fetch f discard, seq := q }) :
    fetchDone read t r = pump t (fetchTaken read t f discard r) := by
  unfold fetchDone fetchTaken
  rw [h]
  cases discard <;> rfl

theorem Frame.fetchTaken (read : Nat → Nat → Nat → List Byte) (t : Tables) (f : Fetch) (discard : Bool) (r : Run) :
    Frame r (fetchTaken read t f discard r) := by
  have hfree : Frame r (freeBus r) := Frame.queues r r.flash.queue r.flash.line none
  exact Frame.ite (fun _ => hfree) (fun _ => hfree.trans (Frame.takeSamples t f.voice _ _))

/-! ### Refills (R88, R90) -/

theorem leaveSegment_ends {t : Tables} {sg : Segment} (r : Run) (release : Bool)
    (h : sg.next = none ∨ ∃ m, sg.next = some m ∧ segmentRec t m = none) :
    leaveSegment t r sg release = .to none release := by
  rcases h with h | ⟨m, h, hm⟩
  · simp only [leaveSegment, h]
  · simp only [leaveSegment, h, hm]

theorem leaveSegment_enters {t : Tables} {sg next : Segment} {r : Run} {m : Nat} (release : Bool)
    (h : sg.next = some m) (hm : segmentRec t m = some next) (hd : r.dev next.device ≠ .faulted) :
    leaveSegment t r sg release = .to (some { seg := m, pass := 0, off := 0 }) release := by
  simp only [leaveSegment, h, hm, if_neg hd]

theorem leaveSegment_faults {t : Tables} {sg next : Segment} {r : Run} {m : Nat} (release : Bool)
    (h : sg.next = some m) (hm : segmentRec t m = some next) (hd : r.dev next.device = .faulted) :
    leaveSegment t r sg release = .fault := by
  simp only [leaveSegment, h, hm, if_pos hd]

/-- A voice that goes IDLE has no fetch queued (R92). -/
theorem goIdle_queue {t : Tables} {v : Nat} {why : VReason} {r : Run} (h : (r.voice v).state ≠ .idle) {g : Fetch}
    (hg : g ∈ (goIdle t v why r).flash.queue) : g.voice ≠ v := by
  rw [goIdle_flash t why h] at hg
  simpa using (List.mem_filter.1 hg).2

/-- A refill whose cursor would enter a segment on a FAULTED device makes its voice IDLE, with nothing queued (R105). -/
theorem makeRefill_faulted {t : Tables} {v : Nat} {c : Cursor} {sg : Segment} {r : Run}
    (hc : (r.voice v).cursor = some c) (hs : segmentRec t c.seg = some sg)
    (h : advanceCursor t r sg c (min 512 (sg.len - c.off)) (r.voice v).release = .fault)
    (hidle : (r.voice v).state ≠ .idle) :
    ((makeRefill t v r).voice v).state = .idle ∧ ∀ g, g ∈ (makeRefill t v r).flash.queue → g.voice ≠ v := by
  let r1 : Run := { r with flash := { r.flash with queue := r.flash.queue ++ [refillOf v c sg] } }
  have hstate : ((r1.onVoice v (fun x => { x with reserved := x.reserved + min 512 (sg.len - c.off) })).voice v).state
      ≠ .idle := by
    rw [Run.voice_onVoice r1 _ _ _ (Run.voice_lt hidle), if_pos rfl]
    exact hidle
  rw [makeRefill_faults hc hs h]
  exact ⟨(goIdle_idle t _ hstate).1, fun g hg => goIdle_queue hstate hg⟩

/-! ### Content reads and resets (R124 to R126) -/

theorem contentReadDone_live (read : Nat → Nat → Nat → List Byte) (t : Tables) {r : Run} {d a n : Nat} {q : BusSeq} {o : Op}
    (hb : r.flash.bus = some { kind := .contentRead d a n true, seq := q }) (ho : r.flash.op = some o) :
    contentReadDone read t r = pump t (deliver o .ok (o.reply ++ read d a n) (endOp (freeBus r))) := by
  simp only [contentReadDone, hb, ho]

theorem contentReadDone_abandoned (read : Nat → Nat → Nat → List Byte) (t : Tables) {r : Run} {d a n : Nat} {q : BusSeq}
    (hb : r.flash.bus = some { kind := .contentRead d a n false, seq := q }) :
    contentReadDone read t r = pump t (freeBus r) := by
  simp only [contentReadDone, hb]

theorem resetDone_second (t : Tables) {r : Run} {d : Nat} {q : BusSeq} {o : Op}
    (hb : r.flash.bus = some { kind := .reset d true true, seq := q }) (ho : r.flash.op = some o) :
    resetDone t r = pump t (deliver o .ok o.reply (endOp ((freeBus r).setDev d .ready))) := by
  simp only [resetDone, hb, ho, if_true]

theorem resetDone_first (t : Tables) {r : Run} {d : Nat} {q : BusSeq} {o : Op}
    (hb : r.flash.bus = some { kind := .reset d false true, seq := q }) (ho : r.flash.op = some o) :
    resetDone t r = pump t (setStep (.due .reset2) (freeBus r)) := by
  simp only [resetDone, hb, ho, Bool.false_eq_true, if_false]

theorem resetDone_abandoned (t : Tables) {r : Run} {d : Nat} {second : Bool} {q : BusSeq}
    (hb : r.flash.bus = some { kind := .reset d second false, seq := q }) : resetDone t r = pump t (freeBus r) := by
  simp only [resetDone, hb]

/-- A transfer that was abandoned delivers nothing: the bus is freed, and refills follow (R126). -/
theorem Frame.freedBus (t : Tables) (r : Run) : Frame r (Machine.pump t (freeBus r)) :=
  Frame.trans (b := freeBus r) (Frame.queues r r.flash.queue r.flash.line none) (Frame.pump t (freeBus r))

/-! ### The statement -/

/-- FETCH_COMPLETE: where the samples go, and what stands (R91, R92, R118). -/
theorem fetchComplete_delivers {s : State} {f : Fetch} {discard : Bool} {q : BusSeq}
    (hb : s.flash.bus = some { kind := .fetch f discard, seq := q }) (hf : noFault s.toRun)
    (hv : f.voice < s.voices.length) :
    let t := s.onRun (fetchDone s.reader)
    (discard = true → (t.toRun.voice f.voice).buffer = (s.toRun.voice f.voice).buffer)
    ∧ (discard = false → (t.toRun.voice f.voice).buffer
        = ((s.toRun.voice f.voice).buffer ++ fetchSamples f (s.reader f.dev f.addr (f.count * sampleSize f.format))).drop
            (min (s.toRun.voice f.voice).missed f.count))
    ∧ (∀ v, v ≠ f.voice → (t.toRun.voice v).buffer = (s.toRun.voice v).buffer)
    ∧ t.ctl.places = s.ctl.places ∧ t.flash.devs = s.flash.devs ∧ t.tables = s.tables ∧ soundKept s t := by
  intro t
  have hrun : t.toRun = pump s.tables (fetchTaken s.reader s.tables f discard s.toRun) := fetchDone_eq _ _ hb
  have htaken := Frame.fetchTaken s.reader s.tables f discard s.toRun
  have hframe : Frame s.toRun t.toRun := hrun ▸ htaken.trans (Frame.pump _ _)
  have hbuffer (u : Nat) : (t.toRun.voice u).buffer
      = ((fetchTaken s.reader s.tables f discard s.toRun).voice u).buffer := by
    rw [hrun]
    exact (Quiet.pump _ _ (noFault_of_devs htaken.devs hf)).buffer u
  refine ⟨fun h => ?_, fun h => ?_, fun v hne => ?_, hframe.ctl.places, hframe.devs, rfl,
    soundKept_of_soundFrame hframe.sound ⟨rfl, rfl, rfl, rfl⟩⟩
  · subst h
    exact hbuffer f.voice
  · subst h
    have htook := takeSamples_buffer s.tables (r := freeBus s.toRun)
      (fetchSamples f (s.reader f.dev f.addr (f.count * sampleSize f.format))) hv
    rw [Voice.addSamples, (fetchSamples_spec _ _).1] at htook
    exact (hbuffer f.voice).trans htook
  · rw [hbuffer]
    cases discard with
    | true => rfl
    | false => exact (takeSamples_regroups s.tables _ (freeBus s.toRun) hne).holds.1

/-- What a fetch's samples make of their voice (R91, R93, R95, R98). -/
theorem takeSamples_ends {t : Tables} {v : Nat} {samples : List BufSample} {r : Run} (hv : v < r.voices.length)
    (hheard : ((r.voice v).addSamples samples).state.reports = true)
    (hended : ((r.voice v).addSamples samples).cursor = none ∧ ((r.voice v).addSamples samples).reserved = 0
      ∧ ((r.voice v).addSamples samples).buffer = []) :
    ((takeSamples t v samples r).voice v).state = .idle
      ∧ lastReport t r (takeSamples t v samples r) (.voice v .ended (r.voice v).startId) := by
  obtain ⟨r1, hr1, hreports, hid, hframe⟩ := (takeSamples_cases t v samples r hv).1 hheard hended
  have hidle : (r1.voice v).state ≠ .idle := fun k => by rw [k] at hreports; cases hreports
  obtain ⟨x, hport, hqueue, hlast⟩ := goIdle_report t v .ended r1 hreports
  rw [hid] at hlast
  rw [hr1]
  exact ⟨(goIdle_idle t .ended hidle).1, x, hport.trans hframe.port, hframe.ctl.reports.trans hqueue, hlast⟩

/-- The states in which going IDLE gives a report (R103). -/
theorem VState.reports_iff (x : VState) : x.reports = true ↔ x = .priming ∨ x = .playing ∨ x = .stopping := by
  cases x <;> simp [VState.reports]

/-- A refill, by where the fetch cursor goes (R88, R90, R99). -/
theorem makeRefill_cases {t : Tables} {v : Nat} {c : Cursor} {sg : Segment} {r : Run} (hc : (r.voice v).cursor = some c)
    (hs : segmentRec t c.seg = some sg) :
    let n := min 512 (sg.len - c.off)
    let goesTo := fun (c' : Option Cursor) (release : Bool) =>
      makeRefill t v r = { r with flash := { r.flash with queue := r.flash.queue ++ [refillOf v c sg] } }.onVoice v
        (fun x => { x with reserved := x.reserved + n, cursor := c', release := release })
    let release := (r.voice v).release
    let again := sg.loops ≠ 255 ∧ c.pass < sg.loops ∨ sg.loops = 255 ∧ release = false
    (c.off + n < sg.len → goesTo (some { c with off := c.off + n }) release)
    ∧ (sg.len ≤ c.off + n → again → goesTo (some { c with pass := min 65535 (c.pass + 1), off := 0 }) release)
    ∧ (sg.len ≤ c.off + n → ¬ again →
      let left := if sg.loops = 255 then false else release
      (sg.next = none ∨ (∃ m, sg.next = some m ∧ segmentRec t m = none) → goesTo none left)
      ∧ ∀ m next, sg.next = some m → segmentRec t m = some next →
        (r.dev next.device ≠ .faulted → goesTo (some { seg := m, pass := 0, off := 0 }) left)
        ∧ (r.dev next.device = .faulted → (r.voice v).state ≠ .idle →
          ((makeRefill t v r).voice v).state = .idle ∧ ∀ g, g ∈ (makeRefill t v r).flash.queue → g.voice ≠ v)) := by
  intro n goesTo release again
  obtain ⟨hon, haround, hout⟩ := advanceCursor_cases t r sg c n release
  refine ⟨fun h => makeRefill_goesTo hc hs (hon h), fun h a => makeRefill_goesTo hc hs (haround h a), fun h a => ?_⟩
  intro left
  have hleaves : advanceCursor t r sg c n release = leaveSegment t r sg left := hout h a
  refine ⟨fun hend => makeRefill_goesTo hc hs (hleaves.trans (leaveSegment_ends r left hend)), fun m next hm hnext =>
    ⟨fun hd => ?_, fun hd hidle => ?_⟩⟩
  · exact makeRefill_goesTo hc hs (hleaves.trans (leaveSegment_enters left hm hnext hd))
  · exact makeRefill_faulted hc hs (hleaves.trans (leaveSegment_faults left hm hnext hd)) hidle

/-- The pump carries out one thing after another until nothing is left to do (log entry 28). -/
theorem pumpLoop_cases (t : Tables) (r : Run) (n : Nat) : (pumpOnce t r = none → pumpLoop t (n + 1) r = r)
    ∧ ∀ r', pumpOnce t r = some r' → pumpLoop t (n + 1) r = pumpLoop t n r' :=
  ⟨fun h => by simp only [pumpLoop, h], fun r' h => by simp only [pumpLoop, h]⟩

/-- CONTENT_READ_COMPLETE: the bytes read are the reply's, unless the read was abandoned (R124, R126). -/
theorem contentReadComplete_delivers {s : State} {d a n : Nat} {live : Bool} {q : BusSeq} {o : Op}
    (hb : s.flash.bus = some { kind := .contentRead d a n live, seq := q }) (ho : s.flash.op = some o) :
    let t := s.onRun (contentReadDone s.reader)
    (live = true → t.flash.op = none ∧ (o.kind ≠ .settle → o.kind ≠ .imageLoad →
        t.ctl.places = fillPlace (.ok, o.reply ++ Memory.readRange (s.mem d) a n) s.ctl.places))
    ∧ (live = false → t.flash.op.map Op.rest = some o.rest ∧ t.ctl.places = s.ctl.places)
    ∧ t.flash.devs = s.flash.devs ∧ t.tables = s.tables ∧ soundKept s t := by
  intro t
  cases live with
  | true =>
    have hrun : t.toRun = pump s.tables (deliver o .ok (o.reply ++ s.reader d a n) (endOp (freeBus s.toRun))) :=
      contentReadDone_live _ _ hb ho
    obtain ⟨hop, hdevs, hsound, hplaces⟩ := pump_deliver s.tables o (o.reply ++ s.reader d a n) (freeBus s.toRun)
    rw [← hrun] at hop hdevs hsound hplaces
    exact ⟨fun _ => ⟨hop, hplaces⟩, nofun, hdevs, rfl,
      soundKept_of_soundFrame ((SoundFrame.withFlash s.toRun _).trans hsound) ⟨rfl, rfl, rfl, rfl⟩⟩
  | false =>
    have hrun : t.toRun = pump s.tables (freeBus s.toRun) := contentReadDone_abandoned _ _ hb
    have hframe : Frame s.toRun t.toRun := hrun ▸ Frame.freedBus _ _
    exact ⟨nofun, fun _ => ⟨by rw [hframe.op, ho]; rfl, hframe.ctl.places⟩, hframe.devs, rfl,
      soundKept_of_soundFrame hframe.sound ⟨rfl, rfl, rfl, rfl⟩⟩

/-- RESET_COMMAND_COMPLETE: the first command is followed by the second, and the second ends the operation, unless the
reset was abandoned (R125, R126). -/
theorem resetCommandComplete_delivers {s : State} {d : Nat} {second live : Bool} {q : BusSeq} {o : Op}
    (hb : s.flash.bus = some { kind := .reset d second live, seq := q }) (ho : s.flash.op = some o) :
    let t := s.onRun resetDone
    (live = true → second = true → t.flash.op = none ∧ t.flash.devs = s.flash.devs.set d .ready
        ∧ (o.kind ≠ .settle → o.kind ≠ .imageLoad → t.ctl.places = fillPlace (.ok, o.reply) s.ctl.places))
    ∧ (live = false ∨ second = false →
        t.flash.op.map Op.rest = some o.rest ∧ t.flash.devs = s.flash.devs ∧ t.ctl.places = s.ctl.places)
    ∧ (live = true → second = false →
        t.flash.op = some { o with step := .due .reset2 }
        ∨ t.flash.op = some { o with step := .running } ∧ t.flash.bus = stepXfer s.tables o .reset2)
    ∧ t.tables = s.tables ∧ soundKept s t := by
  intro t
  cases live with
  | false =>
    have hrun : t.toRun = pump s.tables (freeBus s.toRun) := resetDone_abandoned _ hb
    have hframe : Frame s.toRun t.toRun := hrun ▸ Frame.freedBus _ _
    exact ⟨nofun, fun _ => ⟨by rw [hframe.op, ho]; rfl, hframe.devs, hframe.ctl.places⟩, nofun, rfl,
      soundKept_of_soundFrame hframe.sound ⟨rfl, rfl, rfl, rfl⟩⟩
  | true =>
    cases second with
    | true =>
      let ready := (freeBus s.toRun).setDev d .ready
      have hrun : t.toRun = pump s.tables (deliver o .ok o.reply (endOp ready)) := resetDone_second _ hb ho
      obtain ⟨hop, hdevs, hsound, hplaces⟩ := pump_deliver s.tables o o.reply ready
      rw [← hrun] at hop hdevs hsound hplaces
      exact ⟨fun _ _ => ⟨hop, hdevs, hplaces⟩, by simp, by simp, rfl,
        soundKept_of_soundFrame ((SoundFrame.withFlash s.toRun _).trans hsound) ⟨rfl, rfl, rfl, rfl⟩⟩
    | false =>
      let due := setStep (.due .reset2) (freeBus s.toRun)
      have hrun : t.toRun = pump s.tables due := resetDone_first _ hb ho
      have hop : due.flash.op = some { o with step := .due .reset2 } := congrArg (Option.map _) ho
      have hpump : Frame due t.toRun := hrun ▸ Frame.pump _ _
      have hsound : SoundFrame s.toRun t.toRun := (SoundFrame.withFlash s.toRun due.flash).trans hpump.sound
      refine ⟨by simp, fun _ => ⟨?_, hpump.devs, hpump.ctl.places⟩, fun _ _ => ?_, rfl,
        soundKept_of_soundFrame hsound ⟨rfl, rfl, rfl, rfl⟩⟩
      · rw [hpump.op, hop]
        rfl
      · rw [hrun]
        exact (pump_due s.tables o .reset2 due hop).imp_right And.right

/-- Settles O47: each completion delivers what its clause says; refills, the waiting line, the group's check and the
samples are what the functions that carry them out do. -/
theorem transfersDeliverTheirData : Obligations.TransfersDeliverTheirData := by
  unfold Obligations.TransfersDeliverTheirData
  refine ⟨fun s f discard q hb hf hv _ => ⟨_, rfl, fetchComplete_delivers hb hf hv⟩, fun s f discard q hb => ?_,
    fun t v samples r hv => ?_, fun g r hl => syncCheck_cases g r hl, wantsRefill_iff,
    fun t v c sg r hc hs => makeRefill_cases hc hs, fun t r => ?_,
    fun s d a n live q o hb ho => ⟨_, rfl, contentReadComplete_delivers hb ho⟩,
    fun a before rest p h => ⟨fillPlace_formed a h, fillPlace_waiting a rest h⟩, fetchSamples_spec,
    fun s d second live q o hb ho => ⟨_, rfl, resetCommandComplete_delivers hb ho⟩⟩
  · exact congrArg (fun r => Host.Outcome.next { s with toRun := r }) (fetchDone_eq s.reader s.tables hb)
  · obtain ⟨-, hgroup, halone⟩ := takeSamples_cases t v samples r hv
    intro x n y r' ended heard
    have hheard : y.state.reports = true ↔ heard := VState.reports_iff y.state
    exact ⟨fun h he => takeSamples_ends hv (hheard.2 h) he, hgroup,
      fun h htag => halone (fun k => h ⟨hheard.1 k.1, k.2⟩) htag⟩
  · obtain ⟨hline, hask⟩ := pumpOnce_cases t r
    exact ⟨hline, hask, rfl, pumpLoop_cases t r⟩

end Sys2Proof.Machine

/-! PROOF. What a poll decides (R105, R120 to R123, R130): the contents of the device it polled, the voices of a device
that fails, and the three ways on, each said once of the function that carries it out. -/

namespace Sys2Proof.Machine

open Sys2Proof

/-! ### Voices that refills cannot move -/

/-- A voice in no group that is IDLE or whose fetches have ended: no refill and no other voice changes its state. -/
def Voice.AtRest (x : Voice) : Prop := x.tag = none ∧ (x.state = .idle ∨ x.cursor = none)

/-- A voice at rest stays at rest, in its state. -/
def Rests (v : Nat) (r r' : Run) : Prop :=
  (r.voice v).AtRest → (r'.voice v).AtRest ∧ (r'.voice v).state = (r.voice v).state

theorem Rests.of_eq {v : Nat} {r r' : Run} (h : r'.voice v = r.voice v) : Rests v r r' := fun k => by
  rw [h]
  exact ⟨k, rfl⟩

theorem Rests.trans {v : Nat} {a b c : Run} (h : Rests v a b) (k : Rests v b c) : Rests v a c := fun x =>
  have ⟨hb, eb⟩ := h x
  have ⟨hc, ec⟩ := k hb
  ⟨hc, ec.trans eb⟩

theorem Rests.of_regrouped {v : Nat} {r r' : Run} (h : (r.voice v).Regrouped (r'.voice v)) : Rests v r r' := by
  rintro ⟨htag, hrest⟩
  obtain ⟨hstate, htag'⟩ := h.untagged htag
  exact ⟨⟨htag', by rwa [hstate, h.holds.2.1]⟩, hstate⟩

theorem Rests.onVoice {v u : Nat} {r : Run} {f : Voice → Voice}
    (h : u = v → (r.voice v).AtRest → (f (r.voice v)).AtRest ∧ (f (r.voice v)).state = (r.voice v).state) :
    Rests v r (r.onVoice u f) := by
  intro k
  by_cases e : u = v
  · subst e
    by_cases hu : u < r.voices.length
    · rw [Run.voice_onVoice _ _ _ _ hu, if_pos rfl]
      exact h rfl k
    · have hsame : (r.onVoice u f).voice u = r.voice u := by
        simp [Run.voice, List.getD_eq_getElem?_getD, Nat.le_of_not_lt hu]
      exact Rests.of_eq hsame k
  · exact Rests.of_eq (Run.voice_onVoice_of_ne r (Ne.symm e) f) k

/-- A voice at rest that still has a fetch cursor is IDLE. -/
theorem Voice.AtRest.idle_of_cursor {x : Voice} (h : x.AtRest) {c : Cursor} (hc : x.cursor = some c) : x.state = .idle :=
  h.2.resolve_right (fun k => by rw [hc] at k; cases k)

theorem goIdle_of_idle (t : Tables) {v : Nat} (why : VReason) {r : Run} (h : (r.voice v).state = .idle) :
    goIdle t v why r = r := if_pos h

/-- A refill leaves every voice at rest (R90). -/
theorem Rests.makeRefill (v : Nat) (t : Tables) (u : Nat) (r : Run) : Rests v r (makeRefill t u r) := by
  unfold Machine.makeRefill
  split
  · exact .of_eq rfl
  · rename_i c hc
    have hidle : u = v → (r.voice v).AtRest → (r.voice v).state = .idle := by
      rintro rfl k
      exact k.idle_of_cursor hc
    split
    · exact .onVoice (fun e k => ⟨⟨k.1, .inl (hidle e k)⟩, rfl⟩)
    · rename_i sg _
      let r1 : Run := { r with flash := { r.flash with queue := r.flash.queue ++ [refillOf u c sg] } }
      dsimp only
      split
      · exact .onVoice (r := r1) (fun e k => ⟨⟨k.1, .inl (hidle e k)⟩, rfl⟩)
      · let r2 := r1.onVoice u (fun x => { x with reserved := x.reserved + min 512 (sg.len - c.off) })
        have hreserved : Rests v r r2 := .onVoice (r := r1) (fun e k => ⟨⟨k.1, .inl (hidle e k)⟩, rfl⟩)
        by_cases e : u = v
        · subst e
          intro k
          have hstands : goIdle t u .deviceFault r2 = r2 :=
            goIdle_of_idle t _ ((hreserved k).2.trans (hidle rfl k))
          exact hstands ▸ hreserved k
        · exact hreserved.trans (.of_regrouped (goIdle_regroups t _ r2 (Ne.symm e)))

theorem arbiterStart_voices {t : Tables} {r r' : Run} (e : arbiterStart t r = some r') : r'.voices = r.voices := by
  unfold arbiterStart at e
  split at e
  · cases e
  · split at e
    · cases e; rfl
    · split at e <;> cases e
      rfl

/-- What the pump does once leaves every voice at rest (R90, R116, R117). -/
theorem Rests.pumpOnce (v : Nat) {t : Tables} {r r' : Run} (e : pumpOnce t r = some r') : Rests v r r' := by
  unfold Machine.pumpOnce at e
  split at e
  · rename_i u rest _ _
    cases e
    let r1 : Run := { r with flash := { r.flash with line := rest } }
    have hgranted : Rests v r (r1.onVoice u (fun x => { x with waiting := false })) := .onVoice (r := r1) (fun _ k => ⟨k, rfl⟩)
    exact hgranted.trans (.makeRefill v t u _)
  · split at e
    · rename_i u _
      cases e
      unfold askRefill
      split
      · exact .makeRefill v t u r
      · let r1 : Run := { r with flash := { r.flash with line := r.flash.line ++ [u] } }
        exact .onVoice (r := r1) (fun _ k => ⟨k, rfl⟩)
    · exact .of_eq (by rw [Run.voice, arbiterStart_voices e, Run.voice])

/-- The pump leaves every voice at rest. -/
theorem Rests.pump (v : Nat) (t : Tables) (r : Run) : Rests v r (pump t r) := by
  have hloop : ∀ n (r : Run), Rests v r (pumpLoop t n r) := by
    intro n
    induction n with
    | zero => exact fun r => .of_eq rfl
    | succ n ih =>
      intro r
      unfold pumpLoop
      split
      · exact (Rests.pumpOnce v ‹_›).trans (ih _)
      · exact .of_eq rfl
  exact hloop 64 r

/-! ### The voices tied to a device that fails (R105) -/

/-- What other voices that go IDLE leave of a voice: its record but for its group, its queued fetches, and a free bus. -/
structure Apart (v : Nat) (r r' : Run) : Prop where
  voice : (r.voice v).Regrouped (r'.voice v)
  queue : ∀ f, f.voice = v → (f ∈ r'.flash.queue ↔ f ∈ r.flash.queue)
  bus   : r.flash.bus = none → r'.flash.bus = none

theorem Apart.refl (v : Nat) (r : Run) : Apart v r r := ⟨.refl _, fun _ _ => Iff.rfl, id⟩

theorem Apart.trans {v : Nat} {a b c : Run} (h : Apart v a b) (k : Apart v b c) : Apart v a c :=
  ⟨h.voice.trans k.voice, fun f hf => (k.queue f hf).trans (h.queue f hf), fun e => k.bus (h.bus e)⟩

theorem Apart.goIdle {v u : Nat} (h : u ≠ v) (t : Tables) (why : VReason) (r : Run) : Apart v r (goIdle t u why r) := by
  by_cases hidle : (r.voice u).state = .idle
  · rw [goIdle_of_idle t why hidle]
    exact .refl v r
  · refine ⟨goIdle_regroups t why r (Ne.symm h), fun f hf => ?_, fun hb => ?_⟩
    · have hother : f.voice ≠ u := hf ▸ Ne.symm h
      rw [goIdle_flash t why hidle]
      exact List.mem_filter.trans (and_iff_left (decide_eq_true hother))
    · rw [goIdle_flash t why hidle]
      exact congrArg (discardOnBus u) hb

theorem Apart.foldl {v : Nat} {f : Nat → Run → Run} (h : ∀ u r, u ≠ v → Apart v r (f u r)) : ∀ (l : List Nat), v ∉ l →
    ∀ r, Apart v r (l.foldl (fun x u => f u x) r)
  | [], _, r => .refl v r
  | u :: l, hl, r => by
    obtain ⟨hu, hl⟩ := not_or.1 (mt List.mem_cons.2 hl)
    exact (h u r (Ne.symm hu)).trans (Apart.foldl h l hl _)

/-- Doing something for each number is doing it for those before one, for that one, and for those behind it. -/
theorem forEach_split {α : Type} {n v : Nat} (h : v < n) (f : Nat → α → α) (a : α) : ∃ before behind : List Nat,
    v ∉ before ∧ v ∉ behind
    ∧ forEach n f a = behind.foldl (fun x i => f i x) (f v (before.foldl (fun x i => f i x) a)) := by
  obtain ⟨before, behind, e⟩ := List.append_of_mem (List.mem_range.2 h)
  have hnodup : (before ++ v :: behind).Nodup := e ▸ List.nodup_range
  obtain ⟨-, hbehind, hdisjoint⟩ := List.nodup_append.1 hnodup
  refine ⟨before, behind, fun hv => hdisjoint v hv v List.mem_cons_self rfl, (List.nodup_cons.1 hbehind).1, ?_⟩
  rw [forEach, e, List.foldl_append, List.foldl_cons]

/-- What the fault of a device makes of one voice (R105). -/
def faultVoice (t : Tables) (d v : Nat) (r : Run) : Run := if tiedTo t r v d then goIdle t v .deviceFault r else r

theorem Apart.faultVoice {v u : Nat} (h : u ≠ v) (t : Tables) (d : Nat) (r : Run) : Apart v r (faultVoice t d u r) := by
  unfold Machine.faultVoice
  split
  · exact .goIdle h t _ r
  · exact .refl v r

theorem Frame.faultVoice (t : Tables) (d v : Nat) (r : Run) : Frame r (faultVoice t d v r) :=
  Frame.ite (fun _ => Frame.goIdle t v _ r) (fun _ => Frame.refl r)

/-- With the bus free a voice's reserved fetches are those it has queued (R89). -/
theorem reservedFetches_of_free {r : Run} (h : r.flash.bus = none) (v : Nat) :
    reservedFetches r v = r.flash.queue.filter (fun f => f.voice = v) := by
  simp [reservedFetches, inFlight, h]

theorem cursorDevice_eq_some (t : Tables) (c : Option Cursor) (d : Nat) : cursorDevice t c = some d ↔
    ∃ c' sg, c = some c' ∧ segmentRec t c'.seg = some sg ∧ sg.device = d := by
  simp [cursorDevice, Option.bind_eq_some_iff]

/-- A voice's cursor, a sample it holds or a fetch it has queued lies on a device (R105). -/
def LiesOn (t : Tables) (r : Run) (v d : Nat) : Prop :=
  (∃ c sg, (r.voice v).cursor = some c ∧ segmentRec t c.seg = some sg ∧ sg.device = d)
  ∨ (∃ y, y ∈ (r.voice v).buffer ∧ y.dev = d) ∨ ∃ f, f ∈ r.flash.queue ∧ f.voice = v ∧ f.dev = d

/-- With the bus free: what ties a voice to a device (R105). -/
theorem tiedTo_iff {r : Run} (h : r.flash.bus = none) (t : Tables) (v d : Nat) :
    tiedTo t r v d = true ↔ (r.voice v).state ≠ .idle ∧ LiesOn t r v d := by
  simp [tiedTo, reservedFetches_of_free h, cursorDevice_eq_some, LiesOn, or_assoc]

/-- Other voices that go IDLE leave what lies on a device. -/
theorem Apart.liesOn {v : Nat} {r r' : Run} (h : Apart v r r') (t : Tables) (d : Nat) :
    LiesOn t r' v d ↔ LiesOn t r v d := by
  obtain ⟨hbuffer, hcursor, -⟩ := h.voice.holds
  rw [LiesOn, hbuffer, hcursor]
  refine or_congr_right (or_congr_right (exists_congr fun f => ?_))
  exact ⟨fun ⟨hf, hv, hd⟩ => ⟨(h.queue f hv).1 hf, hv, hd⟩, fun ⟨hf, hv, hd⟩ => ⟨(h.queue f hv).2 hf, hv, hd⟩⟩

/-- What ties a voice to a device is not undone by other voices that go IDLE. -/
theorem Apart.tied {v : Nat} {r r' : Run} (h : Apart v r r') (hb : r.flash.bus = none) {t : Tables} {d : Nat}
    (k : tiedTo t r v d = true) : tiedTo t r' v d = true := by
  obtain ⟨hidle, hlies⟩ := (tiedTo_iff hb t v d).1 k
  refine (tiedTo_iff (h.bus hb) t v d).2 ⟨?_, (h.liesOn t d).2 hlies⟩
  rcases h.voice.state with e | e <;> rw [e]
  · exact hidle
  · nofun

/-- A voice in no group is not tied to a device by others that go IDLE. -/
theorem Apart.untied {v : Nat} {r r' : Run} (h : Apart v r r') (hb : r.flash.bus = none) {t : Tables} {d : Nat}
    (htag : (r.voice v).tag = none) (k : tiedTo t r v d = false) : tiedTo t r' v d = false := by
  refine Bool.eq_false_iff.2 (fun k' => Bool.eq_false_iff.1 k ?_)
  obtain ⟨hidle, hlies⟩ := (tiedTo_iff (h.bus hb) t v d).1 k'
  exact (tiedTo_iff hb t v d).2 ⟨(h.voice.untagged htag).1 ▸ hidle, (h.liesOn t d).1 hlies⟩

/-- A report given after some that were given before is among them all. -/
theorem givesReport.after {t : Tables} {r r1 r2 : Run} {b : ReportBody} (h : givesReport t r1 r2 b)
    (hp : r1.port = r.port) (hr : r.ctl.reports <+: r1.ctl.reports) : givesReport t r r2 b := by
  obtain ⟨x, p, c, e⟩ := h
  exact ⟨x, p.trans hp, hr.trans c, e⟩

/-- The fault of a device as one voice meets it: the voices before it, itself, those behind it, and the refills. -/
theorem faultVoices_split {v : Nat} (hv : v < 16) (t : Tables) (d : Nat) (r : Run) : ∃ x y : Run,
    Frame r x ∧ Apart v r x ∧ Frame (faultVoice t d v x) y ∧ Apart v (faultVoice t d v x) y
    ∧ faultVoices t d r = pump t y := by
  obtain ⟨before, behind, hbefore, hbehind, e⟩ := forEach_split hv (faultVoice t d) r
  have hframe := Frame.foldl (fun x u => faultVoice t d u x) (fun x u => Frame.faultVoice t d u x)
  have hapart := Apart.foldl (v := v) (fun u x hu => Apart.faultVoice hu t d x)
  exact ⟨_, _, hframe before r, hapart before hbefore r, hframe behind _, hapart behind hbehind _,
    congrArg (pump t) e⟩

/-- A voice tied to the device goes IDLE, with its report where it was heard or PRIMING (R103, R105). -/
theorem faultVoices_tied {t : Tables} {d v : Nat} {r : Run} (hv : v < 16) (hb : r.flash.bus = none)
    (h : tiedTo t r v d = true) : ((faultVoices t d r).voice v).state = .idle
      ∧ ((r.voice v).state.reports = true →
          givesReport t r (faultVoices t d r) (.voice v .deviceFault (r.voice v).startId)) := by
  obtain ⟨x, y, hframe, hx, hframe', hy, e⟩ := faultVoices_split hv t d r
  have htied : tiedTo t x v d = true := hx.tied hb h
  have hidle : (x.voice v).state ≠ .idle := ((tiedTo_iff (hx.bus hb) t v d).1 htied).1
  have hfault : faultVoice t d v x = goIdle t v .deviceFault x := if_pos htied
  rw [hfault] at hframe' hy
  rw [e]
  obtain ⟨hgone, htag⟩ := goIdle_idle t .deviceFault hidle
  refine ⟨?_, fun hheard => ?_⟩
  · have hstays := (Rests.of_regrouped hy.voice).trans (Rests.pump v t y)
    exact (hstays ⟨htag, .inl hgone⟩).2.trans hgone
  · have hheard' : (x.voice v).state.reports = true := by
      rcases hx.voice.state with e | e <;> rw [e]
      · exact hheard
      · rfl
    have hgiven := (goIdle_report t v .deviceFault x hheard').gives
    rw [hx.voice.holds.2.2] at hgiven
    exact (hgiven.mono (hframe'.ctl.reports.trans (Frame.pump t y).ctl.reports)).after hframe.port hframe.ctl.reports

/-- A voice that is not tied to the device and is at rest keeps its state (R105). -/
theorem faultVoices_untied {t : Tables} {d v : Nat} {r : Run} (hv : v < 16) (hb : r.flash.bus = none)
    (h : tiedTo t r v d = false) (hrest : (r.voice v).AtRest) :
    ((faultVoices t d r).voice v).state = (r.voice v).state := by
  obtain ⟨x, y, -, hx, -, hy, e⟩ := faultVoices_split hv t d r
  have hstands : faultVoice t d v x = x := if_neg (Bool.eq_false_iff.1 (hx.untied hb hrest.1 h))
  rw [hstands] at hy
  rw [e]
  exact (((Rests.of_regrouped (hx.trans hy).voice).trans (Rests.pump v t y)) hrest).2

end Sys2Proof.Machine

/-! PROOF. A poll completes (R105, R120 to R123, R130): what the polled device holds then, and the three ways on of its
operation. -/

namespace Sys2Proof.Machine

open Sys2Proof

/-! ### What the devices hold -/

/-- Free bytes are left in a range, and nothing changes outside it (R121). -/
theorem Memory.read_scramble_outside (n : Nat) : ∀ {m : List Host.Cell} {k x y : Nat}, Memory.wf m = true →
    y < x ∨ x + n ≤ y → Memory.read (Memory.scramble m k x n) y = Memory.read m y := by
  induction n with
  | zero => exact fun _ _ => rfl
  | succ n ih =>
    intro m k x y hm hy
    rw [Memory.scramble, ih (Memory.write_wf x _ hm) (by omega), Memory.read_write hm, if_neg (by omega)]

/-- How many bytes a command concerns. -/
def Cmd.size : Cmd → Nat
  | .erase _ n => n
  | .program _ b => b.length

theorem Cmd.read_scramble_outside (c : Cmd) {m : List Host.Cell} {k y : Nat} (hm : Memory.wf m = true)
    (hy : y < c.addr ∨ c.addr + c.size ≤ y) : Memory.read (c.scramble k m) y = Memory.read m y := by
  cases c with
  | erase a n => exact Memory.read_scramble_outside n hm hy
  | program a b => exact Memory.read_scramble_outside b.length hm hy

theorem memoryOk_mem {s : State} (h : memoryOk s = true) (d : Nat) : Memory.wf (s.mem d) = true := by
  obtain ⟨h0, h1⟩ := Bool.and_eq_true_iff.1 h
  unfold State.mem
  split
  · exact h0
  · exact h1

/-- A change of the part leaves what the devices hold. -/
@[simp] theorem State.onRun_mem (s : State) (f : Tables → Run → Run) (d : Nat) : (s.onRun f).mem d = s.mem d := rfl

/-- One device's contents are changed, the other's stand. -/
theorem State.mem_onMem {d d' : Nat} (hd : d < 2) (hd' : d' < 2) (s : State) (f : List Host.Cell → List Host.Cell) :
    (s.onMem d f).mem d' = if d' = d then f (s.mem d) else s.mem d' := by
  rcases (by omega : d = 0 ∨ d = 1) with rfl | rfl <;> rcases (by omega : d' = 0 ∨ d' = 1) with rfl | rfl <;> rfl

/-- A save that came to nothing loses its identifier and no other byte (R130). -/
theorem loseHeader_read {d d' : Nat} {c : Cmd} (s : State) {x : Nat} (h : ¬ (d = 0 ∧ c.addr = 0 ∧ d' = 0 ∧ x < 4)) :
    Memory.read ((s.loseHeader d c).mem d') x = Memory.read (s.mem d') x := by
  rw [loseHeader_cases]
  split
  · rename_i hc
    unfold State.mem
    split
    · rename_i hd'
      rw [Memory.read_erase, if_neg (fun hx => h ⟨hc.1, hc.2, hd', by omega⟩)]
    · rfl
  · rfl

@[simp] theorem loseHeader_pending (d : Nat) (c : Cmd) (s : State) : (s.loseHeader d c).pending = s.pending := by
  rw [loseHeader_cases]; split <;> rfl
@[simp] theorem loseHeader_serial (d : Nat) (c : Cmd) (s : State) : (s.loseHeader d c).serial = s.serial := by
  rw [loseHeader_cases]; split <;> rfl

theorem workOf_working {r : Run} {d : Nat} {c : Cmd} (h : r.dev d = .working c) : workOf r d = some c := by
  simp only [workOf, h]

/-- The contents when a live poll finds the command finished (R122, R123, R130; log entry 46). -/
theorem settleWork_working {s : State} {d : Nat} {c : Cmd} (o : Op) (h : s.toRun.dev d = .working c) :
    s.settleWork o d = if o.kind = .settle then (s.onMem d c.apply).loseHeader d c else s.onMem d c.apply := by
  have hwork : workOf (s.onMem d c.apply).toRun d = some c := by rw [State.onMem_toPart, workOf_working h]
  simp only [State.settleWork, State.finishWork, workOf_working h, State.loseWork, hwork]

/-- The contents when a command is cut short (R121, R130; log entry 46). -/
theorem spoilWork_working {s : State} {d : Nat} {c : Cmd} (h : s.toRun.dev d = .working c) :
    (s.spoilWork d).loseWork d
      = ({ s.onMem d (c.scramble s.serial) with serial := s.serial + 1 } : State).loseHeader d c := by
  have hwork : workOf (s.onMem d (c.scramble s.serial)).toRun d = some c := by rw [State.onMem_toPart, workOf_working h]
  simp only [State.spoilWork, workOf_working h, State.loseWork, hwork]

/-- What a change of the polled device's contents leaves: the part, the queue, and the other device. -/
structure Stored (d : Nat) (s s' : State) : Prop where
  part    : s'.toPart = s.toPart
  pending : s'.pending = s.pending
  other   : ∀ d' a, d' < 2 → d' ≠ d → Memory.read (s'.mem d') a = Memory.read (s.mem d') a

theorem Stored.refl (d : Nat) (s : State) : Stored d s s := ⟨rfl, rfl, fun _ _ _ _ => rfl⟩

theorem Stored.trans {d : Nat} {a b c : State} (h : Stored d a b) (k : Stored d b c) : Stored d a c :=
  ⟨k.part.trans h.part, k.pending.trans h.pending, fun d' x hd hne => (k.other d' x hd hne).trans (h.other d' x hd hne)⟩

theorem Stored.onMem {d : Nat} (hd : d < 2) (s : State) (f : List Host.Cell → List Host.Cell) : Stored d s (s.onMem d f) :=
  ⟨State.onMem_toPart s d f, State.onMem_pending s d f, fun _ _ hd' hne => by
    rw [State.mem_onMem hd hd', if_neg hne]⟩

theorem Stored.loseHeader (d : Nat) (c : Cmd) (s : State) : Stored d s (s.loseHeader d c) :=
  ⟨loseHeader_toPart d c s, loseHeader_pending d c s, fun _ _ _ hne =>
    loseHeader_read s (fun ⟨hd, _, hd', _⟩ => hne (hd'.trans hd.symm))⟩

theorem Stored.settleWork {s : State} {d : Nat} {c : Cmd} (o : Op) (hd : d < 2) (h : s.toRun.dev d = .working c) :
    Stored d s (s.settleWork o d) := by
  rw [settleWork_working o h]
  split
  · exact (Stored.onMem hd s _).trans (.loseHeader d c _)
  · exact .onMem hd s _

theorem Stored.spoilWork {s : State} {d : Nat} {c : Cmd} (hd : d < 2) (h : s.toRun.dev d = .working c) :
    Stored d s ((s.spoilWork d).loseWork d) := by
  rw [spoilWork_working h]
  have hspoiled := Stored.onMem hd s (c.scramble s.serial)
  exact Stored.trans (b := { s.onMem d (c.scramble s.serial) with serial := s.serial + 1 })
    ⟨hspoiled.part, hspoiled.pending, hspoiled.other⟩ (.loseHeader d c _)

/-- A finished command shows its effect, but for the identifier of a save that a settle ends (R122, R123, R130). -/
theorem settleWork_read {s : State} {d : Nat} {c : Cmd} {o : Op} (hd : d < 2) (h : s.toRun.dev d = .working c) {x : Nat}
    (hx : ¬ (o.kind = .settle ∧ d = 0 ∧ c.addr = 0 ∧ x < 4)) :
    Memory.read ((s.settleWork o d).mem d) x = Memory.read (c.apply (s.mem d)) x := by
  have happlied : (s.onMem d c.apply).mem d = c.apply (s.mem d) := by rw [State.mem_onMem hd hd, if_pos rfl]
  rw [settleWork_working o h]
  split
  · rw [loseHeader_read _ (fun ⟨h0, ha, _, h4⟩ => hx ⟨‹_›, h0, ha, h4⟩), happlied]
  · rw [happlied]

theorem settleWork_serial {s : State} {d : Nat} {c : Cmd} (o : Op) (h : s.toRun.dev d = .working c) :
    (s.settleWork o d).serial = s.serial := by
  rw [settleWork_working o h]
  split <;> simp

/-- A command cut short leaves every byte it does not concern, but for the identifier of a save (R121, R130). -/
theorem spoilWork_read {s : State} {d : Nat} {c : Cmd} (hd : d < 2) (hm : memoryOk s = true)
    (h : s.toRun.dev d = .working c) {x : Nat} (hx : x < c.addr ∨ c.addr + c.size ≤ x)
    (hid : ¬ (d = 0 ∧ c.addr = 0 ∧ x < 4)) :
    Memory.read (((s.spoilWork d).loseWork d).mem d) x = Memory.read (s.mem d) x := by
  have hspoiled : ({ s.onMem d (c.scramble s.serial) with serial := s.serial + 1 } : State).mem d
      = c.scramble s.serial (s.mem d) := (State.mem_onMem hd hd s _).trans (if_pos rfl)
  rw [spoilWork_working h, loseHeader_read _ (fun ⟨h0, ha, _, h4⟩ => hid ⟨h0, ha, h4⟩), hspoiled]
  exact c.read_scramble_outside (memoryOk_mem hm d) hx

/-- A settle that ends a save's command at the header leaves no image (R130; log entry 46). -/
theorem settleWork_noImage {s : State} {c : Cmd} {o : Op} (hs : o.kind = .settle) (h : s.toRun.dev 0 = .working c)
    (ha : c.addr = 0) : noImage (s.settleWork o 0) := by
  rw [settleWork_working o h, if_pos hs]
  exact loseHeader_noImage c _ ha

/-- A command at the header that is cut short leaves no image (R130; log entry 46). -/
theorem spoilWork_noImage {s : State} {c : Cmd} (h : s.toRun.dev 0 = .working c) (ha : c.addr = 0) :
    noImage ((s.spoilWork 0).loseWork 0) := by
  rw [spoilWork_working h]
  exact loseHeader_noImage c _ ha

/-! ### The operation goes on or ends (R120, R121, R130) -/

theorem commandOver_next (t : Tables) {o : Op} (r : Run) {c1 c2 : Cmd} {rest : List Cmd} (h : o.cmds = c1 :: c2 :: rest) :
    commandOver t o r = pump t { r with flash := { r.flash with
      op := some { o with cmds := c2 :: rest, step := .stepAt (r.port.now + 1) } } } := by
  simp only [commandOver, h]

theorem commandOver_last (t : Tables) {o : Op} (r : Run) (h : o.cmds.length < 2) :
    commandOver t o r = pump t (deliver o .ok o.reply (endOp r)) := by
  unfold commandOver
  split
  · rename_i c1 c2 rest e
    rw [e] at h
    simp at h
  · rfl

theorem SoundFrame.commandOver (t : Tables) (o : Op) (r : Run) : SoundFrame r (commandOver t o r) := by
  unfold Machine.commandOver
  split
  · exact (SoundFrame.withFlash r _).trans (Frame.pump t _).sound
  · obtain ⟨-, -, hsound, -⟩ := pump_deliver t o o.reply r
    exact hsound

/-- The devices after a command is over are as they were. -/
theorem commandOver_devs (t : Tables) (o : Op) (r : Run) : (commandOver t o r).flash.devs = r.flash.devs := by
  unfold commandOver
  split
  · exact (Frame.pump t _).devs
  · obtain ⟨-, hdevs, -, -⟩ := pump_deliver t o o.reply r
    exact hdevs

/-- A device that fails: the state in which the voice bank takes its fault (R121; log entry 37). -/
def deviceFailed (t : Tables) (o : Op) (d : Nat) (r : Run) : Run :=
  (deliver o .flashTimeout [] (endOp (r.setDev d .faulted))).report t (.flashFault d o.kind)

theorem deviceFailed_flash (t : Tables) (o : Op) (d : Nat) (r : Run) :
    (deviceFailed t o d r).flash = { r.flash with devs := r.flash.devs.set d .faulted, op := none } := by
  rw [deviceFailed, report_flash, deliver_flash]
  rfl

theorem deviceFailed_voice (t : Tables) (o : Op) (d : Nat) (r : Run) (v : Nat) :
    (deviceFailed t o d r).voice v = r.voice v := by
  rw [deviceFailed, report_voice, Run.voice, deliver_voices]
  rfl

theorem deviceFailed_places (t : Tables) {o : Op} (d : Nat) (r : Run) (hs : o.kind ≠ .settle) (hi : o.kind ≠ .imageLoad) :
    (deviceFailed t o d r).ctl.places = fillPlace (.flashTimeout, []) r.ctl.places := by
  rw [deviceFailed, (Frame.report t _ _).ctl.places, deliver_answered hs hi]
  rfl

/-- What a report gives depends on the report queue and the frame counter alone (R193). -/
theorem report_reports_congr (t : Tables) (b : ReportBody) {r r' : Run} (hq : r'.ctl.reports = r.ctl.reports)
    (hp : r'.port = r.port) : (r'.report t b).ctl.reports = (r.report t b).ctl.reports := by
  unfold Run.report Run.reportAt
  rw [hq, hp]
  split_ifs
  · exact hq
  · exact hq
  · rfl

/-- The first report of a device that fails is FLASH_FAULT (log entry 37). -/
theorem deviceFailed_reports (t : Tables) (o : Op) (d : Nat) (r : Run) :
    (deviceFailed t o d r).ctl.reports = (r.report t (.flashFault d o.kind)).ctl.reports :=
  report_reports_congr t _ (deliver_reports ..) (deliver_port ..)

theorem SoundFrame.deviceFailed (t : Tables) (o : Op) (d : Nat) (r : Run) : SoundFrame r (deviceFailed t o d r) :=
  ((SoundFrame.withFlash r _).trans (SoundFrame.deliver o .flashTimeout [] (endOp (r.setDev d .faulted)))).trans
    (Frame.report t _ _).sound

theorem pollDone_live {s : State} {d : Nat} {q : BusSeq} {o : Op} (status : Byte)
    (hb : s.flash.bus = some { kind := .poll d true, seq := q }) (ho : s.flash.op = some o) :
    pollDone status s = livePoll o d status s := by
  simp only [pollDone, hb, ho]

theorem livePoll_finished {o : Op} {d : Nat} {status : Byte} {s : State}
    (h : status.getLsbD (profileRec s.tables d).busyBit ≠ (profileRec s.tables d).busyWhen) :
    livePoll o d status s = (s.settleWork o d).onRun (fun t r => commandOver t o ((freeBus r).setDev d .ready)) := by
  have hready : reportsBusy (profileRec s.tables d) status = false := by simpa [reportsBusy] using h
  rw [livePoll, if_pos hready]

theorem livePoll_again {o : Op} {d : Nat} {status : Byte} {s : State}
    (h : status.getLsbD (profileRec s.tables d).busyBit = (profileRec s.tables d).busyWhen) (hl : o.polls + 1 < o.pollLimit) :
    livePoll o d status s = s.onRun (fun t r => pump t (waitPoll (o.polls + 1) (freeBus r))) := by
  have hbusy : ¬ reportsBusy (profileRec s.tables d) status = false := by simpa [reportsBusy] using h
  rw [livePoll, if_neg hbusy, if_pos hl]

theorem livePoll_timedOut {o : Op} {d : Nat} {status : Byte} {s : State}
    (h : status.getLsbD (profileRec s.tables d).busyBit = (profileRec s.tables d).busyWhen) (hl : o.pollLimit ≤ o.polls + 1) :
    livePoll o d status s = ((s.spoilWork d).loseWork d).onRun (fun t r => faultDevice t o d (freeBus r)) := by
  have hbusy : ¬ reportsBusy (profileRec s.tables d) status = false := by simpa [reportsBusy] using h
  rw [livePoll, if_neg hbusy, if_neg (by omega)]

/-! ### The statement -/

/-- What every poll of a command leaves as it stands. -/
structure PollFrame (d : Nat) (s t : State) : Prop where
  tables  : t.tables = s.tables
  sound   : SoundFrame s.toRun t.toRun
  pending : t.pending = s.pending
  other   : ∀ d' a, d' < 2 → d' ≠ d → Memory.read (t.mem d') a = Memory.read (s.mem d') a

theorem Stored.pollFrame {d : Nat} {s s' : State} (h : Stored d s s') {f : Tables → Run → Run}
    (hf : SoundFrame s.toRun (f s.tables s.toRun)) : PollFrame d s (s'.onRun f) := by
  have hrun : (s'.onRun f).toRun = f s.tables s.toRun := by rw [State.onRun_toPart, h.part]; rfl
  exact ⟨(congrArg Part.tables h.part :), hrun ▸ hf, h.pending, h.other⟩

/-- A live poll of a WORKING device leaves the tables, the sound side, the queue and the other device. -/
theorem livePoll_frame {s : State} {d : Nat} {c : Cmd} (o : Op) (status : Byte) (hd : d < 2)
    (hw : s.toRun.dev d = .working c) : PollFrame d s (livePoll o d status s) := by
  by_cases h : status.getLsbD (profileRec s.tables d).busyBit = (profileRec s.tables d).busyWhen
  · rcases Nat.lt_or_ge (o.polls + 1) o.pollLimit with hl | hl
    · rw [livePoll_again h hl]
      exact (Stored.refl d s).pollFrame ((SoundFrame.withFlash s.toRun _).trans (Frame.pump s.tables _).sound)
    · rw [livePoll_timedOut h hl]
      refine (Stored.spoilWork hd hw).pollFrame ?_
      exact ((SoundFrame.withFlash s.toRun _).trans (SoundFrame.deviceFailed s.tables o d (freeBus s.toRun))).trans
        (Frame.faultVoices s.tables d _).sound
  · rw [livePoll_finished h]
    refine (Stored.settleWork o hd hw).pollFrame ?_
    exact (SoundFrame.withFlash s.toRun _).trans (SoundFrame.commandOver s.tables o ((freeBus s.toRun).setDev d .ready))

/-- A device no longer busy (R120, R122, R123, R130): it is READY, the command's effect shows, and the operation goes on
or ends. -/
theorem livePoll_finishes {s : State} {d : Nat} {o : Op} {c : Cmd} {status : Byte} (hm : memoryOk s = true) (hd : d < 2)
    (hw : s.toRun.dev d = .working c)
    (h : status.getLsbD (profileRec s.tables d).busyBit ≠ (profileRec s.tables d).busyWhen) :
    let t := livePoll o d status s
    t.flash.devs = s.flash.devs.set d .ready ∧ t.serial = s.serial
    ∧ (∀ a n, c = .erase a n → ∀ x, ¬ (o.kind = .settle ∧ d = 0 ∧ a = 0 ∧ x < 4) → Memory.read (t.mem d) x
        = if a ≤ x ∧ x < a + n then 0xFF else Memory.read (s.mem d) x)
    ∧ (o.kind = .settle → d = 0 → c.addr = 0 → noImage t)
    ∧ (∀ a b, c = .program a b → ∀ x, ¬ (o.kind = .settle ∧ d = 0 ∧ a = 0 ∧ x < 4) → Memory.read (t.mem d) x
        = if a ≤ x ∧ x < a + b.length then Memory.read (s.mem d) x &&& b.getD (x - a) 0 else Memory.read (s.mem d) x)
    ∧ (∀ c1 c2 rest, o.cmds = c1 :: c2 :: rest → t.ctl.places = s.ctl.places
        ∧ t.flash.op = some { o with cmds := c2 :: rest, step := .stepAt (s.port.now + 1) })
    ∧ (o.cmds.length < 2 → t.flash.op = none
        ∧ (o.kind ≠ .settle → o.kind ≠ .imageLoad → t.ctl.places = fillPlace (.ok, o.reply) s.ctl.places)) := by
  intro t
  have ht : t = (s.settleWork o d).onRun (fun t r => commandOver t o ((freeBus r).setDev d .ready)) := livePoll_finished h
  let r := (freeBus s.toRun).setDev d .ready
  have hrun : t.toRun = commandOver s.tables o r := by
    rw [ht, State.onRun_toPart, (Stored.settleWork o hd hw).part]
    rfl
  have hmem : t.mem d = (s.settleWork o d).mem d := by rw [ht, State.onRun_mem]
  refine ⟨?_, ?_, fun a n hc x hx => ?_, fun hs h0 ha => ?_, fun a b hc x hx => ?_, fun c1 c2 rest hc => ?_, fun hc => ?_⟩
  · rw [hrun, commandOver_devs]
    rfl
  · rw [ht]
    exact settleWork_serial o hw
  · subst hc
    rw [hmem, settleWork_read hd hw hx]
    exact Memory.read_erase _ a n x
  · subst h0
    exact noImage_of_flash0 (by rw [ht, State.onRun_flash0]) (settleWork_noImage hs hw ha)
  · subst hc
    rw [hmem, settleWork_read hd hw hx]
    exact Memory.read_program b (memoryOk_mem hm d) a x
  · rw [hrun, commandOver_next s.tables r hc]
    exact ⟨(Frame.pump _ _).ctl.places, pump_op_of_not_due (by rintro _ k ⟨⟩; nofun)⟩
  · rw [hrun, commandOver_last s.tables r hc]
    obtain ⟨hop, -, -, hplaces⟩ := pump_deliver s.tables o o.reply r
    exact ⟨hop, hplaces⟩

/-- A busy device within its limit is polled again an interval later (R120). -/
theorem livePoll_waits {s : State} {d : Nat} {o : Op} {status : Byte} (ho : s.flash.op = some o)
    (h : status.getLsbD (profileRec s.tables d).busyBit = (profileRec s.tables d).busyWhen) (hl : o.polls + 1 < o.pollLimit) :
    let t := livePoll o d status s
    storesKept s t ∧ t.flash.devs = s.flash.devs ∧ t.ctl.places = s.ctl.places
    ∧ t.flash.op = some { o with step := .pollAt (s.port.now + 48 * o.pollMs), polls := o.polls + 1 } := by
  intro t
  have ht : t = s.onRun (fun t r => pump t (waitPoll (o.polls + 1) (freeBus r))) := livePoll_again h hl
  let r := waitPoll (o.polls + 1) (freeBus s.toRun)
  have hop : r.flash.op = some { o with step := .pollAt (s.port.now + 48 * o.pollMs), polls := o.polls + 1 } :=
    congrArg (Option.map _) ho
  have hpump : Frame r (pump s.tables r) := Frame.pump _ _
  rw [ht]
  refine ⟨⟨rfl, rfl, rfl, rfl⟩, hpump.devs, hpump.ctl.places, ?_⟩
  exact (pump_op_of_not_due (by rw [hop]; rintro _ k ⟨⟩; nofun)).trans hop

/-- What a device at its poll limit leaves of the part (R105, R121). -/
theorem faultDevice_faults (t : Tables) (o : Op) (d : Nat) (r : Run) :
    let r' := faultDevice t o d (freeBus r)
    r'.flash.devs = r.flash.devs.set d .faulted ∧ r'.flash.op = none
    ∧ (r.report t (.flashFault d o.kind)).ctl.reports <+: r'.ctl.reports
    ∧ (o.kind ≠ .settle → o.kind ≠ .imageLoad → r'.ctl.places = fillPlace (.flashTimeout, []) r.ctl.places)
    ∧ (∀ v, v < 16 →
      let x := r.voice v
      let tied := x.state ≠ .idle
        ∧ ((∃ c sg, x.cursor = some c ∧ segmentRec t c.seg = some sg ∧ sg.device = d)
          ∨ (∃ y, y ∈ x.buffer ∧ y.dev = d) ∨ ∃ f, f ∈ r.flash.queue ∧ f.voice = v ∧ f.dev = d)
      (tied → (r'.voice v).state = .idle)
      ∧ (tied → x.state = .priming ∨ x.state = .playing ∨ x.state = .stopping →
          givesReport t r r' (.voice v .deviceFault x.startId))
      ∧ (¬ tied → x.cursor = none → x.tag = none → (r'.voice v).state = x.state)) := by
  intro r'
  let failed := deviceFailed t o d (freeBus r)
  have hflash : failed.flash = { r.flash with bus := none, devs := r.flash.devs.set d .faulted, op := none } :=
    deviceFailed_flash t o d (freeBus r)
  have hbus : failed.flash.bus = none := by rw [hflash]
  have hframe : Frame failed r' := Frame.faultVoices t d failed
  refine ⟨?_, ?_, ?_, fun hs hi => ?_, fun v hv => ?_⟩
  · rw [hframe.devs, hflash]
  · have hop := hframe.op
    rw [hflash] at hop
    exact Option.map_eq_none_iff.1 hop
  · rw [← report_reports_congr (r := r) (r' := freeBus r) t _ rfl rfl, ← deviceFailed_reports t o d (freeBus r)]
    exact hframe.ctl.reports
  · rw [hframe.ctl.places]
    exact deviceFailed_places t d (freeBus r) hs hi
  · intro x tied
    have hvoice : failed.voice v = x := deviceFailed_voice t o d (freeBus r) v
    have htied : tiedTo t failed v d = true ↔ tied := by
      rw [tiedTo_iff hbus, LiesOn, hvoice, hflash]
    refine ⟨fun h => (faultVoices_tied hv hbus (htied.2 h)).1, fun h hheard => ?_, fun h hcursor htag => ?_⟩
    · have hgiven := (faultVoices_tied hv hbus (htied.2 h)).2 (by rw [hvoice]; exact (VState.reports_iff _).2 hheard)
      rw [hvoice] at hgiven
      have hsound := SoundFrame.deviceFailed t o d (freeBus r)
      exact hgiven.after hsound.port hsound.reports
    · have hrest : (failed.voice v).AtRest := hvoice ▸ ⟨htag, .inr hcursor⟩
      exact (faultVoices_untied hv hbus (Bool.eq_false_iff.2 (mt htied.1 h)) hrest).trans (congrArg Voice.state hvoice)

/-- A device at its poll limit (R105, R121, R130): it fails, and only the bytes of its command are unknown. -/
theorem livePoll_timesOut {s : State} {d : Nat} {o : Op} {c : Cmd} {status : Byte} (hm : memoryOk s = true) (hd : d < 2)
    (hw : s.toRun.dev d = .working c)
    (h : status.getLsbD (profileRec s.tables d).busyBit = (profileRec s.tables d).busyWhen) (hl : o.pollLimit ≤ o.polls + 1) :
    let t := livePoll o d status s
    t.toRun = faultDevice s.tables o d (freeBus s.toRun)
    ∧ (d = 0 → c.addr = 0 ∨ Memory.read s.flash0 0 = 0xFF →
        checkImage (t.reader 0) = .error .noImage ∧ (c.addr = 0 → noImage t))
    ∧ ∀ x, x < c.addr ∨ c.addr + c.size ≤ x → ¬ (d = 0 ∧ c.addr = 0 ∧ x < 4) →
        Memory.read (t.mem d) x = Memory.read (s.mem d) x := by
  intro t
  have ht : t = ((s.spoilWork d).loseWork d).onRun (fun t r => faultDevice t o d (freeBus r)) := livePoll_timedOut h hl
  have hread : ∀ x, x < c.addr ∨ c.addr + c.size ≤ x → ¬ (d = 0 ∧ c.addr = 0 ∧ x < 4) →
      Memory.read (t.mem d) x = Memory.read (s.mem d) x := by
    intro x hx hid
    rw [ht, State.onRun_mem]
    exact spoilWork_read hd hm hw hx hid
  refine ⟨by rw [ht, State.onRun_toPart, (Stored.spoilWork hd hw).part, Part.onRun_toRun], fun h0 hlost => ?_, hread⟩
  subst h0
  have hnone (ha : c.addr = 0) : noImage t :=
    noImage_of_flash0 (by rw [ht, State.onRun_flash0]) (spoilWork_noImage hw ha)
  refine ⟨?_, hnone⟩
  by_cases ha : c.addr = 0
  · exact (hnone ha).2
  · have hkept : Memory.read t.flash0 0 = Memory.read s.flash0 0 := hread 0 (.inl (by omega)) (fun ⟨_, ha', _⟩ => ha ha')
    exact checkImage_noImage t (hkept.trans (hlost.resolve_left ha))

/-- Settles O45: a poll finds its device finished, busy within its limit, or at its limit. -/
theorem pollDecidesTheCommand : Obligations.PollDecidesTheCommand := by
  unfold Obligations.PollDecidesTheCommand
  intro s status d q o c hm hd hb ho hw
  have f := livePoll_frame o status hd hw
  have k := f.sound
  refine ⟨livePoll o d status s, congrArg Host.Outcome.next (pollDone_live status hb ho), f.tables,
    ⟨k.crosspoints, k.masters, k.trims, k.programmes, k.latch⟩, k.mix, k.cue, k.waits, k.shw, k.stage, k.port, f.pending,
    f.other, livePoll_finishes hm hd hw, fun hbusy => ⟨livePoll_waits ho hbusy, fun hl => ?_⟩⟩
  obtain ⟨hrun, himage, hread⟩ := livePoll_timesOut (o := o) hm hd hw hbusy hl
  obtain ⟨hdevs, hop, hreports, hplaces, hvoices⟩ := faultDevice_faults s.tables o d s.toRun
  rw [← hrun] at hdevs hop hreports hplaces hvoices
  refine ⟨hdevs, hop, hreports, hplaces, hvoices, himage, fun a n x hc => ?_, fun a b x hc => ?_⟩
  · subst hc
    exact hread x
  · subst hc
    exact hread x

end Sys2Proof.Machine

/-! PROOF. The flash store and the tables under every command: POWER_ON and POLL_COMPLETE alone change what the devices
hold (R120 to R123, R199), each in the canonical form, and a command that carries no load leaves the tables. -/

namespace Sys2Proof.Machine

open Sys2Proof

/-! ### Commands that leave the stores -/

theorem storesKept_refl (s : State) : storesKept s s := ⟨rfl, rfl, rfl, rfl⟩

/-- The end of the image load reads flash and leaves it (R131). -/
theorem imageLoadEnd_storesKept (s : State) : storesKept s (imageLoadEnd s) := by
  unfold imageLoadEnd
  split
  · split <;> exact ⟨rfl, rfl, rfl, rfl⟩
  · exact storesKept_refl s

/-- A request changes the part alone (R190). -/
theorem request_storesKept (s : State) (k : ReqKind) (own : Owner) (m : Msg) : storesKept s (s.request k own m) :=
  ⟨rfl, rfl, rfl, rfl⟩

/-- What a command can do to the stores: POWER_ON and POLL_COMPLETE have their own meanings, and every other one leaves
both devices, the serial number and the queue. -/
theorem exec_stores {i : Instr} {s t : State} (h : exec i s = .next t) :
    (∃ straps, i = .powerOn straps ∧ t = powerOn straps s)
    ∨ (∃ status, i = .pollComplete status ∧ t = pollDone status s) ∨ storesKept s t := by
  cases hreq : requestOf i with
  | some e =>
    rw [exec_request hreq] at h
    cases h
    exact .inr (.inr (request_storesKept s _ _ _))
  | none =>
    cases i with
    | powerOn straps => cases h; exact .inl ⟨straps, rfl, rfl⟩
    | pollComplete status => cases h; exact .inr (.inl ⟨status, rfl, rfl⟩)
    | imageLoadEnd x => cases h; exact .inr (.inr (imageLoadEnd_storesKept s))
    | frameArrival _ | messageNotRequest _ _ | unknownKind _ _ | voiceStarved _ | reassemblyTimeout _ | ringLoss
    | fadeComplete _ | guardWindowClose | prewaitExpiry | followExpiry | timerExpiry | holdExpiry _ | goHoldEnd _
    | goKeyPress | talkKeyChange _ | showStopKeyPress | pageKeyPress _ | pageKeyRelease _ | acknowledge _ | fetchComplete
    | flashCommandComplete | pollDue | saveStepDue | contentReadComplete | resetCommandComplete | restartCarriedOut
    | writeEnableComplete => cases h; exact .inr (.inr ⟨rfl, rfl, rfl, rfl⟩)
    | _ => cases hreq

/-! ### The queue at a poll and at power-on -/

@[simp] theorem loseWork_pending (d : Nat) (s : State) : (s.loseWork d).pending = s.pending := by
  unfold State.loseWork
  split
  · exact loseHeader_pending d _ s
  · rfl

@[simp] theorem finishWork_pending (d : Nat) (s : State) : (s.finishWork d).pending = s.pending := by
  unfold State.finishWork
  split
  · exact State.onMem_pending s d _
  · rfl

@[simp] theorem spoilWork_pending (d : Nat) (s : State) : (s.spoilWork d).pending = s.pending := by
  unfold State.spoilWork
  split
  · exact State.onMem_pending s d _
  · rfl

@[simp] theorem spoilBus_pending (s : State) : s.spoilBus.pending = s.pending := by
  unfold State.spoilBus
  split
  · exact State.onMem_pending s _ _
  · rfl

@[simp] theorem settleWork_pending (o : Op) (d : Nat) (s : State) : (s.settleWork o d).pending = s.pending := by
  unfold State.settleWork
  split <;> simp

@[simp] theorem loseSettled_pending (s : State) : s.loseSettled.pending = s.pending := by
  unfold State.loseSettled
  split
  · split <;> simp
  · rfl

theorem livePoll_pending (o : Op) (d : Nat) (status : Byte) (s : State) :
    (livePoll o d status s).pending = s.pending := by
  unfold livePoll
  split
  · simp
  · split <;> simp

theorem pollDone_pending (status : Byte) (s : State) : (pollDone status s).pending = s.pending := by
  unfold pollDone
  split
  · split
    · exact livePoll_pending _ _ status s
    · rfl
  · rfl

theorem powerOn_pending (straps : Byte) (s : State) : (powerOn straps s).pending = s.pending := by
  simp [powerOn]

/-- No command touches the queue. -/
theorem exec_pending {i : Instr} {s t : State} (h : exec i s = .next t) : t.pending = s.pending := by
  obtain ⟨straps, rfl, rfl⟩ | ⟨status, rfl, rfl⟩ | ⟨-, -, -, hpending⟩ := exec_stores h
  · exact powerOn_pending straps s
  · exact pollDone_pending status s
  · exact hpending

/-- Devices that hold what they held read as they read. -/
theorem bytesKept_of_storesKept {s t : State} (h : storesKept s t) : bytesKept s t := by
  obtain ⟨h0, h1, -, -⟩ := h
  intro d a
  simp only [State.mem, h0, h1]

/-- Settles O5: the queue stands under every command, and the stores under every one but the two named. -/
theorem onlyPollsAndPowerChangeFlash : Obligations.OnlyPollsAndPowerChangeFlash := by
  unfold Obligations.OnlyPollsAndPowerChangeFlash
  intro i s t h
  refine ⟨exec_pending h, fun hpower hpoll => ?_⟩
  obtain ⟨straps, hi, -⟩ | ⟨status, hi, -⟩ | hkept := exec_stores h
  · exact absurd hi (hpower straps)
  · exact absurd hi (hpoll status)
  · have ⟨_, _, hserial, _⟩ := hkept
    exact ⟨bytesKept_of_storesKept hkept, hserial⟩

/-! ### The canonical form -/

theorem memoryOk_of_storesKept {s t : State} (h : storesKept s t) (hs : memoryOk s = true) : memoryOk t = true := by
  obtain ⟨h0, h1, -, -⟩ := h
  simpa only [memoryOk, h0, h1] using hs

theorem onRun_memoryOk (s : State) (f : Tables → Run → Run) : memoryOk (s.onRun f) = memoryOk s := rfl

theorem onPart_memoryOk (s : State) (f : Part → Part) : memoryOk (s.onPart f) = memoryOk s := rfl

/-- A change of one device that keeps the form keeps it of both. -/
theorem onMem_memoryOk {s : State} (d : Nat) {f : List Host.Cell → List Host.Cell}
    (hf : ∀ m, Memory.wf m = true → Memory.wf (f m) = true) (hs : memoryOk s = true) :
    memoryOk (s.onMem d f) = true := by
  obtain ⟨h0, h1⟩ := Bool.and_eq_true_iff.1 hs
  unfold State.onMem
  split
  · exact Bool.and_eq_true_iff.2 ⟨hf _ h0, h1⟩
  · exact Bool.and_eq_true_iff.2 ⟨h0, hf _ h1⟩

theorem finishWork_memoryOk (d : Nat) {s : State} (hs : memoryOk s = true) : memoryOk (s.finishWork d) = true := by
  unfold State.finishWork
  split
  · exact onMem_memoryOk d (fun _ => Cmd.apply_wf _) hs
  · exact hs

theorem spoilWork_memoryOk (d : Nat) {s : State} (hs : memoryOk s = true) : memoryOk (s.spoilWork d) = true := by
  unfold State.spoilWork
  split
  · exact onMem_memoryOk d (fun _ => Cmd.scramble_wf _ _) hs
  · exact hs

theorem spoilBus_memoryOk {s : State} (hs : memoryOk s = true) : memoryOk s.spoilBus = true := by
  unfold State.spoilBus
  split
  · exact onMem_memoryOk _ (fun _ => Cmd.scramble_wf _ _) hs
  · exact hs

theorem settleWork_memoryOk (o : Op) (d : Nat) {s : State} (hs : memoryOk s = true) :
    memoryOk (s.settleWork o d) = true := by
  unfold State.settleWork
  split
  · exact loseWork_memoryOk d (finishWork_memoryOk d hs)
  · exact finishWork_memoryOk d hs

/-- A live poll keeps the form in each of its three outcomes (R120, R121). -/
theorem livePoll_memoryOk (o : Op) (d : Nat) (status : Byte) {s : State} (hs : memoryOk s = true) :
    memoryOk (livePoll o d status s) = true := by
  unfold livePoll
  split
  · rw [onRun_memoryOk]
    exact settleWork_memoryOk o d hs
  · split
    · rwa [onRun_memoryOk]
    · rw [onRun_memoryOk]
      exact loseWork_memoryOk d (spoilWork_memoryOk d hs)

theorem pollDone_memoryOk (status : Byte) {s : State} (hs : memoryOk s = true) :
    memoryOk (pollDone status s) = true := by
  unfold pollDone
  split
  · split
    · exact livePoll_memoryOk _ _ status hs
    · rwa [onRun_memoryOk]
  · exact hs

/-- Power-on keeps the form of what the commands cut short left (R199; log entries 8 and 46). -/
theorem powerOn_memoryOk (straps : Byte) {s : State} (hs : memoryOk s = true) : memoryOk (powerOn straps s) = true := by
  rw [powerOn, onPart_memoryOk]
  exact loseSettled_memoryOk (spoilWork_memoryOk 1 (spoilWork_memoryOk 0 (spoilBus_memoryOk hs)))

/-- Every command keeps the canonical form of both devices' contents. -/
theorem exec_memoryOk {i : Instr} {s t : State} (hs : memoryOk s = true) (h : exec i s = .next t) :
    memoryOk t = true := by
  obtain ⟨straps, rfl, rfl⟩ | ⟨status, rfl, rfl⟩ | hkept := exec_stores h
  · exact powerOn_memoryOk straps hs
  · exact pollDone_memoryOk status hs
  · exact memoryOk_of_storesKept hkept hs

/-- Settles O10: the command at the front of the queue keeps the form, and an empty queue changes nothing. -/
theorem flashContentsStayCanonical : Obligations.FlashContentsStayCanonical := by
  unfold Obligations.FlashContentsStayCanonical
  intro s t hs h
  unfold step at h
  split at h
  · cases h
    exact hs
  · rename_i c rest _
    exact exec_memoryOk (s := { s with pending := rest }) hs h

/-! ### The tables -/

/-- A request whose row is no load has an owner that loads nothing (Table 13-7). -/
theorem loads_of_mayLoad {i : Instr} {k : ReqKind} {m : Msg} (h : requestOf i = some (k, m)) (hi : mayLoad i = false) :
    k.loads = false := by
  cases i with
  | loadLaw _ | loadInput _ | loadMix _ | loadScene _ | loadCue _ | deleteCue _ | clearCues _ | loadSegment _
  | loadProfile _ | loadZone _ | loadPageSource _ | loadPageOrder _ | setLocks _ | loadLight _ | loadSettings _ =>
    cases hi
  | _ => cases h <;> rfl

theorem takeRequest_tables_of_not_load {k : ReqKind} (h : k.loads = false) (m : Msg) (p : Part) :
    (takeRequest k (ownerOf k) m p).tables = p.tables := by
  rcases takeRequest_tables k (ownerOf k) m p with e | e
  · exact e
  · rw [e, ownerOf_tables h, holdPlace_tables]

/-- Settles O6: a request leaves the tables by its owner, and every other command by its meaning. -/
theorem onlyLoadsChangeTables : Obligations.OnlyLoadsChangeTables := by
  unfold Obligations.OnlyLoadsChangeTables
  intro i s t hi h
  cases hreq : requestOf i with
  | some e =>
    rw [exec_request hreq] at h
    cases h
    exact takeRequest_tables_of_not_load (loads_of_mayLoad hreq hi) _ s.toPart
  | none =>
    cases i with
    | powerOn _ | imageLoadEnd _ | frameArrival _ | messageNotRequest _ _ | unknownKind _ _ => cases hi
    | pollComplete status => cases h; exact pollDone_tables status s
    | voiceStarved _ | reassemblyTimeout _ | ringLoss | fadeComplete _ | guardWindowClose | prewaitExpiry | followExpiry
    | timerExpiry | holdExpiry _ | goHoldEnd _ | goKeyPress | talkKeyChange _ | showStopKeyPress | pageKeyPress _
    | pageKeyRelease _ | acknowledge _ | fetchComplete | flashCommandComplete | pollDue | saveStepDue
    | contentReadComplete | resetCommandComplete | restartCarriedOut | writeEnableComplete => cases h; rfl
    | _ => cases hreq

end Sys2Proof.Machine

/-! PROOF. LOAD_PROFILE (R111, R112): its owner reads the profile of the payload, refuses it where a field is out of
range or a segment of the device would not fit, or while the device has an operation, and else takes it. -/

namespace Sys2Proof.Machine

open Sys2Proof

/-- The profile that the payload of a LOAD_PROFILE gives, its poll interval clamped (R111, Table 13-7). -/
def profilePayload (p : List Byte) : Profile :=
  { size := u32 p 1, readInstr := byte (u8 p 5), addrBytes := u8 p 6
    modeByte := if u8 p 7 = 0 then none else some (byte (u8 p 8)), dummy := u8 p 9, instrLanes := u8 p 10
    addrLanes := u8 p 11, dataLanes := u8 p 12, writeEnable := byte (u8 p 13), program := byte (u8 p 14)
    erase := byte (u8 p 15), sector := if u8 p 16 = 0 then 4096 else 65536, statusRead := byte (u8 p 17)
    busyBit := u8 p 18, busyWhen := decide (u8 p 19 = 1), reset1 := byte (u8 p 20), reset2 := byte (u8 p 21)
    pollMs := max 1 (min 255 (u16 p 22)), pollLimit := u16 p 24 }

theorem profileOf_payload {p : List Byte} (h : profileFieldsOk p) : profileOf p = some (profilePayload p) :=
  profileOf_taken h

theorem ownLoadProfile_unread {b : List Byte} (h : profileOf b = none) (p : Part) :
    ownLoadProfile b p = refuse .badField p := by
  simp only [ownLoadProfile, h]

theorem ownLoadProfile_unfit {b : List Byte} {p : Part} {pr : Profile} (hpr : profileOf b = some pr)
    (h : segmentsFit p.tables (u8 b 0) pr.size = false) : ownLoadProfile b p = refuse .badField p := by
  simp only [ownLoadProfile, hpr, h, if_true]

theorem ownLoadProfile_fit {b : List Byte} {p : Part} {pr : Profile} (hpr : profileOf b = some pr)
    (h : segmentsFit p.tables (u8 b 0) pr.size = true) :
    ownLoadProfile b p = if opOn p.toRun (u8 b 0) then refuse .busy p
      else { part := p.withTables { p.tables with profiles := p.tables.profiles.set (u8 b 0) pr }
             answer := .now (adjusted (u16 b 22 ≠ pr.pollMs)) (profileBytes (u8 b 0) pr) } := by
  simp only [ownLoadProfile, hpr, h, Bool.true_eq_false, if_false]

/-- ADJUSTED says that the stored value is not the one asked for (R192). -/
theorem adjusted_ne (a b : Nat) : adjusted (decide (a ≠ b)) = if a = b then .ok else .adjusted := by
  by_cases h : a = b <;> simp [adjusted, h]

/-- Settles O42: the owner's checks in order, each exactly as R111 and R112 word it. -/
theorem loadProfileTakesTheProfile : Obligations.LoadProfileTakesTheProfile := by
  unfold Obligations.LoadProfileTakesTheProfile
  intro m s ha b size ok pr held
  have hok : ok ↔ profileFieldsOk m.payload ∧ segmentsFit s.tables (b 0) size = true := by
    rw [segmentsFit_iff]
    simp only [profileFieldsOk, and_assoc]
    exact Iff.rfl
  have hread : ok → ownLoadProfile m.payload (holdPlace ReqKind.loadProfile.code m s.toPart) = _ := fun hgood =>
    have ⟨hfields, hfit⟩ := hok.1 hgood
    ownLoadProfile_fit (profileOf_payload hfields) hfit
  refine ⟨fun hbad => ?_, fun hgood hheld => ?_, fun hgood hfree => ?_⟩
  · refine congrArg Host.Outcome.next (request_refused ha ?_)
    by_cases hfields : profileFieldsOk m.payload
    · exact ownLoadProfile_unfit (profileOf_payload hfields)
        (Bool.eq_false_iff.2 (fun hfit => hbad (hok.2 ⟨hfields, hfit⟩)))
    · exact ownLoadProfile_unread (profileOf_refused hfields) _
  · have hbusy := (hread hgood).trans (if_pos ((opOn_iff _ _).2 hheld))
    exact congrArg Host.Outcome.next (request_refused ha hbusy)
  · have htaken := (hread hgood).trans (if_neg (fun h => hfree ((opOn_iff _ _).1 h)))
    rw [adjusted_ne] at htaken
    exact congrArg Host.Outcome.next (request_now ha htaken rfl)

end Sys2Proof.Machine

/-! PROOF. A command of a content operation (R114, R120, R122, R126): it follows its write enable on the held bus, its
device is then WORKING, and an abandoned write enable is followed by none, whatever the pump starts on the freed bus. -/

namespace Sys2Proof.Machine

open Sys2Proof

/-! ### The pump starts no command (R117) -/

theorem commandOnBus_iff (r : Run) :
    commandOnBus r = true ↔ ∃ d c q, r.flash.bus = some { kind := .command d c, seq := q } := by
  unfold commandOnBus
  split
  · rename_i d c q h
    exact iff_of_true rfl ⟨d, c, q, h⟩
  · rename_i h
    exact iff_of_false Bool.false_ne_true (fun ⟨d, c, q, e⟩ => h d c q e)

/-- Marking a fetch for discard makes no command of it (R92). -/
theorem discardOnBus_command_iff (v : Nat) (b : Option Xfer) (d : Nat) (c : Cmd) (q : BusSeq) :
    discardOnBus v b = some { kind := .command d c, seq := q } ↔ b = some { kind := .command d c, seq := q } := by
  unfold discardOnBus
  split
  · simp
  · rfl

theorem withdrawFetches_commandOnBus (v : Nat) (r : Run) : commandOnBus (withdrawFetches v r) = commandOnBus r := by
  rw [Bool.eq_iff_iff, commandOnBus_iff, commandOnBus_iff]
  simp only [← discardOnBus_command_iff v r.flash.bus]
  rfl

theorem commandOnBus_congr {r r' : Run} (h : r'.flash = r.flash) : commandOnBus r' = commandOnBus r := by
  simp only [commandOnBus, h]

theorem goIdle_commandOnBus (t : Tables) (v : Nat) (why : VReason) (r : Run) :
    commandOnBus (goIdle t v why r) = commandOnBus r := by
  by_cases h : (r.voice v).state = .idle
  · simp [goIdle, h]
  · exact (commandOnBus_congr (goIdle_flash t why h)).trans (withdrawFetches_commandOnBus v r)

theorem makeRefill_commandOnBus (t : Tables) (v : Nat) (r : Run) : commandOnBus (makeRefill t v r) = commandOnBus r := by
  unfold makeRefill
  split
  · rfl
  · split
    · rfl
    · dsimp only
      split
      · rfl
      · rw [goIdle_commandOnBus]
        rfl

theorem askRefill_commandOnBus (t : Tables) (v : Nat) (r : Run) : commandOnBus (askRefill t v r) = commandOnBus r := by
  unfold askRefill
  split
  · exact makeRefill_commandOnBus t v r
  · rfl

theorem stepXfer_no_command {t : Tables} {o : Op} {k : StepKind} {x : Xfer} (h : stepXfer t o k = some x) :
    ∀ d c, x.kind ≠ .command d c := by
  cases k with
  | command =>
    cases hc : o.cmds with
    | nil => simp [stepXfer, hc] at h
    | cons c rest =>
      simp only [stepXfer, hc] at h
      cases h
      nofun
  | _ => cases h; nofun

/-- A step that is due has its transfer (R117). -/
theorem dueStep_xfer {t : Tables} {r : Run} {o : Op} {x : Xfer} (h : dueStep t r = some (o, x)) :
    ∃ k, stepXfer t o k = some x := by
  unfold dueStep at h
  split at h
  · split at h
    · rename_i k _
      obtain ⟨_, hx, e⟩ := Option.map_eq_some_iff.1 h
      cases e
      exact ⟨k, hx⟩
    · cases h
  · cases h

/-- What the arbiter starts is a write enable, a read, a reset, a poll or a fetch (R117). -/
theorem arbiterStart_commandOnBus {t : Tables} {r r' : Run} (h : arbiterStart t r = some r') :
    commandOnBus r' = false := by
  unfold arbiterStart at h
  split at h
  · cases h
  · split at h
    · rename_i o x hd
      cases h
      obtain ⟨k, hk⟩ := dueStep_xfer hd
      refine Bool.eq_false_iff.2 (fun hc => ?_)
      obtain ⟨d, c, q, e⟩ := (commandOnBus_iff _).1 hc
      cases e
      exact stepXfer_no_command hk d c rfl
    · split at h
      · cases h; rfl
      · cases h

theorem pumpOnce_commandOnBus {t : Tables} {r r' : Run} (h : pumpOnce t r = some r') (hr : commandOnBus r = false) :
    commandOnBus r' = false := by
  unfold pumpOnce at h
  split at h
  · cases h
    rw [makeRefill_commandOnBus]
    exact hr
  · split at h
    · cases h
      rwa [askRefill_commandOnBus]
    · exact arbiterStart_commandOnBus h

/-- The pump starts no erase or program command: that takes a completed write enable (R117, R122). -/
theorem pumpLoop_commandOnBus (t : Tables) (n : Nat) : ∀ r : Run, commandOnBus r = false →
    commandOnBus (pumpLoop t n r) = false := by
  induction n with
  | zero => exact fun _ h => h
  | succ n ih =>
    intro r h
    unfold pumpLoop
    split
    · exact ih _ (pumpOnce_commandOnBus ‹_› h)
    · exact h

/-! ### The completions (R114, R120, R122, R126) -/

theorem writeEnableDone_live (t : Tables) {r : Run} {d : Nat} {c : Cmd} {q : BusSeq}
    (hb : r.flash.bus = some { kind := .writeEnable d c true, seq := q }) :
    writeEnableDone t r = { r with flash := { r.flash with
      bus := some { kind := .command d c, seq := cmdSeq (profileRec t d) d c } } } := by
  simp only [writeEnableDone, hb, if_true]

theorem writeEnableDone_abandoned (t : Tables) {r : Run} {d : Nat} {c : Cmd} {q : BusSeq}
    (hb : r.flash.bus = some { kind := .writeEnable d c false, seq := q }) :
    writeEnableDone t r = pump t (freeBus r) := by
  simp only [writeEnableDone, hb, Bool.false_eq_true, if_false]

theorem commandDone_eq (t : Tables) {r : Run} {d : Nat} {c : Cmd} {q : BusSeq}
    (hb : r.flash.bus = some { kind := .command d c, seq := q }) :
    commandDone t r = pump t (waitPoll 0 ((freeBus r).setDev d (.working c))) := by
  simp only [commandDone, hb]

/-- WRITE_ENABLE_COMPLETE of an operation abandoned by a RESTART (R126). -/
theorem writeEnableComplete_abandoned {s : State} {d : Nat} {c : Cmd} {q : BusSeq}
    (hb : s.flash.bus = some { kind := .writeEnable d c false, seq := q }) :
    let t := s.onRun writeEnableDone
    (∀ d' c' q', t.flash.bus ≠ some { kind := .command d' c', seq := q' })
    ∧ t.flash.devs = s.flash.devs ∧ t.tables = s.tables ∧ soundKept s t := by
  intro t
  have hrun : t.toRun = pump s.tables (freeBus s.toRun) := writeEnableDone_abandoned _ hb
  have hframe : Frame s.toRun t.toRun := hrun ▸ Frame.freedBus _ _
  have hbus : commandOnBus t.toRun = false := hrun ▸ pumpLoop_commandOnBus s.tables 64 (freeBus s.toRun) rfl
  refine ⟨fun d' c' q' e => ?_, hframe.devs, rfl, soundKept_of_soundFrame hframe.sound ⟨rfl, rfl, rfl, rfl⟩⟩
  exact absurd ((commandOnBus_iff _).2 ⟨d', c', q', e⟩) (Bool.eq_false_iff.1 hbus)

/-- FLASH_COMMAND_COMPLETE: the device is WORKING and the first poll is one interval away (R114, R120). -/
theorem flashCommandComplete_works {s : State} {d : Nat} {c : Cmd} {q : BusSeq} {o : Op}
    (hb : s.flash.bus = some { kind := .command d c, seq := q }) (ho : s.flash.op = some o) :
    let t := s.onRun commandDone
    t.flash.devs = s.flash.devs.set d (.working c)
    ∧ t.flash.op = some { o with step := .pollAt (s.port.now + 48 * o.pollMs), polls := 0 }
    ∧ t.ctl.places = s.ctl.places ∧ t.tables = s.tables ∧ soundKept s t := by
  intro t
  let working := waitPoll 0 ((freeBus s.toRun).setDev d (.working c))
  have hrun : t.toRun = pump s.tables working := commandDone_eq _ hb
  have hpump : Frame working t.toRun := hrun ▸ Frame.pump _ _
  have hop : working.flash.op = some { o with step := .pollAt (s.port.now + 48 * o.pollMs), polls := 0 } :=
    congrArg (Option.map _) ho
  have hnotDue : ∀ o' k, working.flash.op = some o' → o'.step ≠ .due k := by
    rw [hop]
    rintro _ k ⟨⟩
    nofun
  have hsound : SoundFrame s.toRun t.toRun := (SoundFrame.withFlash s.toRun working.flash).trans hpump.sound
  refine ⟨hpump.devs, ?_, hpump.ctl.places, rfl, soundKept_of_soundFrame hsound ⟨rfl, rfl, rfl, rfl⟩⟩
  rw [hrun, pump_op_of_not_due hnotDue, hop]

/-- Settles O44: the write enable's two ends, and the command's. -/
theorem writeEnableThenCommandThenWorking : Obligations.WriteEnableThenCommandThenWorking := by
  unfold Obligations.WriteEnableThenCommandThenWorking
  refine ⟨fun s d c q hb => ?_, fun s d c q hb => ⟨_, rfl, writeEnableComplete_abandoned hb⟩,
    fun s d c q o hb ho => ⟨_, rfl, flashCommandComplete_works hb ho⟩⟩
  exact congrArg (fun r => Host.Outcome.next { s with toRun := r }) (writeEnableDone_live s.tables hb)

end Sys2Proof.Machine

/-! PROOF. The steps that fall due on frames (R120, R130): POLL_DUE and SAVE_STEP_DUE hand the operation's next step to
the arbiter, and the sequences of the transfers it starts (R113, R117). -/

namespace Sys2Proof.Machine

open Sys2Proof

/-! ### A step handed to the arbiter -/

theorem pollIsDue_of_pollAt {r : Run} {o : Op} {f : Nat} (ho : r.flash.op = some o) (hs : o.step = .pollAt f)
    (hf : f ≤ r.port.now) : pollIsDue r = true := by
  simp [pollIsDue, ho, hs, Run.dueAt, hf]

theorem saveStepIsDue_of_stepAt {r : Run} {o : Op} {f : Nat} (ho : r.flash.op = some o) (hs : o.step = .stepAt f)
    (hf : f ≤ r.port.now) : saveStepIsDue r = true := by
  simp [saveStepIsDue, ho, hs, Run.dueAt, hf]

/-- What an event shows for the frame it was taken on is the zones' sources and the lamps alone (R134, R171). -/
theorem soundKept_event {s : State} {f : Tables → Run → Run} (h : SoundFrame s.toRun (f s.tables s.toRun)) :
    soundKept s (s.event f) :=
  ⟨h.crosspoints, h.masters, h.trims, h.programmes, h.mix, h.latch, h.cue, h.waits, h.shw,
   congrArg (fun x : StageRt => { x with lamps := s.stage.lamps }) h.stage, h.port, h.taking, h.restartDue, h.reports,
   rfl, rfl, rfl, rfl⟩

@[simp] theorem event_flash (s : State) (f : Tables → Run → Run) : (s.event f).flash = (f s.tables s.toRun).flash := rfl
@[simp] theorem event_ctl (s : State) (f : Tables → Run → Run) : (s.event f).ctl = (f s.tables s.toRun).ctl := rfl

theorem setStep_op {r : Run} {o : Op} (ho : r.flash.op = some o) (k : OpStep) :
    (setStep k r).flash.op = some { o with step := k } := congrArg (Option.map _) ho

/-- An event that hands a step of the operation to the arbiter (R117): the step is due, or begun with its transfer, and
the rest of the operation, the devices, the replies and the sound side stand. -/
theorem stepHanded {s : State} {f : Tables → Run → Run} {o : Op} {k : StepKind} (ho : s.flash.op = some o)
    (hf : f s.tables s.toRun = pump s.tables (setStep (.due k) s.toRun)) :
    let t := s.event f
    (∃ o', t.flash.op = some o' ∧ o'.rest = o.rest
      ∧ (o'.step = .due k ∨ o'.step = .running ∧ t.flash.bus = stepXfer s.tables o k))
    ∧ t.flash.devs = s.flash.devs ∧ t.ctl.places = s.ctl.places ∧ t.tables = s.tables ∧ soundKept s t := by
  intro t
  let due := setStep (.due k) s.toRun
  have hpump : Frame due (pump s.tables due) := Frame.pump _ _
  have hflash : t.flash = (pump s.tables due).flash := by rw [event_flash, hf]
  have hctl : t.ctl = (pump s.tables due).ctl := by rw [event_ctl, hf]
  have hsound : SoundFrame s.toRun (f s.tables s.toRun) :=
    hf ▸ (SoundFrame.withFlash s.toRun due.flash).trans hpump.sound
  refine ⟨?_, hflash ▸ hpump.devs, hctl ▸ hpump.ctl.places, rfl, soundKept_event hsound⟩
  rw [hflash]
  rcases pump_due s.tables o k due (setStep_op ho _) with hop | ⟨-, hop, hbus⟩
  · exact ⟨_, hop, rfl, .inl rfl⟩
  · exact ⟨_, hop, rfl, .inr ⟨rfl, hbus⟩⟩

theorem pollDueNow_due {t : Tables} {r : Run} (h : pollIsDue r = true) :
    pollDueNow t r = pump t (setStep (.due .poll) r) := if_pos h

theorem pollDueNow_not_due {t : Tables} {r : Run} (h : pollIsDue r = false) : pollDueNow t r = r :=
  if_neg (Bool.eq_false_iff.1 h)

theorem saveStepDueNow_due {t : Tables} {r : Run} (h : saveStepIsDue r = true) :
    saveStepDueNow t r = pump t (setStep (.due .command) r) := if_pos h

theorem saveStepDueNow_not_due {t : Tables} {r : Run} (h : saveStepIsDue r = false) : saveStepDueNow t r = r :=
  if_neg (Bool.eq_false_iff.1 h)

/-! ### The sequences (R113) -/

/-- A write enable goes before every command (R122). -/
theorem stepXfer_command (t : Tables) {o : Op} {c : Cmd} {rest : List Cmd} (h : o.cmds = c :: rest) :
    stepXfer t o .command
      = some { kind := .writeEnable o.dev c true, seq := commandSeq o.dev (profileRec t o.dev).writeEnable [] [] } := by
  simp only [stepXfer, h]

theorem busAddress_eq {pr : Profile} (h : pr.addrBytes = 3 ∨ pr.addrBytes = 4) (a : Nat) :
    busAddress pr a = if pr.addrBytes = 4 then [byte (a / 16777216), byte (a / 65536), byte (a / 256), byte a]
      else [byte (a / 65536), byte (a / 256), byte a] := by
  rcases h with h | h <;> simp [busAddress, h, le32]

/-! ### The statement -/

/-- Settles O46: a step that is due is handed to the arbiter, whose choice and sequences are as R113 and R117 say. -/
theorem stepsFallDueOnTheirFrames : Obligations.StepsFallDueOnTheirFrames := by
  unfold Obligations.StepsFallDueOnTheirFrames
  refine ⟨fun s o f ho hs hf => ?_, fun s o f c rest ho hs hc hf => ?_, fun s => ⟨fun h => ?_, fun h => ?_⟩,
    fun t r => ?_⟩
  · obtain ⟨⟨o', hop, hrest, hstep⟩, hkept⟩ :=
      stepHanded ho (pollDueNow_due (t := s.tables) (pollIsDue_of_pollAt ho hs hf))
    exact ⟨s.event pollDueNow, o', rfl, hop, hrest, hstep.imp_right (And.imp_right fun hbus => ⟨_, hbus⟩), hkept⟩
  · obtain ⟨⟨o', hop, hrest, hstep⟩, hkept⟩ :=
      stepHanded ho (saveStepDueNow_due (t := s.tables) (saveStepIsDue_of_stepAt ho hs hf))
    rw [stepXfer_command s.tables hc] at hstep
    exact ⟨s.event saveStepDueNow, o', rfl, hop, hrest, hstep.imp_right (And.imp_right fun hbus => ⟨_, hbus⟩), hkept⟩
  · exact congrArg Host.Outcome.next (event_id (pollDueNow_not_due h))
  · exact congrArg Host.Outcome.next (event_id (saveStepDueNow_not_due h))
  · obtain ⟨hheld, hdue, hfetch⟩ := arbiterStart_cases t r
    refine ⟨hheld, hdue, hfetch, fun t o => ⟨fun c rest h => stepXfer_command t h, fun _ _ => rfl, rfl, rfl, rfl⟩,
      fun pr d a n bytes => ⟨fun _ => rfl, fun h => ?_⟩⟩
    simp only [cmdSeq, readSeq, commandSeq, busAddress_eq h, and_self]

end Sys2Proof.Machine

/-! PROOF. Content requests (R119, R122 to R125, R129): each owner refuses a field out of range, and hands an operation
whose fields are in range to the two checks of R119, which refuse it or take it with its first step due. -/

namespace Sys2Proof.Machine

open Sys2Proof

/-! ### The checks of R119 -/

theorem acceptOp_busy {o : Op} {p : Part} (h : p.flash.op ≠ none) : acceptOp o p = refuse .busy p :=
  if_pos (Option.isSome_iff_ne_none.2 h)

theorem acceptOp_faulted {o : Op} {p : Part} (hop : p.flash.op = none) (hdev : p.toRun.dev o.dev = .faulted)
    (hkind : o.kind ≠ .reset) : acceptOp o p = refuse .flashFault p := by
  simp only [acceptOp, hop, Option.isSome_none, Bool.false_eq_true, if_false]
  exact if_pos ⟨hdev, hkind⟩

theorem acceptOp_taken {o : Op} {p : Part} (hop : p.flash.op = none)
    (h : p.toRun.dev o.dev ≠ .faulted ∨ o.kind = .reset) :
    acceptOp o p = { part := p.onRun (fun t r => beginOp t o r), answer := .later } := by
  simp only [acceptOp, hop, Option.isSome_none, Bool.false_eq_true, if_false]
  exact if_neg (fun k => h.elim (fun hdev => hdev k.1) k.2)

/-- A place held for a request changes the reply queue alone (R191). -/
theorem SoundFrame.holdPlace (k : Nat) (m : Msg) (p : Part) : SoundFrame p.toRun (holdPlace k m p).toRun :=
  ⟨rfl, rfl, rfl, rfl, rfl, rfl, rfl, rfl, rfl, rfl, rfl, rfl, rfl, List.prefix_refl _⟩

/-! ### A content request that reaches the checks of R119 -/

/-- A row whose request hands an operation to the checks of R119, with the step that is its first. -/
structure HandsOver (s : State) (m : Msg) (i : Instr) (k : ReqKind) (o : Op) (first : StepKind) : Prop where
  row   : requestOf i = some (k, m)
  owner : ownerOf k m.payload (holdPlace k.code m s.toPart)
    = acceptOp { o with step := .due first } (holdPlace k.code m s.toPart)
  reset : o.kind = .reset ↔ k = .flashReset

section

variable {s : State} {m : Msg} {i : Instr} {k : ReqKind} {o : Op} {first : StepKind}

theorem HandsOver.busy (ha : accepts s k m) (h : HandsOver s m i k o first) (hop : s.flash.op ≠ none) : exec i s = .next (s.reply k m .busy []) := by
  rw [exec_request h.row, request_refused ha (h.owner.trans (acceptOp_busy hop))]

theorem HandsOver.faulted (ha : accepts s k m) (h : HandsOver s m i k o first) (hop : s.flash.op = none)
    (hdev : s.toRun.dev o.dev = .faulted) (hk : k ≠ .flashReset) : exec i s = .next (s.reply k m .flashFault []) := by
  rw [exec_request h.row, request_refused ha (h.owner.trans (acceptOp_faulted hop hdev (fun e => hk (h.reset.1 e))))]

/-- An operation that passes the checks of R119 is the content engine's, its first step due or begun. -/
theorem HandsOver.accepted (ha : accepts s k m) (h : HandsOver s m i k o first) (hop : s.flash.op = none)
    (hdev : s.toRun.dev o.dev ≠ .faulted ∨ k = .flashReset) :
    ∃ t, exec i s = .next t ∧ acceptedAs s t k m o first := by
  let held := holdPlace k.code m s.toPart
  let due : Run := { held.toRun with flash := { held.flash with op := some { o with step := .due first } } }
  let t := s.onPart (fun _ => { held with toRun := pump s.tables due })
  have howner : ownerOf k m.payload held
      = { part := held.onRun (fun t r => beginOp t { o with step := .due first } r), answer := .later } :=
    h.owner.trans (acceptOp_taken hop (hdev.imp_right h.reset.2))
  have hexec : exec i s = .next t := by
    rw [exec_request h.row, request_of_accepts _ ha, State.onPart, howner]
    rfl
  have hpump : Frame due t.toRun := Frame.pump _ _
  have hsound : SoundFrame s.toRun t.toRun :=
    ((SoundFrame.holdPlace k.code m s.toPart).trans (SoundFrame.withFlash _ due.flash)).trans hpump.sound
  exact ⟨t, hexec, pump_due s.tables o first due rfl, hpump.ctl.places, hpump.devs, rfl,
    soundKept_of_soundFrame hsound ⟨rfl, rfl, rfl, rfl⟩⟩

end

/-! ### The owners -/

theorem outsideImage_iff (dev addr : Nat) : outsideImage dev addr = true ↔ (dev = 0 → 1048576 ≤ addr) := by
  simp [outsideImage, imp_iff_not_or]

/-- FLASH_ERASE takes a sector of the device, outside the image area (R122). -/
theorem ownFlashErase_eq (p : List Byte) (s : Part) :
    let dev := u8 p 0
    let pr := profileRec s.tables dev
    let addr := u32 p 1 * pr.sector
    ownFlashErase p s = if dev < 2 ∧ addr < pr.size ∧ (dev = 0 → 1048576 ≤ addr) then
        acceptOp (newOp s.tables .erase dev [.erase addr pr.sector] (.due .command) (p.take 5)) s
      else refuse .badField s := by
  simp only [ownFlashErase, outsideImage_iff]

/-- FLASH_WRITE takes 1 to 256 bytes of one page of the device, outside the image area (R123, R206). -/
theorem ownFlashWrite_eq (p : List Byte) (s : Part) :
    let dev := u8 p 0
    let addr := u32 p 1
    let n := p.length - 5
    ownFlashWrite p s = if n = 0 ∨ 256 < n then refuse .badLength s
      else if dev < 2 ∧ addr + n ≤ (profileRec s.tables dev).size ∧ (dev = 0 → 1048576 ≤ addr)
          ∧ addr % 256 + n ≤ 256 then
        acceptOp (newOp s.tables .write dev [.program addr (p.drop 5)] (.due .command) (p.take 5 ++ le16 n)) s
      else refuse .badField s := by
  simp only [ownFlashWrite, outsideImage_iff, List.length_drop]

/-- FLASH_READ takes 1 to 1,000 bytes of the device (R124). -/
theorem ownFlashRead_eq (p : List Byte) (s : Part) :
    let dev := u8 p 0
    let addr := u32 p 1
    let n := u16 p 5
    ownFlashRead p s = if dev < 2 ∧ 1 ≤ n ∧ n ≤ 1000 ∧ addr + n ≤ (profileRec s.tables dev).size then
        acceptOp (newOp s.tables .read dev [] (.due (.read addr n)) (p.take 5)) s
      else refuse .badField s := rfl

/-- FLASH_RESET takes any device (R125). -/
theorem ownFlashReset_eq (p : List Byte) (s : Part) :
    let dev := u8 p 0
    ownFlashReset p s = if dev < 2 then
        acceptOp (newOp s.tables .reset dev [] (.due .reset1) [byte dev, byte (s.toRun.dev dev).code]) s
      else refuse .badField s := rfl

/-- The commands of a save (R130): the pages after page 0 are numbered from page 1. -/
theorem saveCmds_eq (sector : Nat) (bytes : List Byte) :
    saveCmds sector bytes
      = (List.range ((bytes.length + sector - 1) / sector)).map (fun k => Cmd.erase (sector * k) sector)
        ++ (List.range ((bytes.length + 255) / 256 - 1)).map (fun p => pageCmd bytes (p + 1)) ++ [pageCmd bytes 0] := by
  have htail : ∀ n, (List.range n).tail.map (pageCmd bytes)
      = (List.range (n - 1)).map (fun p => pageCmd bytes (p + 1)) := by
    intro n
    cases n with
    | zero => rfl
    | succ n => simp [List.range_succ_eq_map]
  simp only [saveCmds, htail]
  rfl

/-! ### The statement -/

/-- A request out of range is refused, whatever the content engine holds. -/
theorem exec_badField {s : State} {m : Msg} {i : Instr} {k : ReqKind} {c : Prop} [Decidable c] {a : Answered}
    (hrow : requestOf i = some (k, m)) (ha : accepts s k m)
    (howner : ownerOf k m.payload (holdPlace k.code m s.toPart)
      = if c then a else refuse .badField (holdPlace k.code m s.toPart)) (h : ¬ c) :
    exec i s = .next (s.reply k m .badField []) := by
  rw [exec_request hrow, request_refused ha (howner.trans (if_neg h))]

/-- Settles O43: what R119 makes of an operation handed over, and every field out of range. -/
theorem contentRequestsAreAccepted : Obligations.ContentRequestsAreAccepted := by
  unfold Obligations.ContentRequestsAreAccepted
  refine ⟨?_, ?_, fun _ _ _ _ _ _ => rfl, saveCmds_eq⟩
  · intro m s i k o first ha p dev pr h
    have hands : HandsOver s m i k o first := by
      rcases h with ⟨rfl, rfl, hd, hsize, himage, rfl, rfl⟩ | ⟨rfl, rfl, hd, hmin, hmax, hsize, himage, hpage, rfl, rfl⟩
        | ⟨rfl, rfl, hd, hmin, hmax, hsize, rfl, rfl⟩ | ⟨rfl, rfl, hd, rfl, rfl⟩ | ⟨rfl, rfl, rfl, rfl⟩
      · exact ⟨rfl, (ownFlashErase_eq _ _).trans (if_pos ⟨hd, hsize, himage⟩), iff_of_false nofun nofun⟩
      · have hlen : ¬ (p.length - 5 = 0 ∨ 256 < p.length - 5) := by omega
        exact ⟨rfl, (ownFlashWrite_eq _ _).trans ((if_neg hlen).trans (if_pos ⟨hd, hsize, himage, hpage⟩)),
          iff_of_false nofun nofun⟩
      · exact ⟨rfl, (ownFlashRead_eq _ _).trans (if_pos ⟨hd, hmin, hmax, hsize⟩), iff_of_false nofun nofun⟩
      · exact ⟨rfl, (ownFlashReset_eq _ _).trans (if_pos hd), iff_of_true rfl rfl⟩
      · exact ⟨rfl, rfl, iff_of_false nofun nofun⟩
    exact ⟨hands.busy ha, hands.faulted ha, hands.accepted ha⟩
  · intro m s p dev addr pr
    refine ⟨fun ha h => ?_, fun ha h => ?_, fun ha hmin hmax h => ?_, fun ha h => ?_, fun ha h => ?_⟩
    · refine exec_badField rfl ha (ownFlashErase_eq _ _) (fun ⟨hd, hsize, himage⟩ => ?_)
      rcases h with h | h | ⟨h0, h⟩
      · exact absurd hd (Nat.not_lt.2 h)
      · exact absurd hsize (Nat.not_lt.2 h)
      · exact absurd (himage h0) (Nat.not_le.2 h)
    · have hlen : p.length - 5 = 0 ∨ 256 < p.length - 5 := by omega
      exact congrArg Host.Outcome.next (request_refused ha ((ownFlashWrite_eq _ _).trans (if_pos hlen)))
    · have hlen : ¬ (p.length - 5 = 0 ∨ 256 < p.length - 5) := by omega
      refine exec_badField rfl ha ((ownFlashWrite_eq _ _).trans (if_neg hlen)) (fun ⟨hd, hsize, himage, hpage⟩ => ?_)
      rcases h with h | h | ⟨h0, h⟩ | h
      · exact absurd hd (Nat.not_lt.2 h)
      · exact absurd hsize (Nat.not_le.2 h)
      · exact absurd (himage h0) (Nat.not_le.2 h)
      · exact absurd hpage (Nat.not_le.2 h)
    · refine exec_badField rfl ha (ownFlashRead_eq _ _) (fun ⟨hd, hmin, hmax, hsize⟩ => ?_)
      rcases h with h | h | h | h
      · exact absurd hd (Nat.not_lt.2 h)
      · exact absurd h (Nat.pos_iff_ne_zero.1 hmin)
      · exact absurd hmax (Nat.not_le.2 h)
      · exact absurd hsize (Nat.not_le.2 h)
    · exact exec_badField rfl ha (ownFlashReset_eq _ _) (Nat.not_lt.2 h)

end Sys2Proof.Machine

/-! PROOF. Messages and their fragments (R185 to R188, R201, R202): what a taken fragment makes of the reassembly table,
and that the fragments of a message put it together again. -/

namespace Sys2Proof.Machine

open Sys2Proof

/-! ### Numbers in bytes (00 section 5.5) -/

theorem u8_append {b l r : List Byte} {x : Byte} {i : Nat} (hb : b = l ++ x :: r) (hi : i = l.length) :
    u8 b i = x.toNat := by
  subst hb hi
  simp [u8, List.getD_eq_getElem?_getD]

/-- A number sent as one byte is read back from it. -/
theorem u8_byte {b l r : List Byte} {n i : Nat} (h : n < 256) (hb : b = l ++ byte n :: r) (hi : i = l.length) :
    u8 b i = n := by
  rw [u8_append hb hi, byte_toNat, Nat.mod_eq_of_lt h]

/-- A number sent as two bytes is read back from them. -/
theorem u16_le16 {b l r : List Byte} {n i : Nat} (h : n < 65536) (hb : b = l ++ (le16 n ++ r)) (hi : i = l.length) :
    u16 b i = n := by
  have h0 : u8 b i = (byte n).toNat := u8_append hb hi
  have h1 : u8 b (i + 1) = (byte (n / 256)).toNat :=
    u8_append (l := l ++ [byte n]) (r := r) (by simp [hb, le16]) (by simp [hi])
  rw [u16, h0, h1, byte_toNat, byte_toNat]
  omega

/-- A number sent as three bytes is read back from them. -/
theorem u24_le24 {b l r : List Byte} {n i : Nat} (h : n < 16777216) (hb : b = l ++ (le24 n ++ r)) (hi : i = l.length) :
    u24 b i = n := by
  have h0 : u8 b i = (byte n).toNat := u8_append hb hi
  have h1 : u8 b (i + 1) = (byte (n / 256)).toNat :=
    u8_append (l := l ++ [byte n]) (r := byte (n / 65536) :: r) (by simp [hb, le24]) (by simp [hi])
  have h2 : u8 b (i + 2) = (byte (n / 65536)).toNat :=
    u8_append (l := l ++ [byte n, byte (n / 256)]) (r := r) (by simp [hb, le24]) (by simp [hi])
  rw [u24, u16, h0, h1, h2, byte_toNat, byte_toNat, byte_toNat]
  omega

theorem byte_toNat_self (x : Byte) : byte x.toNat = x := by simp [byte]

theorem le16_length (n : Nat) : (le16 n).length = 2 := rfl

theorem crc16_lt (l : List Byte) : crc16 l < 65536 := (l.foldl crc16Byte 0xFFFF#16).isLt

/-! ### The reassembly table (R186) -/

theorem slotOf_closeSlot_self (l : List Reasm) (src : Nat) : slotOf (closeSlot l src) src = none := by
  simp [slotOf, closeSlot]

theorem slotOf_closeSlot_of_ne (l : List Reasm) {src src' : Nat} (h : src' ≠ src) :
    slotOf (closeSlot l src) src' = slotOf l src' := by
  unfold slotOf closeSlot
  rw [List.find?_filter]
  refine congrArg (fun p => List.find? p l) (funext fun x => ?_)
  by_cases hx : x.src = src'
  · simp [hx, h]
  · simp [hx]

theorem slotOf_holdSlot_self (now counter src : Nat) (bytes : List Byte) (l : List Reasm) :
    slotOf (holdSlot now counter src bytes l) src
      = some { src := src, bytes := bytes, counter := counter, last := now } := by
  have hclosed : List.find? (fun x => decide (x.src = src)) (closeSlot l src) = none := slotOf_closeSlot_self l src
  rw [slotOf, holdSlot, List.find?_append, hclosed]
  simp

theorem slotOf_holdSlot_of_ne (now counter : Nat) {src src' : Nat} (bytes : List Byte) (l : List Reasm)
    (h : src' ≠ src) : slotOf (holdSlot now counter src bytes l) src' = slotOf l src' := by
  rw [← slotOf_closeSlot_of_ne l h, slotOf, holdSlot, List.find?_append]
  simp [slotOf, Ne.symm h]

/-! ### A taken fragment (R185 to R187) -/

/-- A FIRST opens or restarts its source's slot, where there is one or room for one (R186). -/
theorem takeFirst_eq (now counter : Nat) (f : Fragment) (l : List Reasm) :
    takeFirst now counter f l
      = if slotOf l f.src ≠ none ∨ l.length < 4 then holdSlot now counter f.src f.data l else l := by
  unfold takeFirst
  by_cases h : slotOf l f.src = none ∧ 4 ≤ l.length
  · rw [if_pos ⟨Option.isNone_iff_eq_none.2 h.1, h.2⟩, if_neg (by rw [h.1]; simp [h.2])]
  · rw [if_neg (fun k => h ⟨Option.isNone_iff_eq_none.1 k.1, k.2⟩), if_pos (by rwa [← Nat.not_le, ← not_and_or])]

theorem takeFragment_whole (now counter : Nat) {f : Fragment} (l : List Reasm) (h : f.state = 4) :
    (takeFragment now counter f l).reasm = l := by
  rw [takeFragment, if_pos h]

theorem takeFragment_malformed (now counter : Nat) {f : Fragment} (l : List Reasm) (h : f.state ≠ 4)
    (hok : fragmentOk f = false) : takeFragment now counter f l = { reasm := closeSlot l f.src, msg := none } := by
  rw [takeFragment, if_neg h, if_pos hok]

theorem takeFragment_first (now counter : Nat) {f : Fragment} (l : List Reasm) (h : f.state = 1)
    (hok : fragmentOk f = true) :
    takeFragment now counter f l = { reasm := takeFirst now counter f l, msg := none } := by
  rw [takeFragment, if_neg (by omega), if_neg (by simp [hok]), if_pos h]

theorem takeFragment_more (now counter : Nat) {f : Fragment} {l : List Reasm} {x : Reasm} (h4 : f.state ≠ 4)
    (h1 : f.state ≠ 1) (hok : fragmentOk f = true) (hx : slotOf l f.src = some x) :
    takeFragment now counter f l = takeMore now counter f x l := by
  simp only [takeFragment, if_neg h4, hok, Bool.true_eq_false, if_neg h1, if_false, hx]

theorem takeFragment_unopened (now counter : Nat) {f : Fragment} {l : List Reasm} (h4 : f.state ≠ 4) (h1 : f.state ≠ 1)
    (hok : fragmentOk f = true) (hx : slotOf l f.src = none) :
    takeFragment now counter f l = { reasm := l, msg := none } := by
  simp only [takeFragment, if_neg h4, hok, Bool.true_eq_false, if_neg h1, if_false, hx]

/-- A MIDDLE that still fits adds its bytes (R186). -/
theorem takeMore_middle (now counter : Nat) {f : Fragment} {x : Reasm} (l : List Reasm) (h : f.state = 2)
    (hlen : x.bytes.length + f.data.length ≤ 1030) :
    takeMore now counter f x l = { reasm := holdSlot now counter f.src (x.bytes ++ f.data) l, msg := none } := by
  simp only [takeMore, List.length_append, if_neg (Nat.not_lt.2 hlen), if_pos h]

/-- A LAST that still fits ends the train (R187). -/
theorem takeMore_last (now counter : Nat) {f : Fragment} {x : Reasm} (l : List Reasm) (h : f.state ≠ 2)
    (hlen : x.bytes.length + f.data.length ≤ 1030) :
    takeMore now counter f x l = { reasm := closeSlot l f.src, msg := trainMessage f.src (x.bytes ++ f.data) } := by
  simp only [takeMore, List.length_append, if_neg (Nat.not_lt.2 hlen), if_neg h]

/-- A LAST, or a fragment beyond 1,030 bytes, closes the slot (R186, R187). -/
theorem takeMore_closes (now counter : Nat) {f : Fragment} {x : Reasm} (l : List Reasm)
    (h : f.state ≠ 2 ∨ 1030 < x.bytes.length + f.data.length) :
    (takeMore now counter f x l).reasm = closeSlot l f.src := by
  unfold takeMore
  dsimp only
  rw [List.length_append]
  split
  · rfl
  · rw [if_neg (h.resolve_right ‹_›)]

/-- A taken fragment touches its own source's slot only. -/
theorem takeFragment_other (now counter : Nat) (f : Fragment) (l : List Reasm) {src : Nat} (h : src ≠ f.src) :
    slotOf (takeFragment now counter f l).reasm src = slotOf l src := by
  by_cases h4 : f.state = 4
  · rw [takeFragment_whole now counter l h4]
  by_cases hok : fragmentOk f = true
  · by_cases h1 : f.state = 1
    · rw [takeFragment_first now counter l h1 hok, takeFirst_eq]
      split
      · exact slotOf_holdSlot_of_ne now counter f.data l h
      · rfl
    · cases hx : slotOf l f.src with
      | none => rw [takeFragment_unopened now counter h4 h1 hok hx]
      | some x =>
        rw [takeFragment_more now counter h4 h1 hok hx]
        by_cases hm : f.state = 2 ∧ x.bytes.length + f.data.length ≤ 1030
        · rw [takeMore_middle now counter l hm.1 hm.2]
          exact slotOf_holdSlot_of_ne now counter _ l h
        · rw [takeMore_closes now counter l (by omega)]
          exact slotOf_closeSlot_of_ne l h
  · rw [takeFragment_malformed now counter l h4 (Bool.not_eq_true _ ▸ hok)]
    exact slotOf_closeSlot_of_ne l h

/-! ### The fragments of a message (R188, R202) -/

/-- A fragment as the port of a receiver sees it. -/
def arrived (src : Nat) (e : Nat × List Byte) : Fragment :=
  { state := e.1, count := e.2.length, src := src, dst := 0, data := e.2 }

theorem fragmentOk_full (src : Nat) {e : Nat × List Byte} (h : e.1 = 1 ∨ e.1 = 2) (hlen : e.2.length = 5) :
    fragmentOk (arrived src e) = true := by
  simp [fragmentOk, arrived, h, hlen]

theorem fragmentOk_last (src : Nat) {e : Nat × List Byte} (h : e.1 = 3) (hmin : 1 ≤ e.2.length) (hmax : e.2.length ≤ 5) :
    fragmentOk (arrived src e) = true := by
  simp [fragmentOk, arrived, h, hmin, hmax]

theorem fragmentOk_whole (src : Nat) {e : Nat × List Byte} (h : e.1 = 4) (hmin : 2 ≤ e.2.length) (hmax : e.2.length ≤ 5) :
    fragmentOk (arrived src e) = true := by
  simp [fragmentOk, arrived, h, hmin, hmax]

theorem gather_append (now counter src : Nat) (fs : List (Nat × List Byte)) (e : Nat × List Byte) (l : List Reasm) :
    gather now counter src (fs ++ [e]) l
      = takeFragment now counter (arrived src e) (gather now counter src fs l).reasm := by
  rw [gather, List.foldl_append]
  rfl

/-- A table whose only slot holds what has arrived of a train (R186). -/
def oneSlot (now counter src : Nat) (bytes : List Byte) : List Reasm :=
  [{ src := src, bytes := bytes, counter := counter, last := now }]

theorem slotOf_oneSlot (now counter src : Nat) (bytes : List Byte) : slotOf (oneSlot now counter src bytes) src
    = some { src := src, bytes := bytes, counter := counter, last := now } := by
  simp [slotOf, oneSlot]

theorem closeSlot_oneSlot (now counter src : Nat) (bytes : List Byte) :
    closeSlot (oneSlot now counter src bytes) src = [] := by
  simp [closeSlot, oneSlot]

/-- A FIRST opens the slot, in an empty table. -/
theorem takeFragment_opens (now counter src : Nat) {e : Nat × List Byte} (h : e.1 = 1) (hlen : e.2.length = 5) :
    takeFragment now counter (arrived src e) [] = { reasm := oneSlot now counter src e.2, msg := none } := by
  rw [takeFragment_first now counter [] h (fragmentOk_full src (.inl h) hlen)]
  rfl

/-- A MIDDLE goes on with the train. -/
theorem takeFragment_adds (now counter src : Nat) {e : Nat × List Byte} {bytes : List Byte} (h : e.1 = 2)
    (hlen : e.2.length = 5) (hfit : bytes.length + e.2.length ≤ 1030) :
    takeFragment now counter (arrived src e) (oneSlot now counter src bytes)
      = { reasm := oneSlot now counter src (bytes ++ e.2), msg := none } := by
  have h4 : (arrived src e).state ≠ 4 := fun k => by rw [arrived, h] at k; cases k
  have h1 : (arrived src e).state ≠ 1 := fun k => by rw [arrived, h] at k; cases k
  rw [takeFragment_more now counter h4 h1 (fragmentOk_full src (.inr h) hlen) (slotOf_oneSlot now counter src bytes),
    takeMore_middle now counter _ h hfit, holdSlot, arrived, closeSlot_oneSlot]
  rfl

/-- A LAST ends the train, whose bytes are then checked (R187). -/
theorem takeFragment_ends (now counter src : Nat) {e : Nat × List Byte} {bytes : List Byte} (h : e.1 = 3)
    (hmin : 1 ≤ e.2.length) (hmax : e.2.length ≤ 5) (hfit : bytes.length + e.2.length ≤ 1030) :
    takeFragment now counter (arrived src e) (oneSlot now counter src bytes)
      = { reasm := [], msg := trainMessage src (bytes ++ e.2) } := by
  have hstate : (arrived src e).state = 3 := h
  rw [takeFragment_more now counter (by omega) (by omega) (fragmentOk_last src h hmin hmax)
    (slotOf_oneSlot now counter src bytes), takeMore_last now counter _ (by omega) hfit, arrived, closeSlot_oneSlot]

/-- A whole message in one fragment (R188). -/
theorem takeFragment_single (now counter src : Nat) {o : Outgoing} (l : List Reasm) (hk : o.kind < 256)
    (hlen : o.payload.length ≤ 3) :
    takeFragment now counter (arrived src (4, [byte o.kind, o.tag] ++ o.payload)) l
      = { reasm := l, msg := some { kind := o.kind, msg := { src := byte src, tag := o.tag, payload := o.payload } } } := by
  have hok := fragmentOk_whole src (e := (4, [byte o.kind, o.tag] ++ o.payload)) rfl (by simp) (by simp; omega)
  have hkind : u8 ([byte o.kind, o.tag] ++ o.payload) 0 = o.kind := u8_byte (l := []) hk rfl rfl
  have htag : u8 ([byte o.kind, o.tag] ++ o.payload) 1 = o.tag.toNat := u8_append (l := [byte o.kind]) rfl rfl
  unfold takeFragment
  rw [if_pos (show (arrived src (4, [byte o.kind, o.tag] ++ o.payload)).state = 4 from rfl), if_pos hok]
  simp only [arrived, hkind, htag, byte_toNat_self]
  rfl

/-- A message's bytes before its check (R202). -/
def messageBody (o : Outgoing) : List Byte := [byte o.kind, o.tag] ++ le16 o.payload.length ++ o.payload

/-- The bytes that a message of more than 3 bytes of payload is sent as (R187, R202). -/
def messageTrain (o : Outgoing) : List Byte := messageBody o ++ le16 (crc16 (messageBody o))

/-- Fragment `i` of `n` of a train (R188). -/
def trainFragment (n : Nat) (b : List Byte) (i : Nat) : Nat × List Byte :=
  (if i = 0 then 1 else if i + 1 = n then 3 else 2, (b.drop (5 * i)).take 5)

theorem trainFragment_length (n : Nat) (b : List Byte) (i : Nat) :
    (trainFragment n b i).2.length = min 5 (b.length - 5 * i) := by
  simp [trainFragment]

theorem trainFragment_middle {n i : Nat} (b : List Byte) (h0 : i ≠ 0) (hn : i + 1 ≠ n) : (trainFragment n b i).1 = 2 := by
  simp only [trainFragment, if_neg h0, if_neg hn]

theorem trainFragment_last {n i : Nat} (b : List Byte) (h0 : i ≠ 0) (hn : i + 1 = n) : (trainFragment n b i).1 = 3 := by
  simp only [trainFragment, if_neg h0, if_pos hn]

/-- What a fragment adds to the part of the train that the fragments before it carry. -/
theorem take_trainFragment (n : Nat) (b : List Byte) (i : Nat) :
    b.take (5 * i) ++ (trainFragment n b i).2 = b.take (5 * (i + 1)) := by
  rw [trainFragment, Nat.mul_succ, List.take_add]

theorem fragments_short {o : Outgoing} (h : o.payload.length ≤ 3) :
    fragments o = [(4, [byte o.kind, o.tag] ++ o.payload)] := if_pos h

theorem fragments_long {o : Outgoing} (h : ¬ o.payload.length ≤ 3) :
    fragments o = (List.range (((messageTrain o).length + 4) / 5)).map
      (trainFragment (((messageTrain o).length + 4) / 5) (messageTrain o)) := if_neg h

theorem messageBody_length (o : Outgoing) : (messageBody o).length = o.payload.length + 4 := by
  simp [messageBody, le16]

theorem messageTrain_length (o : Outgoing) : (messageTrain o).length = o.payload.length + 6 := by
  rw [messageTrain, List.length_append, messageBody_length, le16_length]

/-- A train passes the checks of R187, and is its message. -/
theorem trainMessage_messageTrain {o : Outgoing} (src : Nat) (hk : o.kind < 256) (hlen : o.payload.length ≤ 1024) :
    trainMessage src (messageTrain o)
      = some { kind := o.kind, msg := { src := byte src, tag := o.tag, payload := o.payload } } := by
  have hbytes : messageTrain o = [byte o.kind, o.tag]
      ++ (le16 o.payload.length ++ (o.payload ++ le16 (crc16 (messageBody o)))) := by
    simp [messageTrain, messageBody]
  have hcount : u16 (messageTrain o) 2 = o.payload.length := u16_le16 (by omega) hbytes rfl
  have hkind : u8 (messageTrain o) 0 = o.kind := u8_byte (l := []) hk hbytes rfl
  have htag : u8 (messageTrain o) 1 = o.tag.toNat := u8_append (l := [byte o.kind]) hbytes rfl
  have hbody : (messageTrain o).take (o.payload.length + 4) = messageBody o :=
    List.take_left' (messageBody_length o)
  have hcheck : u16 (messageTrain o) (o.payload.length + 4) = crc16 (messageBody o) :=
    u16_le16 (crc16_lt _) (r := []) (by simp [messageTrain]) (messageBody_length o).symm
  have hpayload : ((messageTrain o).drop 4).take o.payload.length = o.payload := by
    rw [hbytes]
    simp [le16]
  unfold trainMessage
  simp only [hcount, hbody, hcheck, hkind, htag, hpayload, byte_toNat_self]
  exact if_pos ⟨hlen, messageTrain_length o, trivial⟩

/-- Before the last fragment of `n`, the slot holds what has arrived. -/
theorem gather_train (now counter src n : Nat) {b : List Byte} (hb : b.length ≤ 1030) (hn : 5 * n ≤ b.length + 4)
    (k : Nat) : k + 1 < n → gather now counter src ((List.range (k + 1)).map (trainFragment n b)) []
      = { reasm := oneSlot now counter src (b.take (5 * (k + 1))), msg := none } := by
  induction k with
  | zero =>
    intro hk
    have hlen : (trainFragment n b 0).2.length = 5 := by rw [trainFragment_length]; omega
    rw [List.range_succ, List.map_append, List.map_singleton, gather_append]
    exact takeFragment_opens now counter src rfl hlen
  | succ k ih =>
    intro hk
    have hlen : (trainFragment n b (k + 1)).2.length = 5 := by rw [trainFragment_length]; omega
    have hfit : (b.take (5 * (k + 1))).length + (trainFragment n b (k + 1)).2.length ≤ 1030 := by
      rw [hlen, List.length_take]
      omega
    rw [List.range_succ, List.map_append, List.map_singleton, gather_append, ih (by omega),
      takeFragment_adds now counter src (trainFragment_middle b (by omega) (by omega)) hlen hfit, take_trainFragment]

/-- The last of `k + 2` fragments ends the train, and closes its slot (R187). -/
theorem gather_train_whole (now counter src : Nat) {k : Nat} {b : List Byte} (hb : b.length ≤ 1030)
    (hmin : 5 * (k + 1) < b.length) (hmax : b.length ≤ 5 * (k + 2)) :
    gather now counter src ((List.range (k + 2)).map (trainFragment (k + 2) b)) []
      = { reasm := [], msg := trainMessage src b } := by
  have hbefore := gather_train now counter src (k + 2) hb (by omega) k (by omega)
  have hstate : (trainFragment (k + 2) b (k + 1)).1 = 3 := trainFragment_last b (by omega) rfl
  have hlen : (trainFragment (k + 2) b (k + 1)).2.length = b.length - 5 * (k + 1) := by
    rw [trainFragment_length]
    omega
  have hfit : (b.take (5 * (k + 1))).length + (trainFragment (k + 2) b (k + 1)).2.length ≤ 1030 := by
    rw [hlen, List.length_take]
    omega
  have hwhole : b.take (5 * (k + 1 + 1)) = b := List.take_of_length_le (by omega)
  rw [List.range_succ, List.map_append, List.map_singleton, gather_append, hbefore,
    takeFragment_ends now counter src hstate (by omega) (by omega) hfit, take_trainFragment, hwhole]

/-- Every message is put together again from its fragments. -/
theorem gather_fragments (now counter src : Nat) {o : Outgoing} (hk : o.kind < 256) (hlen : o.payload.length ≤ 1024) :
    gather now counter src (fragments o) []
      = { reasm := []
          msg := some { kind := o.kind, msg := { src := byte src, tag := o.tag, payload := o.payload } } } := by
  by_cases h : o.payload.length ≤ 3
  · rw [fragments_short h]
    exact takeFragment_single now counter src [] hk h
  · have hb := messageTrain_length o
    obtain ⟨k, hn⟩ : ∃ k, ((messageTrain o).length + 4) / 5 = k + 2 := Nat.exists_eq_add_of_le' (by omega)
    rw [fragments_long h, hn, gather_train_whole now counter src (by omega) (by omega) (by omega),
      trainMessage_messageTrain src hk hlen]

end Sys2Proof.Machine

/-! PROOF. Fragments and frames as bytes (R178, R185, R201): a lane is read back as the fragment it was made of, and a
frame as the frame it was made of, with its check good. -/

namespace Sys2Proof.Machine

open Sys2Proof

/-! ### A fragment in its lane (R201) -/

theorem laneBytes_length (st src dst : Nat) {data : List Byte} (h : data.length ≤ 5) :
    (laneBytes st src dst data).length = 8 := by
  simp [laneBytes]
  omega

/-- A fragment is read back from its lane. -/
theorem fragmentOf_laneBytes {st src dst : Nat} {data : List Byte} (hst : st < 8) (hsrc : src < 256) (hdst : dst < 256)
    (hlen : data.length ≤ 5) : fragmentOf (laneBytes st src dst data)
      = { state := st, count := data.length, src := src, dst := dst, data := data } := by
  have hlane : laneBytes st src dst data = [byte (st + 16 * data.length), byte src, byte dst]
      ++ (data ++ List.replicate (5 - data.length) 0) := by simp [laneBytes]
  have h0 : u8 (laneBytes st src dst data) 0 = st + 16 * data.length := u8_byte (l := []) (by omega) hlane rfl
  have h1 : u8 (laneBytes st src dst data) 1 = src := u8_byte (l := [byte (st + 16 * data.length)]) hsrc hlane rfl
  have h2 : u8 (laneBytes st src dst data) 2 = dst :=
    u8_byte (l := [byte (st + 16 * data.length), byte src]) hdst hlane rfl
  have hstate : (st + 16 * data.length) % 8 = st := by omega
  have hcount : (st + 16 * data.length) / 16 % 8 = data.length := by omega
  have hdata : ((laneBytes st src dst data).drop 3).take data.length = data := by simp [hlane]
  simp only [fragmentOf, h0, h1, h2, hstate, hcount, hdata]

/-! ### Samples in their slots (R178) -/

theorem sampleBytes_length (x : Sample) : (sampleBytes x).length = 3 := rfl

theorem flatMap_sampleBytes_length (l : List Sample) : (l.flatMap sampleBytes).length = 3 * l.length := by
  induction l with
  | nil => rfl
  | cons x l ih =>
    rw [List.flatMap_cons, List.length_append, ih, sampleBytes_length, List.length_cons]
    omega

/-- A sample of 24 bits is read back from its three bytes. -/
theorem signed_sample {x : Int} (hmin : -8388608 ≤ x) (hmax : x ≤ 8388607) :
    signed 24 (x % 16777216).toNat = x := by
  have hhalf : 2 ^ (24 - 1) = 8388608 := rfl
  have hwhole : (2 : Int) ^ 24 = 16777216 := rfl
  rw [signed, hhalf, hwhole]
  split <;> omega

/-- The sample of a slot is read back from where the slots before it end. -/
theorem u24_slot {b l r : List Byte} {slots : List Sample} {s : Nat} {x : Sample}
    (hb : b = l ++ (slots.flatMap sampleBytes ++ r)) (hx : slots[s]? = some x) :
    u24 b (l.length + 3 * s) = (x % 16777216).toNat := by
  obtain ⟨hs, rfl⟩ := List.getElem?_eq_some_iff.1 hx
  have hsplit : slots.flatMap sampleBytes
      = (slots.take s).flatMap sampleBytes ++ (sampleBytes slots[s] ++ (slots.drop (s + 1)).flatMap sampleBytes) := by
    conv_lhs => rw [← List.take_append_drop s slots, List.drop_eq_getElem_cons hs]
    rw [List.flatMap_append, List.flatMap_cons]
  refine u24_le24 (l := l ++ (slots.take s).flatMap sampleBytes)
    (r := (slots.drop (s + 1)).flatMap sampleBytes ++ r) (by omega) ?_ ?_
  · rw [hb, hsplit]
    simp [sampleBytes]
  · rw [List.length_append, flatMap_sampleBytes_length, List.length_take]
    omega

/-! ### A frame in its bytes (R178) -/

/-- What the frame check covers. -/
def frameBody (f : RingFrame) : List Byte := le16 f.counter ++ f.slots.flatMap sampleBytes ++ f.lane

theorem frameBytes_eq (f : RingFrame) : frameBytes f = le16 0x5A3C ++ (frameBody f ++ le16 (crc16 (frameBody f))) := by
  simp [frameBytes, frameBody]

theorem frameBody_length {f : RingFrame} (hslots : f.slots.length = 64) (hlane : f.lane.length = 8) :
    (frameBody f).length = 202 := by
  rw [frameBody, List.length_append, List.length_append, le16_length, flatMap_sampleBytes_length, hslots, hlane]

theorem frameBytes_length {f : RingFrame} (hslots : f.slots.length = 64) (hlane : f.lane.length = 8) :
    (frameBytes f).length = 206 := by
  rw [frameBytes_eq, List.length_append, List.length_append, frameBody_length hslots hlane, le16_length, le16_length]

/-- A frame is read back from its bytes. -/
theorem parseFrame_frameBytes {f : RingFrame} (hcounter : f.counter < 65536) (hslots : f.slots.length = 64)
    (hlane : f.lane.length = 8) (hrange : ∀ x, x ∈ f.slots → -8388608 ≤ x ∧ x ≤ 8388607) :
    parseFrame (frameBytes f) = some f := by
  have hsync : u16 (frameBytes f) 0 = 0x5A3C := u16_le16 (l := []) (by decide) (frameBytes_eq f) rfl
  have hbytes : frameBytes f = le16 0x5A3C ++ (le16 f.counter ++ (f.slots.flatMap sampleBytes ++ (f.lane ++
      le16 (crc16 (frameBody f))))) := by simp [frameBytes_eq, frameBody]
  have hread : u16 (frameBytes f) 2 = f.counter := u16_le16 hcounter hbytes rfl
  have hsamples : (List.range 64).map (fun s => signed 24 (u24 (frameBytes f) (4 + 3 * s))) = f.slots := by
    refine List.ext_getElem (by simp [hslots]) (fun s _ hs => ?_)
    obtain ⟨hmin, hmax⟩ := hrange _ (List.getElem_mem hs)
    have hslot : u24 (frameBytes f) (4 + 3 * s) = (f.slots[s] % 16777216).toNat :=
      u24_slot (l := le16 0x5A3C ++ le16 f.counter) (r := f.lane ++ le16 (crc16 (frameBody f)))
        (by simp [hbytes]) (List.getElem?_eq_getElem hs)
    rw [List.getElem_map, List.getElem_range, hslot, signed_sample hmin hmax]
  have hlast : ((frameBytes f).drop 196).take 8 = f.lane := by
    have hleft : frameBytes f = (le16 0x5A3C ++ le16 f.counter ++ f.slots.flatMap sampleBytes)
        ++ (f.lane ++ le16 (crc16 (frameBody f))) := by simp [hbytes]
    have hlen : (le16 0x5A3C ++ le16 f.counter ++ f.slots.flatMap sampleBytes).length = 196 := by
      rw [List.length_append, List.length_append, le16_length, le16_length, flatMap_sampleBytes_length, hslots]
    rw [hleft, List.drop_left' hlen, List.take_left' hlane]
  unfold parseFrame
  rw [if_pos ⟨frameBytes_length hslots hlane, hsync⟩, hread, hsamples, hlast]

/-- The check of a frame sent is good. -/
theorem frameGood_frameBytes {f : RingFrame} (hslots : f.slots.length = 64) (hlane : f.lane.length = 8) :
    frameGood (frameBytes f) = true := by
  have hlen := frameBody_length hslots hlane
  have hbody : ((frameBytes f).drop 2).take 202 = frameBody f := by
    rw [frameBytes_eq, List.drop_left' (le16_length _), List.take_left' hlen]
  have hcheck : u16 (frameBytes f) 204 = crc16 (frameBody f) :=
    u16_le16 (l := le16 0x5A3C ++ frameBody f) (r := []) (crc16_lt _) (by simp [frameBytes_eq])
      (by rw [List.length_append, le16_length, hlen])
  simp [frameGood, hbody, hcheck]

/-! ### The statement -/

/-- What a FIRST makes of the table (R186). -/
theorem takeFragment_first_slots (now counter : Nat) {f : Fragment} (l : List Reasm) (hok : fragmentOk f = true)
    (h : f.state = 1) :
    (slotOf l f.src ≠ none ∨ l.length < 4 → slotOf (takeFragment now counter f l).reasm f.src
      = some { src := f.src, bytes := f.data, counter := counter, last := now })
    ∧ (slotOf l f.src = none → 4 ≤ l.length → (takeFragment now counter f l).reasm = l) := by
  rw [takeFragment_first now counter l h hok, takeFirst_eq]
  refine ⟨fun hopen => ?_, fun hnone hfull => if_neg (fun k => k.elim (fun k => k hnone) (Nat.not_lt.2 hfull))⟩
  rw [if_pos hopen]
  exact slotOf_holdSlot_self now counter f.src f.data l

/-- What a MIDDLE or a LAST makes of the table (R186, R187). -/
theorem takeFragment_more_slots (now counter : Nat) {f : Fragment} (l : List Reasm) (hok : fragmentOk f = true)
    (h : f.state = 2 ∨ f.state = 3) :
    (slotOf l f.src = none → (takeFragment now counter f l).reasm = l)
    ∧ ∀ x, slotOf l f.src = some x →
      (f.state = 2 → x.bytes.length + f.data.length ≤ 1030 → slotOf (takeFragment now counter f l).reasm f.src
        = some { src := f.src, bytes := x.bytes ++ f.data, counter := counter, last := now })
      ∧ (f.state = 3 ∨ 1030 < x.bytes.length + f.data.length →
          slotOf (takeFragment now counter f l).reasm f.src = none) := by
  refine ⟨fun hx => by rw [takeFragment_unopened now counter (by omega) (by omega) hok hx], fun x hx => ?_⟩
  rw [takeFragment_more now counter (by omega) (by omega) hok hx]
  refine ⟨fun hmiddle hfit => ?_, fun hclose => ?_⟩
  · rw [takeMore_middle now counter l hmiddle hfit]
    exact slotOf_holdSlot_self now counter f.src _ l
  · rw [takeMore_closes now counter l (hclose.imp_left (by omega))]
    exact slotOf_closeSlot_self l f.src

/-- The check values of 123456789 (R128, R178). -/
theorem crc_check_values : crc16 [0x31, 0x32, 0x33, 0x34, 0x35, 0x36, 0x37, 0x38, 0x39] = 0x29B1
    ∧ crc32 [0x31, 0x32, 0x33, 0x34, 0x35, 0x36, 0x37, 0x38, 0x39] = 0xCBF43926 := by decide +kernel

/-- Settles O60: messages, fragments and frames are read back, and a taken fragment's effect by its lane state. -/
theorem messagesAndFramesSurviveTheRing : Obligations.MessagesAndFramesSurviveTheRing := by
  unfold Obligations.MessagesAndFramesSurviveTheRing
  refine ⟨fun now counter src o hk hlen => ?_, fun now counter f l => ?_, fun st src dst data hst hsrc hdst hlen =>
    ⟨fragmentOf_laneBytes hst hsrc hdst hlen, laneBytes_length st src dst hlen⟩, fun f hcounter hslots hlane hrange =>
    ⟨parseFrame_frameBytes hcounter hslots hlane hrange, frameGood_frameBytes hslots hlane⟩, crc_check_values⟩
  · rw [gather_fragments now counter src hk hlen]
    exact ⟨rfl, rfl⟩
  · refine ⟨fun src => takeFragment_other now counter f l, takeFragment_whole now counter l, fun hok h4 => ?_,
      takeFragment_first_slots now counter l, takeFragment_more_slots now counter l⟩
    rw [takeFragment_malformed now counter l h4 hok]
    rfl

end Sys2Proof.Machine

/-! PROOF. Ranks and the on-air source (R137, R145, R147), and what its change makes of a zone and its reports (R148 to
R150): the recomputation's choice is the library's minimum of a list under the rank. -/

namespace Sys2Proof.Machine

open Sys2Proof

/-! ### Ranks (R137) -/

/-- Every class has a place in a class order. -/
theorem mem_of_isClassOrder {l : List Nat} (h : isClassOrder l = true) {c : Nat} (hc : c < 4) : c ∈ l := by
  simp only [isClassOrder, Bool.and_eq_true, List.all_eq_true, List.contains_iff_mem] at h
  exact h.2 c (List.mem_range.2 hc)

theorem isClassOrder_length {l : List Nat} (h : isClassOrder l = true) : l.length = 4 := (classOrder_small h).1

/-- A rank is twice the place of the class, plus 1 where the other member leads (R137). -/
theorem sourceRank_eq (o : PageOrder) (k : Nat) : sourceRank o k
    = 2 * o.order.idxOf (k / 2) + (if (k % 2 == 1) = o.oddLeads.getD (k / 2) false then 0 else 1) := by
  simp only [sourceRank, beq_iff_eq]

/-- The place of a source within its class is 0 or 1. -/
theorem sourceRank_div (o : PageOrder) (k : Nat) : sourceRank o k / 2 = o.order.idxOf (k / 2) := by
  rw [sourceRank_eq]
  split_ifs <;> omega

theorem sourceRank_lt {o : PageOrder} (h : isClassOrder o.order = true) {k : Nat} (hk : k < 8) : sourceRank o k < 8 := by
  have hplace := List.idxOf_lt_length_of_mem (mem_of_isClassOrder h (Nat.div_lt_of_lt_mul hk : k / 2 < 4))
  rw [isClassOrder_length h, ← sourceRank_div] at hplace
  omega

/-- Two sources of one rank are of one class, and the same member of it (R137). -/
theorem sourceRank_injective {o : PageOrder} (h : isClassOrder o.order = true) {j k : Nat} (hj : j < 8)
    (he : sourceRank o j = sourceRank o k) : j = k := by
  have hclass : j / 2 = k / 2 := by
    have hplace := congrArg (· / 2) he
    simp only [sourceRank_div] at hplace
    exact (List.idxOf_inj (mem_of_isClassOrder h (Nat.div_lt_of_lt_mul hj))).1 hplace
  have hmember : (j % 2 == 1) = (k % 2 == 1) := by
    rw [sourceRank_eq, sourceRank_eq, hclass] at he
    split_ifs at he with hlead hlead' hlead'
    · exact hlead.trans hlead'.symm
    · omega
    · omega
    · exact (Bool.eq_not.2 hlead).trans (Bool.eq_not.2 hlead').symm
  have hparity : j % 2 = 1 ↔ k % 2 = 1 := by rw [← beq_iff_eq, hmember, beq_iff_eq]
  omega

/-! ### The eligible source of lowest rank (R145, R147) -/

theorem eligible_iff (t : Tables) (r : Run) (z k : Nat) : eligible t r z k = true ↔ (r.src k).requested = true
    ∧ r.page.mask.getLsbD k = false ∧ (pageRec t k).zones.getLsbD z = true ∧ (zoneRec t z).accept.getLsbD k = true := by
  simp only [eligible, Bool.and_eq_true, Bool.not_eq_true', and_assoc]

theorem mem_eligible_iff {t : Tables} {r : Run} {z k : Nat} :
    k ∈ (List.range 8).filter (eligible t r z) ↔ k < 8 ∧ eligible t r z k = true := by
  rw [List.mem_filter, List.mem_range]

/-- The best source is the minimum of the eligible ones under their ranks (R145). -/
theorem bestSource_eq_argmin (t : Tables) (r : Run) (z : Nat) :
    bestSource t r z = ((List.range 8).filter (eligible t r z)).argmin (sourceRank t.order) := by
  have hstep : betterSource t.order = List.argAux (fun b c => sourceRank t.order b < sourceRank t.order c) := by
    funext best k
    cases best <;> rfl
  rw [bestSource, hstep, List.argmin]

theorem bestSource_eq_none_iff (t : Tables) (r : Run) (z : Nat) :
    bestSource t r z = none ↔ ∀ k, k < 8 → eligible t r z k = false := by
  rw [bestSource_eq_argmin, List.argmin_eq_none, List.filter_eq_nil_iff]
  simp only [List.mem_range, Bool.not_eq_true]

theorem bestSource_eq_some {t : Tables} {r : Run} {z k : Nat} (h : bestSource t r z = some k) :
    k < 8 ∧ eligible t r z k = true
      ∧ ∀ j, j < 8 → eligible t r z j = true → sourceRank t.order k ≤ sourceRank t.order j := by
  rw [bestSource_eq_argmin] at h
  obtain ⟨hk, he⟩ := mem_eligible_iff.1 (List.argmin_mem h)
  exact ⟨hk, he, fun j hj hje => List.le_of_mem_argmin (mem_eligible_iff.2 ⟨hj, hje⟩) h⟩

theorem airFor_of_stopPage {t : Tables} {r : Run} {k : Nat} (h : r.page.stopPage = some k) (z : Nat) :
    airFor t r z = some k := by
  simp only [airFor, h]

theorem airFor_of_no_stopPage {t : Tables} {r : Run} (h : r.page.stopPage = none) (z : Nat) :
    airFor t r z = bestSource t r z := by
  simp only [airFor, h]

/-! ### The report of a change (R145, R194) -/

/-- The report queue after a report: it takes it at its back, unless its kind is off or 32 are queued (R193). -/
theorem report_reports (t : Tables) (b : ReportBody) (r : Run) : (r.report t b).ctl.reports = r.ctl.reports
    ++ if t.settings.reports.getLsbD b.index = false ∨ 32 ≤ r.ctl.reports.length then []
      else [{ body := b, counter := r.port.counter, dst := t.settings.node, lost := none }] := by
  unfold Run.report Run.reportAt
  split
  · rw [if_pos (.inl ‹_›), List.append_nil]
  · split
    · rw [if_pos (.inr ‹_›), List.append_nil]
    · rw [if_neg (not_or.2 ⟨‹_›, ‹_›⟩)]

/-- What a report adds does not depend on the zones. -/
theorem report_onZone_reports (t : Tables) (z : Nat) (f : ZoneRt → ZoneRt) (b : ReportBody) (r : Run) :
    ((r.onZone z f).report t b).ctl.reports = (r.report t b).ctl.reports := by
  rw [report_reports, report_reports, Run.onZone_ctl, Run.onZone_port]

/-- A write of a duck changes the level store and the zones alone (R8, R150). -/
theorem writeDuck_eq_update (z code ms : Nat) (r : Run) : writeDuck z code ms r = { r with
    lv := (writeDuck z code ms r).lv, page := { r.page with zones := (writeDuck z code ms r).page.zones } } := by
  cases h : r.lv.get? (.duck z) with
  | none =>
    simp only [writeDuck, duckNotice, Run.writeLevel, h]
    split_ifs <;> rfl
  | some l =>
    simp only [writeDuck, duckNotice, Run.writeLevel_of_get? h]
    split_ifs <;> rfl

theorem writeDuck_ctl (z code ms : Nat) (r : Run) : (writeDuck z code ms r).ctl = r.ctl := by rw [writeDuck_eq_update]

theorem endHold_ctl (t : Tables) (z : Nat) (r : Run) : (endHold t z r).ctl = r.ctl := writeDuck_ctl z _ _ _

/-- A change of the on-air source gives one ZONE report (R145); HOLD at a hold of 0 too (log entry 14). -/
theorem changeAir_reports (t : Tables) (z : Nat) (new : Option Nat) (r : Run) : (changeAir t z new r).ctl.reports
    = (r.report t (.zone z (r.zone z).onAir new (if new = none then .hold else .ducked))).ctl.reports := by
  unfold changeAir
  cases new with
  | none =>
    rw [if_pos rfl]
    dsimp only
    split
    · rw [endHold_ctl, report_onZone_reports]
    · rw [report_onZone_reports]
  | some k =>
    rw [if_neg (Option.some_ne_none k)]
    dsimp only
    split
    · rw [writeDuck_ctl, report_onZone_reports]
    · rw [report_onZone_reports]

theorem arbitrateZone_unchanged {t : Tables} {z : Nat} {r : Run} (h : airFor t r z = (r.zone z).onAir) :
    arbitrateZone t z r = r := if_pos h

theorem arbitrateZone_changed {t : Tables} {z : Nat} {r : Run} (h : airFor t r z ≠ (r.zone z).onAir) :
    arbitrateZone t z r = changeAir t z (airFor t r z) r := if_neg h

/-! ### A zone after a recomputation (R148 to R150) -/

theorem Run.zone_of_getElem? {r : Run} {z : Nat} {x : ZoneRt} (h : r.page.zones[z]? = some x) : r.zone z = x := by
  rw [Run.zone, List.getD_eq_getElem?_getD, h, Option.getD_some]

theorem Run.getElem?_zone {r : Run} {z : Nat} (h : z < r.page.zones.length) : r.page.zones[z]? = some (r.zone z) := by
  rw [Run.zone, List.getD_eq_getElem?_getD, List.getElem?_eq_getElem h, Option.getD_some]

/-- The zone state machine in the recomputation of all zones: each zone takes its own step (R148 to R150). -/
theorem arbitrate_zone_cases (t : Tables) (r : Run) (z : Nat) (l : Level) (hz : z < 16) (hlen : z < r.page.zones.length)
    (hl : r.lv.ducks[z]? = some l) :
    let old := r.zone z
    let new := airFor t r z
    let cfg := zoneRec t z
    let r' := arbitrate t r
    (new = old.onAir → r'.zone z = old ∧ r'.lv.ducks[z]? = some l)
    ∧ (∀ k, new = some k → old.onAir ≠ some k →
      r'.zone z = { state := .ducked, holdEnd := none, onAir := some k }
      ∧ r'.lv.ducks[z]? = some (if old.state = .programme ∨ old.state = .release then l.write cfg.depth cfg.attack else l))
    ∧ (new = none → old.onAir ≠ none →
      (0 < cfg.hold →
        r'.zone z = { state := .hold, holdEnd := some (r.port.now + 48 * cfg.hold), onAir := none }
        ∧ r'.lv.ducks[z]? = some l)
      ∧ (cfg.hold = 0 →
        let l' := l.write 0 cfg.release
        r'.zone z = { state := if l'.fade = none then .programme else .release, holdEnd := none, onAir := none }
        ∧ r'.lv.ducks[z]? = some l')) := by
  intro old new cfg r'
  obtain ⟨r1, hzone, hduck, hair, hport, hzone', hduck'⟩ := arbitrate_zone t r z hz
  have hold : r1.page.zones[z]? = some old := hzone.trans (Run.getElem?_zone hlen)
  have hlevel : r1.lv.ducks[z]? = some l := hduck.trans hl
  obtain ⟨hsame, hgain, hlose⟩ := arbitrateZone_cases t r1 z old l hold hlevel
  rw [hair] at hsame hgain hlose
  rw [hport] at hlose
  rw [← hzone', ← hduck'] at hgain hlose
  refine ⟨fun h => ?_, fun k hk hne => ?_, fun hnone hne => ⟨fun hpos => ?_, fun hzero => ?_⟩⟩
  · rw [hsame h] at hzone' hduck'
    exact ⟨Run.zone_of_getElem? (hzone'.trans hold), hduck'.trans hlevel⟩
  · exact (hgain k hk hne).imp_left Run.zone_of_getElem?
  · exact ((hlose hnone hne).1 hpos).imp_left Run.zone_of_getElem?
  · exact ((hlose hnone hne).2 hzero).imp_left Run.zone_of_getElem?

/-! ### The statement -/

/-- Settles O50: distinct ranks, the minimum under them, and the zone state machine of every zone. -/
theorem bestSourceHasTheLowestRank : Obligations.BestSourceHasTheLowestRank := by
  unfold Obligations.BestSourceHasTheLowestRank
  refine ⟨fun o ho _ => ⟨fun k hk => sourceRank_lt ho hk, fun j k hj _ => sourceRank_injective ho hj⟩,
    fun o k _ => sourceRank_eq o k,
    fun t r z => ⟨fun k hstop => airFor_of_stopPage hstop z, fun hstop => ?_⟩, eligible_iff,
    fun t r z => ⟨rfl, arbitrateZone_unchanged, fun hne => ?_⟩, fun t r z l hz hlen hl => ?_⟩
  · rw [airFor_of_no_stopPage hstop]
    exact ⟨bestSource_eq_none_iff t r z, fun k => bestSource_eq_some⟩
  · rw [arbitrateZone_changed hne]
    exact changeAir_reports t z _ r
  · obtain ⟨hsame, hgain, hlose⟩ := arbitrate_zone_cases t r z l hz hlen hl
    refine ⟨hsame, fun k hk hne => ?_, hlose⟩
    obtain ⟨hzone, hduck⟩ := hgain k hk hne
    refine ⟨hzone, fun hstate => ?_, fun hstate => ?_⟩
    · rw [hduck, if_pos hstate]
    · rw [hduck, if_neg (by rcases hstate with h | h <;> simp [h])]

end Sys2Proof.Machine

/-! PROOF. PAGING_SET and PAGE (R139, R140, R142): each is its owner's one change of the page engine and a recomputation,
or a refusal. -/

namespace Sys2Proof.Machine

open Sys2Proof

/-! ### What a recomputation and a withdrawal leave of the page engine -/

theorem writeDuck_enabled (z code ms : Nat) (r : Run) : (writeDuck z code ms r).page.enabled = r.page.enabled := by
  rw [writeDuck_eq_update]

theorem changeAir_enabled (t : Tables) (z : Nat) (new : Option Nat) (r : Run) :
    (changeAir t z new r).page.enabled = r.page.enabled := by
  unfold changeAir endHold
  cases new with
  | none =>
    dsimp only
    split
    · rw [writeDuck_enabled, Run.onZone_page, report_page]
      rfl
    · rw [report_page]
      rfl
  | some k =>
    dsimp only
    split
    · rw [writeDuck_enabled, report_page]
      rfl
    · rw [report_page]
      rfl

theorem arbitrateZone_enabled (t : Tables) (z : Nat) (r : Run) : (arbitrateZone t z r).page.enabled = r.page.enabled := by
  unfold arbitrateZone
  dsimp only
  split
  · rfl
  · exact changeAir_enabled t z _ r

/-- What every step keeps, a run of steps keeps. -/
theorem forEach_keeps {α β : Type} (field : α → β) {f : Nat → α → α} (h : ∀ i a, field (f i a) = field a) (n : Nat)
    (a : α) : field (forEach n f a) = field a := by
  unfold forEach
  generalize List.range n = l
  induction l generalizing a with
  | nil => rfl
  | cons i l ih => rw [List.foldl_cons, ih, h]

/-- A recomputation leaves the paging state and the mask (R139, R145). -/
theorem arbitrate_enabled (t : Tables) (r : Run) : (arbitrate t r).page.enabled = r.page.enabled :=
  forEach_keeps (fun r : Run => r.page.enabled) (arbitrateZone_enabled t) 16 r

theorem arbitrate_mask (t : Tables) (r : Run) : (arbitrate t r).page.mask = r.page.mask :=
  forEach_keeps (fun r : Run => r.page.mask) (fun z r => (ZoneFrame.arbitrateZone t z r).mask) 16 r

/-- A withdrawal changes nothing of the page engine but its sources (R140). -/
theorem withdraw_page (k : Nat) (r : Run) : (withdraw k r).page = { r.page with srcs := (withdraw k r).page.srcs } := by
  cases h : (r.src k).bound with
  | none => rw [withdraw_unbound_source h]; rfl
  | some v => rw [withdraw_bound_source h]; rfl

theorem withdraw_enabled (k : Nat) (r : Run) : (withdraw k r).page.enabled = r.page.enabled := by rw [withdraw_page]

theorem withdraw_mask (k : Nat) (r : Run) : (withdraw k r).page.mask = r.page.mask := by rw [withdraw_page]

/-- A withdrawal leaves every other source (R140). -/
theorem withdraw_src_other {j k : Nat} (h : j ≠ k) (r : Run) : (withdraw k r).src j = r.src j := by
  simp only [Run.src, withdraw_srcs, List.getD_eq_getElem?_getD, List.getElem?_modify_ne _ _ (Ne.symm h)]

theorem forEach_succ {α : Type} (n : Nat) (f : Nat → α → α) (a : α) : forEach (n + 1) f a = f n (forEach n f a) := by
  rw [forEach, List.range_succ, List.foldl_append]
  rfl

/-- Each source a run of withdrawals has come to is withdrawn (R139, R140). -/
theorem withdrawFirst_src (n : Nat) (r : Run) : ∀ k, k < n →
    (forEach n withdraw r).src k = { requested := false, bound := none } := by
  induction n with
  | zero => exact fun k hk => absurd hk (Nat.not_lt_zero k)
  | succ n ih =>
    intro k hk
    rw [forEach_succ]
    by_cases h : k = n
    · rw [h]
      exact withdraw_src n _
    · rw [withdraw_src_other h]
      exact ih k (by omega)

/-! ### The owners (R139, R142) -/

/-- The change PAGING_SET makes: state and mask, DISABLED withdrawing every source (R139). -/
def pagingChange (on : Bool) (mask : BitVec 8) (r : Run) : Run :=
  let r1 := { r with page := { r.page with enabled := on, mask := mask } }
  if on = true then r1 else forEach 8 withdraw r1

theorem withdrawWhere_true (r : Run) : withdrawWhere (fun _ => true) r = forEach 8 withdraw r := by
  simp only [withdrawWhere, if_true]

theorem setPaging_eq (t : Tables) (on : Bool) (mask : BitVec 8) (r : Run) :
    setPaging t on mask r = arbitrate t (pagingChange on mask r) := by
  simp only [setPaging, pagingChange, withdrawWhere_true]

theorem Frame.pagingChange (on : Bool) (mask : BitVec 8) (r : Run) : Frame r (pagingChange on mask r) :=
  (Frame.withPage r _).trans (.ite (fun _ => .refl _) (fun _ => .forEach Frame.withdraw _))

theorem pagingChange_enabled (on : Bool) (mask : BitVec 8) (r : Run) : (pagingChange on mask r).page.enabled = on := by
  unfold Machine.pagingChange
  dsimp only
  split
  · rfl
  · exact forEach_keeps (fun r : Run => r.page.enabled) withdraw_enabled 8 _

theorem pagingChange_mask (on : Bool) (mask : BitVec 8) (r : Run) : (pagingChange on mask r).page.mask = mask := by
  unfold Machine.pagingChange
  dsimp only
  split
  · rfl
  · exact forEach_keeps (fun r : Run => r.page.mask) withdraw_mask 8 _

theorem ownPagingSet_taken {b : List Byte} {on : Bool} (h : flagOf (u8 b 0) = some on) (p : Part) :
    ownPagingSet b p = recomputes p.tables (pagingChange on (BitVec.ofNat 8 (u8 b 1))) .ok [] p := by
  simp only [ownPagingSet, h, setPaging_eq]
  rfl

theorem ownPagingSet_refused {b : List Byte} (h : 2 ≤ u8 b 0) (p : Part) : ownPagingSet b p = refuse .badField p := by
  simp only [ownPagingSet, (flagOf_none_iff _).2 h]

theorem ownPage_neither {b : List Byte} (h : 2 ≤ u8 b 1) (p : Part) : ownPage b p = refuse .badField p := by
  simp only [ownPage, (flagOf_none_iff _).2 h]

section

variable {b : List Byte} {p : Part} {on : Bool}

theorem ownPage_unknown (hflag : flagOf (u8 b 1) = some on) (hk : 8 ≤ u8 b 0) : ownPage b p = refuse .badField p := by
  simp only [ownPage, hflag, if_pos hk]

theorem ownPage_off (hflag : flagOf (u8 b 1) = some false) (hk : u8 b 0 < 8) :
    ownPage b p = recomputes p.tables (withdraw (u8 b 0)) .ok [] p := by
  simp only [ownPage, hflag, if_neg (Nat.not_le.2 hk), if_true]
  rfl

/-- PAGE ON of a source in range: DISABLED, then BAD_FIELD for an IDLE origin, then the raise (R142). -/
theorem ownPage_on (hflag : flagOf (u8 b 1) = some true) (hk : u8 b 0 < 8) :
    ownPage b p = if p.page.enabled = false then refuse .disabled p
      else if originIdle p.tables p.toRun (u8 b 0) then refuse .badField p
      else recomputes p.tables (setRequested (u8 b 0)) .ok [] p := by
  simp only [ownPage, hflag, if_neg (Nat.not_le.2 hk), Bool.true_eq_false, if_false]
  rfl

end

/-! ### The statement -/

/-- PAGING_SET with a state that is ON or OFF (R139). -/
theorem pagingSet_taken {m : Msg} {s : State} {on : Bool} (ha : accepts s .pagingSet m)
    (hflag : flagOf (u8 m.payload 0) = some on) :
    let t := s.request .pagingSet ownPagingSet m
    t.page.enabled = on ∧ t.page.mask = BitVec.ofNat 8 (u8 m.payload 1)
    ∧ (on = true → t.page.srcs = s.page.srcs)
    ∧ (on = false → ∀ k, k < 8 → (t.toRun.src k).requested = false ∧ (t.toRun.src k).bound = none)
    ∧ airIsBest t ∧ repliedWith s t .pagingSet m .ok [] ∧ t.tables = s.tables ∧ soundKept s t
    ∧ rezoned s t .pagingSet m (pagingChange on (BitVec.ofNat 8 (u8 m.payload 1))) := by
  intro t
  obtain ⟨htables, hreply, hstores, hrez⟩ :=
    request_recomputes ha (ownPagingSet_taken hflag _) (fun r => (Frame.pagingChange on _ r).ctl.places)
  have hsrcs : t.page.srcs = _ := srcs_of_rezoned hrez
  refine ⟨?_, ?_, fun hon => ?_, fun hoff k hk => ?_, airIsBest_of_rezoned hrez, hreply, htables,
    soundKept_of_rezoned hrez hstores (Frame.pagingChange on _), hrez⟩
  · exact (congrArg (fun r : Run => r.page.enabled) hrez).trans
      ((arbitrate_enabled _ _).trans (pagingChange_enabled on _ _))
  · exact (congrArg (fun r : Run => r.page.mask) hrez).trans ((arbitrate_mask _ _).trans (pagingChange_mask on _ _))
  · rw [hsrcs, pagingChange, if_pos hon]
    rfl
  · have hsrc : t.toRun.src k = { requested := false, bound := none } := by
      rw [Run.src, hsrcs, pagingChange, if_neg (Bool.eq_false_iff.1 hoff)]
      exact withdrawFirst_src 8 _ k hk
    rw [hsrc]
    exact ⟨rfl, rfl⟩

/-- A PAGE that its owner takes with a change of one source (R140, R142). -/
theorem page_taken {m : Msg} {s : State} {change : Run → Run} (ha : accepts s .page m)
    (howner : ownPage m.payload (holdPlace ReqKind.page.code m s.toPart)
      = recomputes s.tables change .ok [] (holdPlace ReqKind.page.code m s.toPart)) (hc : ∀ r, Frame r (change r)) :
    let t := s.request .page ownPage m
    t.page.srcs = (change (holdPlace ReqKind.page.code m s.toPart).toRun).page.srcs
    ∧ airIsBest t ∧ repliedWith s t .page m .ok [] ∧ t.tables = s.tables ∧ soundKept s t ∧ rezoned s t .page m change := by
  intro t
  obtain ⟨htables, hreply, hstores, hrez⟩ := request_recomputes ha howner (fun r => (hc r).ctl.places)
  exact ⟨srcs_of_rezoned hrez, airIsBest_of_rezoned hrez, hreply, htables, soundKept_of_rezoned hrez hstores hc, hrez⟩

theorem page_refused {m : Msg} {s : State} {i : Instr} {st : Status} (hi : i = .pageOn m ∨ i = .pageOff m)
    (ha : accepts s .page m) (howner : ownPage m.payload (holdPlace ReqKind.page.code m s.toPart)
      = refuse st (holdPlace ReqKind.page.code m s.toPart)) : exec i s = .next (s.reply .page m st []) := by
  rcases hi with rfl | rfl <;> exact congrArg Host.Outcome.next (request_refused ha howner)

/-- Settles O49: each request is its owner's refusal, or its one change and a recomputation. -/
theorem pagingAndPageRequests : Obligations.PagingAndPageRequests := by
  unfold Obligations.PagingAndPageRequests
  refine ⟨fun m s on ha hflag => ⟨_, rfl, pagingSet_taken ha hflag⟩,
    fun m s ha h => congrArg Host.Outcome.next (request_refused ha (ownPagingSet_refused h _)),
    fun m s i hi ha h => page_refused hi ha (ownPage_neither h _),
    fun m s ha hone => ?_, fun m s ha hzero => ?_⟩
  · have hflag : flagOf (u8 m.payload 1) = some true := by rw [hone]; rfl
    refine ⟨fun hk => page_refused (.inl rfl) ha (ownPage_unknown hflag hk),
      fun hk hoff => page_refused (.inl rfl) ha ((ownPage_on hflag hk).trans (if_pos hoff)), fun hk hon => ?_⟩
    have howner := (ownPage_on (p := holdPlace ReqKind.page.code m s.toPart) hflag hk).trans
      (if_neg (ne_false_of_eq_true hon))
    exact ⟨fun hidle => page_refused (.inl rfl) ha (howner.trans (if_pos hidle)), fun hbusy => ⟨_, rfl,
      page_taken ha (howner.trans (if_neg (Bool.eq_false_iff.1 hbusy))) (fun r => Frame.onSrc r _ _)⟩⟩
  · have hflag : flagOf (u8 m.payload 1) = some false := by rw [hzero]; rfl
    refine ⟨fun hk => page_refused (.inr rfl) ha (ownPage_unknown hflag hk), fun hk => ⟨_, rfl, ?_⟩⟩
    have htaken := page_taken ha (ownPage_off hflag hk) (Frame.withdraw (u8 m.payload 0))
    rwa [withdraw_srcs] at htaken

end Sys2Proof.Machine

/-! PROOF. HOLD_EXPIRY and the page keys (R141, R150, R169): events that change one zone, give one report, or change one
source and recompute the zones. -/

namespace Sys2Proof.Machine

open Sys2Proof

/-! ### Events -/

/-- An event that leaves every zone's source and every light's state is its change alone (R134, R171). -/
theorem event_quiet {s : State} {f : Tables → Run → Run} {r : Run} (hf : f s.tables s.toRun = r)
    (hz : ∀ z, (r.zone z).onAir = (s.toRun.zone z).onAir) (hl : r.stage.lights = s.stage.lights) :
    s.event f = { s with toPart := { s.toPart with toRun := r } } := by
  subst hf
  have hquiet := onArrival_quiet (f s.tables) s.toRun hz (fun l => by simp only [Run.light, hl])
  simp only [State.event, State.onRun, State.onPart, Part.onRun, hquiet]

/-- An event that takes the stage signal unit to `x`, makes one change of the page engine and recomputes the zones. -/
theorem event_recomputes {s : State} {x : StageRt} {f : Tables → Run → Run} {change : Run → Run}
    (hf : f s.tables s.toRun = arbitrate s.tables (change { s.toRun with stage := x })) (hc : ∀ r, Frame r (change r)) :
    let t := s.event f
    t.page.srcs = (change { s.toRun with stage := x }).page.srcs ∧ airIsBest t ∧ t.ctl.places = s.ctl.places
    ∧ t.tables = s.tables ∧ soundKept { s with stage := x } t := by
  intro t
  let r1 := change { s.toRun with stage := x }
  have hframe : Frame { s.toRun with stage := x } (arbitrate s.tables r1) := (hc _).trans (Frame.arbitrate s.tables r1)
  have hctl : t.ctl = (arbitrate s.tables r1).ctl := by rw [event_ctl, hf]
  have hpage : t.page = { (arbitrate s.tables r1).page with air := t.page.air } := by
    change { (f s.tables s.toRun).page with air := t.page.air } = _
    rw [hf]
  refine ⟨?_, fun z hz hlen => ?_, hctl ▸ hframe.ctl.places, rfl, ?_⟩
  · rw [hpage]
    exact arbitrate_srcs s.tables r1
  · rw [hpage] at hlen
    have hbest := arbitrate_best s.tables r1 z hz hlen
    rw [← airFor_congr (r' := t.toRun) (by rw [hpage]) (by rw [hpage]) (by rw [hpage]) z] at hbest
    rwa [Run.zone, hpage]
  · rw [← hf] at hframe
    exact soundKept_event (s := { s with stage := x }) (f := fun _ _ => f s.tables s.toRun) hframe.sound

/-! ### HOLD_EXPIRY (R150) -/

/-- A change of a zone the engine holds replaces its record. -/
theorem Run.onZone_eq_set {r : Run} {z : Nat} (h : z < r.page.zones.length) (f : ZoneRt → ZoneRt) :
    r.onZone z f = { r with page := { r.page with zones := r.page.zones.set z (f (r.zone z)) } } := by
  rw [Run.onZone, List.modify_eq_set_getElem?, Run.getElem?_zone h]
  rfl

theorem Run.zone_setZone {r : Run} {z : Nat} (h : z < r.page.zones.length) (x : ZoneRt) :
    Run.zone { r with page := { r.page with zones := r.page.zones.set z x } } z = x :=
  Run.zone_of_getElem? (List.getElem?_set_self h)

/-- A completion notice to a zone in RELEASE makes it PROGRAMME (R150). -/
theorem duckNotice_release {r : Run} {z : Nat} (hz : z < r.page.zones.length) (h : (r.zone z).state = .release) :
    duckNotice z r = { r with page := { r.page with
      zones := r.page.zones.set z { r.zone z with state := .programme } } } := by
  rw [duckNotice, if_pos h, Run.onZone_eq_set hz]

/-- The end of a hold: RELEASE, or PROGRAMME where the fade of the duck completes at once (R150). -/
theorem endHold_eq (t : Tables) {z : Nat} {r : Run} {l : Level} (hz : z < r.page.zones.length)
    (hl : r.lv.ducks[z]? = some l) :
    let l' := l.write 0 (zoneRec t z).release
    endHold t z r = { r with
      lv := { r.lv with ducks := r.lv.ducks.set z l' }
      page := { r.page with zones := r.page.zones.set z { state := if l'.fade = none then .programme else .release
                                                          holdEnd := none, onAir := (r.zone z).onAir } } } := by
  intro l'
  let released : ZoneRt := { state := .release, holdEnd := none, onAir := (r.zone z).onAir }
  let r1 : Run := { r with
    lv := { r.lv with ducks := r.lv.ducks.set z l' }
    page := { r.page with zones := r.page.zones.set z released } }
  have hwrite : endHold t z r = if l'.fade = none then duckNotice z r1 else r1 := by
    rw [endHold, Run.onZone_eq_set hz]
    exact writeDuck_eq z 0 _ _ l hl
  have hzone : r1.zone z = released := Run.zone_setZone (r := { r with lv := r1.lv }) hz released
  rw [hwrite]
  split
  · rw [duckNotice_release (by rwa [List.length_set]) (by rw [hzone]), hzone, List.set_set]
  · rfl

theorem endHold_onAir (t : Tables) (z u : Nat) (r : Run) : ((endHold t z r).zone u).onAir = (r.zone u).onAir := by
  rw [endHold, writeDuck_onAir, Run.zone, Run.onZone_page, List.getD_eq_getElem?_getD, List.getElem?_modify, Run.zone,
    List.getD_eq_getElem?_getD]
  cases r.page.zones[u]? with
  | none => rfl
  | some x => by_cases h : z = u <;> simp [h]

theorem expireHold_due {t : Tables} {z f : Nat} {r : Run} (h : (r.zone z).holdEnd = some f) (hf : f ≤ r.port.now) :
    expireHold t z r = endHold t z r := by
  simp only [expireHold, h, Run.dueAt, hf, decide_true, if_true]

theorem expireHold_not_due {t : Tables} {z f : Nat} {r : Run} (h : (r.zone z).holdEnd = some f) (hf : r.port.now < f) :
    expireHold t z r = r := by
  simp only [expireHold, h, Run.dueAt, Nat.not_le.2 hf, decide_false, Bool.false_eq_true, if_false]

theorem expireHold_none {t : Tables} {z : Nat} {r : Run} (h : (r.zone z).holdEnd = none) : expireHold t z r = r := by
  simp only [expireHold, h]

/-! ### Page keys (R141, R169) -/

/-- The stage signal unit after a page key's mark is taken and its pressed source set (R169; log entry 2). -/
def pressedStage (g : StageRt) (e : KeyEvent) (key : Nat) (src : Option Nat) : StageRt :=
  { g with due := g.due.erase e, pressedSrc := g.pressedSrc.set key src }

theorem clearMark_pressedSrc (e : KeyEvent) (r : Run) : (clearMark e r).stage.pressedSrc = r.stage.pressedSrc := rfl

theorem setPressed_clearMark (e : KeyEvent) (key : Nat) (src : Option Nat) (r : Run) :
    setPressed key src (clearMark e r) = { r with stage := pressedStage r.stage e key src } := rfl

section

variable {t : Tables} {key k : Nat} {r : Run}

theorem pressPageKey_unbound (h : t.settings.bindings.getD key none = none) (e : KeyEvent) :
    pressPageKey t key (clearMark e r) = { r with stage := pressedStage r.stage e key none } := by
  simp only [pressPageKey, h, setPressed_clearMark]

theorem pressPageKey_bound (h : t.settings.bindings.getD key none = some k) (e : KeyEvent) :
    pressPageKey t key (clearMark e r)
      = raiseSource t .key k { r with stage := pressedStage r.stage e key (some k) } := by
  simp only [pressPageKey, h, setPressed_clearMark]

theorem releasePageKey_none (h : r.stage.pressedSrc.getD key none = none) (e : KeyEvent) :
    releasePageKey t key (clearMark e r) = clearMark e r := by
  simp only [releasePageKey, clearMark_pressedSrc, h]

theorem releasePageKey_some (h : r.stage.pressedSrc.getD key none = some k) (e : KeyEvent) :
    releasePageKey t key (clearMark e r)
      = arbitrate t (withdraw k { r with stage := pressedStage r.stage e key none }) := by
  simp only [releasePageKey, clearMark_pressedSrc, h, dropSource, setPressed_clearMark]

end

section

variable {t : Tables} {o : RaiseFrom} {k : Nat} {r : Run}

theorem raiseSource_disabled (h : r.page.enabled = false) :
    raiseSource t o k r = r.report t (.pageIgnored k o .disabled) := if_pos h

theorem raiseSource_idle (h : r.page.enabled = true) (hi : originIdle t r k = true) :
    raiseSource t o k r = r.report t (.pageIgnored k o .voiceIdle) :=
  (if_neg (ne_false_of_eq_true h)).trans (if_pos hi)

theorem raiseSource_raised (h : r.page.enabled = true) (hi : originIdle t r k = false) :
    raiseSource t o k r = arbitrate t (setRequested k r) :=
  (if_neg (ne_false_of_eq_true h)).trans (if_neg (Bool.eq_false_iff.1 hi))

end

/-! ### The statement -/

/-- HOLD_EXPIRY on or after the frame of its expiry (R150). -/
theorem holdExpiry_due {s : State} {z f : Nat} {l : Level} (hend : (s.toRun.zone z).holdEnd = some f)
    (hz : z < s.page.zones.length) (hl : s.lv.ducks[z]? = some l) (hf : f ≤ s.port.now) :
    let l' := l.write 0 (zoneRec s.tables z).release
    exec (.holdExpiry z) s = .next { s with
      lv := { s.lv with ducks := s.lv.ducks.set z l' }
      page := { s.page with
        zones := s.page.zones.set z { state := if l'.fade = none then .programme else .release, holdEnd := none
                                      onAir := (s.toRun.zone z).onAir } } } := by
  intro l'
  have hquiet : s.event (fun t r => expireHold t z r)
      = { s with toPart := { s.toPart with toRun := endHold s.tables z s.toRun } } :=
    event_quiet (expireHold_due hend hf) (fun u => endHold_onAir s.tables z u s.toRun)
      (congrArg StageRt.lights (Frame.endHold s.tables z s.toRun).stage)
  rw [endHold_eq s.tables hz hl] at hquiet
  exact congrArg Host.Outcome.next hquiet

/-- A press whose raise is ignored gives its report alone (R141). -/
theorem pageKeyPress_ignored {s : State} {key k : Nat} {why : IgnoreWhy}
    (hbound : s.tables.settings.bindings.getD key none = some k)
    (hraise : raiseSource s.tables .key k { s.toRun with stage := pressedStage s.stage (.pagePress key) key (some k) }
      = Run.report s.tables (.pageIgnored k .key why)
        { s.toRun with stage := pressedStage s.stage (.pagePress key) key (some k) }) :
    exec (.pageKeyPress key) s = .next (State.give
      { s with stage := pressedStage s.stage (.pagePress key) key (some k) } (.pageIgnored k .key why)) := by
  refine congrArg Host.Outcome.next (event_quiet ((pressPageKey_bound hbound _).trans hraise) (fun z => ?_) ?_)
  · rw [Run.zone, report_page]
    rfl
  · rw [(Frame.report _ _ _).stage]
    rfl

/-- Settles O51: the end of a hold, and each key's change of its source or its report. -/
theorem holdExpiryAndPageKeys : Obligations.HoldExpiryAndPageKeys := by
  unfold Obligations.HoldExpiryAndPageKeys
  refine ⟨fun s z f l hend hz hl => ⟨holdExpiry_due hend hz hl, fun hf => ?_⟩, fun s z hend => ?_,
    fun s key => ⟨fun hunbound => ?_, fun k hbound => ?_⟩, fun s key => ⟨fun hnone => ?_, fun k hsome => ?_⟩⟩
  · exact congrArg Host.Outcome.next (event_id (expireHold_not_due hend hf))
  · exact congrArg Host.Outcome.next (event_id (expireHold_none hend))
  · exact congrArg Host.Outcome.next (event_quiet (pressPageKey_unbound hunbound _) (fun _ => rfl) rfl)
  · refine ⟨fun hoff => pageKeyPress_ignored hbound (raiseSource_disabled hoff), fun hon =>
      ⟨fun hidle => pageKeyPress_ignored hbound (raiseSource_idle hon hidle), fun hbusy => ?_⟩⟩
    have hevent := event_recomputes (s := s) (x := pressedStage s.stage (.pagePress key) key (some k))
      (f := fun t r => pressPageKey t key (clearMark (.pagePress key) r)) (change := setRequested k)
      ((pressPageKey_bound hbound _).trans (raiseSource_raised hon hbusy)) (fun r => Frame.onSrc r k _)
    exact ⟨_, rfl, hevent⟩
  · exact congrArg Host.Outcome.next (event_quiet (releasePageKey_none hnone _) (fun _ => rfl) rfl)
  · have hevent := event_recomputes (s := s) (x := pressedStage s.stage (.pageRelease key) key none)
      (f := fun t r => releasePageKey t key (clearMark (.pageRelease key) r)) (releasePageKey_some hsome _)
      (Frame.withdraw k)
    rw [withdraw_srcs] at hevent
    exact ⟨_, rfl, hevent⟩

end Sys2Proof.Machine

/-! PROOF. The checks of R190 before a request reaches its owner: a request that is not taken changes nothing, and one
that a check refuses changes nothing but its reply. -/

namespace Sys2Proof.Machine

open Sys2Proof

/-! ### The checks (R190, checks 2 to 6) -/

/-- Checks 2 and 3 fail exactly where no request is taken or all 8 places are held. -/
theorem canTake_eq_false_iff (p : Part) : canTake p = false ↔ p.ctl.taking = false ∨ 8 ≤ p.ctl.places.length := by
  rw [canTake, Bool.and_eq_false_iff, decide_eq_false_iff_not, Nat.not_lt]

theorem canTake_of_room {p : Part} (htaking : p.ctl.taking = true) (hroom : p.ctl.places.length < 8) :
    canTake p = true := by
  simp only [canTake, htaking, hroom, Bool.true_and, decide_true]

section
variable {k : ReqKind} {own : Owner} {payload : List Byte} {p : Part}

theorem judge_badLength (h : k.lengthOk payload.length = false) : judge k own payload p = refuse .badLength p :=
  if_pos h

theorem judge_inShow (hlen : k.lengthOk payload.length = true) (h : (isContent k && p.shw.inShow) = true) :
    judge k own payload p = refuse .inShow p :=
  (if_neg (by simp [hlen])).trans (if_pos h)

theorem judge_locked (hlen : k.lengthOk payload.length = true) (hcontent : (isContent k && p.shw.inShow) = false)
    (h : isLocked p.tables p.shw.inShow k payload = true) : judge k own payload p = refuse .locked p :=
  (if_neg (by simp [hlen])).trans ((if_neg (Bool.eq_false_iff.1 hcontent)).trans (if_pos h))

end

/-! ### A request that does not reach its owner -/

theorem request_not_taken {s : State} (h : canTake s.toPart = false) (k : ReqKind) (own : Owner) (m : Msg) :
    s.request k own m = s := by
  simp [State.request, State.onPart, takeRequest, h]

/-- A request that a check refuses changes nothing but its reply (R192). -/
theorem request_judged {s : State} {k : ReqKind} {own : Owner} {m : Msg} {st : Status} (h : canTake s.toPart = true)
    (hjudge : judge k own m.payload (holdPlace k.code m s.toPart) = refuse st (holdPlace k.code m s.toPart)) :
    s.request k own m = s.reply k m st [] := by
  simp only [State.request, State.onPart, takeRequest, if_pos h, hjudge, answerPlace_refuse]
  rfl

/-- The row of a request does what a message of its kind does, by whatever way that comes (R184, R190). -/
theorem exec_eq_takeMessage {i : Instr} {k : ReqKind} {m : Msg} (h : requestOf i = some (k, m)) (s : State) :
    exec i s = .next { s with toPart := takeMessage k.code m s.toPart } := by
  rw [exec_request h, takeMessage_of_code]
  rfl

/-- The content requests are the five of R157. -/
theorem isContent_iff (k : ReqKind) :
    isContent k = true ↔ k ∈ [ReqKind.flashErase, .flashWrite, .flashRead, .flashReset, .saveShow] := by
  cases k <;> decide

/-- Settles O12: the row is its message, each check that fails is the request's whole answer, and Table 9-1. -/
theorem requestChecksInOrder : Obligations.RequestChecksInOrder := by
  unfold Obligations.RequestChecksInOrder
  refine ⟨fun i k m s hreq => ⟨exec_eq_takeMessage hreq s, ?_⟩, isContent_iff, isLocked_iff⟩
  rw [exec_request hreq]
  refine ⟨fun hnot => ?_, fun htaking hroom => ?_⟩
  · exact congrArg Host.Outcome.next (request_not_taken ((canTake_eq_false_iff _).2 hnot) ..)
  · have htake := canTake_of_room htaking hroom
    refine ⟨fun hlen => ?_, fun hlen => ⟨fun hcontent => ?_, fun hcontent hlocked => ?_⟩⟩
    · exact congrArg Host.Outcome.next (request_judged htake (judge_badLength hlen))
    · exact congrArg Host.Outcome.next (request_judged htake (judge_inShow hlen hcontent))
    · exact congrArg Host.Outcome.next (request_judged htake (judge_locked hlen hcontent hlocked))

end Sys2Proof.Machine

/-! PROOF. SET_SHOW_STATE and SET_LOCKS (R156, R161, R165): what each owner makes of its payload, and a request whose
owner makes one change and gives one report. -/

namespace Sys2Proof.Machine

open Sys2Proof

/-! ### A request that gives a report -/

/-- Giving a report neither reads nor changes the reply queue (R191, R193). -/
theorem report_withPlaces (t : Tables) (b : ReportBody) (r : Run) (l : List Place) :
    Run.report t b { r with ctl := { r.ctl with places := l } }
      = { r.report t b with ctl := { (r.report t b).ctl with places := l } } := by
  unfold Run.report Run.reportAt
  split_ifs <;> rfl

/-- A request whose owner takes the part to `p` and then gives a report. -/
theorem request_gives {s : State} {p : Part} {k : ReqKind} {m : Msg} {own : Owner} {b : ReportBody} {data : List Byte}
    (ha : accepts s k m) (hown : own m.payload (holdPlace k.code m s.toPart)
      = okWith data ((holdPlace k.code m p).onRun (fun t r => r.report t b))) (hp : p.ctl.places = s.ctl.places) :
    s.request k own m = State.give (State.reply { s with toPart := p } k m .ok data) b := by
  have hplaces : ((holdPlace k.code m p).onRun (fun t r => r.report t b)).ctl.places
      = (holdPlace k.code m s.toPart).ctl.places := by
    rw [Part.onRun_toRun, (Frame.report _ _ _).ctl.places]
    simp only [holdPlace, Part.withCtl_ctl, hp]
  rw [request_now ha hown hplaces, ← hp]
  simp only [State.give, State.reply, holdPlace, Part.withCtl, Part.onRun, report_withPlaces]

/-! ### SET_SHOW_STATE (R156) -/

theorem changeShow_same {on : Bool} {r : Run} (t : Tables) (h : r.shw.inShow = on) : changeShow t on r = r := if_pos h

theorem changeShow_changed {on : Bool} {r : Run} (t : Tables) (h : r.shw.inShow ≠ on) :
    changeShow t on r = Run.report t (.showChange on r.shw.stopped t.locks .state)
      { r with shw := { r.shw with inShow := on } } := if_neg h

theorem ownSetShowState_unread {b : List Byte} (h : 2 ≤ u8 b 0) (p : Part) :
    ownSetShowState b p = refuse .badField p := by
  simp only [ownSetShowState, (flagOf_none_iff _).2 h]

theorem ownSetShowState_busy {b : List Byte} {p : Part} (hflag : flagOf (u8 b 0) = some true)
    (h : p.flash.op ≠ none) : ownSetShowState b p = refuse .flashBusy p := by
  simp only [ownSetShowState, hflag, Bool.true_and, if_pos (Option.isSome_iff_ne_none.2 h)]

theorem ownSetShowState_taken {b : List Byte} {p : Part} {on : Bool} (hflag : flagOf (u8 b 0) = some on)
    (h : on = false ∨ p.flash.op = none) :
    ownSetShowState b p = okWith [flagByte on] (p.onRun (fun t r => changeShow t on r)) := by
  have hfree : (on && p.flash.op.isSome) ≠ true := by
    rcases h with h | h <;> simp [h]
  simp only [ownSetShowState, hflag, if_neg hfree]

theorem ownSetShowState_same {b : List Byte} {p : Part} {on : Bool} (hflag : flagOf (u8 b 0) = some on)
    (h : on = false ∨ p.flash.op = none) (hsame : p.shw.inShow = on) :
    ownSetShowState b p = okWith [flagByte on] p := by
  rw [ownSetShowState_taken hflag h, Part.onRun, changeShow_same _ hsame]

theorem ownSetShowState_changed {b : List Byte} {p : Part} {on : Bool} (hflag : flagOf (u8 b 0) = some on)
    (h : on = false ∨ p.flash.op = none) (hne : p.shw.inShow ≠ on) :
    ownSetShowState b p = okWith [flagByte on] (Part.onRun
      (fun t r => r.report t (.showChange on p.shw.stopped p.tables.locks .state))
      { p with shw := { p.shw with inShow := on } }) := by
  rw [ownSetShowState_taken hflag h, Part.onRun, changeShow_changed _ hne]
  rfl

/-! ### SET_LOCKS (R161) -/

theorem lockField_lt {n : Nat} (h : n < 3) (flag : Bool) :
    lockField n flag = some (if n = 0 then flag else decide (n = 1)) := by
  rcases (by omega : n = 0 ∨ n = 1 ∨ n = 2) with rfl | rfl | rfl <;> rfl

theorem lockField_ge {n : Nat} (h : 3 ≤ n) (flag : Bool) : lockField n flag = none := by
  unfold lockField
  rw [if_neg (by omega), if_neg (by omega), if_neg (by omega)]

/-- The flags after a payload whose fields are all in range: 0 keeps a flag, 1 sets it and 2 clears it. -/
def fieldLocks (b : List Byte) (l : Locks) : Locks :=
  let new := fun i (old : Bool) => if u8 b i = 0 then old else decide (u8 b i = 1)
  { cues := new 0 l.cues, foldback := new 1 l.foldback, relay := new 2 l.relay, routing := new 3 l.routing }

theorem locksAfter_of_fields {b : List Byte} (h : ∀ i, i < 4 → u8 b i < 3) (l : Locks) :
    locksAfter b l = some (fieldLocks b l) := by
  simp only [locksAfter, lockField_lt (h 0 (by decide)), lockField_lt (h 1 (by decide)),
    lockField_lt (h 2 (by decide)), lockField_lt (h 3 (by decide)), fieldLocks]

theorem locksAfter_eq_none {b : List Byte} {i : Nat} (hi : i < 4) (h : 3 ≤ u8 b i) (l : Locks) :
    locksAfter b l = none := by
  unfold locksAfter
  split
  · rename_i hcues hfoldback hrelay hrouting
    rcases (by omega : i = 0 ∨ i = 1 ∨ i = 2 ∨ i = 3) with rfl | rfl | rfl | rfl
    · rw [lockField_ge h] at hcues; cases hcues
    · rw [lockField_ge h] at hfoldback; cases hfoldback
    · rw [lockField_ge h] at hrelay; cases hrelay
    · rw [lockField_ge h] at hrouting; cases hrouting
  · rfl

theorem ownSetLocks_unread {b : List Byte} {p : Part} (h : locksAfter b p.tables.locks = none) :
    ownSetLocks b p = refuse .badField p := by
  simp only [ownSetLocks, h]

theorem ownSetLocks_same {b : List Byte} {p : Part} (h : locksAfter b p.tables.locks = some p.tables.locks) :
    ownSetLocks b p = okWith [lockByte p.tables.locks] p := by
  simp [ownSetLocks, h, Part.onRun, Part.withTables]

theorem ownSetLocks_changed {b : List Byte} {p : Part} {l : Locks} (h : locksAfter b p.tables.locks = some l)
    (hne : l ≠ p.tables.locks) :
    ownSetLocks b p = okWith [lockByte l] ((p.withTables { p.tables with locks := l }).onRun
      (fun t r => r.report t (.showChange p.shw.inShow p.shw.stopped l .locks))) := by
  simp [ownSetLocks, h, hne, Part.onRun, Part.withTables, reportShow]

/-! ### The statement -/

/-- SET_SHOW_STATE with a field that names a state (R156, R165). -/
theorem setShowState_taken {m : Msg} {s : State} {on : Bool} (ha : accepts s .setShowState m)
    (hflag : flagOf (u8 m.payload 0) = some on) (hfree : on = false ∨ s.flash.op = none) :
    (s.shw.inShow = on → exec (.setShowState m) s = .next (s.reply .setShowState m .ok [flagByte on]))
    ∧ (s.shw.inShow ≠ on → exec (.setShowState m) s
      = .next (State.give { s.reply .setShowState m .ok [flagByte on] with shw := { s.shw with inShow := on } }
          (.showChange on s.shw.stopped s.tables.locks .state))) := by
  refine ⟨fun hsame => ?_, fun hne => ?_⟩
  · exact congrArg Host.Outcome.next (request_now (q := holdPlace ReqKind.setShowState.code m s.toPart) ha
      (ownSetShowState_same hflag hfree hsame) rfl)
  · exact congrArg Host.Outcome.next (request_gives (p := { s.toPart with shw := { s.shw with inShow := on } }) ha
      (ownSetShowState_changed hflag hfree hne) rfl)

/-- SET_LOCKS with every field in range (R161, R165). -/
theorem setLocks_taken {m : Msg} {s : State} (ha : accepts s .setLocks m) (h : ∀ i, i < 4 → u8 m.payload i < 3) :
    let l := fieldLocks m.payload s.tables.locks
    (l = s.tables.locks → exec (.setLocks m) s = .next (s.reply .setLocks m .ok [lockByte l]))
    ∧ (l ≠ s.tables.locks → exec (.setLocks m) s
      = .next (State.give { s.reply .setLocks m .ok [lockByte l] with tables := { s.tables with locks := l } }
          (.showChange s.shw.inShow s.shw.stopped l .locks))) := by
  intro l
  have hlocks : locksAfter m.payload s.tables.locks = some l := locksAfter_of_fields h _
  refine ⟨fun hsame => ?_, fun hne => ?_⟩
  · rw [hsame] at hlocks ⊢
    exact congrArg Host.Outcome.next (request_now (q := holdPlace ReqKind.setLocks.code m s.toPart) ha
      (ownSetLocks_same hlocks) rfl)
  · exact congrArg Host.Outcome.next (request_gives (p := s.toPart.withTables { s.tables with locks := l }) ha
      (ownSetLocks_changed hlocks hne) rfl)

/-- Settles O52: each owner refuses, or sets its state or flags with a SHOW report only where they changed. -/
theorem showStateAndLocksAreSet : Obligations.ShowStateAndLocksAreSet := by
  unfold Obligations.ShowStateAndLocksAreSet
  refine ⟨fun m s on ha hflag => ⟨fun hon hop => ?_, setShowState_taken ha hflag⟩, fun m s ha h => ?_,
    fun m s ha => ⟨fun ⟨i, hi, h⟩ => ?_, setLocks_taken ha⟩⟩
  · subst hon
    exact congrArg Host.Outcome.next (request_refused ha (ownSetShowState_busy hflag hop))
  · exact congrArg Host.Outcome.next (request_refused ha (ownSetShowState_unread h _))
  · exact congrArg Host.Outcome.next (request_refused ha (ownSetLocks_unread (locksAfter_eq_none hi h _)))

end Sys2Proof.Machine

/-! PROOF. Every step answers a next state (00_scope.md section 3, R190): a command is a request, taken or not, or an
event of the part, and each of them has a next state; with no command waiting the part idles. -/

namespace Sys2Proof.Machine

open Sys2Proof

/-! ### A step and its command -/

theorem step_of_idle {s : State} (h : s.pending = []) : step s = .next s := by
  simp only [step, h]

theorem step_of_waiting {s : State} {c : Instr} {rest : List Instr} (h : s.pending = c :: rest) :
    step s = exec c { s with pending := rest } := by
  simp only [step, h]

/-- No command is a fault or a refusal. -/
theorem exec_answers_next (i : Instr) (s : State) : ∃ t, exec i s = .next t := by
  cases hreq : requestOf i with
  | some e => exact ⟨_, exec_request hreq s⟩
  | none =>
    cases i with
    | powerOn _ | imageLoadEnd _ | frameArrival _ | messageNotRequest _ _ | unknownKind _ _ | pollComplete _
    | voiceStarved _ | reassemblyTimeout _ | ringLoss | fadeComplete _ | guardWindowClose | prewaitExpiry | followExpiry
    | timerExpiry | holdExpiry _ | goHoldEnd _ | goKeyPress | talkKeyChange _ | showStopKeyPress | pageKeyPress _
    | pageKeyRelease _ | acknowledge _ | fetchComplete | flashCommandComplete | pollDue | saveStepDue
    | contentReadComplete | resetCommandComplete | restartCarriedOut | writeEnableComplete => exact ⟨_, rfl⟩
    | _ => cases hreq

/-- Settles O2: an idle step keeps the state, and every other one is a command, which answers a next state. -/
theorem everyStepGoesOn : Obligations.EveryStepGoesOn := by
  unfold Obligations.EveryStepGoesOn stepSafe
  intro s
  cases hqueue : s.pending with
  | nil => exact ⟨s, step_of_idle hqueue⟩
  | cons c rest =>
    rw [step_of_waiting hqueue]
    exact exec_answers_next c _

end Sys2Proof.Machine

/-! PROOF. Messages that are no request of the part (R190, checks 1 and 4): a kind of 128 or above is discarded, and an
unknown kind below it is refused in the place it takes. -/

namespace Sys2Proof.Machine

open Sys2Proof

/-! ### A message by its kind -/

/-- Check 1 of R190: a kind of 128 or above is no request. -/
theorem takeMessage_of_not_request {kind : Nat} (h : 128 ≤ kind) (m : Msg) (p : Part) : takeMessage kind m p = p :=
  if_pos h

/-- Check 4 of R190: a kind below 128 that names no request is taken as an unknown one. -/
theorem takeMessage_of_unknown {kind : Nat} (hlt : kind < 128) (hcode : ReqKind.ofCode kind = none) (m : Msg)
    (p : Part) : takeMessage kind m p = takeUnknown kind m p := by
  simp only [takeMessage, if_neg (Nat.not_le.2 hlt), hcode]

/-- A refusal is formed in the place just taken, whatever kind took it (R191, R192). -/
theorem answerPlace_refuse_holdPlace (st : Status) (kind : Nat) (m : Msg) (p : Part) :
    answerPlace (refuse st (holdPlace kind m p)) = p.withCtl { p.ctl with places := p.ctl.places ++
      [{ dst := m.src.toNat, kind := kind, tag := m.tag, answer := some (st, []) }] } := by
  simp only [answerPlace, refuse, holdPlace, Part.withCtl, modify_last]

/-- An unknown kind that is taken is refused in a place of its own (R190). -/
theorem takeUnknown_of_canTake {p : Part} (h : canTake p = true) (kind : Nat) (m : Msg) :
    takeUnknown kind m p = p.withCtl { p.ctl with places := p.ctl.places ++
      [{ dst := m.src.toNat, kind := kind, tag := m.tag, answer := some (.unknownKind, []) }] } :=
  (if_pos h).trans (answerPlace_refuse_holdPlace .unknownKind kind m p)

/-! ### The rows that carry a message of any kind (log entry 30) -/

theorem exec_messageNotRequest (kind : Byte) (m : Msg) (s : State) :
    exec (.messageNotRequest kind m) s = .next { s with toPart := takeMessage kind.toNat m s.toPart } := rfl

theorem exec_unknownKind (kind : Byte) (m : Msg) (s : State) :
    exec (.unknownKind kind m) s = .next { s with toPart := takeMessage kind.toNat m s.toPart } := rfl

/-- Settles O13: both rows take their message as the lane's, and checks 1 and 4 say what becomes of it. -/
theorem messagesThatAreNoRequest : Obligations.MessagesThatAreNoRequest := by
  unfold Obligations.MessagesThatAreNoRequest
  refine ⟨fun kind m s hkind => ?_, fun kind m s => ⟨exec_messageNotRequest kind m s, exec_unknownKind kind m s⟩,
    fun kind m s hlt hcode htaking hroom => ?_⟩
  · rw [exec_messageNotRequest, takeMessage_of_not_request hkind]
  · rw [exec_unknownKind, takeMessage_of_unknown hlt hcode, takeUnknown_of_canTake (canTake_of_room htaking hroom)]
    rfl

end Sys2Proof.Machine

/-! PROOF. A step of the part (00_scope.md section 3): the command at the front of the queue, or none. -/

namespace Sys2Proof.Machine

open Sys2Proof

/-- Settles O1: a waiting command is carried out with the queue's rest, and with none waiting the step idles. -/
theorem stepTakesTheFrontCommand : Obligations.StepTakesTheFrontCommand := by
  unfold Obligations.StepTakesTheFrontCommand
  exact ⟨fun _ _ _ hqueue => step_of_waiting hqueue, fun _ hqueue => step_of_idle hqueue⟩

end Sys2Proof.Machine

/-! PROOF. Records in their bytes (R203, R206, R207): each field is read back at its place, each enumeration from its
code, each action from its eight bytes, and so every record in range from the bytes it is sent as. -/

namespace Sys2Proof.Machine

open Sys2Proof

/-! ### A field at its place (00 section 5.5, R203) -/

@[simp] theorem u8_cons_zero (x : Byte) (l : List Byte) : u8 (x :: l) 0 = x.toNat := rfl

@[simp] theorem u8_cons_succ (x : Byte) (l : List Byte) (i : Nat) : u8 (x :: l) (i + 1) = u8 l i := rfl

@[simp] theorem u16_cons_succ (x : Byte) (l : List Byte) (i : Nat) : u16 (x :: l) (i + 1) = u16 l i := rfl

@[simp] theorem u24_cons_succ (x : Byte) (l : List Byte) (i : Nat) : u24 (x :: l) (i + 1) = u24 l i := rfl

@[simp] theorem u32_cons_succ (x : Byte) (l : List Byte) (i : Nat) : u32 (x :: l) (i + 1) = u32 l i := rfl

@[simp] theorem zerosFrom_cons_succ (x : Byte) (l : List Byte) (i : Nat) :
    zerosFrom (x :: l) (i + 1) = zerosFrom l i := rfl

@[simp] theorem zerosFrom_zero_cons (l : List Byte) : zerosFrom (0#8 :: l) 0 = zerosFrom l 0 := rfl

@[simp] theorem zerosFrom_nil : zerosFrom [] 0 = true := rfl

/-- A number below 256 is its byte's value. -/
theorem toNat_byte {n : Nat} (h : n < 256) : (byte n).toNat = n := by
  rw [byte_toNat, Nat.mod_eq_of_lt h]

theorem u16_cons_zero {n : Nat} (h : n < 65536) (l : List Byte) : u16 (byte n :: byte (n / 256) :: l) 0 = n :=
  u16_le16 (l := []) h rfl rfl

theorem u24_cons_zero {n : Nat} (h : n < 16777216) (l : List Byte) :
    u24 (byte n :: byte (n / 256) :: byte (n / 65536) :: l) 0 = n :=
  u24_le24 (l := []) h rfl rfl

theorem u32_cons_zero {n : Nat} (h : n < 4294967296) (l : List Byte) :
    u32 (byte n :: byte (n / 256) :: byte (n / 65536) :: byte (n / 16777216) :: l) 0 = n :=
  le32_u32 n h [] l

/-! ### Flags, indices and enumerations (R203, R209, Table 13-10) -/

@[simp] theorem flagOf_flagByte (b : Bool) : flagOf (flagByte b).toNat = some b := by
  cases b <;> rfl

@[simp] theorem roleOf_roleCode (r : Role) : roleOf (byte (roleCode r)).toNat = some r := by
  cases r <;> rfl

@[simp] theorem recallModeOf_recallModeCode (m : RecallMode) :
    recallModeOf (byte (recallModeCode m)).toNat = some m := by
  cases m <;> rfl

@[simp] theorem timerModeOf_timerModeCode (m : TimerMode) : timerModeOf (byte (timerModeCode m)).toNat = some m := by
  cases m <;> rfl

@[simp] theorem lightCmdOf_lightCmdCode (c : LightCmd) : lightCmdOf (byte (lightCmdCode c)).toNat = some c := by
  cases c <;> rfl

/-- An index in range, or none, is read back from its byte: FFh is no index. -/
theorem indexOrNone_optByte {bound : Nat} {o : Option Nat} (hbound : bound ≤ 255) (h : optBelow bound o = true) :
    indexOrNone bound (optByte o).toNat = some o := by
  rw [indexOrNone_eq hbound]
  cases o with
  | none =>
    have hread : (optByte none).toNat = 255 := rfl
    rw [hread, if_pos (.inr rfl), if_pos rfl]
  | some x =>
    have hx : x < bound := of_decide_eq_true h
    have hread : (optByte (some x)).toNat = x := toNat_byte (show x < 256 by omega)
    rw [hread, if_pos (.inl hx), if_neg (by omega)]

theorem allSome_map_some {α : Type} (l : List α) : allSome (l.map some) = some l := by
  induction l with
  | nil => rfl
  | cons x l ih => simp only [List.map_cons, allSome, ih]

/-! ### Mix records, zones, settings and profiles (Table 13-7) -/

theorem mixOk_iff (r : MixRec) : mixOk r = true ↔ optBelow 64 r.slot = true ∧ 1 ≤ r.ceiling ∧ r.ceiling ≤ 8388607 := by
  simp [mixOk, and_assoc]

/-- A mix record is read back from its bytes, its ceiling unclamped (R33). -/
theorem mixOf_mixBytes {m : Nat} {r : MixRec} (hm : m < 24) (h : mixOk r = true) : mixOf (mixBytes m r) = some r := by
  obtain ⟨hslot, hmin, hmax⟩ := (mixOk_iff r).1 h
  have hnum : (byte m).toNat = m := toNat_byte (by omega)
  have hindex : indexOrNone 64 (optByte r.slot).toNat = some r.slot := indexOrNone_optByte (by decide) hslot
  have hceiling : min 8388607 r.ceiling = r.ceiling := Nat.min_eq_right hmax
  simp only [mixBytes, mixOf, le24, List.cons_append, List.nil_append, u8_cons_zero, u8_cons_succ, u24_cons_succ,
    u24_cons_zero (show r.ceiling < 16777216 by omega), roleOf_roleCode, hindex, flagOf_flagByte, hnum, hceiling,
    if_pos (And.intro hm hmin)]

theorem zoneOk_iff (r : ZoneRec) : zoneOk r = true ↔ optBelow 24 r.prog = true ∧ r.depth ≤ 120 ∧ r.attack < 65536
    ∧ r.hold < 65536 ∧ r.release < 65536 ∧ optBelow 64 r.slot = true := by
  simp [zoneOk, and_assoc]

/-- A zone configuration is read back from its bytes, whatever programme level code they carry (R151). -/
theorem zoneOf_zoneBytes {z : Nat} {r : ZoneRec} (hz : z < 16) (h : zoneOk r = true) (code : Nat) :
    zoneOf (zoneBytes z r code) = some r := by
  obtain ⟨hprog, hdepth, hattack, hhold, hrelease, hslot⟩ := (zoneOk_iff r).1 h
  have hnum : (byte z).toNat = z := toNat_byte (by omega)
  have hdepthByte : (byte r.depth).toNat = r.depth := toNat_byte (by omega)
  have hmix : indexOrNone 24 (optByte r.prog).toNat = some r.prog := indexOrNone_optByte (by decide) hprog
  have hindex : indexOrNone 64 (optByte r.slot).toNat = some r.slot := indexOrNone_optByte (by decide) hslot
  have hclamp : min 120 r.depth = r.depth := Nat.min_eq_right hdepth
  simp only [zoneBytes, zoneOf, le16, List.cons_append, List.nil_append, u8_cons_zero, u8_cons_succ, u16_cons_succ,
    u16_cons_zero hattack, u16_cons_zero hhold, u16_cons_zero hrelease, hmix, hindex, hnum, if_pos hz, byte_toNat_self,
    hdepthByte, hclamp]

theorem settingsOk_iff (x : Settings) : settingsOk x = true ↔ x.dimDepth ≤ 80 ∧ x.guardMs ≤ 5000 ∧ x.stopFadeMs < 65536
    ∧ optBelow 8 x.stopSource = true ∧ x.bindings.length = 4 ∧ (∀ o, o ∈ x.bindings → optBelow 8 o = true)
    ∧ 100 ≤ x.blinkMs ∧ x.blinkMs ≤ 5000 ∧ x.reports.toNat < 8192 ∧ x.node < 256 := by
  simp [settingsOk, and_assoc]

/-- The settings are read back from their bytes, none of them clamped (R195). -/
theorem settingsOf_settingsBytes {x : Settings} (h : settingsOk x = true) : settingsOf (settingsBytes x) = some x := by
  obtain ⟨hdim, hguard, hfade, hstop, hlen, hkeys, hblinkMin, hblinkMax, hreports, hnode⟩ := (settingsOk_iff x).1 h
  obtain ⟨k0, k1, k2, k3, hlist⟩ : ∃ k0 k1 k2 k3, x.bindings = [k0, k1, k2, k3] := by
    match x.bindings, hlen with
    | [k0, k1, k2, k3], _ => exact ⟨k0, k1, k2, k3, rfl⟩
  have hindex : ∀ o, optBelow 8 o = true → indexOrNone 8 (optByte o).toNat = some o :=
    fun o => indexOrNone_optByte (by decide)
  have hbinds : allSome (x.bindings.map (fun o => indexOrNone 8 (optByte o).toNat)) = some x.bindings := by
    rw [List.map_congr_left (fun o ho => hindex o (hkeys o ho)), allSome_map_some]
  simp only [hlist, List.map_cons, List.map_nil] at hbinds
  have hrange : List.range 4 = [0, 1, 2, 3] := rfl
  have hdimByte : (byte x.dimDepth).toNat = x.dimDepth := toNat_byte (by omega)
  have hblink : max 100 (min 5000 x.blinkMs) = x.blinkMs := by omega
  simp only [settingsBytes, settingsOf, le16, hrange, hlist, List.map_cons, List.map_nil, List.cons_append,
    List.nil_append, Nat.reduceAdd, u8_cons_zero, u8_cons_succ, u16_cons_succ,
    u16_cons_zero (show x.guardMs < 65536 by omega), u16_cons_zero hfade,
    u16_cons_zero (show x.blinkMs < 65536 by omega), u16_cons_zero x.reports.isLt, hindex _ hstop, hbinds, if_pos hreports, hdimByte, toNat_byte hnode,
    Nat.min_eq_right hdim, Nat.min_eq_right hguard, hblink, BitVec.ofNat_toNat, BitVec.setWidth_eq]
  rw [← hlist]

theorem profileOk_iff (d : Nat) (x : Profile) : profileOk d x = true ↔ x.size ∈ deviceSizes ∧ (d = 0 → 2097152 ≤ x.size)
    ∧ (x.addrBytes = 4 ∨ (x.addrBytes = 3 ∧ x.size ≤ 16777216)) ∧ x.dummy ≤ 15
    ∧ (x.instrLanes = 1 ∨ x.instrLanes = 2 ∨ x.instrLanes = 4) ∧ (x.addrLanes = 1 ∨ x.addrLanes = 2 ∨ x.addrLanes = 4)
    ∧ (x.dataLanes = 1 ∨ x.dataLanes = 2 ∨ x.dataLanes = 4) ∧ (x.sector = 4096 ∨ x.sector = 65536) ∧ x.busyBit ≤ 7
    ∧ 1 ≤ x.pollMs ∧ x.pollMs ≤ 255 ∧ 1 ≤ x.pollLimit ∧ x.pollLimit < 65536 := by
  simp [profileOk, and_assoc, or_assoc, imp_iff_not_or]

/-- The mode flag and the mode byte, which is 0 without one (R111). -/
theorem modeByte_read (o : Option Byte) :
    (o.isSome = false → (o.getD 0).toNat = 0)
    ∧ (if o.isSome = true then some (o.getD 0) else none) = o := by
  cases o <;> simp

theorem deviceSize_lt {n : Nat} (h : n ∈ deviceSizes) : n < 4294967296 := by
  obtain ⟨k, hk, rfl⟩ := (mem_deviceSizes n).1 h
  exact Nat.pow_lt_pow_right (by decide) (show 16 + k < 32 by omega)

/-- A profile is read back from its bytes, its poll interval unclamped (R111). -/
theorem profileOf_profileBytes {d : Nat} {x : Profile} (hd : d < 2) (h : profileOk d x = true) :
    profileOf (profileBytes d x) = some x := by
  obtain ⟨hsize, hfirst, haddr, hdummy, hinstr, haddrLanes, hdata, hsector, hbusy, hpollMin, hpollMax, hlimit,
    hlimitMax⟩ := (profileOk_iff d x).1 h
  obtain ⟨hnoMode, hmode⟩ := modeByte_read x.modeByte
  have hnum : (byte d).toNat = d := toNat_byte (by omega)
  have haddrByte : (byte x.addrBytes).toNat = x.addrBytes := toNat_byte (by omega)
  have hdummyByte : (byte x.dummy).toNat = x.dummy := toNat_byte (by omega)
  have hinstrByte : (byte x.instrLanes).toNat = x.instrLanes := toNat_byte (by omega)
  have hlanesByte : (byte x.addrLanes).toNat = x.addrLanes := toNat_byte (by omega)
  have hdataByte : (byte x.dataLanes).toNat = x.dataLanes := toNat_byte (by omega)
  have hbusyByte : (byte x.busyBit).toNat = x.busyBit := toNat_byte (by omega)
  have hclamp : max 1 (min 255 x.pollMs) = x.pollMs := by omega
  have hsectorFlag : (if decide (x.sector = 65536) = true then 65536 else 4096) = x.sector := by
    rcases hsector with e | e <;> rw [e] <;> rfl
  simp only [profileBytes, profileOf, le16, le32, List.cons_append, List.nil_append, u8_cons_zero, u8_cons_succ,
    u16_cons_succ, u32_cons_succ, u32_cons_zero (deviceSize_lt hsize), u16_cons_zero (show x.pollMs < 65536 by omega),
    u16_cons_zero hlimitMax, flagOf_flagByte, hnum, haddrByte, hdummyByte, hinstrByte, hlanesByte, hdataByte, hbusyByte,
    byte_toNat_self, hclamp, hsectorFlag, hmode]
  refine if_pos ⟨hd, hsize, hfirst, haddr, hnoMode, hdummy, ?_, ?_, ?_, hbusy, hlimit⟩ <;> simpa [or_assoc]

/-! ### Level references and actions (Tables 13-3, 13-4) -/

/-- A reference in range is three bytes that name it (R1). -/
theorem refOf_refBytes {r : LevelRef} (h : refOk r = true) :
    ∃ a b c, refBytes r = [a, b, c] ∧ refOf a.toNat b.toNat c.toNat = some r := by
  cases r with
  | crosspoint i m =>
    obtain ⟨hi, hm⟩ : i < 40 ∧ m < 24 := by simpa [refOk] using h
    refine ⟨0, byte m, byte i, rfl, ?_⟩
    simp [refOf, toNat_byte (show i < 256 by omega), toNat_byte (show m < 256 by omega), hi, hm]
  | master n | trim n | fader n | zoneProgramme n | duck n =>
    have hn := of_decide_eq_true h
    refine ⟨_, _, _, rfl, ?_⟩
    simp [refOf, toNat_byte (show n < 256 by omega), hn]

theorem refBytes_length (r : LevelRef) : (refBytes r).length = 3 := by
  cases r <;> rfl

/-- Every action fills its eight bytes (R50). -/
theorem actionBytes_length (a : Action) : (actionBytes a).length = 8 := by
  cases a with
  | fade r c ms => simp [actionBytes, pad8, refBytes_length, le16]
  | _ => rfl

theorem isCueNum_iff (n : Nat) : isCueNum n = true ↔ 1 ≤ n ∧ n ≤ 99999 := by
  simp [isCueNum]

/-- A FADE of anything but a duck attenuation is read back from its bytes. -/
theorem actionOf_fade {r : LevelRef} {c ms : Nat} (h : actionOk (.fade r c ms) = true) :
    actionOf (actionBytes (.fade r c ms)) = some (.fade r c ms) := by
  cases r with
  | duck z => cases h
  | _ =>
    obtain ⟨⟨href, hc⟩, hms⟩ := by simpa only [actionOk, Bool.and_eq_true, decide_eq_true_eq] using h
    obtain ⟨x, y, z, hbytes, hread⟩ := refOf_refBytes href
    simp [actionOf, actionBytes, pad8, hbytes, refAt, hread, le16, toNat_byte (show c < 256 by omega),
      u16_cons_zero hms]

/-- An action in range is read back from its eight bytes (R50, Table 4-1). -/
theorem actionOf_actionBytes {a : Action} (h : actionOk a = true) : actionOf (actionBytes a) = some a := by
  match a, h with
  | .start v hd c sync, h =>
    obtain ⟨⟨hv, hhd⟩, hc⟩ : (v < 16 ∧ hd < 1024) ∧ c ≤ 255 := by simpa [actionOk] using h
    simp [actionOf, actionBytes, pad8, le16, toNat_byte (show v < 256 by omega), toNat_byte (show c < 256 by omega),
      u16_cons_zero (show hd < 65536 by omega), hv, hhd]
  | .stop v ms, h =>
    obtain ⟨hv, hms⟩ : v < 16 ∧ ms < 65536 := by simpa [actionOk] using h
    simp [actionOf, actionBytes, pad8, le16, toNat_byte (show v < 256 by omega), u16_cons_zero hms, hv]
  | .fade r c ms, h => exact actionOf_fade h
  | .recall s m mask ms, h =>
    obtain ⟨hs, hms⟩ : s < 32 ∧ ms < 65536 := by simpa [actionOk] using h
    simp [actionOf, actionBytes, pad8, le16, le24, toNat_byte (show s < 256 by omega), u16_cons_zero hms,
      u24_cons_zero mask.isLt, hs]
  | .restore ms, h =>
    have hms : ms < 65536 := of_decide_eq_true h
    simp [actionOf, actionBytes, pad8, le16, u16_cons_zero hms]
  | .pagePlay k v hd, h =>
    obtain ⟨⟨hk, hv⟩, hhd⟩ : (k < 8 ∧ v < 16) ∧ hd < 1024 := by simpa [actionOk] using h
    simp [actionOf, actionBytes, pad8, le16, toNat_byte (show k < 256 by omega), toNat_byte (show v < 256 by omega),
      u16_cons_zero (show hd < 65536 by omega), hk, hv, hhd]
  | .timer id m per target, h =>
    obtain ⟨⟨⟨hid, hmin⟩, hper⟩, htarget⟩ : ((id < 16 ∧ 1 ≤ per) ∧ per < 65536) ∧ 1 ≤ target ∧ target ≤ 99999 := by
      simpa [actionOk, isCueNum_iff] using h
    simp [actionOf, actionBytes, pad8, le16, le24, toNat_byte (show id < 256 by omega), u16_cons_zero hper,
      u24_cons_zero (show target < 16777216 by omega), hid, htarget, Nat.one_le_iff_ne_zero.1 hmin]
  | .release n, h | .page n _, h | .light n _, h | .timerCancel n, h =>
    have hn := of_decide_eq_true h
    simp [actionOf, actionBytes, pad8, toNat_byte (show n < 256 by omega), hn]
  | .stopAll, _ => rfl

/-! ### Cues (R49, R59, Table 13-4) -/

theorem cueOk_iff (c : Cue) : cueOk c = true ↔ isCueNum c.num = true ∧ c.label.length ≤ 24
    ∧ c.label.all (fun b => 0x20 ≤ b.toNat && b.toNat ≤ 0x7E) = true ∧ c.prewait < 65536
    ∧ (∀ ms, c.follow = some ms → 1 ≤ ms ∧ ms < 65536) ∧ c.actions.length ≤ 8
    ∧ ∀ a, a ∈ c.actions → actionOk a = true := by
  unfold cueOk
  cases c.follow <;> simp [and_assoc]

/-- Action `i` of a cue stands after the `i` actions before it. -/
theorem take_drop_actions {l : List Action} {i : Nat} (h : i < l.length) :
    ((l.flatMap actionBytes).drop (8 * i)).take 8 = actionBytes l[i] := by
  induction l generalizing i with
  | nil => cases h
  | cons a l ih =>
    rw [List.flatMap_cons]
    cases i with
    | zero => exact List.take_left' (actionBytes_length a)
    | succ i =>
      have hskip : 8 * (i + 1) = (actionBytes a).length + 8 * i := by
        rw [actionBytes_length]
        omega
      rw [hskip, List.drop_length_add_append, List.getElem_cons_succ]
      exact ih (Nat.lt_of_succ_lt_succ h)

/-- The flags of a cue: bit 0 says that it is enabled and bit 1 that it has a FOLLOW wait. -/
theorem cueFlags_read (enabled follow : Bool) :
    let n := (byte (bitsOf [enabled, follow])).toNat
    n < 4 ∧ decide (n % 2 = 1) = enabled ∧ (n / 2 = 1 ↔ follow = true) := by
  cases enabled <;> cases follow <;> decide

theorem cueBytes_eq (c : Cue) : cueBytes c = le32 c.num ++ (byte (bitsOf [c.enabled, c.follow.isSome])
    :: byte c.label.length :: (le16 c.prewait ++ (le16 (c.follow.getD 0)
    ++ (byte c.actions.length :: (c.label ++ c.actions.flatMap actionBytes))))) := by
  simp [cueBytes]

/-- The label and the actions follow the eleven bytes of the fields. -/
theorem drop_cueBytes (c : Cue) : (cueBytes c).drop 11 = c.label ++ c.actions.flatMap actionBytes := by
  rw [cueBytes_eq]
  rfl

/-- The place of action `i` in a cue's bytes: after the eleven bytes of the fields and the label. -/
theorem action_at (c : Cue) {i : Nat} (h : i < c.actions.length) :
    ((cueBytes c).drop (11 + c.label.length + 8 * i)).take 8 = actionBytes c.actions[i] := by
  rw [Nat.add_assoc, ← List.drop_drop, drop_cueBytes, List.drop_length_add_append, take_drop_actions h]

theorem actions_read {c : Cue} (h : ∀ a, a ∈ c.actions → actionOk a = true) :
    allSome ((List.range c.actions.length).map
      (fun i => actionOf (((cueBytes c).drop (11 + c.label.length + 8 * i)).take 8))) = some c.actions := by
  rw [← allSome_map_some c.actions]
  congr 1
  refine List.ext_getElem (by simp) (fun i _ hi => ?_)
  rw [List.length_map] at hi
  rw [List.getElem_map, List.getElem_range, List.getElem_map, action_at c hi,
    actionOf_actionBytes (h _ (List.getElem_mem hi))]

theorem cueBytes_length (c : Cue) : (cueBytes c).length = 11 + c.label.length + 8 * c.actions.length := by
  simp [cueBytes_eq, le32, le16, actionBytes_length]
  omega

/-- The lengths a cue's bytes give for its label and its actions. -/
theorem cueCounts_read {c : Cue} (hlabel : c.label.length ≤ 24) (hactions : c.actions.length ≤ 8) :
    u8 (cueBytes c) 5 = c.label.length ∧ u8 (cueBytes c) 10 = c.actions.length := by
  simp [cueBytes_eq, le32, le16, toNat_byte (show c.label.length < 256 by omega),
    toNat_byte (show c.actions.length < 256 by omega)]

/-- The other fields of a cue's bytes. -/
theorem cueFields_read {c : Cue} (hnum : c.num ≤ 99999) (hprewait : c.prewait < 65536)
    (hwait : c.follow.getD 0 < 65536) :
    u32 (cueBytes c) 0 = c.num ∧ u8 (cueBytes c) 4 = (byte (bitsOf [c.enabled, c.follow.isSome])).toNat
    ∧ u16 (cueBytes c) 6 = c.prewait ∧ u16 (cueBytes c) 8 = c.follow.getD 0 := by
  simp [cueBytes_eq, le32, le16, u32_cons_zero (show c.num < 4294967296 by omega), u16_cons_zero hprewait,
    u16_cons_zero hwait]

theorem label_read (c : Cue) : ((cueBytes c).drop 11).take c.label.length = c.label := by
  rw [drop_cueBytes, List.take_left]

/-- A FOLLOW wait is 1 ms or more, and the field of a cue without one is 0 (R49). -/
theorem follow_read {o : Option Nat} (h : ∀ ms, o = some ms → 1 ≤ ms ∧ ms < 65536) :
    o.getD 0 < 65536 ∧ (if o.isSome = true then 1 ≤ o.getD 0 else o.getD 0 = 0)
    ∧ (if o.isSome = true then some (o.getD 0) else none) = o := by
  cases o with
  | none => simp
  | some ms => simpa using (h ms rfl).symm

/-- A cue in range is read back from its bytes, which are as long as they say (R51, R59). -/
theorem cueOf_cueBytes {c : Cue} (h : cueOk c = true) :
    cueOf (cueBytes c) = some c ∧ (cueBytes c).length = cueLength (cueBytes c) := by
  obtain ⟨hnum, hlabel, hprint, hprewait, hfollow, hcount, hactions⟩ := (cueOk_iff c).1 h
  have hmax := ((isCueNum_iff c.num).1 hnum).2
  obtain ⟨hwait, hwaitOk, hback⟩ := follow_read hfollow
  obtain ⟨hflags, henabled, hhas⟩ := cueFlags_read c.enabled c.follow.isSome
  obtain ⟨hlab, hacts⟩ := cueCounts_read hlabel hcount
  obtain ⟨hn, hf, hp, hw⟩ := cueFields_read hmax hprewait hwait
  refine ⟨?_, by rw [cueBytes_length, cueLength, hlab, hacts]⟩
  simp only [cueOf, hlab, hacts, actions_read hactions, hn, hf, hp, hw, label_read, hhas, henabled, hback]
  exact if_pos ⟨hnum, hlabel, hprint, hflags, hwaitOk, hcount⟩

/-- Settles O59: each record's own layout lemma. -/
theorem recordsSurviveTheirLayouts : Obligations.RecordsSurviveTheirLayouts := by
  unfold Obligations.RecordsSurviveTheirLayouts
  exact ⟨fun c hc => cueOf_cueBytes hc, fun d pr hd hpr => profileOf_profileBytes hd hpr,
    fun m r hm hr => mixOf_mixBytes hm hr, fun z code r hz hr => zoneOf_zoneBytes hz hr code,
    fun x hx => settingsOf_settingsBytes hx⟩

end Sys2Proof.Machine
